-- ==== Sys2Proof/Word.lean ====
section
/-!
DEFINITION. The plain word types of the model. Everything that computes on them stands in files a repair may mend
(Machine/Bits.lean and the files that import it).
-/

namespace Sys2Proof

/-- A byte of memory, little-endian in every wider value (R3). -/
abbrev Byte := BitVec 8
/-- A 32-bit register element or instruction word. -/
abbrev Word := BitVec 32
/-- A 64-bit register, address or record field. -/
abbrev DWord := BitVec 64
/-- A set of lanes of a wave, bit `L` for lane `L` (R180, R200). -/
abbrev LaneSet := BitVec 32
/-- A lane of a wave (R13). -/
abbrev Lane := Fin 32

end Sys2Proof
end

