-- ==== Sys2Proof/Syntax.lean ====
section
/-!
DEFINITION. The instructions: one constructor per row of the spec's opcode table, the words of classes 0 to 13 first
(R80 to R91), then the steps of the device that no context issues (95_what_each_step_holds). Register and modifier
fields stand as the bits the opcode map gives them; `z` is the switch bit (R48). The operands of a device step are
the choices that the outside world or the control plane makes in it.
-/

namespace Sys2Proof

/-- The memory extension word (R52), without its two reserved bits. -/
structure MemExt where
  limit : BitVec 7
  res : BitVec 6
  must : Bool
  scope : BitVec 4
  order : BitVec 2
  cache : BitVec 2
  off : BitVec 8
  deriving DecidableEq, Repr, Inhabited

/-- The conversion extension word (R214), without its reserved bits. -/
structure CvtExt where
  target : BitVec 5
  source : BitVec 5
  rnd : BitVec 3
  deriving DecidableEq, Repr, Inhabited

/-- A crew of a gang; `gang` is the model's allocation number of the gang (log 5). -/
structure CrewKey where
  gang : Nat
  crew : Nat
  deriving DecidableEq, Repr, Inhabited

/-- A wave: its gang, its crew and its index within the crew (R13). -/
structure WaveKey where
  gang : Nat
  crew : Nat
  wave : Nat
  deriving DecidableEq, Repr, Inhabited

/-- What can issue a word: a lead context, or a live split of a wave (R130, R179). -/
inductive Ctx where
  | none
  | lead (k : CrewKey)
  | split (k : WaveKey) (slot : Fin 2)
  deriving DecidableEq, Repr, Inhabited

/-- A party of a gang for the comparison of pairs (R390). -/
inductive Party where
  | lead (crew : Nat)
  | wave (crew wave : Nat)
  deriving DecidableEq, Repr, Inhabited

/-- Why a wait on an address ends other than by its time limit (R145, R256). -/
inductive WaitCause where
  | changed
  | evicted
  | noRoom
  deriving DecidableEq, Repr, Inhabited

/-- Where a crew is bound: core, lead context position, frames and the fault-record area of each context (R366, R367, log 14). -/
structure CrewPlace where
  core : Nat
  pos : Nat
  lframe : BitVec 64
  wframe : BitVec 64
  leadFrec : BitVec 49
  waveFrecs : List (BitVec 49)
  deriving DecidableEq, Repr, Inhabited

/-- Where a gang is bound (R366, R367). -/
structure GangPlace where
  index : Nat
  trailing : Bool
  cluster : Nat
  barbase : Nat
  crews : List CrewPlace
  deriving DecidableEq, Repr, Inhabited

/-- One gang of an admission plan: its cluster and start time (R362), and the cores and barrier ids that are its slots there (log 36). -/
structure PlanEntry where
  index : Nat
  trailing : Bool
  cluster : Nat
  cores : List Nat
  barbase : Nat
  start : Nat
  deriving DecidableEq, Repr, Inhabited

/-- A pre-emption that a plan intends: the victim, when its slots are to be free, and the new plan of a bounded victim's launch
(R362, R363). -/
structure Victim where
  gang : Nat
  free : Nat
  plan : List PlanEntry
  deriving DecidableEq, Repr, Inhabited

/-- What the control plane brings to the acceptance of a launch: the place of the retained record (R350), and the plan of a bounded
one (R362). -/
structure Admit where
  retained : Nat
  gangs : List PlanEntry
  victims : List Victim
  deriving DecidableEq, Repr, Inhabited

/-- A cluster whose maximum clock drops (R385), and the new plans that admission makes for it, by launch (R364). -/
structure ClockDrop where
  cluster : Nat
  replans : List (BitVec 64 × List PlanEntry)
  deriving DecidableEq, Repr, Inhabited

/-- A reading of the draw in watts (R419), and the new plans that admission makes where a clock drops for it (R364). -/
structure PowerReading where
  watts : BitVec 32
  replans : List (BitVec 64 × List PlanEntry)
  deriving DecidableEq, Repr, Inhabited

/-- A storage unit that the code of R382 protects. -/
inductive Storage where
  /-- An SRAM word that holds no data of a gang: one of the management cluster, an entry or a word not in use. -/
  | sram
  /-- A word of a register cache, two lanes of a register of a wave; of an accumulator, two elements; of a tile; a Sillage buffer's
  entry. -/
  | register (k : WaveKey) (r pair : Nat)
  | accumulator (k : CrewKey) (unit acc word : Nat)
  | tile (g h word : Nat)
  | buffer (g n : Nat)
  /-- A 64-byte line of HBM or L2 at a physical address. -/
  | line (pa : Nat)
  deriving DecidableEq, Repr, Inhabited

/-- What a read of protected storage finds (R382, R383). -/
inductive Finding where
  | clean
  | corrected
  | uncorrectable
  deriving DecidableEq, Repr, Inhabited

/-- An access from outside the device: a write of bytes, or a read of a number of bytes (R411, R412). -/
inductive OuterAccess where
  | write (bar2 : Bool) (addr : Nat) (bytes : List Byte)
  | read (bar2 : Bool) (addr len : Nat)
  /-- A pod peer's atomic at its home (R252, R253): the opcode of R84, 0x40 to 0x59, its operand, and the compare value of a CAS. -/
  | atomic (addr op : Nat) (data cmp : BitVec 64)
  deriving DecidableEq, Repr, Inhabited

/-- A change by the fabric manager: the device's chip number (R412), the export window or one routing entry (R413). -/
inductive Route where
  | chip (n : BitVec 8)
  | window (base size : BitVec 44)
  | entry (chip : BitVec 8) (valid : Bool) (links : BitVec 18)
  deriving DecidableEq, Repr, Inhabited

/-- A firmware image of a drive (R416). -/
structure Image where
  header : List Byte
  key : List Byte
  signature : List Byte
  body : List Byte
  deriving DecidableEq, Repr, Inhabited

/-- The instructions and steps of the Ralanarad, one constructor per row of the opcode table. -/
inductive Instr where
  /-- ADD (R208). Wave add of two registers or a register and an extended operand, saturating on value types and wrapping on raw bits. -/
  | add (z : Bool) (w : Bool) (d : BitVec 7) (a : BitVec 7) (b : BitVec 7) (x : Bool) (t : BitVec 2)
  /-- ADD_IMM (R208). Wave add with an 8-bit immediate. -/
  | addImm (z : Bool) (w : Bool) (d : BitVec 7) (a : BitVec 7) (i : BitVec 8) (t : BitVec 2)
  /-- SUB (R208). Wave subtract. -/
  | sub (z : Bool) (w : Bool) (d : BitVec 7) (a : BitVec 7) (b : BitVec 7) (x : Bool) (t : BitVec 2)
  /-- SUB_IMM (R208). Wave subtract of an immediate. -/
  | subImm (z : Bool) (w : Bool) (d : BitVec 7) (a : BitVec 7) (i : BitVec 8) (t : BitVec 2)
  /-- MUL (R208). Wave multiply. -/
  | mul (z : Bool) (w : Bool) (d : BitVec 7) (a : BitVec 7) (b : BitVec 7) (x : Bool) (t : BitVec 2)
  /-- MUL_IMM (R208). Wave multiply by an immediate. -/
  | mulImm (z : Bool) (w : Bool) (d : BitVec 7) (a : BitVec 7) (i : BitVec 8) (t : BitVec 2)
  /-- MULH (R208). Wave high half of the exact product. -/
  | mulh (z : Bool) (w : Bool) (d : BitVec 7) (a : BitVec 7) (b : BitVec 7) (x : Bool) (t : BitVec 2)
  /-- MAD (R208). Wave multiply-add into the destination with one saturation or wrap. -/
  | mad (z : Bool) (w : Bool) (d : BitVec 7) (a : BitVec 7) (b : BitVec 7) (x : Bool) (t : BitVec 2)
  /-- ABS (R208). Wave absolute value of a signed operand. -/
  | abs (z : Bool) (w : Bool) (d : BitVec 7) (a : BitVec 7)
  /-- NEG (R208). Wave negation. -/
  | neg (z : Bool) (w : Bool) (d : BitVec 7) (a : BitVec 7) (t : BitVec 2)
  /-- MIN (R208). Wave element-wise minimum; absent propagates. -/
  | min (z : Bool) (w : Bool) (d : BitVec 7) (a : BitVec 7) (b : BitVec 7) (x : Bool) (t : BitVec 2)
  /-- MIN_IMM (R208). Wave minimum with an immediate. -/
  | minImm (z : Bool) (w : Bool) (d : BitVec 7) (a : BitVec 7) (i : BitVec 8) (t : BitVec 2)
  /-- MAX (R208). Wave element-wise maximum; absent propagates. -/
  | max (z : Bool) (w : Bool) (d : BitVec 7) (a : BitVec 7) (b : BitVec 7) (x : Bool) (t : BitVec 2)
  /-- MAX_IMM (R208). Wave maximum with an immediate. -/
  | maxImm (z : Bool) (w : Bool) (d : BitVec 7) (a : BitVec 7) (i : BitVec 8) (t : BitVec 2)
  /-- AND (R208). Wave bitwise AND on raw bits. -/
  | and (z : Bool) (w : Bool) (d : BitVec 7) (a : BitVec 7) (b : BitVec 7) (x : Bool)
  /-- AND_IMM (R208). Wave bitwise AND with an immediate. -/
  | andImm (z : Bool) (w : Bool) (d : BitVec 7) (a : BitVec 7) (i : BitVec 8)
  /-- OR (R208). Wave bitwise OR. -/
  | or (z : Bool) (w : Bool) (d : BitVec 7) (a : BitVec 7) (b : BitVec 7) (x : Bool)
  /-- OR_IMM (R208). Wave bitwise OR with an immediate. -/
  | orImm (z : Bool) (w : Bool) (d : BitVec 7) (a : BitVec 7) (i : BitVec 8)
  /-- XOR (R208). Wave bitwise XOR. -/
  | xor (z : Bool) (w : Bool) (d : BitVec 7) (a : BitVec 7) (b : BitVec 7) (x : Bool)
  /-- XOR_IMM (R208). Wave bitwise XOR with an immediate. -/
  | xorImm (z : Bool) (w : Bool) (d : BitVec 7) (a : BitVec 7) (i : BitVec 8)
  /-- NOT (R208). Wave bitwise complement. -/
  | not (z : Bool) (w : Bool) (d : BitVec 7) (a : BitVec 7)
  /-- SHL (R209). Wave shift left. -/
  | shl (z : Bool) (w : Bool) (d : BitVec 7) (a : BitVec 7) (b : BitVec 7) (x : Bool)
  /-- SHL_IMM (R209). Wave shift left by an immediate. -/
  | shlImm (z : Bool) (w : Bool) (d : BitVec 7) (a : BitVec 7) (i : BitVec 8)
  /-- SHR (R209). Wave logical shift right. -/
  | shr (z : Bool) (w : Bool) (d : BitVec 7) (a : BitVec 7) (b : BitVec 7) (x : Bool)
  /-- SHR_IMM (R209). Wave logical shift right by an immediate. -/
  | shrImm (z : Bool) (w : Bool) (d : BitVec 7) (a : BitVec 7) (i : BitVec 8)
  /-- SAR (R209). Wave arithmetic shift right. -/
  | sar (z : Bool) (w : Bool) (d : BitVec 7) (a : BitVec 7) (b : BitVec 7) (x : Bool)
  /-- SAR_IMM (R209). Wave arithmetic shift right by an immediate. -/
  | sarImm (z : Bool) (w : Bool) (d : BitVec 7) (a : BitVec 7) (i : BitVec 8)
  /-- ROT (R209). Wave rotate left. -/
  | rot (z : Bool) (w : Bool) (d : BitVec 7) (a : BitVec 7) (b : BitVec 7) (x : Bool)
  /-- ROT_IMM (R209). Wave rotate left by an immediate. -/
  | rotImm (z : Bool) (w : Bool) (d : BitVec 7) (a : BitVec 7) (i : BitVec 8)
  /-- CLZ (R209). Wave count of leading zero bits. -/
  | clz (z : Bool) (w : Bool) (d : BitVec 7) (a : BitVec 7)
  /-- POPC (R209). Wave count of set bits. -/
  | popc (z : Bool) (w : Bool) (d : BitVec 7) (a : BitVec 7)
  /-- BFE (R210). Wave bit-field extract. -/
  | bfe (z : Bool) (w : Bool) (d : BitVec 7) (a : BitVec 7) (b : BitVec 7) (x : Bool)
  /-- BFI (R210). Wave bit-field insert. -/
  | bfi (z : Bool) (w : Bool) (d : BitVec 7) (a : BitVec 7) (b : BitVec 7) (x : Bool)
  /-- FADD (R211). Wave f32 add rounded by the status mode. -/
  | fadd (z : Bool) (d : BitVec 7) (a : BitVec 7) (b : BitVec 7) (x : Bool)
  /-- FADD_IMM (R211). Wave f32 add of an e4m3 immediate. -/
  | faddImm (z : Bool) (d : BitVec 7) (a : BitVec 7) (i : BitVec 8)
  /-- FSUB (R211). Wave f32 subtract. -/
  | fsub (z : Bool) (d : BitVec 7) (a : BitVec 7) (b : BitVec 7) (x : Bool)
  /-- FSUB_IMM (R211). Wave f32 subtract of an immediate. -/
  | fsubImm (z : Bool) (d : BitVec 7) (a : BitVec 7) (i : BitVec 8)
  /-- FMUL (R211). Wave f32 multiply. -/
  | fmul (z : Bool) (d : BitVec 7) (a : BitVec 7) (b : BitVec 7) (x : Bool)
  /-- FMUL_IMM (R211). Wave f32 multiply by an immediate. -/
  | fmulImm (z : Bool) (d : BitVec 7) (a : BitVec 7) (i : BitVec 8)
  /-- FMA (R211). Wave fused multiply-add into the destination with one rounding. -/
  | fma (z : Bool) (d : BitVec 7) (a : BitVec 7) (b : BitVec 7) (x : Bool)
  /-- FMIN (R212). Wave f32 minimum. -/
  | fmin (z : Bool) (d : BitVec 7) (a : BitVec 7) (b : BitVec 7) (x : Bool)
  /-- FMIN_IMM (R212). Wave f32 minimum with an immediate. -/
  | fminImm (z : Bool) (d : BitVec 7) (a : BitVec 7) (i : BitVec 8)
  /-- FMAX (R212). Wave f32 maximum. -/
  | fmax (z : Bool) (d : BitVec 7) (a : BitVec 7) (b : BitVec 7) (x : Bool)
  /-- FMAX_IMM (R212). Wave f32 maximum with an immediate. -/
  | fmaxImm (z : Bool) (d : BitVec 7) (a : BitVec 7) (i : BitVec 8)
  /-- FABS (R212). Wave f32 clear of the sign bit. -/
  | fabs (z : Bool) (d : BitVec 7) (a : BitVec 7)
  /-- FNEG (R212). Wave f32 inversion of the sign bit. -/
  | fneg (z : Bool) (d : BitVec 7) (a : BitVec 7)
  /-- FRND (R213). Wave rounding of f32 to an integral value in a chosen mode. -/
  | frnd (z : Bool) (d : BitVec 7) (a : BitVec 7) (r : BitVec 7)
  /-- CMP (R217). Wave integer or raw-bits compare into a k register, 32 or 64 bits. -/
  | cmp (z : Bool) (w : Bool) (c : BitVec 3) (d : BitVec 7) (a : BitVec 7) (b : BitVec 7) (x : Bool) (t : BitVec 2)
  /-- CMP_IMM (R217). Wave compare with an immediate. -/
  | cmpImm (z : Bool) (w : Bool) (c : BitVec 3) (d : BitVec 7) (a : BitVec 7) (i : BitVec 8) (t : BitVec 2)
  /-- FCMP (R217). Wave f32 compare into a k register. -/
  | fcmp (z : Bool) (c : BitVec 3) (d : BitVec 7) (a : BitVec 7) (b : BitVec 7) (x : Bool)
  /-- FCMP_IMM (R217). Wave f32 compare with an immediate. -/
  | fcmpImm (z : Bool) (c : BitVec 3) (d : BitVec 7) (a : BitVec 7) (i : BitVec 8)
  /-- KAND (R218). Kleene AND of two k registers. -/
  | kand (z : Bool) (d : BitVec 7) (a : BitVec 7) (b : BitVec 7)
  /-- KOR (R218). Kleene OR of two k registers. -/
  | kor (z : Bool) (d : BitVec 7) (a : BitVec 7) (b : BitVec 7)
  /-- KXOR (R218). Kleene XOR of two k registers. -/
  | kxor (z : Bool) (d : BitVec 7) (a : BitVec 7) (b : BitVec 7)
  /-- KNOT (R218). Kleene complement of a k register. -/
  | knot (z : Bool) (d : BitVec 7) (a : BitVec 7)
  /-- KIS (R218). Test of each trit for T, F or U. -/
  | kis (z : Bool) (d : BitVec 7) (a : BitVec 7) (t : BitVec 2)
  /-- ISABS (R218). Test for the 32-bit absent code. -/
  | isabs (z : Bool) (d : BitVec 7) (a : BitVec 7) (t : BitVec 2)
  /-- ISABS_64 (R218). Test for the 64-bit absent code of a pair. -/
  | isabs64 (z : Bool) (d : BitVec 7) (a : BitVec 7) (t : BitVec 2)
  /-- COAL (R219). Coalesce: a if present, else b, 32-bit. -/
  | coal (z : Bool) (d : BitVec 7) (a : BitVec 7) (b : BitVec 7) (x : Bool) (t : BitVec 2)
  /-- COAL_64 (R219). Coalesce on pairs. -/
  | coal64 (z : Bool) (d : BitVec 7) (a : BitVec 7) (b : BitVec 7) (x : Bool) (t : BitVec 2)
  /-- MKABS (R219). Make lanes at or above a bound absent, 32-bit. -/
  | mkabs (z : Bool) (d : BitVec 7) (a : BitVec 7) (b : BitVec 7) (x : Bool) (t : BitVec 2)
  /-- MKABS_64 (R219). Make lanes absent on pairs. -/
  | mkabs64 (z : Bool) (d : BitVec 7) (a : BitVec 7) (b : BitVec 7) (x : Bool) (t : BitVec 2)
  /-- NULLIF (R219). Absent where a equals b, 32-bit. -/
  | nullif (z : Bool) (d : BitVec 7) (a : BitVec 7) (b : BitVec 7) (x : Bool) (t : BitVec 2)
  /-- NULLIF_64 (R219). NULLIF on pairs. -/
  | nullif64 (z : Bool) (d : BitVec 7) (a : BitVec 7) (b : BitVec 7) (x : Bool) (t : BitVec 2)
  /-- SEL (R219). Select b where the trit is T, keep where F, absent where U, 32-bit. -/
  | sel (z : Bool) (d : BitVec 7) (a : BitVec 7) (b : BitVec 7) (x : Bool) (t : BitVec 2)
  /-- SEL_64 (R219). Select on pairs. -/
  | sel64 (z : Bool) (d : BitVec 7) (a : BitVec 7) (b : BitVec 7) (x : Bool) (t : BitVec 2)
  /-- CVT (R214). Wave element conversion with its conversion extension word. -/
  | cvt (z : Bool) (d a : BitVec 7) (ext : CvtExt)
  /-- RSUM (R220). Sum reduction across the split with kept count. -/
  | rsum (z : Bool) (w : Bool) (d : BitVec 7) (a : BitVec 7) (b : BitVec 7) (x : Bool) (t : BitVec 2)
  /-- RMIN (R220). Minimum reduction across the split. -/
  | rmin (z : Bool) (w : Bool) (d : BitVec 7) (a : BitVec 7) (b : BitVec 7) (x : Bool) (t : BitVec 2)
  /-- RMAX (R220). Maximum reduction across the split. -/
  | rmax (z : Bool) (w : Bool) (d : BitVec 7) (a : BitVec 7) (b : BitVec 7) (x : Bool) (t : BitVec 2)
  /-- RCNT (R221). Count of present lanes of the split. -/
  | rcnt (z : Bool) (w : Bool) (d : BitVec 7) (a : BitVec 7) (t : BitVec 2)
  /-- SCAN (R220). Inclusive scan in ascending lane order. -/
  | scan (z : Bool) (w : Bool) (d : BitVec 7) (a : BitVec 7) (b : BitVec 7) (x : Bool) (t : BitVec 2)
  /-- SHFL (R222). Cross-lane shuffle with a register operand. -/
  | shfl (z : Bool) (d : BitVec 7) (a : BitVec 7) (b : BitVec 7) (x : Bool) (o : BitVec 2)
  /-- SHFL_IMM (R222). Cross-lane shuffle with an immediate. -/
  | shflImm (z : Bool) (d : BitVec 7) (a : BitVec 7) (i : BitVec 8) (o : BitVec 2)
  /-- BCAST_IMM (R223). Broadcast of an immediate-numbered lane. -/
  | bcastImm (z : Bool) (d : BitVec 7) (a : BitVec 7) (i : BitVec 8)
  /-- BCAST (R223). Broadcast of a register-numbered lane. -/
  | bcast (z : Bool) (d : BitVec 7) (a : BitVec 7) (b : BitVec 7) (x : Bool)
  /-- VOTE (R224). Any, all or ballot vote over a k register. -/
  | vote (z : Bool) (d : BitVec 7) (a : BitVec 7) (o : BitVec 2)
  /-- DOT4 (R225). Packed 8-bit dot product with addend. -/
  | dot4 (z : Bool) (d : BitVec 7) (a : BitVec 7) (b : BitVec 7) (x : Bool) (t : BitVec 2)
  /-- DOT8 (R225). Packed 4-bit dot product with addend. -/
  | dot8 (z : Bool) (d : BitVec 7) (a : BitVec 7) (b : BitVec 7) (x : Bool) (t : BitVec 2)
  /-- DOT2 (R226). Two bf16 products plus an f32 addend, one rounding. -/
  | dot2 (z : Bool) (d : BitVec 7) (a : BitVec 7) (b : BitVec 7) (x : Bool)
  /-- SCALE (R227). Application of two block scales to an integer. -/
  | scale (z : Bool) (d : BitVec 7) (a : BitVec 7) (b : BitVec 7) (x : Bool)
  /-- PACK (R228). Packing of two elements into the top of the destination. -/
  | pack (z : Bool) (d : BitVec 7) (a : BitVec 7) (b : BitVec 7) (x : Bool) (t : BitVec 2)
  /-- UNPK (R229). Extraction of one packed element. -/
  | unpk (z : Bool) (d : BitVec 7) (a : BitVec 7) (b : BitVec 7) (x : Bool) (t : BitVec 2)
  /-- XF_RCP (R231). Transform pipe reciprocal. -/
  | xfRcp (z : Bool) (d : BitVec 7) (a : BitVec 7)
  /-- XF_RSQRT (R231). Transform pipe reciprocal square root. -/
  | xfRsqrt (z : Bool) (d : BitVec 7) (a : BitVec 7)
  /-- XF_SQRT (R231). Transform pipe square root. -/
  | xfSqrt (z : Bool) (d : BitVec 7) (a : BitVec 7)
  /-- XF_EXP2 (R231). Transform pipe power of two. -/
  | xfExp2 (z : Bool) (d : BitVec 7) (a : BitVec 7)
  /-- XF_LOG2 (R231). Transform pipe base-2 logarithm. -/
  | xfLog2 (z : Bool) (d : BitVec 7) (a : BitVec 7)
  /-- XF_SIN (R231). Transform pipe sine. -/
  | xfSin (z : Bool) (d : BitVec 7) (a : BitVec 7)
  /-- XF_COS (R231). Transform pipe cosine. -/
  | xfCos (z : Bool) (d : BitVec 7) (a : BitVec 7)
  /-- XF_TANH (R231). Transform pipe hyperbolic tangent. -/
  | xfTanh (z : Bool) (d : BitVec 7) (a : BitVec 7)
  /-- XF_ERF (R231). Transform pipe error function. -/
  | xfErf (z : Bool) (d : BitVec 7) (a : BitVec 7)
  /-- XF_QSB8 (R234). Quantisation of the split's f32 values to one sb8 block. -/
  | xfQsb8 (z : Bool) (d : BitVec 7) (a : BitVec 7) (b : BitVec 7)
  /-- XF_XPOSE (R233). Transpose of an 8 by 4 lane matrix. -/
  | xfXpose (z : Bool) (d : BitVec 7) (a : BitVec 7)
  /-- XF_SORT (R235). Stable sort of keys across the split with original lanes. -/
  | xfSort (z : Bool) (d : BitVec 7) (a : BitVec 7) (b : BitVec 7) (t : BitVec 2)
  /-- LD (R244). Wave load of one element per taking-part lane. -/
  | ld (z : Bool) (t : BitVec 4) (d : BitVec 7) (a : BitVec 7) (b : BitVec 7) (x : Bool) (f : Bool) (ext : Option MemExt)
  /-- ST (R244). Wave store of one element per taking-part lane. -/
  | st (z : Bool) (t : BitVec 4) (d : BitVec 7) (a : BitVec 7) (b : BitVec 7) (x : Bool) (f : Bool) (ext : Option MemExt)
  /-- ST_SK (R244). Wave store that skips lanes with absent data. -/
  | stSk (z : Bool) (t : BitVec 4) (d : BitVec 7) (a : BitVec 7) (b : BitVec 7) (x : Bool) (f : Bool) (ext : Option MemExt)
  /-- STNT (R244). Wave non-temporal store outside every release until drained. -/
  | stnt (z : Bool) (t : BitVec 3) (d : BitVec 7) (a : BitVec 7) (b : BitVec 7) (x : Bool) (f : Bool) (ext : Option MemExt)
  /-- NTDRAIN (R267). Gathering of the wave's earlier non-temporal stores at a scope. -/
  | ntdrain (z : Bool) (ext : MemExt)
  /-- TOUCH (R243). Request that each lane's page be made resident. -/
  | touch (z : Bool) (a : BitVec 7) (b : BitVec 7) (x : Bool) (f : Bool) (ext : Option MemExt)
  /-- FENCE (R266). Wave acquire, release or both at a scope on W. -/
  | fence (z : Bool) (ext : MemExt)
  /-- XFENCE (R33). Wave cross-path fence from a source path to a destination path. -/
  | xfence (z : Bool) (d a : BitVec 7) (ext : MemExt)
  /-- POST (R268). Append of the lowest lane's pair to the crew's return queue, a crew release. -/
  | post (z : Bool) (d : BitVec 7)
  /-- BWAIT (R258). Wave park until a barrier object's phase differs. -/
  | bwait (z : Bool) (d : BitVec 7) (a : BitVec 7) (b : BitVec 7) (x : Bool) (f : Bool) (ext : Option MemExt)
  /-- WAKE (R257). Wave selection of waiters on each lane's address. -/
  | wake (z : Bool) (d : BitVec 7) (a : BitVec 7) (b : BitVec 7) (x : Bool) (f : Bool) (ext : Option MemExt)
  /-- ATOM_ADD (R252). Atomic add per lane at the home. -/
  | atomAdd (z : Bool) (t : BitVec 3) (d : BitVec 7) (a : BitVec 7) (b : BitVec 7) (x : Bool) (f : Bool) (ext : Option MemExt)
  /-- ATOM_MIN (R252). Atomic minimum per lane. -/
  | atomMin (z : Bool) (t : BitVec 2) (d : BitVec 7) (a : BitVec 7) (b : BitVec 7) (x : Bool) (f : Bool) (ext : Option MemExt)
  /-- ATOM_MAX (R252). Atomic maximum per lane. -/
  | atomMax (z : Bool) (t : BitVec 2) (d : BitVec 7) (a : BitVec 7) (b : BitVec 7) (x : Bool) (f : Bool) (ext : Option MemExt)
  /-- ATOM_AND (R252). Atomic AND per lane. -/
  | atomAnd (z : Bool) (w : Bool) (d : BitVec 7) (a : BitVec 7) (b : BitVec 7) (x : Bool) (f : Bool) (ext : Option MemExt)
  /-- ATOM_OR (R252). Atomic OR per lane. -/
  | atomOr (z : Bool) (w : Bool) (d : BitVec 7) (a : BitVec 7) (b : BitVec 7) (x : Bool) (f : Bool) (ext : Option MemExt)
  /-- ATOM_XOR (R252). Atomic XOR per lane. -/
  | atomXor (z : Bool) (w : Bool) (d : BitVec 7) (a : BitVec 7) (b : BitVec 7) (x : Bool) (f : Bool) (ext : Option MemExt)
  /-- ATOM_XCHG (R252). Atomic exchange per lane. -/
  | atomXchg (z : Bool) (w : Bool) (d : BitVec 7) (a : BitVec 7) (b : BitVec 7) (x : Bool) (f : Bool) (ext : Option MemExt)
  /-- CAS (R253). Compare-and-swap per lane. -/
  | cas (z : Bool) (w : Bool) (d : BitVec 7) (a : BitVec 7) (b : BitVec 7) (x : Bool) (f : Bool) (ext : Option MemExt)
  /-- WAITA (R256). Wave park while memory holds the expected values. -/
  | waita (z : Bool) (w : Bool) (d : BitVec 7) (a : BitVec 7) (b : BitVec 7) (x : Bool) (f : Bool) (ext : Option MemExt)
  /-- GATH (R259). Gather of 4-byte elements by index. -/
  | gath (z : Bool) (d : BitVec 7) (a : BitVec 7) (b : BitVec 7) (ext : Option MemExt)
  /-- SCAT (R259). Scatter of 4-byte elements by index. -/
  | scat (z : Bool) (d : BitVec 7) (a : BitVec 7) (b : BitVec 7) (ext : Option MemExt)
  /-- SCADD (R261). Scatter-add of f32 with in-wave combining and one atomic add per group. -/
  | scadd (z : Bool) (d : BitVec 7) (a : BitVec 7) (b : BitVec 7) (ext : Option MemExt)
  /-- CONFD (R260). Lowest lane sharing each lane's index. -/
  | confd (z : Bool) (d : BitVec 7) (a : BitVec 7)
  /-- TLD (R249). Wave load from a tile by handle. -/
  | tld (z : Bool) (t : BitVec 2) (d : BitVec 7) (a : BitVec 7) (h : BitVec 8) (ext : Option MemExt)
  /-- TST (R249). Wave store into a tile by handle. -/
  | tst (z : Bool) (t : BitVec 2) (d : BitVec 7) (a : BitVec 7) (h : BitVec 8) (ext : Option MemExt)
  /-- TST_SK (R249). Wave tile store that skips absent data. -/
  | tstSk (z : Bool) (t : BitVec 2) (d : BitVec 7) (a : BitVec 7) (h : BitVec 8) (ext : Option MemExt)
  /-- BR (R185). Wave branch where the predicate is T, dividing the split and pushing a join record. -/
  | br (z : Bool) (p : BitVec 6) (u : BitVec 2) (o : BitVec 8) (j : BitVec 8)
  /-- BRC (R185). Wave branch where the predicate is F. -/
  | brc (z : Bool) (p : BitVec 6) (u : BitVec 2) (o : BitVec 8) (j : BitVec 8)
  /-- BRQ (R187). Wave branch on a popped decision-queue entry. -/
  | brq (z : Bool) (q : BitVec 2) (o : BitVec 8)
  /-- JOIN (R188). Early arrival of a split at its join record. -/
  | join (z : Bool)
  /-- CALL (R189). Wave call writing the link pair. -/
  | call (z : Bool) (o : BitVec 8)
  /-- RET (R189). Wave return to each lane's link target. -/
  | ret (z : Bool)
  /-- JMPX (R190). Wave indirect jump to tagged landing pads. -/
  | jmpx (z : Bool) (a : BitVec 7) (g : BitVec 6)
  /-- CALLX (R190). Wave indirect call to tagged landing pads. -/
  | callx (z : Bool) (a : BitVec 7) (g : BitVec 6)
  /-- EXIT (R183). End of the issuing split's lanes. -/
  | exit (z : Bool)
  /-- BAR (R192). Wave arrival at a gang barrier. -/
  | bar (z : Bool) (i : BitVec 4) (a : BitVec 7) (l : Bool)
  /-- LIVE (R178). Declaration of dead v registers. -/
  | live (z : Bool) (a : BitVec 7)
  /-- SAVEPT (R199). Wave save point where a pending save parks the split. -/
  | savept (z : Bool) (i : BitVec 8)
  /-- TRAP (R198). Wave user trap raising the fault trap. -/
  | trap (z : Bool) (i : BitVec 8)
  /-- RDSTAT (R198). Wave read of the status register. -/
  | rdstat (z : Bool) (d : BitVec 7)
  /-- WRSTAT (R198). Wave write of the status low byte. -/
  | wrstat (z : Bool) (a : BitVec 7)
  /-- RTF (R201). Wave return from the fault handler. -/
  | rtf (z : Bool) (r : Bool)
  /-- YIELD (R197). Move of the wave to the last issue place. -/
  | yield (z : Bool)
  /-- LEAD_ADD (R134). Lead 64-bit add. -/
  | leadAdd (z : Bool) (d : BitVec 6) (a : BitVec 6) (b : BitVec 6) (y : BitVec 2) (c32 : Bool) (t : BitVec 2)
  /-- LEAD_ADD_IMM (R134). Lead add of an immediate. -/
  | leadAddImm (z : Bool) (d : BitVec 6) (a : BitVec 6) (i : BitVec 8) (t : BitVec 2)
  /-- LEAD_SUB (R134). Lead subtract. -/
  | leadSub (z : Bool) (d : BitVec 6) (a : BitVec 6) (b : BitVec 6) (y : BitVec 2) (c32 : Bool) (t : BitVec 2)
  /-- LEAD_SUB_IMM (R134). Lead subtract of an immediate. -/
  | leadSubImm (z : Bool) (d : BitVec 6) (a : BitVec 6) (i : BitVec 8) (t : BitVec 2)
  /-- LEAD_MUL (R134). Lead multiply. -/
  | leadMul (z : Bool) (d : BitVec 6) (a : BitVec 6) (b : BitVec 6) (y : BitVec 2) (c32 : Bool) (t : BitVec 2)
  /-- LEAD_MUL_IMM (R134). Lead multiply by an immediate. -/
  | leadMulImm (z : Bool) (d : BitVec 6) (a : BitVec 6) (i : BitVec 8) (t : BitVec 2)
  /-- LEAD_MULH (R134). Lead high half of the 128-bit product. -/
  | leadMulh (z : Bool) (d : BitVec 6) (a : BitVec 6) (b : BitVec 6) (y : BitVec 2) (c32 : Bool) (t : BitVec 2)
  /-- DIV (R135). Lead division truncating toward zero. -/
  | div (z : Bool) (d : BitVec 6) (a : BitVec 6) (b : BitVec 6) (y : BitVec 2) (c32 : Bool) (t : BitVec 2)
  /-- REM (R135). Lead remainder. -/
  | rem (z : Bool) (d : BitVec 6) (a : BitVec 6) (b : BitVec 6) (y : BitVec 2) (c32 : Bool) (t : BitVec 2)
  /-- LEAD_AND (R134). Lead bitwise AND. -/
  | leadAnd (z : Bool) (d : BitVec 6) (a : BitVec 6) (b : BitVec 6) (y : BitVec 2) (c32 : Bool)
  /-- LEAD_AND_IMM (R134). Lead AND with an immediate. -/
  | leadAndImm (z : Bool) (d : BitVec 6) (a : BitVec 6) (i : BitVec 8)
  /-- LEAD_OR (R134). Lead bitwise OR. -/
  | leadOr (z : Bool) (d : BitVec 6) (a : BitVec 6) (b : BitVec 6) (y : BitVec 2) (c32 : Bool)
  /-- LEAD_OR_IMM (R134). Lead OR with an immediate. -/
  | leadOrImm (z : Bool) (d : BitVec 6) (a : BitVec 6) (i : BitVec 8)
  /-- LEAD_XOR (R134). Lead bitwise XOR. -/
  | leadXor (z : Bool) (d : BitVec 6) (a : BitVec 6) (b : BitVec 6) (y : BitVec 2) (c32 : Bool)
  /-- LEAD_XOR_IMM (R134). Lead XOR with an immediate. -/
  | leadXorImm (z : Bool) (d : BitVec 6) (a : BitVec 6) (i : BitVec 8)
  /-- LEAD_SHL (R134). Lead shift left. -/
  | leadShl (z : Bool) (d : BitVec 6) (a : BitVec 6) (b : BitVec 6) (y : BitVec 2) (c32 : Bool)
  /-- LEAD_SHL_IMM (R134). Lead shift left by an immediate. -/
  | leadShlImm (z : Bool) (d : BitVec 6) (a : BitVec 6) (i : BitVec 8)
  /-- LEAD_SHR (R134). Lead logical shift right. -/
  | leadShr (z : Bool) (d : BitVec 6) (a : BitVec 6) (b : BitVec 6) (y : BitVec 2) (c32 : Bool)
  /-- LEAD_SHR_IMM (R134). Lead logical shift right by an immediate. -/
  | leadShrImm (z : Bool) (d : BitVec 6) (a : BitVec 6) (i : BitVec 8)
  /-- LEAD_SAR (R134). Lead arithmetic shift right. -/
  | leadSar (z : Bool) (d : BitVec 6) (a : BitVec 6) (b : BitVec 6) (y : BitVec 2) (c32 : Bool)
  /-- LEAD_SAR_IMM (R134). Lead arithmetic shift right by an immediate. -/
  | leadSarImm (z : Bool) (d : BitVec 6) (a : BitVec 6) (i : BitVec 8)
  /-- LEAD_MIN (R134). Lead minimum. -/
  | leadMin (z : Bool) (d : BitVec 6) (a : BitVec 6) (b : BitVec 6) (y : BitVec 2) (c32 : Bool) (t : BitVec 2)
  /-- LEAD_MAX (R134). Lead maximum. -/
  | leadMax (z : Bool) (d : BitVec 6) (a : BitVec 6) (b : BitVec 6) (y : BitVec 2) (c32 : Bool) (t : BitVec 2)
  /-- LEAD_CMP (R136). Lead compare into a j register. -/
  | leadCmp (z : Bool) (c : BitVec 3) (d : BitVec 6) (a : BitVec 6) (b : BitVec 6) (y : BitVec 2) (c32 : Bool) (t : BitVec 2)
  /-- LEAD_CMP_IMM (R136). Lead compare with an immediate. -/
  | leadCmpImm (z : Bool) (c : BitVec 3) (d : BitVec 6) (a : BitVec 6) (i : BitVec 8) (t : BitVec 2)
  /-- LEAD_SEL (R136). Lead select by a j trit. -/
  | leadSel (z : Bool) (d : BitVec 6) (a : BitVec 6) (b : BitVec 6) (y : BitVec 2) (c32 : Bool) (t : BitVec 2)
  /-- MOVI (R136). Lead move of an immediate. -/
  | movi (z : Bool) (d : BitVec 6) (i : BitVec 8) (t : BitVec 2)
  /-- MOVC (R137). Lead write of the crew's uniform registers. -/
  | movc (z : Bool) (d : BitVec 6) (a : BitVec 6) (w : Bool)
  /-- LDX (R139). Lead load on path L. -/
  | ldx (z : Bool) (t : BitVec 2) (d : BitVec 6) (a : BitVec 6) (i : BitVec 8)
  /-- STX (R139). Lead store on path L. -/
  | stx (z : Bool) (t : BitVec 2) (d : BitVec 6) (a : BitVec 6) (i : BitVec 8)
  /-- ATOMX_ADD (R140). Lead 8-byte atomic add. -/
  | atomxAdd (z : Bool) (t : BitVec 2) (d : BitVec 6) (a : BitVec 6) (b : BitVec 6) (p : BitVec 4) (o : BitVec 2)
  /-- ATOMX_MIN_I64 (R140). Lead atomic signed minimum. -/
  | atomxMinI64 (z : Bool) (d : BitVec 6) (a : BitVec 6) (b : BitVec 6) (p : BitVec 4) (o : BitVec 2)
  /-- ATOMX_MIN_N64 (R140). Lead atomic unsigned minimum. -/
  | atomxMinN64 (z : Bool) (d : BitVec 6) (a : BitVec 6) (b : BitVec 6) (p : BitVec 4) (o : BitVec 2)
  /-- ATOMX_MAX_I64 (R140). Lead atomic signed maximum. -/
  | atomxMaxI64 (z : Bool) (d : BitVec 6) (a : BitVec 6) (b : BitVec 6) (p : BitVec 4) (o : BitVec 2)
  /-- ATOMX_MAX_N64 (R140). Lead atomic unsigned maximum. -/
  | atomxMaxN64 (z : Bool) (d : BitVec 6) (a : BitVec 6) (b : BitVec 6) (p : BitVec 4) (o : BitVec 2)
  /-- ATOMX_AND (R140). Lead atomic AND. -/
  | atomxAnd (z : Bool) (d : BitVec 6) (a : BitVec 6) (b : BitVec 6) (p : BitVec 4) (o : BitVec 2)
  /-- ATOMX_OR (R140). Lead atomic OR. -/
  | atomxOr (z : Bool) (d : BitVec 6) (a : BitVec 6) (b : BitVec 6) (p : BitVec 4) (o : BitVec 2)
  /-- ATOMX_XOR (R140). Lead atomic XOR. -/
  | atomxXor (z : Bool) (d : BitVec 6) (a : BitVec 6) (b : BitVec 6) (p : BitVec 4) (o : BitVec 2)
  /-- ATOMX_XCHG (R140). Lead atomic exchange. -/
  | atomxXchg (z : Bool) (d : BitVec 6) (a : BitVec 6) (b : BitVec 6) (p : BitVec 4) (o : BitVec 2)
  /-- ATOMX_CAS (R140). Lead atomic compare-and-swap. -/
  | atomxCas (z : Bool) (d : BitVec 6) (a : BitVec 6) (b : BitVec 6) (p : BitVec 4) (o : BitVec 2)
  /-- LEAD_BR (R141). Lead branch where the j trit is T. -/
  | leadBr (z : Bool) (p : BitVec 6) (u : BitVec 2) (o : BitVec 8)
  /-- LEAD_BRC (R141). Lead branch where the j trit is F. -/
  | leadBrc (z : Bool) (p : BitVec 6) (u : BitVec 2) (o : BitVec 8)
  /-- LEAD_CALL (R141). Lead call writing x63. -/
  | leadCall (z : Bool) (p : BitVec 6) (u : BitVec 2) (o : BitVec 8)
  /-- LEAD_RET (R141). Lead return to the address in x63. -/
  | leadRet (z : Bool)
  /-- DQPUSH (R143). Push of a decision to a crew decision queue. -/
  | dqpush (z : Bool) (d : BitVec 6) (a : BitVec 6)
  /-- RQPOP (R143). Pop of the crew's return queue. -/
  | rqpop (z : Bool) (d : BitVec 6)
  /-- QPUSH (R148). Push of an entry onto a hardware work queue at a priority. -/
  | qpush (z : Bool) (d : BitVec 6) (a : BitVec 6) (b : BitVec 6) (p : BitVec 4)
  /-- QPOP (R148). Pop from the highest non-empty level of a work queue. -/
  | qpop (z : Bool) (d : BitVec 6) (a : BitVec 6) (p : BitVec 4)
  /-- LEAD_WAITA (R145). Lead park while the value at an address equals x_b. -/
  | leadWaita (z : Bool) (d : BitVec 6) (a : BitVec 6) (b : BitVec 6) (p : BitVec 4) (w : BitVec 2)
  /-- LEAD_WAKE (R146). Lead selection of up to n waiters on an address. -/
  | leadWake (z : Bool) (d : BitVec 6) (a : BitVec 6) (b : BitVec 6) (p : BitVec 4)
  /-- LEAD_FENCE (R143). Lead acquire, release or both at a scope on L. -/
  | leadFence (z : Bool) (p : BitVec 4) (o : BitVec 2)
  /-- LEAD_XFENCE (R143). Lead cross-path fence. -/
  | leadXfence (z : Bool) (d : BitVec 6) (a : BitVec 6) (p : BitVec 4)
  /-- MZERO (R296). Setting of an accumulator's type and emptying of its elements. -/
  | mzero (z : Bool) (d : BitVec 6) (unit : BitVec 2) (acc : BitVec 4) (ty : Bool)
  /-- MMA (R298). Matrix product added into an accumulator in K steps. -/
  | mma (z : Bool) (d a b : BitVec 6) (unit : BitVec 2) (acc : BitVec 4) (k : BitVec 8) (strict : Bool)
  /-- MMC (R299). Matrix product with A taken from another accumulator through the down-converter. -/
  | mmc (z : Bool) (d b : BitVec 6) (unit : BitVec 2) (acc src : BitVec 4) (fmt : BitVec 5) (strict : Bool)
  /-- MMW (R317). Product through a bound Accord in two passes. -/
  | mmw (z : Bool) (d a : BitVec 6) (unit : BitVec 2) (acc : BitVec 4) (h : BitVec 8) (strict : Bool)
  /-- MDRAIN (R300). Drain of an accumulator into a tile with optional kept counts. -/
  | mdrain (z : Bool) (d a b : BitVec 6) (unit : BitVec 2) (acc : BitVec 4)
  /-- MLOAD (R296). Load of an accumulator from a tile. -/
  | mload (z : Bool) (d a : BitVec 6) (unit : BitVec 2) (acc : BitVec 4) (ty : Bool)
  /-- TALLOC (R301). Allocation of a tile under a handle. -/
  | talloc (z : Bool) (d a b : BitVec 6) (h : BitVec 8) (fmt : BitVec 5) (slice packed : Bool)
  /-- TFREE (R302). Drydown and freeing of a tile or Accord handle. -/
  | tfree (z : Bool) (d : BitVec 6) (h : BitVec 8)
  /-- TBIND (R303). Binding or unbinding of a tile to a memory range. -/
  | tbind (z : Bool) (d a : BitVec 6) (h : BitVec 8)
  /-- TDRY (R304). Drydown of every dirty sub-block of a bound tile. -/
  | tdry (z : Bool) (d : BitVec 6) (h : BitVec 8)
  /-- TSTAT (R305). Count of one sub-block's elements and recomputation of its flags. -/
  | tstat (z : Bool) (d a : BitVec 6) (h : BitVec 8)
  /-- ABIND (R313). Validation of an Accord record and its binding to a handle. -/
  | abind (z : Bool) (d a : BitVec 6) (h : BitVec 8) (slice : Bool)
  /-- SEEK (R321). Scoring of candidate seeds against a target block. -/
  | seek (z : Bool) (d a b : BitVec 6) (unit : BitVec 2) (ka mc : BitVec 3) (n : BitVec 8)
  /-- PROJ (R322). Projection of a target onto a seed's basis into a record. -/
  | proj (z : Bool) (d a b : BitVec 6) (unit : BitVec 2)
  /-- COPY (R339). Start of a copy from its request record. -/
  | copy (z : Bool) (d a : BitVec 6) (tile : Bool) (h : BitVec 8)
  /-- PCOPY (R346). Partial-page copy of the first n token slots of a KV page. -/
  | pcopy (z : Bool) (d a b : BitVec 6) (scope : BitVec 4) (n : BitVec 16)
  /-- BINIT (R344). Initialisation of a barrier object. -/
  | binit (z : Bool) (a b : BitVec 6) (tile : Bool) (h : BitVec 8) (scope : BitVec 4)
  /-- BARR (R344). Lead count-down on a barrier object. -/
  | barr (z : Bool) (d a b : BitVec 6) (tile : Bool) (h : BitVec 8) (scope : BitVec 4)
  /-- LEAD_BWAIT (R344). Lead park until a barrier object's phase differs. -/
  | leadBwait (z : Bool) (d a b : BitVec 6) (tile : Bool) (h : BitVec 8) (scope : BitVec 4)
  /-- SMAP_LOOK (R162). Lookup of the slot address holding a sequence position. -/
  | smapLook (z : Bool) (d a b : BitVec 6)
  /-- SMAP_APPEND (R162). Appending of a new page to a sequence. -/
  | smapAppend (z : Bool) (d a b : BitVec 6)
  /-- SMAP_SHARE (R164). Sharing of a sequence's prefix with a new descriptor. -/
  | smapShare (z : Bool) (d a b : BitVec 6)
  /-- SMAP_LEN (R163). Setting of a sequence's length, abandoning and freeing pages. -/
  | smapLen (z : Bool) (d a b : BitVec 6)
  /-- SMAP_EVICT (R162). Removal of a sequence from every map. -/
  | smapEvict (z : Bool) (d a b : BitVec 6)
  /-- CHASE (R165). Start of a walk that pushes page headers to a decision queue. -/
  | chase (z : Bool) (d a b : BitVec 6) (q : BitVec 2) (lim : BitVec 16)
  /-- LAUNCH (R153). Submission of a launch record by a lead context. -/
  | launch (z : Bool) (d : BitVec 6) (a : BitVec 6) (p : BitVec 4)
  /-- MARK (R166). Setting of a checkpoint region of the gang. -/
  | mark (z : Bool) (d : BitVec 6) (a : BitVec 6) (b : BitVec 6)
  /-- SNAP (R167). Collective opening of a region checkpoint. -/
  | snap (z : Bool)
  /-- ROLLBK (R167). Collective restore of every logged line. -/
  | rollbk (z : Bool)
  /-- COMMIT (R167). Collective discard of the log and close of the checkpoint. -/
  | commit (z : Bool)
  /-- LEAD_TRAP (R168). Lead user trap. -/
  | leadTrap (z : Bool) (b : BitVec 6)
  /-- LEAD_RDSTAT (R168). Lead read of the status register. -/
  | leadRdstat (z : Bool) (d : BitVec 6)
  /-- LEAD_WRSTAT (R168). Lead write of the status low byte. -/
  | leadWrstat (z : Bool) (a : BitVec 6)
  /-- LEAD_RTF (R170). Lead return from the fault handler. -/
  | leadRtf (z : Bool) (r : Bool)
  /-- LEAD_SAVEPT (R169). Lead save point. -/
  | leadSavept (z : Bool) (i : BitVec 6) (h : BitVec 2)
  /-- LEAD_EXIT (R169). End of the lead context once its tokens are written. -/
  | leadExit (z : Bool)
  /-- REP (R59). Prefix re-issuing the next clause's first word n times with stepped fields. -/
  | rep (n : BitVec 6) (k : BitVec 3) (t : Bool)
  /-- UNLISTED_OPCODE (R79). Issue of a word whose opcode its class does not list, raising illegal_instruction with aux 24 and no effect. -/
  | unlistedOpcode (w : BitVec 32)
  /-- CLAUSE_FETCH (R46). Fetch of a clause header with its checks and wait-field drain. -/
  | clauseFetch
  /-- RESULT_RETURN (R56). Writing of an outstanding register result, ending a park when none remain. -/
  | resultReturn (c : Ctx) (n : Nat)
  /-- REGCACHE_FILL (R177). Fill of a missed register-cache line from the context frame. -/
  | regcacheFill (k : WaveKey) (r : Nat) (victim : Option (WaveKey × Nat))
  /-- XF_REPLY (R230). Transform pipe reply writing a class-7 destination. -/
  | xfReply (k : WaveKey)
  /-- MEMORY_REPLY (R263). Reply of a collector request written into its register. -/
  | memoryReply (k : WaveKey) (n : Nat)
  /-- COLLECTOR_ROOM (R263). Issue of a waiting word once the collector has room. -/
  | collectorRoom (c : Ctx)
  /-- QUEUE_STALL_RELEASE (R18). Release of a stalled push, pop or post once a queue has an entry or room. -/
  | queueStallRelease (c : Ctx)
  /-- WAIT_END (R256). End of a wait on an address by WAKE, value change or eviction, with final read. -/
  | waitEnd (c : Ctx) (cause : WaitCause)
  /-- WAIT_TIMEOUT (R41). End of a wait on an address after 2^20 cycles. -/
  | waitTimeout (c : Ctx)
  /-- BWAIT_RESUME (R258). Completion of a barrier-object wait once the phase change is visible. -/
  | bwaitResume (c : Ctx)
  /-- PAGE_RESIDENT (R138). Control plane making a page resident, releasing stalled accesses. -/
  | pageResident (va : Nat)
  /-- TILE_FILL (R288). Fill of an unfilled sub-block of a bound tile on path M. -/
  | tileFill (g h sb : Nat)
  /-- TILE_EVICT (R289). Eviction of a bound tile's sub-block with drydown. -/
  | tileEvict (g h sb : Nat)
  /-- MATRIX_K_STEP (R298). One 32-deep K step of a matrix operation. -/
  | matrixKStep (op : Nat)
  /-- MATRIX_OP_COMPLETE (R295). Completion of a matrix, tile or Accord operation writing its token. -/
  | matrixOpComplete (op : Nat)
  /-- CHUNK_DELIVER (R338). Delivery or failure of one copy chunk with its count-down. -/
  | chunkDeliver (op n : Nat)
  /-- PCOPY_COMPLETE (R346). Completion of a partial-page copy. -/
  | pcopyComplete (op : Nat)
  /-- CHASE_PAGE (R165). Bringing of one page into L2 and push of its header address. -/
  | chasePage (op : Nat)
  /-- SQ_DOORBELL (R350). Host write of sqtail announcing new records. -/
  | sqDoorbell (q : Nat) (v : BitVec 32)
  /-- QUEUE_ENABLE (R349). Host write of enable from 0 to 1 for a host queue. -/
  | queueEnable (q : Nat)
  /-- QUEUE_DISABLE (R349). Host write of enable to 0, stopping consumption. -/
  | queueDisable (q : Nat)
  /-- CANCEL (R358). Host write of a sequence number cancelling that launch. -/
  | cancel (seq : BitVec 64)
  /-- CANCEL_ALL (R358). Host write of all ones cancelling every incomplete accepted launch. -/
  | cancelAll
  /-- RETIRE (R355). Host write taking a core out of service for binding. -/
  | retire (n : BitVec 32)
  /-- REGISTER_WRITE (R4). Write to any register field without behaviour of its own. -/
  | registerWrite (off size : Nat) (v : BitVec 64)
  /-- RECORD_CONSUME (R350). Consumption of one submitted record: copy, acceptance or refusal, sqhead advance. -/
  | recordConsume (q : Nat) (choice : Admit)
  /-- LAUNCH_ACCEPT (R154). Acceptance of a launch, assigning and writing its sequence number. -/
  | launchAccept (sub : Nat) (choice : Admit)
  /-- GANG_BIND (R367). Binding of the first fitting waiting gang by bind records. -/
  | gangBind (seq : BitVec 64) (places : List GangPlace)
  /-- CREW_START (R132). Start of a crew's lead context and waves from a bind record. -/
  | crewStart (k : CrewKey)
  /-- BOUND_OVERRUN (R40). Ending of a bounded launch 25 us before its bound with status overrun. -/
  | boundOverrun (seq : BitVec 64)
  /-- PREEMPT_REQUEST (R368). Choice of victims and of drain, save or flush for a requester. -/
  | preemptRequest (seq : BitVec 64) (plans : List Victim)
  /-- SAVE_COMPLETE (R372). Writing of a gang's state once every context is at its save point. -/
  | saveComplete (g : Nat)
  /-- SAVE_TIMEOUT (R371). Flush or drain of a gang whose save passes 150,000 cycles. -/
  | saveTimeout (g : Nat)
  /-- GANG_RESTORE (R375). Restore of a saved gang onto a cluster. -/
  | gangRestore (g : Nat) (places : List GangPlace)
  /-- GANG_RELAUNCH (R376). Relaunch of a flushed or killed gang from its retained record. -/
  | gangRelaunch (g : Nat)
  /-- COMPARE_POINT (R392). Comparison of a pair's interval signatures when both parties reach a compare point. -/
  | comparePoint (g : Nat) (p : Party)
  /-- UNIT_COMPARE (R393). Comparison of a pair's drydown, PROJ record or copy chunk before the leading write. -/
  | unitCompare (g : Nat)
  /-- PAIR_FAULT_MATCH (R397). Comparison of a fault with the counterpart's at the same word. -/
  | pairFaultMatch (g : Nat) (p : Party)
  /-- UNCORRECTABLE_ERROR (R402). Consumption of poison ending the gang and relaunching by class. -/
  | uncorrectableError (g : Nat) (core : Option Nat)
  /-- SCRUB (R382). Periodic read and rewrite of protected storage. -/
  | scrub (unit : Storage) (found : Finding)
  /-- AGEING_MEASURE (R384). Periodic ring-oscillator measurement of a cluster's drift. -/
  | ageingMeasure (cl freq : Nat)
  /-- CLOCK_LIMIT_APPLY (R385). Taking effect of a lowered maximum clock and re-planning admission. -/
  | clockLimitApply (cl : ClockDrop)
  /-- MACHINE_DISSENT (R387). Fencing of a control-machine copy that disagrees with the other two. -/
  | machineDissent (m : Nat) (differ : List Nat)
  /-- MACHINE_RESYNC (R387). Return of a fenced copy to step once its state is copied. -/
  | machineResync (m copy : Nat)
  /-- POWER_CONTROL (R419). Adjustment of cluster clocks to keep draw at or below cap. -/
  | powerControl (draw : PowerReading)
  /-- HOST_MEMORY_ACCESS (R411). Host access to device memory through CXL.mem or BAR2. -/
  | hostMemoryAccess (acc : OuterAccess)
  /-- POD_ACCESS (R414). Arrival of a pod peer's access to this device. -/
  | podAccess (acc : OuterAccess)
  /-- LINK_REPLAY (R414). Replay of a damaged flit on a Wedon link. -/
  | linkReplay (link : Nat)
  /-- LINK_FAILURE (R414). Permanent failure of a link and replay of its accesses elsewhere. -/
  | linkFailure (link : Nat)
  /-- ROUTE_CHANGE (R413). Fabric manager change of the export window or routing entries. -/
  | routeChange (r : Route)
  /-- POWER_ON (R415). Power good starting the ROM on one management core. -/
  | powerOn
  /-- DEVICE_RESET (R381). Device reset losing every incomplete launch and restarting at state 0. -/
  | deviceReset
  /-- IMAGE_CHECK (R416). Search and verification of a firmware image on the two drives. -/
  | imageCheck
  /-- DIE_BRING_UP (R415). Built-in self test of both dies and setting of clocks. -/
  | dieBringUp (ok : Bool) (freqs : List Nat)
  /-- MEMORY_TRAINING (R415). Training of the eight HBM5 stacks. -/
  | memoryTraining (ok : Bool)
  /-- SCHEDULER_START (R354). Start of the scheduler triad and increment of the boot epoch. -/
  | schedulerStart
  /-- GET_MEASUREMENTS (R417). SPDM request returning measurement blocks. -/
  | getMeasurements (ix : Nat)
  /-- CHALLENGE (R417). SPDM challenge answered with the identity key. -/
  | challenge (nonce : BitVec 256)
  /-- PLDM_FIRMWARE_UPDATE (R416). PLDM type 5 update writing the drive not running. -/
  | pldmFirmwareUpdate (image : Image)
  /-- PLDM_SET_CAP (R418). Board controller setting of the module power cap. -/
  | pldmSetCap (v : BitVec 16)
  /-- PLDM_SENSORS (R418). PLDM type 2 sensor request returning readings. -/
  | pldmSensors
  /-- PAGE_DEMOTION (R243). Control plane demoting or unmapping a page so that it is no longer resident, waiting while the page is pinned by an open checkpoint. -/
  | pageDemotion (va : Nat) (unmap : Bool)
  deriving DecidableEq, Repr

/-- An entry of the model's agenda: what moves next (log 5). -/
inductive Act where
  /-- A context issues its next clause header or word. -/
  | issue (c : Ctx)
  /-- A step that no context issues. -/
  | event (i : Instr)
  deriving DecidableEq, Repr, Inhabited

/-- A move and the nanoseconds that pass before it (log 18). -/
structure Action where
  dt : Nat
  act : Act
  deriving DecidableEq, Repr, Inhabited

end Sys2Proof
end

