-- ==== Sys2Proof/Config.lean ====
section
/-!
DEFINITION. What the manual leaves open, as constants without a body: nothing can be proved about a value of theirs, so a
theorem that mentions one holds for every value of it. Each is named in the assumption log.
-/

namespace Sys2Proof.Config

/-- The next move of the machine when the agenda names none (log 5). -/
opaque nextAction : Nat → Action

/-- A free choice among alternatives, applied to the counter of State (log 9): a picker takes it modulo their number. -/
opaque freeNat : Nat → Nat

/-- A free byte, applied to the counter of State and a position (log 9): unspecified memory contents. -/
opaque freeByte : Nat → Nat → BitVec 8

/-- Whether FMA of infinity times zero plus a quiet NaN sets NV: IEEE 754 leaves it to the implementation (R99, log 20). -/
opaque fmaInfZeroQuietInvalid : Bool

/-- The transform pipe's fixed functions of their input, before the limits that R231 and R232 set (log 11). -/
opaque xfRcp : BitVec 32 → BitVec 32
opaque xfRsqrt : BitVec 32 → BitVec 32
opaque xfExp2 : BitVec 32 → BitVec 32
opaque xfLog2 : BitVec 32 → BitVec 32
opaque xfSin : BitVec 32 → BitVec 32
opaque xfCos : BitVec 32 → BitVec 32
opaque xfTanh : BitVec 32 → BitVec 32
opaque xfErf : BitVec 32 → BitVec 32

/-- SHA-256 of a byte string (R416, R417, log 17). -/
opaque sha256 : List (BitVec 8) → BitVec 256
/-- Verification of an RSASSA-PKCS1-v1_5 signature: key, message, signature (R416, log 17). -/
opaque rsaVerify : List (BitVec 8) → List (BitVec 8) → List (BitVec 8) → Bool
/-- The signature by the private part of the identity key over a challenge nonce and the measurements (R417, log 17). -/
opaque identitySign : List (BitVec 8) → BitVec 256 → List (BitVec 256) → List (BitVec 8)
/-- The contents of the on-package ROM (R415, R417, log 17). -/
opaque romImage : List (BitVec 8)

end Sys2Proof.Config
end

