-- ==== Sys2Proof/Machine/Bits.lean ====
section
/-!
DEFINITION. Bit fields, byte order and sign extension (R3), and small operations on lists that every family uses.
-/

namespace Sys2Proof.Machine

/-- `n` bits of a natural number from bit `lo` (R3). -/
def fieldNat (w lo n : Nat) : Nat := w / 2 ^ lo % 2 ^ n

/-- Bit `i` of a natural number. -/
def bitNat (w i : Nat) : Bool := w / 2 ^ i % 2 == 1

/-- A field of an instruction word or record, as bits. -/
def field {n : Nat} (w : BitVec n) (lo len : Nat) : BitVec len := BitVec.ofNat len (w.toNat / 2 ^ lo)

/-- The low `n` bits of a number read as two's complement. -/
def toSigned (n w : Nat) : Int :=
  let u := w % 2 ^ n
  if u ≥ 2 ^ (n - 1) ∧ n ≠ 0 then (u : Int) - 2 ^ n else u

/-- The code of an integer in `n` bits, modulo 2^n. -/
def ofInt (n : Nat) (i : Int) : Nat := (i % (2 ^ n : Int)).toNat

/-- Little-endian bytes of the low `8 * n` bits (R3). -/
def toBytes : Nat → Nat → List Byte
  | 0, _ => []
  | n + 1, v => BitVec.ofNat 8 v :: toBytes n (v / 256)

/-- The number that little-endian bytes hold (R3). -/
def ofBytes : List Byte → Nat
  | [] => 0
  | b :: bs => b.toNat + 256 * ofBytes bs

/-- `n` numbers from `a` upward. -/
def upFrom (a : Nat) : Nat → List Nat
  | 0 => []
  | n + 1 => a :: upFrom (a + 1) n

/-- Division rounded up. -/
def ceilDiv (a b : Nat) : Nat := (a + b - 1) / b

/-- Round up to a multiple of `b`. -/
def roundUp (a b : Nat) : Nat := ceilDiv a b * b

/-- The lanes of a set, in ascending order. -/
def lanesOf (s : LaneSet) : List Lane := (List.finRange 32).filter fun l => s.getLsbD l.val

/-- The set of the lanes that satisfy a test. -/
def laneSet (p : Lane → Bool) : LaneSet :=
  BitVec.ofNat 32 ((List.finRange 32).foldl (fun n l => if p l then n + 2 ^ l.val else n) 0)

/-- The lowest lane of a set, lane 0 when the set is empty. -/
def lowestLane (s : LaneSet) : Lane := (lanesOf s).headD 0

/-- Number of one bits below bit `n`. -/
def popCount : Nat → Nat → Nat
  | 0, _ => 0
  | n + 1, w => w % 2 + popCount n (w / 2)

/-- Set element `i` of a list, if it has one. -/
def setAt {α : Type} (xs : List α) (i : Nat) (a : α) : List α := xs.set i a

/-- Integer square root, rounded down, by binary digits: `n` bounds the number of digits of the root. -/
def isqrtAux : Nat → Nat → Nat → Nat
  | 0, _, r => r
  | n + 1, v, r =>
    let t := r + 2 ^ n
    isqrtAux n v (if t * t ≤ v then t else r)

/-- Integer square root, rounded down. -/
def isqrt (v : Nat) : Nat := isqrtAux (v.log2 / 2 + 1) v 0

end Sys2Proof.Machine
end

