-- ==== Sys2Proof/Machine/Fields.lean ====
section
/-!
DEFINITION. The static checks of an instruction's fields (R50 to R53, R79 to R91 and the field rules of each chapter): for
each instruction, the positions of the fields that break a rule. R79 names an offending field by its lowest bit, in an
extension word by 32 plus it. Where a rule ties two fields together, the field named is the one the rule constrains, the
lower where it constrains both (log 21). Fields that are fixed for an opcode stand in the decoder's rows.
-/

namespace Sys2Proof.Machine

/-- One check. -/
def badIf (c : Bool) (pos : Nat) : List Nat := if c then [pos] else []

/-- Odd where a pair is needed (R50). -/
def oddPair {n : Nat} (wide : Bool) (r : BitVec n) (pos : Nat) : List Nat := badIf (wide && r.toNat % 2 == 1) pos

/-- Not a multiple of `n` registers. -/
def unaligned {k : Nat} (n : Nat) (r : BitVec k) (pos : Nat) : List Nat := badIf (r.toNat % n != 0) pos

/-- Above the greatest value allowed. -/
def above {n : Nat} (r : BitVec n) (max pos : Nat) : List Nat := badIf (decide (r.toNat > max)) pos

/-- The b field of a V word (R50, R51): codes 74 to 127 of the extended space are reserved, and a 64-bit operand is an even
pair of v or c registers. -/
def srcB (wide x : Bool) (b : BitVec 7) : List Nat :=
  badIf (if x then decide (b.toNat ≥ 74) || (wide && decide (b.toNat < 64) && b.toNat % 2 == 1) else wide && b.toNat % 2 == 1) 3

/-- A wave arithmetic word with a b operand: pairs, operand and type (R80). -/
def arith (wide : Bool) (d a b : BitVec 7) (x : Bool) (t : BitVec 2) (tmax : Nat) : List Nat :=
  above t tmax 0 ++ srcB wide x b ++ oddPair wide a 10 ++ oddPair wide d 17

/-- A wave arithmetic word with an immediate or a single operand. -/
def arith1 (wide : Bool) (d a : BitVec 7) (t : BitVec 2) (tmax : Nat) : List Nat :=
  above t tmax 0 ++ oddPair wide a 10 ++ oddPair wide d 17

/-- k registers are k0 to k47 (R50). -/
def kReg (r : BitVec 7) (pos : Nat) : List Nat := above r 47 pos

/-- A 64-bit wave word of class 2 or 3 with types i64 and n64 only (R82, R83). -/
def typeMax (wide : Bool) : Nat := if wide then 1 else 2

/-- The limit field (R52). -/
def limitOk (l : BitVec 7) : Bool := l.toNat == 0x7F || (decide (l.toNat ≤ 0x3F) && l.toNat % 2 == 0)

/-- The fields of a memory extension word (R52) for a word that allows some of them (R251). -/
def extFaults (lim res must cache off : Bool) (orders : List Nat) (e : MemExt) : List Nat :=
  badIf (!off && e.off != 0) 32 ++
  badIf (if cache then e.cache.toNat == 3 else e.cache != 0) 40 ++
  badIf (!orders.contains e.order.toNat) 42 ++
  badIf (decide (e.scope.toNat > 10) || ((e.order == 0) != (e.scope == 0))) 44 ++
  badIf (e.must && (!must || e.res.toNat != 63)) 49 ++
  badIf (if res then decide (e.res.toNat ≥ 48) && e.res.toNat != 63 else e.res.toNat != 63) 50 ++
  badIf (if lim then !limitOk e.limit else e.limit.toNat != 0x7F) 56

/-- The fields of an extension word, if there is one. -/
def extOpt (lim res must cache : Bool) (orders : List Nat) : Option MemExt → List Nat
  | none => []
  | some e => extFaults lim res must cache true orders e

/-- The address operand of an M-format word (R84, R237). -/
def addrFaults (a b : BitVec 7) (x f : Bool) : List Nat :=
  badIf (!f && !x) 1 ++
  (if x then badIf (decide (b.toNat ≥ 64) || b.toNat % 2 == 1) 3 else badIf (f && b != 0) 3) ++
  (if f then badIf (if x then a != 0 else a.toNat % 2 == 1) 10 else [])

/-- The form-0 operand of GATH, SCAT and SCADD (R259). -/
def addr0 (b : BitVec 7) : List Nat := badIf (decide (b.toNat ≥ 64) || b.toNat % 2 == 1) 3

/-- The d field of a memory word: the register count of its data (R244, R253). -/
def dataReg (n : Nat) (d : BitVec 7) : List Nat := unaligned n d 17

/-- Register counts of the types of LD and ST: .b64 a pair, .b128 a quad (R244). -/
def ldRegs (t : Nat) : Nat := if t = 3 then 2 else if t = 4 then 4 else 1

/-- Register counts of the types of ST.SK (R244). -/
def skRegs (t : Nat) : Nat := if t = 3 ∨ t = 7 then 2 else 1

def plainAcq : List Nat := [0, 1]
def plainRel : List Nat := [0, 2]
def anyOrder : List Nat := [0, 1, 2, 3]

/-- The predicate and policy of a wave branch (R86): 63 is always, and then the policy is 00. -/
def brPred (p : BitVec 6) (u : BitVec 2) : List Nat :=
  badIf (p.toNat == 63 && u != 0) 16 ++ badIf (decide (p.toNat > 47) && p.toNat != 63) 18

/-- The join offset of a wave branch (R185): there for .up, and none where the branch is always taken. -/
def brJoin (p : BitVec 6) (u : BitVec 2) (j : BitVec 8) : List Nat :=
  badIf (if p.toNat == 63 then j != 0 else u.toNat == 2 && j == 0) 0

/-- The predicate and policy of a lead branch (R89). -/
def leadPred (p : BitVec 6) (u : BitVec 2) : List Nat :=
  badIf (u.toNat == 2 || (p.toNat == 63 && u != 0)) 16 ++ badIf (decide (p.toNat > 15) && p.toNat != 63) 18

/-- The y, b and c32 fields of an L word (R51, R133): y 00 x, 01 c, 10 special, 11 reserved. `m` bit 2 reads one uniform
register instead of a pair. -/
def leadB (b : BitVec 6) (y : BitVec 2) (c32 : Bool) : List Nat :=
  badIf (c32 && y.toNat != 1) 2 ++ badIf (y.toNat == 3) 4 ++
  badIf ((y.toNat == 2 && decide (b.toNat > 5)) || (y.toNat == 1 && !c32 && b.toNat % 2 == 1)) 6

/-- A scope that must be 1 to 10, at a position. -/
def scopeAt (p : BitVec 4) (pos : Nat) : List Nat := badIf (p == 0 || decide (p.toNat > 10)) pos

/-- A token never names x0 (R23). -/
def tokenReg (d : BitVec 6) : List Nat := badIf (d == 0) 18

/-- The handle field of a barrier-object or copy word is zero where no tile is named (R339, R344). -/
def handleIf (tile : Bool) (h : BitVec 8) : List Nat := badIf (!tile && h != 0) 54

/-- Formats with an element of at most 64 bits, for CVT (R214, R215): codes 0 to 19. -/
def cvtFaults (d a : BitVec 7) (e : CvtExt) : List Nat :=
  let s := e.source.toNat
  let t := e.target.toNat
  let wide (c : Nat) : Bool := c == 3 || c == 7 || c == 11
  let raw (c : Nat) : Bool := decide (8 ≤ c) && decide (c ≤ 11)
  let bits (c : Nat) : Nat := if c < 12 then 8 * 2 ^ (c % 4) else [32, 16, 16, 8, 8, 4, 4, 4].getD (c - 12) 0
  badIf (wide s && a.toNat % 2 == 1) 10 ++ badIf (wide t && d.toNat % 2 == 1) 17 ++
  badIf (decide (e.rnd.toNat > 4)) 35 ++
  badIf (decide (s ≥ 20) || s == t || ((raw s != raw t) && bits s != bits t)) 38 ++ badIf (decide (t ≥ 20)) 43

/-- The second operand of a reduction or scan (R220). -/
def reduceFaults (wide : Bool) (d a b : BitVec 7) (x : Bool) (t : BitVec 2) : List Nat :=
  above t (typeMax wide) 0 ++
  badIf (if x then b != 0
    else decide (b.toNat = d.toNat) || (wide && decide (b.toNat = d.toNat + 1))) 3 ++
  oddPair wide a 10 ++ oddPair wide d 17

/-- The positions of the fields of an instruction that break a rule. -/
def fieldFaults : Instr → List Nat
  | .add _ w d a b x t => arith w d a b x t 2
  | .addImm _ w d a _ t => arith1 w d a t 2
  | .sub _ w d a b x t => arith w d a b x t 2
  | .subImm _ w d a _ t => arith1 w d a t 2
  | .mul _ w d a b x t => arith w d a b x t 2
  | .mulImm _ w d a _ t => arith1 w d a t 2
  | .mulh _ w d a b x t => arith w d a b x t 2
  | .mad _ w d a b x t => arith w d a b x t 2
  | .abs _ w d a => arith1 w d a 0 2
  | .neg _ w d a t => badIf (t.toNat == 1) 0 ++ arith1 w d a t 2
  | .min _ w d a b x t => arith w d a b x t 1
  | .minImm _ w d a _ t => arith1 w d a t 1
  | .max _ w d a b x t => arith w d a b x t 1
  | .maxImm _ w d a _ t => arith1 w d a t 1
  | .and _ w d a b x => arith w d a b x 0 2
  | .andImm _ w d a _ => arith1 w d a 0 2
  | .or _ w d a b x => arith w d a b x 0 2
  | .orImm _ w d a _ => arith1 w d a 0 2
  | .xor _ w d a b x => arith w d a b x 0 2
  | .xorImm _ w d a _ => arith1 w d a 0 2
  | .not _ w d a => arith1 w d a 0 2
  | .shl _ w d a b x => arith w d a b x 0 2
  | .shlImm _ w d a _ => arith1 w d a 0 2
  | .shr _ w d a b x => arith w d a b x 0 2
  | .shrImm _ w d a _ => arith1 w d a 0 2
  | .sar _ w d a b x => arith w d a b x 0 2
  | .sarImm _ w d a _ => arith1 w d a 0 2
  | .rot _ w d a b x => arith w d a b x 0 2
  | .rotImm _ w d a _ => arith1 w d a 0 2
  | .clz _ w d a => arith1 w d a 0 2
  | .popc _ w d a => arith1 w d a 0 2
  | .bfe _ w d a b x => arith w d a b x 0 2
  | .bfi _ w d a b x => arith w d a b x 0 2
  | .fadd _ _ _ b x => srcB false x b
  | .faddImm _ _ _ _ => []
  | .fsub _ _ _ b x => srcB false x b
  | .fsubImm _ _ _ _ => []
  | .fmul _ _ _ b x => srcB false x b
  | .fmulImm _ _ _ _ => []
  | .fma _ _ _ b x => srcB false x b
  | .fmin _ _ _ b x => srcB false x b
  | .fminImm _ _ _ _ => []
  | .fmax _ _ _ b x => srcB false x b
  | .fmaxImm _ _ _ _ => []
  | .fabs _ _ _ => []
  | .fneg _ _ _ => []
  | .frnd _ _ _ r => above r 4 3
  | .cmp _ w c d a b x t => above t 2 0 ++ srcB w x b ++ oddPair w a 10 ++ kReg d 17 ++ above c 5 24
  | .cmpImm _ w c d a _ t => above t 2 0 ++ oddPair w a 10 ++ kReg d 17 ++ above c 5 24
  | .fcmp _ c d _ b x => srcB false x b ++ kReg d 17 ++ above c 5 24
  | .fcmpImm _ c d _ _ => kReg d 17 ++ above c 5 24
  | .kand _ d a b => kReg b 3 ++ kReg a 10 ++ kReg d 17
  | .kor _ d a b => kReg b 3 ++ kReg a 10 ++ kReg d 17
  | .kxor _ d a b => kReg b 3 ++ kReg a 10 ++ kReg d 17
  | .knot _ d a => kReg a 10 ++ kReg d 17
  | .kis _ d a t => above t 2 0 ++ kReg a 10 ++ kReg d 17
  | .isabs _ d _ t => above t 2 0 ++ kReg d 17
  | .isabs64 _ d a t => above t 1 0 ++ oddPair true a 10 ++ kReg d 17
  | .coal _ d a b x t => arith false d a b x t 2
  | .coal64 _ d a b x t => arith true d a b x t 1
  | .mkabs _ d a b x t => arith false d a b x t 2
  | .mkabs64 _ d a b x t => above t 1 0 ++ srcB true x b ++ oddPair true a 10 ++ oddPair true d 17
  | .nullif _ d a b x t => arith false d a b x t 2
  | .nullif64 _ d a b x t => arith true d a b x t 1
  | .sel _ _ a b x t => above t 2 0 ++ srcB false x b ++ kReg a 10
  | .sel64 _ d a b x t => above t 1 0 ++ srcB true x b ++ kReg a 10 ++ oddPair true d 17
  | .cvt _ d a e => cvtFaults d a e
  | .rsum _ w d a b x t => reduceFaults w d a b x t
  | .rmin _ w d a b x t => reduceFaults w d a b x t
  | .rmax _ w d a b x t => reduceFaults w d a b x t
  | .rcnt _ w _ a t => above t (typeMax w) 0 ++ oddPair w a 10
  | .scan _ w d a b x t => reduceFaults w d a b x t
  | .shfl _ _ _ b x _ => srcB false x b
  | .shflImm _ _ _ i _ => above i 31 2
  | .bcastImm _ _ _ i => above i 31 2
  | .bcast _ _ _ b x => srcB false x b
  | .vote _ _ a o => above o 2 0 ++ kReg a 10
  | .dot4 _ _ _ b x t => above t 1 0 ++ srcB false x b
  | .dot8 _ _ _ b x t => above t 1 0 ++ srcB false x b
  | .dot2 _ _ _ b x => srcB false x b
  | .scale _ _ _ b x => srcB false x b
  | .pack _ _ _ b x t => above t 2 0 ++ srcB false x b
  | .unpk _ _ _ b x t => above t 2 0 ++ srcB false x b
  | .xfRcp _ _ _ => []
  | .xfRsqrt _ _ _ => []
  | .xfSqrt _ _ _ => []
  | .xfExp2 _ _ _ => []
  | .xfLog2 _ _ _ => []
  | .xfSin _ _ _ => []
  | .xfCos _ _ _ => []
  | .xfTanh _ _ _ => []
  | .xfErf _ _ _ => []
  | .xfQsb8 _ d _ b => badIf (b == d) 3
  | .xfXpose _ _ _ => []
  | .xfSort _ d _ b t => above t 2 0 ++ badIf (b == d) 3
  | .ld _ t d a b x f e => addrFaults a b x f ++ dataReg (ldRegs t.toNat) d ++ above t 8 24 ++ extOpt true true true true plainAcq e
  | .st _ t d a b x f e => addrFaults a b x f ++ dataReg (ldRegs t.toNat) d ++ above t 8 24 ++ extOpt true true true true plainRel e
  | .stSk _ t d a b x f e => addrFaults a b x f ++ dataReg (skRegs t.toNat) d ++ above t 8 24 ++ extOpt true true true true plainRel e
  | .stnt _ t d a b x f e => addrFaults a b x f ++ dataReg (ldRegs t.toNat) d ++ above t 4 24 ++ extOpt true true true true [0] e
  | .ntdrain _ e => extFaults false false false false false [2] e
  | .touch _ a b x f e => addrFaults a b x f ++ extOpt true true true false [0] e
  | .fence _ e => extFaults false false false false false [1, 2, 3] e
  | .xfence _ d a e => badIf (decide (a.toNat > 3) || a == d) 10 ++ above d 3 17 ++ extFaults false false false false false [3] e
  | .post _ d => dataReg 2 d
  | .bwait _ _ a b x f e => addrFaults a b x f ++ extOpt true false false false [1] e
  | .wake _ _ a b x f e => addrFaults a b x f ++ extOpt true false false false [0] e
  | .atomAdd _ t d a b x f e => addrFaults a b x f ++ dataReg (if t.toNat ≥ 4 then 2 else 1) d ++ above t 6 24 ++ extOpt true true true false anyOrder e
  | .atomMin _ t d a b x f e => addrFaults a b x f ++ dataReg (if t.toNat ≥ 2 then 2 else 1) d ++ extOpt true true true false anyOrder e
  | .atomMax _ t d a b x f e => addrFaults a b x f ++ dataReg (if t.toNat ≥ 2 then 2 else 1) d ++ extOpt true true true false anyOrder e
  | .atomAnd _ w d a b x f e => addrFaults a b x f ++ dataReg (if w then 2 else 1) d ++ extOpt true true true false anyOrder e
  | .atomOr _ w d a b x f e => addrFaults a b x f ++ dataReg (if w then 2 else 1) d ++ extOpt true true true false anyOrder e
  | .atomXor _ w d a b x f e => addrFaults a b x f ++ dataReg (if w then 2 else 1) d ++ extOpt true true true false anyOrder e
  | .atomXchg _ w d a b x f e => addrFaults a b x f ++ dataReg (if w then 2 else 1) d ++ extOpt true true true false anyOrder e
  | .cas _ w d a b x f e => addrFaults a b x f ++ dataReg (if w then 4 else 2) d ++ extOpt true true true false anyOrder e
  | .waita _ w d a b x f e => addrFaults a b x f ++ dataReg (if w then 2 else 1) d ++ extOpt true false false false [1] e
  | .gath _ _ _ b e => addr0 b ++ extOpt true true true true plainAcq e
  | .scat _ _ _ b e => addr0 b ++ extOpt true true true true plainRel e
  | .scadd _ _ _ b e => addr0 b ++ extOpt true true true false plainRel e
  | .confd _ _ _ => []
  | .tld _ t d _ _ e => dataReg (2 ^ t.toNat) d ++ above t 2 24 ++ extOpt true false false false [0] e
  | .tst _ t d _ _ e => dataReg (2 ^ t.toNat) d ++ above t 2 24 ++ extOpt true false false false [0] e
  | .tstSk _ t _ _ _ e => above t 2 24 ++ extOpt true false false false [0] e
  | .br _ p u _ j => brJoin p u j ++ brPred p u
  | .brc _ p u _ j => brJoin p u j ++ brPred p u
  | .brq _ _ _ => []
  | .join _ => []
  | .call _ _ => []
  | .ret _ => []
  | .jmpx _ a _ => oddPair true a 10
  | .callx _ a _ => oddPair true a 10
  | .exit _ => []
  | .bar _ _ a _ => badIf (decide (a.toNat ≥ 64) || a.toNat % 4 != 0) 10
  | .live _ a => badIf (decide (a.toNat ≥ 64) || a.toNat % 4 != 0) 10
  | .savept _ _ => []
  | .trap _ i => above i 61 2
  | .rdstat _ d => dataReg 2 d
  | .wrstat _ _ => []
  | .rtf _ _ => []
  | .yield _ => []
  | .leadAdd _ _ _ b y c t => above t 2 0 ++ leadB b y c
  | .leadAddImm _ _ _ _ t => above t 2 0
  | .leadSub _ _ _ b y c t => above t 2 0 ++ leadB b y c
  | .leadSubImm _ _ _ _ t => above t 2 0
  | .leadMul _ _ _ b y c t => above t 2 0 ++ leadB b y c
  | .leadMulImm _ _ _ _ t => above t 2 0
  | .leadMulh _ _ _ b y c t => above t 1 0 ++ leadB b y c
  | .div _ _ _ b y c t => above t 1 0 ++ leadB b y c
  | .rem _ _ _ b y c t => above t 1 0 ++ leadB b y c
  | .leadAnd _ _ _ b y c => leadB b y c
  | .leadAndImm _ _ _ _ => []
  | .leadOr _ _ _ b y c => leadB b y c
  | .leadOrImm _ _ _ _ => []
  | .leadXor _ _ _ b y c => leadB b y c
  | .leadXorImm _ _ _ _ => []
  | .leadShl _ _ _ b y c => leadB b y c
  | .leadShlImm _ _ _ _ => []
  | .leadShr _ _ _ b y c => leadB b y c
  | .leadShrImm _ _ _ _ => []
  | .leadSar _ _ _ b y c => leadB b y c
  | .leadSarImm _ _ _ _ => []
  | .leadMin _ _ _ b y c t => above t 1 0 ++ leadB b y c
  | .leadMax _ _ _ b y c t => above t 1 0 ++ leadB b y c
  | .leadCmp _ c d _ b y c32 t => above t 2 0 ++ leadB b y c32 ++ above d 15 18 ++ above c 5 24
  | .leadCmpImm _ c d _ _ t => above t 2 0 ++ above d 15 18 ++ above c 5 24
  | .leadSel _ _ a b y c t => above t 2 0 ++ leadB b y c ++ above a 15 12
  | .movi _ _ _ t => above t 2 0
  | .movc _ d _ w => oddPair w d 18
  | .ldx _ _ _ _ _ => []
  | .stx _ _ _ _ _ => []
  | .atomxAdd _ t _ _ _ p _ => scopeAt p 2 ++ above t 2 24
  | .atomxMinI64 _ _ _ _ p _ => scopeAt p 2
  | .atomxMinN64 _ _ _ _ p _ => scopeAt p 2
  | .atomxMaxI64 _ _ _ _ p _ => scopeAt p 2
  | .atomxMaxN64 _ _ _ _ p _ => scopeAt p 2
  | .atomxAnd _ _ _ _ p _ => scopeAt p 2
  | .atomxOr _ _ _ _ p _ => scopeAt p 2
  | .atomxXor _ _ _ _ p _ => scopeAt p 2
  | .atomxXchg _ _ _ _ p _ => scopeAt p 2
  | .atomxCas _ _ _ _ p _ => scopeAt p 2
  | .leadBr _ p u _ => leadPred p u
  | .leadBrc _ p u _ => leadPred p u
  | .leadCall _ p u _ => leadPred p u
  | .leadRet _ => []
  | .dqpush _ d _ => above d 3 18
  | .rqpop _ _ => []
  | .qpush _ _ _ _ p => scopeAt p 2
  | .qpop _ _ _ p => scopeAt p 2
  | .leadWaita _ _ _ _ p w => above w 1 0 ++ scopeAt p 2
  | .leadWake _ _ _ _ p => scopeAt p 2
  | .leadFence _ p o => badIf (o == 0) 0 ++ scopeAt p 2
  | .leadXfence _ d a p => scopeAt p 2 ++ badIf (decide (a.toNat > 3) || a == d) 12 ++ above d 3 18
  | .mzero _ d _ _ _ => tokenReg d
  | .mma _ d _ _ _ _ _ _ => tokenReg d
  | .mmc _ d _ _ acc src f _ =>
    tokenReg d ++ badIf (!([0, 14, 18, 20, 21].contains f.toNat)) 48 ++ badIf (src == acc) 53
  | .mmw _ d _ _ _ _ _ => tokenReg d
  | .mdrain _ d _ _ _ _ => tokenReg d
  | .mload _ d _ _ _ _ => tokenReg d
  | .talloc _ d _ _ _ f _ _ => tokenReg d ++ above f 21 50
  | .tfree _ d _ => tokenReg d
  | .tbind _ d _ _ => tokenReg d
  | .tdry _ d _ => tokenReg d
  | .tstat _ d _ _ => tokenReg d
  | .abind _ d _ _ _ => tokenReg d
  | .seek _ d _ _ _ ka mc _ => tokenReg d ++ badIf (decide (mc.toNat > 4)) 55 ++ badIf (decide (ka.toNat > 3)) 58
  | .proj _ d _ _ _ => tokenReg d
  | .copy _ d _ tile h => tokenReg d ++ handleIf tile h
  | .pcopy _ d _ _ p _ => tokenReg d ++ scopeAt p 48
  | .binit _ _ _ tile h p => scopeAt p 50 ++ handleIf tile h
  | .barr _ _ _ _ tile h p => scopeAt p 50 ++ handleIf tile h
  | .leadBwait _ _ _ _ tile h p => scopeAt p 50 ++ handleIf tile h
  | .smapLook _ _ _ _ => []
  | .smapAppend _ _ _ _ => []
  | .smapShare _ _ _ _ => []
  | .smapLen _ _ _ _ => []
  | .smapEvict _ _ _ _ => []
  | .chase _ d _ _ _ _ => tokenReg d
  | .launch _ d _ p => tokenReg d ++ scopeAt p 2
  | .mark _ d _ _ => above d 15 18
  | .snap _ => []
  | .rollbk _ => []
  | .commit _ => []
  | .leadTrap _ b => above b 61 6
  | .leadRdstat _ _ => []
  | .leadWrstat _ _ => []
  | .leadRtf _ _ => []
  | .leadSavept _ _ _ => []
  | .leadExit _ => []
  | .rep _ _ _ => []
  | .clauseFetch => []
  | .resultReturn _ _ => []
  | .regcacheFill _ _ _ => []
  | .xfReply _ => []
  | .memoryReply _ _ => []
  | .collectorRoom _ => []
  | .queueStallRelease _ => []
  | .waitEnd _ _ => []
  | .waitTimeout _ => []
  | .bwaitResume _ => []
  | .pageResident _ => []
  | .tileFill _ _ _ => []
  | .tileEvict _ _ _ => []
  | .matrixKStep _ => []
  | .matrixOpComplete _ => []
  | .chunkDeliver _ _ => []
  | .pcopyComplete _ => []
  | .chasePage _ => []
  | .sqDoorbell _ _ => []
  | .queueEnable _ => []
  | .queueDisable _ => []
  | .cancel _ => []
  | .cancelAll => []
  | .retire _ => []
  | .registerWrite _ _ _ => []
  | .recordConsume _ _ => []
  | .launchAccept _ _ => []
  | .gangBind _ _ => []
  | .crewStart _ => []
  | .boundOverrun _ => []
  | .preemptRequest _ _ => []
  | .saveComplete _ => []
  | .saveTimeout _ => []
  | .gangRestore _ _ => []
  | .gangRelaunch _ => []
  | .comparePoint _ _ => []
  | .unitCompare _ => []
  | .pairFaultMatch _ _ => []
  | .uncorrectableError _ _ => []
  | .scrub _ _ => []
  | .ageingMeasure _ _ => []
  | .clockLimitApply _ => []
  | .machineDissent _ _ => []
  | .machineResync _ _ => []
  | .powerControl _ => []
  | .hostMemoryAccess _ => []
  | .podAccess _ => []
  | .linkReplay _ => []
  | .linkFailure _ => []
  | .routeChange _ => []
  | .powerOn => []
  | .deviceReset => []
  | .imageCheck => []
  | .dieBringUp _ _ => []
  | .memoryTraining _ => []
  | .schedulerStart => []
  | .getMeasurements _ => []
  | .challenge _ => []
  | .pldmFirmwareUpdate _ => []
  | .pldmSetCap _ => []
  | .pldmSensors => []
  | .unlistedOpcode _ => []
  | .pageDemotion _ _ => []

end Sys2Proof.Machine
end

