-- ==== Sys2Proof/WellFormed.lean ====
section
/-!
DEFINITION. Well-formed instructions: every field within the limits of the spec. The events of the device carry choices of
the outside world, checked where they act, and are well-formed as they stand.
-/

namespace Sys2Proof

/-- No field of the instruction breaks a rule (R50 to R53, R79 to R91). -/
def Instr.wf (i : Instr) : Bool := (Machine.fieldFaults i).isEmpty

end Sys2Proof
end

