-- ==== Sys2Proof/Decode.lean ====
section
/-!
DEFINITION. The decoder, one function per clause class (R80 to R91), total on every word; the encoder, written from the same
tables; and the reading of a word by the opcode table's own numbering. A word decodes to an instruction, or is rejected with
the position that R79 puts into aux. An opcode that its class does not list decodes to UNLISTED_OPCODE (R79).
-/

namespace Sys2Proof

open Machine

/-- What a word says: an instruction and its length in words, or illegal_instruction with its aux (R79). -/
inductive Decoded where
  | ok (i : Instr) (words : Nat)
  | bad (aux : Nat)
  deriving DecidableEq, Repr, Inhabited

/-- Only the lowest offending field is reported (R79). -/
def conclude (faults : List Nat) (i : Instr) (n : Nat) : Decoded :=
  match faults with
  | [] => .ok i n
  | a :: as => .bad (as.foldl (fun x y => if y < x then y else x) a)

/-- Fields with a fixed value, each as lowest bit, length and value. -/
def fixedFaults (w : Nat) (fx : List (Nat × Nat × Nat)) : List Nat :=
  fx.filterMap fun x => if fieldNat w x.1 x.2.1 = x.2.2 then none else some x.1

/-- Position of the lowest set bit among `n` bits. -/
def lowBit : Nat → Nat → Nat
  | 0, _ => 0
  | n + 1, v => if v % 2 = 1 then 0 else 1 + lowBit n (v / 2)

/-- Bits of an extension word that no field names, as runs of lowest bit and length: zero, each bit a field of its own
(log 21), and bit 31 (R48). -/
def extReserved (e : Nat) (runs : List (Nat × Nat)) : List Nat :=
  (runs.filterMap fun x =>
    let v := fieldNat e x.1 x.2
    if v = 0 then none else some (32 + x.1 + lowBit x.2 v)) ++ badIf (bitNat e 31) 63

/-- A word without an extension. -/
def row (w : Word) (fx : List (Nat × Nat × Nat)) (i : Instr) : Decoded :=
  conclude (fixedFaults w.toNat fx ++ fieldFaults i) i 1

/-- The fields of a memory extension word (R52). -/
def memExtOf (e : Word) : MemExt :=
  { limit := field e 24 7, res := field e 18 6, must := bitNat e.toNat 17, scope := field e 12 4, order := field e 10 2,
    cache := field e 8 2, off := field e 0 8 }

/-- The reserved bits of a memory extension word (R52). -/
def memExtReserved (e : Word) : List Nat := extReserved e.toNat [(16, 1)]

/-- An M-format or T-format word: bit 0 says whether an extension word follows (R49). R46 refuses a clause whose last word
lacks its extension; a word without one here has a cause in no field. -/
def memRow (w : Word) (ext : Option Word) (fx : List (Nat × Nat × Nat)) (mk : Option MemExt → Instr) : Decoded :=
  if bitNat w.toNat 0 then
    match ext with
    | some e =>
      let i := mk (some (memExtOf e))
      conclude (fixedFaults w.toNat fx ++ memExtReserved e ++ fieldFaults i) i 2
    | none => .bad 64
  else
    let i := mk none
    conclude (fixedFaults w.toNat fx ++ fieldFaults i) i 1

/-- NTDRAIN, FENCE and XFENCE need their extension word (R84). -/
def memRowReq (w : Word) (ext : Option Word) (fx : List (Nat × Nat × Nat)) (mk : MemExt → Instr) : Decoded :=
  if bitNat w.toNat 0 then
    match ext with
    | some e =>
      let i := mk (memExtOf e)
      conclude (fixedFaults w.toNat fx ++ memExtReserved e ++ fieldFaults i) i 2
    | none => .bad 64
  else .bad 0

/-- CVT and its extension word (R214). -/
def cvtRow (w : Word) (ext : Option Word) (fx : List (Nat × Nat × Nat)) (mk : CvtExt → Instr) : Decoded :=
  match ext with
  | some e =>
    let i := mk { target := field e 11 5, source := field e 6 5, rnd := field e 3 3 }
    conclude (fixedFaults w.toNat fx ++ badIf (fieldNat e.toNat 0 3 != 0) 32 ++ badIf (fieldNat e.toNat 16 15 != 0) 48 ++
      badIf (bitNat e.toNat 31) 63 ++ fieldFaults i) i 2
  | none => .bad 64

/-- A word of class 10 or 11 with its extension word (R49). -/
def extRow (w : Word) (ext : Option Word) (fx : List (Nat × Nat × Nat)) (runs : List (Nat × Nat)) (mk : Word → Instr) :
    Decoded :=
  match ext with
  | some e =>
    let i := mk e
    conclude (fixedFaults w.toNat fx ++ extReserved e.toNat runs ++ fieldFaults i) i 2
  | none => .bad 64

/-- SMAP: the operation stands in the extension word (R162). -/
def smapRow (w : Word) (ext : Option Word) : Decoded :=
  let z := bitNat w.toNat 31
  let d := field w 18 6
  let a := field w 12 6
  let b := field w 6 6
  match ext with
  | some e =>
    let op (i : Instr) : Decoded :=
      conclude (fixedFaults w.toNat [(0, 6, 0)] ++ extReserved e.toNat [(3, 28)] ++ fieldFaults i) i 2
    match fieldNat e.toNat 0 3 with
    | 0 => op (.smapLook z d a b)
    | 1 => op (.smapAppend z d a b)
    | 2 => op (.smapShare z d a b)
    | 3 => op (.smapLen z d a b)
    | 4 => op (.smapEvict z d a b)
    | _ => conclude (fixedFaults w.toNat [(0, 6, 0)] ++ [32]) (.smapLook z d a b) 2
  | none => .bad 64

/-- Class 0 (R80). -/
def decode0 (w : Word) : Decoded :=
  match fieldNat w.toNat 24 7 with
  | 0x00 | 0x40 => row w [] (.add (bitNat w.toNat 31) (bitNat w.toNat 30) (field w 17 7) (field w 10 7) (field w 3 7) (bitNat w.toNat 2) (field w 0 2))
  | 0x01 | 0x41 => row w [] (.addImm (bitNat w.toNat 31) (bitNat w.toNat 30) (field w 17 7) (field w 10 7) (field w 2 8) (field w 0 2))
  | 0x02 | 0x42 => row w [] (.sub (bitNat w.toNat 31) (bitNat w.toNat 30) (field w 17 7) (field w 10 7) (field w 3 7) (bitNat w.toNat 2) (field w 0 2))
  | 0x03 | 0x43 => row w [] (.subImm (bitNat w.toNat 31) (bitNat w.toNat 30) (field w 17 7) (field w 10 7) (field w 2 8) (field w 0 2))
  | 0x04 | 0x44 => row w [] (.mul (bitNat w.toNat 31) (bitNat w.toNat 30) (field w 17 7) (field w 10 7) (field w 3 7) (bitNat w.toNat 2) (field w 0 2))
  | 0x05 | 0x45 => row w [] (.mulImm (bitNat w.toNat 31) (bitNat w.toNat 30) (field w 17 7) (field w 10 7) (field w 2 8) (field w 0 2))
  | 0x06 | 0x46 => row w [] (.mulh (bitNat w.toNat 31) (bitNat w.toNat 30) (field w 17 7) (field w 10 7) (field w 3 7) (bitNat w.toNat 2) (field w 0 2))
  | 0x07 | 0x47 => row w [] (.mad (bitNat w.toNat 31) (bitNat w.toNat 30) (field w 17 7) (field w 10 7) (field w 3 7) (bitNat w.toNat 2) (field w 0 2))
  | 0x08 | 0x48 => row w [(0, 2, 0), (2, 1, 0), (3, 7, 0)] (.abs (bitNat w.toNat 31) (bitNat w.toNat 30) (field w 17 7) (field w 10 7))
  | 0x09 | 0x49 => row w [(2, 1, 0), (3, 7, 0)] (.neg (bitNat w.toNat 31) (bitNat w.toNat 30) (field w 17 7) (field w 10 7) (field w 0 2))
  | 0x0A | 0x4A => row w [] (.min (bitNat w.toNat 31) (bitNat w.toNat 30) (field w 17 7) (field w 10 7) (field w 3 7) (bitNat w.toNat 2) (field w 0 2))
  | 0x0B | 0x4B => row w [] (.minImm (bitNat w.toNat 31) (bitNat w.toNat 30) (field w 17 7) (field w 10 7) (field w 2 8) (field w 0 2))
  | 0x0C | 0x4C => row w [] (.max (bitNat w.toNat 31) (bitNat w.toNat 30) (field w 17 7) (field w 10 7) (field w 3 7) (bitNat w.toNat 2) (field w 0 2))
  | 0x0D | 0x4D => row w [] (.maxImm (bitNat w.toNat 31) (bitNat w.toNat 30) (field w 17 7) (field w 10 7) (field w 2 8) (field w 0 2))
  | 0x0E | 0x4E => row w [(0, 2, 2)] (.and (bitNat w.toNat 31) (bitNat w.toNat 30) (field w 17 7) (field w 10 7) (field w 3 7) (bitNat w.toNat 2))
  | 0x0F | 0x4F => row w [(0, 2, 2)] (.andImm (bitNat w.toNat 31) (bitNat w.toNat 30) (field w 17 7) (field w 10 7) (field w 2 8))
  | 0x10 | 0x50 => row w [(0, 2, 2)] (.or (bitNat w.toNat 31) (bitNat w.toNat 30) (field w 17 7) (field w 10 7) (field w 3 7) (bitNat w.toNat 2))
  | 0x11 | 0x51 => row w [(0, 2, 2)] (.orImm (bitNat w.toNat 31) (bitNat w.toNat 30) (field w 17 7) (field w 10 7) (field w 2 8))
  | 0x12 | 0x52 => row w [(0, 2, 2)] (.xor (bitNat w.toNat 31) (bitNat w.toNat 30) (field w 17 7) (field w 10 7) (field w 3 7) (bitNat w.toNat 2))
  | 0x13 | 0x53 => row w [(0, 2, 2)] (.xorImm (bitNat w.toNat 31) (bitNat w.toNat 30) (field w 17 7) (field w 10 7) (field w 2 8))
  | 0x14 | 0x54 => row w [(0, 2, 2), (2, 1, 0), (3, 7, 0)] (.not (bitNat w.toNat 31) (bitNat w.toNat 30) (field w 17 7) (field w 10 7))
  | 0x15 | 0x55 => row w [(0, 2, 2)] (.shl (bitNat w.toNat 31) (bitNat w.toNat 30) (field w 17 7) (field w 10 7) (field w 3 7) (bitNat w.toNat 2))
  | 0x16 | 0x56 => row w [(0, 2, 2)] (.shlImm (bitNat w.toNat 31) (bitNat w.toNat 30) (field w 17 7) (field w 10 7) (field w 2 8))
  | 0x17 | 0x57 => row w [(0, 2, 2)] (.shr (bitNat w.toNat 31) (bitNat w.toNat 30) (field w 17 7) (field w 10 7) (field w 3 7) (bitNat w.toNat 2))
  | 0x18 | 0x58 => row w [(0, 2, 2)] (.shrImm (bitNat w.toNat 31) (bitNat w.toNat 30) (field w 17 7) (field w 10 7) (field w 2 8))
  | 0x19 | 0x59 => row w [(0, 2, 2)] (.sar (bitNat w.toNat 31) (bitNat w.toNat 30) (field w 17 7) (field w 10 7) (field w 3 7) (bitNat w.toNat 2))
  | 0x1A | 0x5A => row w [(0, 2, 2)] (.sarImm (bitNat w.toNat 31) (bitNat w.toNat 30) (field w 17 7) (field w 10 7) (field w 2 8))
  | 0x1B | 0x5B => row w [(0, 2, 2)] (.rot (bitNat w.toNat 31) (bitNat w.toNat 30) (field w 17 7) (field w 10 7) (field w 3 7) (bitNat w.toNat 2))
  | 0x1C | 0x5C => row w [(0, 2, 2)] (.rotImm (bitNat w.toNat 31) (bitNat w.toNat 30) (field w 17 7) (field w 10 7) (field w 2 8))
  | 0x1D | 0x5D => row w [(0, 2, 2), (2, 1, 0), (3, 7, 0)] (.clz (bitNat w.toNat 31) (bitNat w.toNat 30) (field w 17 7) (field w 10 7))
  | 0x1E | 0x5E => row w [(0, 2, 2), (2, 1, 0), (3, 7, 0)] (.popc (bitNat w.toNat 31) (bitNat w.toNat 30) (field w 17 7) (field w 10 7))
  | 0x1F | 0x5F => row w [(0, 2, 2)] (.bfe (bitNat w.toNat 31) (bitNat w.toNat 30) (field w 17 7) (field w 10 7) (field w 3 7) (bitNat w.toNat 2))
  | 0x20 | 0x60 => row w [(0, 2, 2)] (.bfi (bitNat w.toNat 31) (bitNat w.toNat 30) (field w 17 7) (field w 10 7) (field w 3 7) (bitNat w.toNat 2))
  | _ => .ok (.unlistedOpcode w) 1

/-- Class 1 (R81). -/
def decode1 (w : Word) : Decoded :=
  match fieldNat w.toNat 24 7 with
  | 0x00 => row w [(0, 2, 0)] (.fadd (bitNat w.toNat 31) (field w 17 7) (field w 10 7) (field w 3 7) (bitNat w.toNat 2))
  | 0x01 => row w [(0, 2, 0)] (.faddImm (bitNat w.toNat 31) (field w 17 7) (field w 10 7) (field w 2 8))
  | 0x02 => row w [(0, 2, 0)] (.fsub (bitNat w.toNat 31) (field w 17 7) (field w 10 7) (field w 3 7) (bitNat w.toNat 2))
  | 0x03 => row w [(0, 2, 0)] (.fsubImm (bitNat w.toNat 31) (field w 17 7) (field w 10 7) (field w 2 8))
  | 0x04 => row w [(0, 2, 0)] (.fmul (bitNat w.toNat 31) (field w 17 7) (field w 10 7) (field w 3 7) (bitNat w.toNat 2))
  | 0x05 => row w [(0, 2, 0)] (.fmulImm (bitNat w.toNat 31) (field w 17 7) (field w 10 7) (field w 2 8))
  | 0x06 => row w [(0, 2, 0)] (.fma (bitNat w.toNat 31) (field w 17 7) (field w 10 7) (field w 3 7) (bitNat w.toNat 2))
  | 0x07 => row w [(0, 2, 0)] (.fmin (bitNat w.toNat 31) (field w 17 7) (field w 10 7) (field w 3 7) (bitNat w.toNat 2))
  | 0x08 => row w [(0, 2, 0)] (.fminImm (bitNat w.toNat 31) (field w 17 7) (field w 10 7) (field w 2 8))
  | 0x09 => row w [(0, 2, 0)] (.fmax (bitNat w.toNat 31) (field w 17 7) (field w 10 7) (field w 3 7) (bitNat w.toNat 2))
  | 0x0A => row w [(0, 2, 0)] (.fmaxImm (bitNat w.toNat 31) (field w 17 7) (field w 10 7) (field w 2 8))
  | 0x0B => row w [(0, 2, 0), (2, 1, 0), (3, 7, 0)] (.fabs (bitNat w.toNat 31) (field w 17 7) (field w 10 7))
  | 0x0C => row w [(0, 2, 0), (2, 1, 0), (3, 7, 0)] (.fneg (bitNat w.toNat 31) (field w 17 7) (field w 10 7))
  | 0x0D => row w [(0, 2, 0), (2, 1, 0)] (.frnd (bitNat w.toNat 31) (field w 17 7) (field w 10 7) (field w 3 7))
  | _ => .ok (.unlistedOpcode w) 1

/-- Class 2 (R82). -/
def decode2 (w : Word) (ext : Option Word) : Decoded :=
  match fieldNat w.toNat 24 7 with
  | 0x00 | 0x01 | 0x02 | 0x03 | 0x04 | 0x05 | 0x10 | 0x11 | 0x12 | 0x13 | 0x14 | 0x15 => row w [] (.cmp (bitNat w.toNat 31) (bitNat w.toNat 28) (field w 24 3) (field w 17 7) (field w 10 7) (field w 3 7) (bitNat w.toNat 2) (field w 0 2))
  | 0x08 | 0x09 | 0x0A | 0x0B | 0x0C | 0x0D | 0x18 | 0x19 | 0x1A | 0x1B | 0x1C | 0x1D => row w [] (.cmpImm (bitNat w.toNat 31) (bitNat w.toNat 28) (field w 24 3) (field w 17 7) (field w 10 7) (field w 2 8) (field w 0 2))
  | 0x20 | 0x21 | 0x22 | 0x23 | 0x24 | 0x25 => row w [(0, 2, 0)] (.fcmp (bitNat w.toNat 31) (field w 24 3) (field w 17 7) (field w 10 7) (field w 3 7) (bitNat w.toNat 2))
  | 0x28 | 0x29 | 0x2A | 0x2B | 0x2C | 0x2D => row w [(0, 2, 0)] (.fcmpImm (bitNat w.toNat 31) (field w 24 3) (field w 17 7) (field w 10 7) (field w 2 8))
  | 0x30 => row w [(0, 2, 0), (2, 1, 0)] (.kand (bitNat w.toNat 31) (field w 17 7) (field w 10 7) (field w 3 7))
  | 0x31 => row w [(0, 2, 0), (2, 1, 0)] (.kor (bitNat w.toNat 31) (field w 17 7) (field w 10 7) (field w 3 7))
  | 0x32 => row w [(0, 2, 0), (2, 1, 0)] (.kxor (bitNat w.toNat 31) (field w 17 7) (field w 10 7) (field w 3 7))
  | 0x33 => row w [(0, 2, 0), (2, 1, 0), (3, 7, 0)] (.knot (bitNat w.toNat 31) (field w 17 7) (field w 10 7))
  | 0x34 => row w [(2, 1, 0), (3, 7, 0)] (.kis (bitNat w.toNat 31) (field w 17 7) (field w 10 7) (field w 0 2))
  | 0x38 => row w [(2, 1, 0), (3, 7, 0)] (.isabs (bitNat w.toNat 31) (field w 17 7) (field w 10 7) (field w 0 2))
  | 0x40 => row w [(2, 1, 0), (3, 7, 0)] (.isabs64 (bitNat w.toNat 31) (field w 17 7) (field w 10 7) (field w 0 2))
  | 0x39 => row w [] (.coal (bitNat w.toNat 31) (field w 17 7) (field w 10 7) (field w 3 7) (bitNat w.toNat 2) (field w 0 2))
  | 0x41 => row w [] (.coal64 (bitNat w.toNat 31) (field w 17 7) (field w 10 7) (field w 3 7) (bitNat w.toNat 2) (field w 0 2))
  | 0x3A => row w [] (.mkabs (bitNat w.toNat 31) (field w 17 7) (field w 10 7) (field w 3 7) (bitNat w.toNat 2) (field w 0 2))
  | 0x42 => row w [] (.mkabs64 (bitNat w.toNat 31) (field w 17 7) (field w 10 7) (field w 3 7) (bitNat w.toNat 2) (field w 0 2))
  | 0x3B => row w [] (.nullif (bitNat w.toNat 31) (field w 17 7) (field w 10 7) (field w 3 7) (bitNat w.toNat 2) (field w 0 2))
  | 0x43 => row w [] (.nullif64 (bitNat w.toNat 31) (field w 17 7) (field w 10 7) (field w 3 7) (bitNat w.toNat 2) (field w 0 2))
  | 0x3C => row w [] (.sel (bitNat w.toNat 31) (field w 17 7) (field w 10 7) (field w 3 7) (bitNat w.toNat 2) (field w 0 2))
  | 0x44 => row w [] (.sel64 (bitNat w.toNat 31) (field w 17 7) (field w 10 7) (field w 3 7) (bitNat w.toNat 2) (field w 0 2))
  | 0x48 => cvtRow w ext [(0, 2, 0), (2, 1, 0), (3, 7, 0)] fun me => .cvt (bitNat w.toNat 31) (field w 17 7) (field w 10 7) me
  | _ => .ok (.unlistedOpcode w) 1

/-- Class 3 (R83). -/
def decode3 (w : Word) : Decoded :=
  match fieldNat w.toNat 24 7 with
  | 0x00 | 0x08 => row w [] (.rsum (bitNat w.toNat 31) (bitNat w.toNat 27) (field w 17 7) (field w 10 7) (field w 3 7) (bitNat w.toNat 2) (field w 0 2))
  | 0x01 | 0x09 => row w [] (.rmin (bitNat w.toNat 31) (bitNat w.toNat 27) (field w 17 7) (field w 10 7) (field w 3 7) (bitNat w.toNat 2) (field w 0 2))
  | 0x02 | 0x0A => row w [] (.rmax (bitNat w.toNat 31) (bitNat w.toNat 27) (field w 17 7) (field w 10 7) (field w 3 7) (bitNat w.toNat 2) (field w 0 2))
  | 0x03 | 0x0B => row w [(2, 1, 0), (3, 7, 0)] (.rcnt (bitNat w.toNat 31) (bitNat w.toNat 27) (field w 17 7) (field w 10 7) (field w 0 2))
  | 0x04 | 0x0C => row w [] (.scan (bitNat w.toNat 31) (bitNat w.toNat 27) (field w 17 7) (field w 10 7) (field w 3 7) (bitNat w.toNat 2) (field w 0 2))
  | 0x10 => row w [] (.shfl (bitNat w.toNat 31) (field w 17 7) (field w 10 7) (field w 3 7) (bitNat w.toNat 2) (field w 0 2))
  | 0x11 => row w [] (.shflImm (bitNat w.toNat 31) (field w 17 7) (field w 10 7) (field w 2 8) (field w 0 2))
  | 0x12 => row w [(0, 2, 0)] (.bcastImm (bitNat w.toNat 31) (field w 17 7) (field w 10 7) (field w 2 8))
  | 0x13 => row w [(0, 2, 0)] (.bcast (bitNat w.toNat 31) (field w 17 7) (field w 10 7) (field w 3 7) (bitNat w.toNat 2))
  | 0x14 => row w [(2, 1, 0), (3, 7, 0)] (.vote (bitNat w.toNat 31) (field w 17 7) (field w 10 7) (field w 0 2))
  | 0x18 => row w [] (.dot4 (bitNat w.toNat 31) (field w 17 7) (field w 10 7) (field w 3 7) (bitNat w.toNat 2) (field w 0 2))
  | 0x19 => row w [] (.dot8 (bitNat w.toNat 31) (field w 17 7) (field w 10 7) (field w 3 7) (bitNat w.toNat 2) (field w 0 2))
  | 0x1A => row w [(0, 2, 0)] (.dot2 (bitNat w.toNat 31) (field w 17 7) (field w 10 7) (field w 3 7) (bitNat w.toNat 2))
  | 0x1B => row w [(0, 2, 0)] (.scale (bitNat w.toNat 31) (field w 17 7) (field w 10 7) (field w 3 7) (bitNat w.toNat 2))
  | 0x1C => row w [] (.pack (bitNat w.toNat 31) (field w 17 7) (field w 10 7) (field w 3 7) (bitNat w.toNat 2) (field w 0 2))
  | 0x1D => row w [] (.unpk (bitNat w.toNat 31) (field w 17 7) (field w 10 7) (field w 3 7) (bitNat w.toNat 2) (field w 0 2))
  | _ => .ok (.unlistedOpcode w) 1

/-- Class 4 (R84). -/
def decode4 (w : Word) (ext : Option Word) : Decoded :=
  match fieldNat w.toNat 24 7 with
  | 0x00 | 0x01 | 0x02 | 0x03 | 0x04 | 0x05 | 0x06 | 0x07 | 0x08 => memRow w ext [] fun me => .ld (bitNat w.toNat 31) (field w 24 4) (field w 17 7) (field w 10 7) (field w 3 7) (bitNat w.toNat 2) (bitNat w.toNat 1) me
  | 0x10 | 0x11 | 0x12 | 0x13 | 0x14 | 0x15 | 0x16 | 0x17 | 0x18 => memRow w ext [] fun me => .st (bitNat w.toNat 31) (field w 24 4) (field w 17 7) (field w 10 7) (field w 3 7) (bitNat w.toNat 2) (bitNat w.toNat 1) me
  | 0x20 | 0x21 | 0x22 | 0x23 | 0x24 | 0x25 | 0x26 | 0x27 | 0x28 => memRow w ext [] fun me => .stSk (bitNat w.toNat 31) (field w 24 4) (field w 17 7) (field w 10 7) (field w 3 7) (bitNat w.toNat 2) (bitNat w.toNat 1) me
  | 0x30 | 0x31 | 0x32 | 0x33 | 0x34 => memRow w ext [] fun me => .stnt (bitNat w.toNat 31) (field w 24 3) (field w 17 7) (field w 10 7) (field w 3 7) (bitNat w.toNat 2) (bitNat w.toNat 1) me
  | 0x38 => memRowReq w ext [(0, 1, 1), (1, 1, 0), (2, 1, 0), (3, 7, 0), (10, 7, 0), (17, 7, 0)] fun me => .ntdrain (bitNat w.toNat 31) me
  | 0x39 => memRow w ext [(17, 7, 0)] fun me => .touch (bitNat w.toNat 31) (field w 10 7) (field w 3 7) (bitNat w.toNat 2) (bitNat w.toNat 1) me
  | 0x3A => memRowReq w ext [(0, 1, 1), (1, 1, 0), (2, 1, 0), (3, 7, 0), (10, 7, 0), (17, 7, 0)] fun me => .fence (bitNat w.toNat 31) me
  | 0x3B => memRowReq w ext [(0, 1, 1), (1, 1, 0), (2, 1, 0), (3, 7, 0)] fun me => .xfence (bitNat w.toNat 31) (field w 17 7) (field w 10 7) me
  | 0x3C => row w [(0, 1, 0), (1, 1, 0), (2, 1, 0), (3, 7, 0), (10, 7, 0)] (.post (bitNat w.toNat 31) (field w 17 7))
  | 0x3D => memRow w ext [] fun me => .bwait (bitNat w.toNat 31) (field w 17 7) (field w 10 7) (field w 3 7) (bitNat w.toNat 2) (bitNat w.toNat 1) me
  | 0x3E => memRow w ext [] fun me => .wake (bitNat w.toNat 31) (field w 17 7) (field w 10 7) (field w 3 7) (bitNat w.toNat 2) (bitNat w.toNat 1) me
  | 0x40 | 0x41 | 0x42 | 0x43 | 0x44 | 0x45 | 0x46 => memRow w ext [] fun me => .atomAdd (bitNat w.toNat 31) (field w 24 3) (field w 17 7) (field w 10 7) (field w 3 7) (bitNat w.toNat 2) (bitNat w.toNat 1) me
  | 0x48 | 0x49 | 0x4A | 0x4B => memRow w ext [] fun me => .atomMin (bitNat w.toNat 31) (field w 24 2) (field w 17 7) (field w 10 7) (field w 3 7) (bitNat w.toNat 2) (bitNat w.toNat 1) me
  | 0x4C | 0x4D | 0x4E | 0x4F => memRow w ext [] fun me => .atomMax (bitNat w.toNat 31) (field w 24 2) (field w 17 7) (field w 10 7) (field w 3 7) (bitNat w.toNat 2) (bitNat w.toNat 1) me
  | 0x50 | 0x51 => memRow w ext [] fun me => .atomAnd (bitNat w.toNat 31) (bitNat w.toNat 24) (field w 17 7) (field w 10 7) (field w 3 7) (bitNat w.toNat 2) (bitNat w.toNat 1) me
  | 0x52 | 0x53 => memRow w ext [] fun me => .atomOr (bitNat w.toNat 31) (bitNat w.toNat 24) (field w 17 7) (field w 10 7) (field w 3 7) (bitNat w.toNat 2) (bitNat w.toNat 1) me
  | 0x54 | 0x55 => memRow w ext [] fun me => .atomXor (bitNat w.toNat 31) (bitNat w.toNat 24) (field w 17 7) (field w 10 7) (field w 3 7) (bitNat w.toNat 2) (bitNat w.toNat 1) me
  | 0x56 | 0x57 => memRow w ext [] fun me => .atomXchg (bitNat w.toNat 31) (bitNat w.toNat 24) (field w 17 7) (field w 10 7) (field w 3 7) (bitNat w.toNat 2) (bitNat w.toNat 1) me
  | 0x58 | 0x59 => memRow w ext [] fun me => .cas (bitNat w.toNat 31) (bitNat w.toNat 24) (field w 17 7) (field w 10 7) (field w 3 7) (bitNat w.toNat 2) (bitNat w.toNat 1) me
  | 0x5A | 0x5B => memRow w ext [] fun me => .waita (bitNat w.toNat 31) (bitNat w.toNat 24) (field w 17 7) (field w 10 7) (field w 3 7) (bitNat w.toNat 2) (bitNat w.toNat 1) me
  | 0x60 => memRow w ext [(1, 1, 0), (2, 1, 1)] fun me => .gath (bitNat w.toNat 31) (field w 17 7) (field w 10 7) (field w 3 7) me
  | 0x61 => memRow w ext [(1, 1, 0), (2, 1, 1)] fun me => .scat (bitNat w.toNat 31) (field w 17 7) (field w 10 7) (field w 3 7) me
  | 0x62 => memRow w ext [(1, 1, 0), (2, 1, 1)] fun me => .scadd (bitNat w.toNat 31) (field w 17 7) (field w 10 7) (field w 3 7) me
  | 0x63 => row w [(0, 1, 0), (1, 1, 0), (2, 1, 0), (3, 7, 0)] (.confd (bitNat w.toNat 31) (field w 17 7) (field w 10 7))
  | _ => .ok (.unlistedOpcode w) 1

/-- Class 5 (R85). -/
def decode5 (w : Word) (ext : Option Word) : Decoded :=
  match fieldNat w.toNat 24 7 with
  | 0x00 | 0x01 | 0x02 => memRow w ext [(1, 1, 0)] fun me => .tld (bitNat w.toNat 31) (field w 24 2) (field w 17 7) (field w 10 7) (field w 2 8) me
  | 0x08 | 0x09 | 0x0A => memRow w ext [(1, 1, 0)] fun me => .tst (bitNat w.toNat 31) (field w 24 2) (field w 17 7) (field w 10 7) (field w 2 8) me
  | 0x0C | 0x0D | 0x0E => memRow w ext [(1, 1, 0)] fun me => .tstSk (bitNat w.toNat 31) (field w 24 2) (field w 17 7) (field w 10 7) (field w 2 8) me
  | _ => .ok (.unlistedOpcode w) 1

/-- Class 6 (R86). -/
def decode6 (w : Word) : Decoded :=
  match fieldNat w.toNat 24 7 with
  | 0x00 => row w [] (.br (bitNat w.toNat 31) (field w 18 6) (field w 16 2) (field w 8 8) (field w 0 8))
  | 0x01 => row w [] (.brc (bitNat w.toNat 31) (field w 18 6) (field w 16 2) (field w 8 8) (field w 0 8))
  | 0x02 => row w [(0, 8, 0), (16, 2, 0), (20, 4, 0)] (.brq (bitNat w.toNat 31) (field w 18 2) (field w 8 8))
  | 0x03 => row w [(0, 2, 0), (2, 1, 0), (3, 7, 0), (10, 7, 0), (17, 7, 0)] (.join (bitNat w.toNat 31))
  | 0x04 => row w [(0, 8, 0), (16, 2, 0), (18, 6, 63)] (.call (bitNat w.toNat 31) (field w 8 8))
  | 0x05 => row w [(0, 2, 0), (2, 1, 0), (3, 7, 0), (10, 7, 0), (17, 7, 0)] (.ret (bitNat w.toNat 31))
  | 0x06 => row w [(0, 2, 0), (2, 1, 0), (3, 1, 0), (17, 7, 0)] (.jmpx (bitNat w.toNat 31) (field w 10 7) (field w 4 6))
  | 0x07 => row w [(0, 2, 0), (2, 1, 0), (3, 1, 0), (17, 7, 0)] (.callx (bitNat w.toNat 31) (field w 10 7) (field w 4 6))
  | 0x08 => row w [(0, 2, 0), (2, 1, 0), (3, 7, 0), (10, 7, 0), (17, 7, 0)] (.exit (bitNat w.toNat 31))
  | 0x09 => row w [(1, 1, 0), (2, 1, 0), (3, 7, 0), (21, 3, 0)] (.bar (bitNat w.toNat 31) (field w 17 4) (field w 10 7) (bitNat w.toNat 0))
  | 0x0A => row w [(0, 2, 0), (2, 1, 0), (3, 7, 0), (17, 7, 0)] (.live (bitNat w.toNat 31) (field w 10 7))
  | 0x0B => row w [(0, 2, 0), (10, 7, 0), (17, 7, 0)] (.savept (bitNat w.toNat 31) (field w 2 8))
  | 0x0C => if field w 2 8 = 62#8 then row w [(0, 2, 0), (2, 8, 62), (10, 7, 0)] (.rdstat (bitNat w.toNat 31) (field w 17 7))
    else if field w 2 8 = 63#8 then row w [(0, 2, 0), (2, 8, 63), (17, 7, 0)] (.wrstat (bitNat w.toNat 31) (field w 10 7))
    else row w [(0, 2, 0), (10, 7, 0), (17, 7, 0)] (.trap (bitNat w.toNat 31) (field w 2 8))
  | 0x0D => row w [(1, 1, 0), (2, 1, 0), (3, 7, 0), (10, 7, 0), (17, 7, 0)] (.rtf (bitNat w.toNat 31) (bitNat w.toNat 0))
  | 0x0E => row w [(0, 2, 0), (2, 1, 0), (3, 7, 0), (10, 7, 0), (17, 7, 0)] (.yield (bitNat w.toNat 31))
  | _ => .ok (.unlistedOpcode w) 1

/-- Class 7 (R87). -/
def decode7 (w : Word) : Decoded :=
  match fieldNat w.toNat 24 7 with
  | 0x00 => row w [(0, 2, 0), (2, 1, 0), (3, 7, 0)] (.xfRcp (bitNat w.toNat 31) (field w 17 7) (field w 10 7))
  | 0x01 => row w [(0, 2, 0), (2, 1, 0), (3, 7, 0)] (.xfRsqrt (bitNat w.toNat 31) (field w 17 7) (field w 10 7))
  | 0x02 => row w [(0, 2, 0), (2, 1, 0), (3, 7, 0)] (.xfSqrt (bitNat w.toNat 31) (field w 17 7) (field w 10 7))
  | 0x03 => row w [(0, 2, 0), (2, 1, 0), (3, 7, 0)] (.xfExp2 (bitNat w.toNat 31) (field w 17 7) (field w 10 7))
  | 0x04 => row w [(0, 2, 0), (2, 1, 0), (3, 7, 0)] (.xfLog2 (bitNat w.toNat 31) (field w 17 7) (field w 10 7))
  | 0x05 => row w [(0, 2, 0), (2, 1, 0), (3, 7, 0)] (.xfSin (bitNat w.toNat 31) (field w 17 7) (field w 10 7))
  | 0x06 => row w [(0, 2, 0), (2, 1, 0), (3, 7, 0)] (.xfCos (bitNat w.toNat 31) (field w 17 7) (field w 10 7))
  | 0x07 => row w [(0, 2, 0), (2, 1, 0), (3, 7, 0)] (.xfTanh (bitNat w.toNat 31) (field w 17 7) (field w 10 7))
  | 0x08 => row w [(0, 2, 0), (2, 1, 0), (3, 7, 0)] (.xfErf (bitNat w.toNat 31) (field w 17 7) (field w 10 7))
  | 0x09 => row w [(0, 2, 0), (2, 1, 0)] (.xfQsb8 (bitNat w.toNat 31) (field w 17 7) (field w 10 7) (field w 3 7))
  | 0x0A => row w [(0, 2, 0), (2, 1, 0), (3, 7, 0)] (.xfXpose (bitNat w.toNat 31) (field w 17 7) (field w 10 7))
  | 0x0B => row w [(2, 1, 0)] (.xfSort (bitNat w.toNat 31) (field w 17 7) (field w 10 7) (field w 3 7) (field w 0 2))
  | _ => .ok (.unlistedOpcode w) 1

/-- Class 8 (R88). -/
def decode8 (w : Word) : Decoded :=
  match fieldNat w.toNat 24 7 with
  | 0x00 => row w [(3, 1, 0)] (.leadAdd (bitNat w.toNat 31) (field w 18 6) (field w 12 6) (field w 6 6) (field w 4 2) (bitNat w.toNat 2) (field w 0 2))
  | 0x01 => row w [(2, 2, 0)] (.leadAddImm (bitNat w.toNat 31) (field w 18 6) (field w 12 6) (field w 4 8) (field w 0 2))
  | 0x02 => row w [(3, 1, 0)] (.leadSub (bitNat w.toNat 31) (field w 18 6) (field w 12 6) (field w 6 6) (field w 4 2) (bitNat w.toNat 2) (field w 0 2))
  | 0x03 => row w [(2, 2, 0)] (.leadSubImm (bitNat w.toNat 31) (field w 18 6) (field w 12 6) (field w 4 8) (field w 0 2))
  | 0x04 => row w [(3, 1, 0)] (.leadMul (bitNat w.toNat 31) (field w 18 6) (field w 12 6) (field w 6 6) (field w 4 2) (bitNat w.toNat 2) (field w 0 2))
  | 0x05 => row w [(2, 2, 0)] (.leadMulImm (bitNat w.toNat 31) (field w 18 6) (field w 12 6) (field w 4 8) (field w 0 2))
  | 0x06 => row w [(3, 1, 0)] (.leadMulh (bitNat w.toNat 31) (field w 18 6) (field w 12 6) (field w 6 6) (field w 4 2) (bitNat w.toNat 2) (field w 0 2))
  | 0x07 => row w [(3, 1, 0)] (.div (bitNat w.toNat 31) (field w 18 6) (field w 12 6) (field w 6 6) (field w 4 2) (bitNat w.toNat 2) (field w 0 2))
  | 0x08 => row w [(3, 1, 0)] (.rem (bitNat w.toNat 31) (field w 18 6) (field w 12 6) (field w 6 6) (field w 4 2) (bitNat w.toNat 2) (field w 0 2))
  | 0x09 => row w [(0, 2, 2), (3, 1, 0)] (.leadAnd (bitNat w.toNat 31) (field w 18 6) (field w 12 6) (field w 6 6) (field w 4 2) (bitNat w.toNat 2))
  | 0x0A => row w [(0, 2, 2), (2, 2, 0)] (.leadAndImm (bitNat w.toNat 31) (field w 18 6) (field w 12 6) (field w 4 8))
  | 0x0B => row w [(0, 2, 2), (3, 1, 0)] (.leadOr (bitNat w.toNat 31) (field w 18 6) (field w 12 6) (field w 6 6) (field w 4 2) (bitNat w.toNat 2))
  | 0x0C => row w [(0, 2, 2), (2, 2, 0)] (.leadOrImm (bitNat w.toNat 31) (field w 18 6) (field w 12 6) (field w 4 8))
  | 0x0D => row w [(0, 2, 2), (3, 1, 0)] (.leadXor (bitNat w.toNat 31) (field w 18 6) (field w 12 6) (field w 6 6) (field w 4 2) (bitNat w.toNat 2))
  | 0x0E => row w [(0, 2, 2), (2, 2, 0)] (.leadXorImm (bitNat w.toNat 31) (field w 18 6) (field w 12 6) (field w 4 8))
  | 0x0F => row w [(0, 2, 2), (3, 1, 0)] (.leadShl (bitNat w.toNat 31) (field w 18 6) (field w 12 6) (field w 6 6) (field w 4 2) (bitNat w.toNat 2))
  | 0x10 => row w [(0, 2, 2), (2, 2, 0)] (.leadShlImm (bitNat w.toNat 31) (field w 18 6) (field w 12 6) (field w 4 8))
  | 0x11 => row w [(0, 2, 2), (3, 1, 0)] (.leadShr (bitNat w.toNat 31) (field w 18 6) (field w 12 6) (field w 6 6) (field w 4 2) (bitNat w.toNat 2))
  | 0x12 => row w [(0, 2, 2), (2, 2, 0)] (.leadShrImm (bitNat w.toNat 31) (field w 18 6) (field w 12 6) (field w 4 8))
  | 0x13 => row w [(0, 2, 2), (3, 1, 0)] (.leadSar (bitNat w.toNat 31) (field w 18 6) (field w 12 6) (field w 6 6) (field w 4 2) (bitNat w.toNat 2))
  | 0x14 => row w [(0, 2, 2), (2, 2, 0)] (.leadSarImm (bitNat w.toNat 31) (field w 18 6) (field w 12 6) (field w 4 8))
  | 0x15 => row w [(3, 1, 0)] (.leadMin (bitNat w.toNat 31) (field w 18 6) (field w 12 6) (field w 6 6) (field w 4 2) (bitNat w.toNat 2) (field w 0 2))
  | 0x16 => row w [(3, 1, 0)] (.leadMax (bitNat w.toNat 31) (field w 18 6) (field w 12 6) (field w 6 6) (field w 4 2) (bitNat w.toNat 2) (field w 0 2))
  | 0x18 | 0x19 | 0x1A | 0x1B | 0x1C | 0x1D => row w [(3, 1, 0)] (.leadCmp (bitNat w.toNat 31) (field w 24 3) (field w 18 6) (field w 12 6) (field w 6 6) (field w 4 2) (bitNat w.toNat 2) (field w 0 2))
  | 0x20 | 0x21 | 0x22 | 0x23 | 0x24 | 0x25 => row w [(2, 2, 0)] (.leadCmpImm (bitNat w.toNat 31) (field w 24 3) (field w 18 6) (field w 12 6) (field w 4 8) (field w 0 2))
  | 0x1E => row w [(3, 1, 0)] (.leadSel (bitNat w.toNat 31) (field w 18 6) (field w 12 6) (field w 6 6) (field w 4 2) (bitNat w.toNat 2) (field w 0 2))
  | 0x1F => row w [(2, 2, 0), (12, 6, 0)] (.movi (bitNat w.toNat 31) (field w 18 6) (field w 4 8) (field w 0 2))
  | 0x26 =>
    let i : Instr := .movc (bitNat w.toNat 31) (field w 18 6) (field w 12 6) (bitNat w.toNat 0)
    conclude (badIf (bitNat w.toNat 1) 0 ++ fixedFaults w.toNat [(2, 4, 0), (6, 6, 0)] ++ fieldFaults i) i 1
  | 0x28 | 0x29 | 0x2A | 0x2B => row w [(0, 4, 0)] (.ldx (bitNat w.toNat 31) (field w 24 2) (field w 18 6) (field w 12 6) (field w 4 8))
  | 0x2C | 0x2D | 0x2E | 0x2F => row w [(0, 4, 0)] (.stx (bitNat w.toNat 31) (field w 24 2) (field w 18 6) (field w 12 6) (field w 4 8))
  | 0x30 | 0x31 | 0x32 => row w [] (.atomxAdd (bitNat w.toNat 31) (field w 24 2) (field w 18 6) (field w 12 6) (field w 6 6) (field w 2 4) (field w 0 2))
  | 0x33 => row w [] (.atomxMinI64 (bitNat w.toNat 31) (field w 18 6) (field w 12 6) (field w 6 6) (field w 2 4) (field w 0 2))
  | 0x34 => row w [] (.atomxMinN64 (bitNat w.toNat 31) (field w 18 6) (field w 12 6) (field w 6 6) (field w 2 4) (field w 0 2))
  | 0x35 => row w [] (.atomxMaxI64 (bitNat w.toNat 31) (field w 18 6) (field w 12 6) (field w 6 6) (field w 2 4) (field w 0 2))
  | 0x36 => row w [] (.atomxMaxN64 (bitNat w.toNat 31) (field w 18 6) (field w 12 6) (field w 6 6) (field w 2 4) (field w 0 2))
  | 0x37 => row w [] (.atomxAnd (bitNat w.toNat 31) (field w 18 6) (field w 12 6) (field w 6 6) (field w 2 4) (field w 0 2))
  | 0x38 => row w [] (.atomxOr (bitNat w.toNat 31) (field w 18 6) (field w 12 6) (field w 6 6) (field w 2 4) (field w 0 2))
  | 0x39 => row w [] (.atomxXor (bitNat w.toNat 31) (field w 18 6) (field w 12 6) (field w 6 6) (field w 2 4) (field w 0 2))
  | 0x3A => row w [] (.atomxXchg (bitNat w.toNat 31) (field w 18 6) (field w 12 6) (field w 6 6) (field w 2 4) (field w 0 2))
  | 0x3B => row w [] (.atomxCas (bitNat w.toNat 31) (field w 18 6) (field w 12 6) (field w 6 6) (field w 2 4) (field w 0 2))
  | _ => .ok (.unlistedOpcode w) 1

/-- Class 9 (R89). -/
def decode9 (w : Word) : Decoded :=
  match fieldNat w.toNat 24 7 with
  | 0x00 => row w [(0, 8, 0)] (.leadBr (bitNat w.toNat 31) (field w 18 6) (field w 16 2) (field w 8 8))
  | 0x01 => row w [(0, 8, 0)] (.leadBrc (bitNat w.toNat 31) (field w 18 6) (field w 16 2) (field w 8 8))
  | 0x02 => row w [(0, 8, 0)] (.leadCall (bitNat w.toNat 31) (field w 18 6) (field w 16 2) (field w 8 8))
  | 0x03 => row w [(0, 6, 0), (6, 6, 0), (12, 6, 0), (18, 6, 0)] (.leadRet (bitNat w.toNat 31))
  | 0x08 => row w [(0, 6, 0), (6, 6, 0)] (.dqpush (bitNat w.toNat 31) (field w 18 6) (field w 12 6))
  | 0x09 => row w [(0, 6, 0), (6, 6, 0), (12, 6, 0)] (.rqpop (bitNat w.toNat 31) (field w 18 6))
  | 0x0A => row w [(0, 2, 0)] (.qpush (bitNat w.toNat 31) (field w 18 6) (field w 12 6) (field w 6 6) (field w 2 4))
  | 0x0B => row w [(0, 2, 0), (6, 6, 0)] (.qpop (bitNat w.toNat 31) (field w 18 6) (field w 12 6) (field w 2 4))
  | 0x0C => row w [] (.leadWaita (bitNat w.toNat 31) (field w 18 6) (field w 12 6) (field w 6 6) (field w 2 4) (field w 0 2))
  | 0x0D => row w [(0, 2, 0)] (.leadWake (bitNat w.toNat 31) (field w 18 6) (field w 12 6) (field w 6 6) (field w 2 4))
  | 0x0E => row w [(6, 6, 0), (12, 6, 0), (18, 6, 0)] (.leadFence (bitNat w.toNat 31) (field w 2 4) (field w 0 2))
  | 0x0F => row w [(0, 2, 0), (6, 6, 0)] (.leadXfence (bitNat w.toNat 31) (field w 18 6) (field w 12 6) (field w 2 4))
  | _ => .ok (.unlistedOpcode w) 1

/-- Class 10 (R90). -/
def decode10 (w : Word) (ext : Option Word) : Decoded :=
  match fieldNat w.toNat 24 7 with
  | 0x00 => extRow w ext [(0, 6, 0), (6, 6, 0), (12, 6, 0)] [(0, 24)] fun e => .mzero (bitNat w.toNat 31) (field w 18 6) (field e 29 2) (field e 25 4) (bitNat e.toNat 24)
  | 0x01 => extRow w ext [(0, 6, 0)] [(0, 16)] fun e => .mma (bitNat w.toNat 31) (field w 18 6) (field w 12 6) (field w 6 6) (field e 29 2) (field e 25 4) (field e 17 8) (bitNat e.toNat 16)
  | 0x02 => extRow w ext [(0, 6, 0), (12, 6, 0)] [(0, 15)] fun e => .mmc (bitNat w.toNat 31) (field w 18 6) (field w 6 6) (field e 29 2) (field e 25 4) (field e 21 4) (field e 16 5) (bitNat e.toNat 15)
  | 0x03 => extRow w ext [(0, 6, 0), (6, 6, 0)] [(0, 16)] fun e => .mmw (bitNat w.toNat 31) (field w 18 6) (field w 12 6) (field e 29 2) (field e 25 4) (field e 17 8) (bitNat e.toNat 16)
  | 0x04 => extRow w ext [(0, 6, 0)] [(0, 25)] fun e => .mdrain (bitNat w.toNat 31) (field w 18 6) (field w 12 6) (field w 6 6) (field e 29 2) (field e 25 4)
  | 0x05 => extRow w ext [(0, 6, 0), (6, 6, 0)] [(0, 24)] fun e => .mload (bitNat w.toNat 31) (field w 18 6) (field w 12 6) (field e 29 2) (field e 25 4) (bitNat e.toNat 24)
  | 0x08 => extRow w ext [(0, 6, 0)] [(0, 16)] fun e => .talloc (bitNat w.toNat 31) (field w 18 6) (field w 12 6) (field w 6 6) (field e 23 8) (field e 18 5) (bitNat e.toNat 17) (bitNat e.toNat 16)
  | 0x09 => extRow w ext [(0, 6, 0), (6, 6, 0), (12, 6, 0)] [(0, 23)] fun e => .tfree (bitNat w.toNat 31) (field w 18 6) (field e 23 8)
  | 0x0A => extRow w ext [(0, 6, 0), (6, 6, 0)] [(0, 23)] fun e => .tbind (bitNat w.toNat 31) (field w 18 6) (field w 12 6) (field e 23 8)
  | 0x0B => extRow w ext [(0, 6, 0), (6, 6, 0), (12, 6, 0)] [(0, 23)] fun e => .tdry (bitNat w.toNat 31) (field w 18 6) (field e 23 8)
  | 0x0C => extRow w ext [(0, 6, 0), (6, 6, 0)] [(0, 23)] fun e => .tstat (bitNat w.toNat 31) (field w 18 6) (field w 12 6) (field e 23 8)
  | 0x10 => extRow w ext [(0, 6, 0), (6, 6, 0)] [(0, 17), (18, 5)] fun e => .abind (bitNat w.toNat 31) (field w 18 6) (field w 12 6) (field e 23 8) (bitNat e.toNat 17)
  | 0x11 => extRow w ext [(0, 6, 0)] [(0, 15)] fun e => .seek (bitNat w.toNat 31) (field w 18 6) (field w 12 6) (field w 6 6) (field e 29 2) (field e 26 3) (field e 23 3) (field e 15 8)
  | 0x12 => extRow w ext [(0, 6, 0)] [(0, 29)] fun e => .proj (bitNat w.toNat 31) (field w 18 6) (field w 12 6) (field w 6 6) (field e 29 2)
  | _ => .ok (.unlistedOpcode w) 1

/-- Class 11 (R90). -/
def decode11 (w : Word) (ext : Option Word) : Decoded :=
  match fieldNat w.toNat 24 7 with
  | 0x00 => extRow w ext [(0, 6, 0), (6, 6, 0)] [(0, 22)] fun e => .copy (bitNat w.toNat 31) (field w 18 6) (field w 12 6) (bitNat e.toNat 30) (field e 22 8)
  | 0x01 => extRow w ext [(0, 6, 0)] [(20, 11)] fun e => .pcopy (bitNat w.toNat 31) (field w 18 6) (field w 12 6) (field w 6 6) (field e 16 4) (field e 0 16)
  | 0x02 => extRow w ext [(0, 6, 0), (18, 6, 0)] [(0, 18)] fun e => .binit (bitNat w.toNat 31) (field w 12 6) (field w 6 6) (bitNat e.toNat 30) (field e 22 8) (field e 18 4)
  | 0x03 => extRow w ext [(0, 6, 0)] [(0, 18)] fun e => .barr (bitNat w.toNat 31) (field w 18 6) (field w 12 6) (field w 6 6) (bitNat e.toNat 30) (field e 22 8) (field e 18 4)
  | 0x04 => extRow w ext [(0, 6, 0)] [(0, 18)] fun e => .leadBwait (bitNat w.toNat 31) (field w 18 6) (field w 12 6) (field w 6 6) (bitNat e.toNat 30) (field e 22 8) (field e 18 4)
  | 0x08 => smapRow w ext
  | 0x09 => extRow w ext [(0, 6, 0)] [(18, 13)] fun e => .chase (bitNat w.toNat 31) (field w 18 6) (field w 12 6) (field w 6 6) (field e 16 2) (field e 0 16)
  | _ => .ok (.unlistedOpcode w) 1

/-- Class 12 (R90). -/
def decode12 (w : Word) : Decoded :=
  match fieldNat w.toNat 24 7 with
  | 0x00 => row w [(0, 2, 0), (6, 6, 0)] (.launch (bitNat w.toNat 31) (field w 18 6) (field w 12 6) (field w 2 4))
  | 0x04 => row w [(0, 6, 0)] (.mark (bitNat w.toNat 31) (field w 18 6) (field w 12 6) (field w 6 6))
  | 0x05 => row w [(0, 6, 0), (6, 6, 0), (12, 6, 0), (18, 6, 0)] (.snap (bitNat w.toNat 31))
  | 0x06 => row w [(0, 6, 0), (6, 6, 0), (12, 6, 0), (18, 6, 0)] (.rollbk (bitNat w.toNat 31))
  | 0x07 => row w [(0, 6, 0), (6, 6, 0), (12, 6, 0), (18, 6, 0)] (.commit (bitNat w.toNat 31))
  | 0x08 => if field w 6 6 = 62#6 then row w [(0, 6, 0), (6, 6, 62), (12, 6, 0)] (.leadRdstat (bitNat w.toNat 31) (field w 18 6))
    else if field w 6 6 = 63#6 then row w [(0, 6, 0), (6, 6, 63), (18, 6, 0)] (.leadWrstat (bitNat w.toNat 31) (field w 12 6))
    else row w [(0, 6, 0), (12, 6, 0), (18, 6, 0)] (.leadTrap (bitNat w.toNat 31) (field w 6 6))
  | 0x09 => row w [(1, 5, 0), (6, 6, 0), (12, 6, 0), (18, 6, 0)] (.leadRtf (bitNat w.toNat 31) (bitNat w.toNat 0))
  | 0x0A => row w [(2, 4, 0), (12, 6, 0), (18, 6, 0)] (.leadSavept (bitNat w.toNat 31) (field w 6 6) (field w 0 2))
  | 0x0B => row w [(0, 6, 0), (6, 6, 0), (12, 6, 0), (18, 6, 0)] (.leadExit (bitNat w.toNat 31))
  | _ => .ok (.unlistedOpcode w) 1

/-- Class 13: REP (R59, R60, R91). Its switch bit must be zero: a bit above the range of R79, so a cause in no field. -/
def decode13 (w : Word) : Decoded :=
  if fieldNat w.toNat 24 7 = 0 then
    conclude (fixedFaults w.toNat [(0, 14, 0)] ++ badIf (bitNat w.toNat 31) 64)
      (.rep (field w 18 6) (field w 15 3) (bitNat w.toNat 14)) 1
  else .ok (.unlistedOpcode w) 1

/-- The decoder: a word of a clause class with the word after it, if the clause has one. -/
def decodeWord (cls : Nat) (w : Word) (ext : Option Word) : Decoded :=
  match cls with
  | 0 => decode0 w
  | 1 => decode1 w
  | 2 => decode2 w ext
  | 3 => decode3 w
  | 4 => decode4 w ext
  | 5 => decode5 w ext
  | 6 => decode6 w
  | 7 => decode7 w
  | 8 => decode8 w
  | 9 => decode9 w
  | 10 => decode10 w ext
  | 11 => decode11 w ext
  | 12 => decode12 w
  | 13 => decode13 w
  | _ => .bad 64

/-- Whether a word of a class is followed by an extension word (R49, R84); in classes 4 and 5 bit 0 says so of an unlisted opcode as of a
listed one, which the rules do not say (log 33). -/
def needsExt (cls : Nat) (w : Word) : Bool :=
  match cls with
  | 2 => fieldNat w.toNat 24 7 == 0x48
  | 4 => bitNat w.toNat 0
  | 5 => bitNat w.toNat 0
  | 10 => true
  | 11 => true
  | _ => false

/-! ### The encoder -/

/-- The memory extension word (R52). -/
def encodeMem (e : MemExt) : Word :=
  BitVec.ofNat 32 (e.limit.toNat * 2 ^ 24 + e.res.toNat * 2 ^ 18 + e.must.toNat * 2 ^ 17 + e.scope.toNat * 2 ^ 12 +
    e.order.toNat * 2 ^ 10 + e.cache.toNat * 2 ^ 8 + e.off.toNat)

/-- The conversion extension word (R214). -/
def encodeCvt (e : CvtExt) : Word :=
  BitVec.ofNat 32 (e.target.toNat * 2 ^ 11 + e.source.toNat * 2 ^ 6 + e.rnd.toNat * 2 ^ 3)

/-- A word with or without a memory extension word: bit 0 says which (R49). -/
def withMem (w : Nat) (ext : Option MemExt) : List Word :=
  match ext with
  | none => [BitVec.ofNat 32 w]
  | some e => [BitVec.ofNat 32 (w + 1), encodeMem e]

/-- The formats of R49, a word as a number: switch bit, opcode and fields from high to low. -/
def fmtV (z : Bool) (op d a b m : Nat) : Nat := z.toNat * 2 ^ 31 + op * 2 ^ 24 + d * 2 ^ 17 + a * 2 ^ 10 + b * 2 ^ 3 + m
/-- Format VI, and T with the handle in place of the immediate. -/
def fmtVI (z : Bool) (op d a i m : Nat) : Nat := z.toNat * 2 ^ 31 + op * 2 ^ 24 + d * 2 ^ 17 + a * 2 ^ 10 + i * 2 ^ 2 + m
/-- Format BR. -/
def fmtBR (z : Bool) (op p u o j : Nat) : Nat := z.toNat * 2 ^ 31 + op * 2 ^ 24 + p * 2 ^ 18 + u * 2 ^ 16 + o * 2 ^ 8 + j
/-- Format L. -/
def fmtL (z : Bool) (op d a b m : Nat) : Nat := z.toNat * 2 ^ 31 + op * 2 ^ 24 + d * 2 ^ 18 + a * 2 ^ 12 + b * 2 ^ 6 + m
/-- Format LI. -/
def fmtLI (z : Bool) (op d a i m : Nat) : Nat := z.toNat * 2 ^ 31 + op * 2 ^ 24 + d * 2 ^ 18 + a * 2 ^ 12 + i * 2 ^ 4 + m
/-- Format P. -/
def fmtP (z : Bool) (op n k t r : Nat) : Nat := z.toNat * 2 ^ 31 + op * 2 ^ 24 + n * 2 ^ 18 + k * 2 ^ 15 + t * 2 ^ 14 + r

/-- The words of an instruction, from the encoding tables of the spec. The steps of the device have none. -/
def encode : Instr → List Word
  | .add z w d a b x t => [BitVec.ofNat 32 (fmtV z (w.toNat * 64) d.toNat a.toNat b.toNat (x.toNat * 4 + t.toNat))]
  | .addImm z w d a i t => [BitVec.ofNat 32 (fmtVI z (1 + w.toNat * 64) d.toNat a.toNat i.toNat t.toNat)]
  | .sub z w d a b x t => [BitVec.ofNat 32 (fmtV z (2 + w.toNat * 64) d.toNat a.toNat b.toNat (x.toNat * 4 + t.toNat))]
  | .subImm z w d a i t => [BitVec.ofNat 32 (fmtVI z (3 + w.toNat * 64) d.toNat a.toNat i.toNat t.toNat)]
  | .mul z w d a b x t => [BitVec.ofNat 32 (fmtV z (4 + w.toNat * 64) d.toNat a.toNat b.toNat (x.toNat * 4 + t.toNat))]
  | .mulImm z w d a i t => [BitVec.ofNat 32 (fmtVI z (5 + w.toNat * 64) d.toNat a.toNat i.toNat t.toNat)]
  | .mulh z w d a b x t => [BitVec.ofNat 32 (fmtV z (6 + w.toNat * 64) d.toNat a.toNat b.toNat (x.toNat * 4 + t.toNat))]
  | .mad z w d a b x t => [BitVec.ofNat 32 (fmtV z (7 + w.toNat * 64) d.toNat a.toNat b.toNat (x.toNat * 4 + t.toNat))]
  | .abs z w d a => [BitVec.ofNat 32 (fmtV z (8 + w.toNat * 64) d.toNat a.toNat 0 0)]
  | .neg z w d a t => [BitVec.ofNat 32 (fmtV z (9 + w.toNat * 64) d.toNat a.toNat 0 t.toNat)]
  | .min z w d a b x t => [BitVec.ofNat 32 (fmtV z (10 + w.toNat * 64) d.toNat a.toNat b.toNat (x.toNat * 4 + t.toNat))]
  | .minImm z w d a i t => [BitVec.ofNat 32 (fmtVI z (11 + w.toNat * 64) d.toNat a.toNat i.toNat t.toNat)]
  | .max z w d a b x t => [BitVec.ofNat 32 (fmtV z (12 + w.toNat * 64) d.toNat a.toNat b.toNat (x.toNat * 4 + t.toNat))]
  | .maxImm z w d a i t => [BitVec.ofNat 32 (fmtVI z (13 + w.toNat * 64) d.toNat a.toNat i.toNat t.toNat)]
  | .and z w d a b x => [BitVec.ofNat 32 (fmtV z (14 + w.toNat * 64) d.toNat a.toNat b.toNat (2 + x.toNat * 4))]
  | .andImm z w d a i => [BitVec.ofNat 32 (fmtVI z (15 + w.toNat * 64) d.toNat a.toNat i.toNat 2)]
  | .or z w d a b x => [BitVec.ofNat 32 (fmtV z (16 + w.toNat * 64) d.toNat a.toNat b.toNat (2 + x.toNat * 4))]
  | .orImm z w d a i => [BitVec.ofNat 32 (fmtVI z (17 + w.toNat * 64) d.toNat a.toNat i.toNat 2)]
  | .xor z w d a b x => [BitVec.ofNat 32 (fmtV z (18 + w.toNat * 64) d.toNat a.toNat b.toNat (2 + x.toNat * 4))]
  | .xorImm z w d a i => [BitVec.ofNat 32 (fmtVI z (19 + w.toNat * 64) d.toNat a.toNat i.toNat 2)]
  | .not z w d a => [BitVec.ofNat 32 (fmtV z (20 + w.toNat * 64) d.toNat a.toNat 0 2)]
  | .shl z w d a b x => [BitVec.ofNat 32 (fmtV z (21 + w.toNat * 64) d.toNat a.toNat b.toNat (2 + x.toNat * 4))]
  | .shlImm z w d a i => [BitVec.ofNat 32 (fmtVI z (22 + w.toNat * 64) d.toNat a.toNat i.toNat 2)]
  | .shr z w d a b x => [BitVec.ofNat 32 (fmtV z (23 + w.toNat * 64) d.toNat a.toNat b.toNat (2 + x.toNat * 4))]
  | .shrImm z w d a i => [BitVec.ofNat 32 (fmtVI z (24 + w.toNat * 64) d.toNat a.toNat i.toNat 2)]
  | .sar z w d a b x => [BitVec.ofNat 32 (fmtV z (25 + w.toNat * 64) d.toNat a.toNat b.toNat (2 + x.toNat * 4))]
  | .sarImm z w d a i => [BitVec.ofNat 32 (fmtVI z (26 + w.toNat * 64) d.toNat a.toNat i.toNat 2)]
  | .rot z w d a b x => [BitVec.ofNat 32 (fmtV z (27 + w.toNat * 64) d.toNat a.toNat b.toNat (2 + x.toNat * 4))]
  | .rotImm z w d a i => [BitVec.ofNat 32 (fmtVI z (28 + w.toNat * 64) d.toNat a.toNat i.toNat 2)]
  | .clz z w d a => [BitVec.ofNat 32 (fmtV z (29 + w.toNat * 64) d.toNat a.toNat 0 2)]
  | .popc z w d a => [BitVec.ofNat 32 (fmtV z (30 + w.toNat * 64) d.toNat a.toNat 0 2)]
  | .bfe z w d a b x => [BitVec.ofNat 32 (fmtV z (31 + w.toNat * 64) d.toNat a.toNat b.toNat (2 + x.toNat * 4))]
  | .bfi z w d a b x => [BitVec.ofNat 32 (fmtV z (32 + w.toNat * 64) d.toNat a.toNat b.toNat (2 + x.toNat * 4))]
  | .fadd z d a b x => [BitVec.ofNat 32 (fmtV z 0 d.toNat a.toNat b.toNat (x.toNat * 4))]
  | .faddImm z d a i => [BitVec.ofNat 32 (fmtVI z 1 d.toNat a.toNat i.toNat 0)]
  | .fsub z d a b x => [BitVec.ofNat 32 (fmtV z 2 d.toNat a.toNat b.toNat (x.toNat * 4))]
  | .fsubImm z d a i => [BitVec.ofNat 32 (fmtVI z 3 d.toNat a.toNat i.toNat 0)]
  | .fmul z d a b x => [BitVec.ofNat 32 (fmtV z 4 d.toNat a.toNat b.toNat (x.toNat * 4))]
  | .fmulImm z d a i => [BitVec.ofNat 32 (fmtVI z 5 d.toNat a.toNat i.toNat 0)]
  | .fma z d a b x => [BitVec.ofNat 32 (fmtV z 6 d.toNat a.toNat b.toNat (x.toNat * 4))]
  | .fmin z d a b x => [BitVec.ofNat 32 (fmtV z 7 d.toNat a.toNat b.toNat (x.toNat * 4))]
  | .fminImm z d a i => [BitVec.ofNat 32 (fmtVI z 8 d.toNat a.toNat i.toNat 0)]
  | .fmax z d a b x => [BitVec.ofNat 32 (fmtV z 9 d.toNat a.toNat b.toNat (x.toNat * 4))]
  | .fmaxImm z d a i => [BitVec.ofNat 32 (fmtVI z 10 d.toNat a.toNat i.toNat 0)]
  | .fabs z d a => [BitVec.ofNat 32 (fmtV z 11 d.toNat a.toNat 0 0)]
  | .fneg z d a => [BitVec.ofNat 32 (fmtV z 12 d.toNat a.toNat 0 0)]
  | .frnd z d a r => [BitVec.ofNat 32 (fmtV z 13 d.toNat a.toNat r.toNat 0)]
  | .cmp z w c d a b x t => [BitVec.ofNat 32 (fmtV z (w.toNat * 16 + c.toNat) d.toNat a.toNat b.toNat (x.toNat * 4 + t.toNat))]
  | .cmpImm z w c d a i t => [BitVec.ofNat 32 (fmtVI z (8 + w.toNat * 16 + c.toNat) d.toNat a.toNat i.toNat t.toNat)]
  | .fcmp z c d a b x => [BitVec.ofNat 32 (fmtV z (32 + c.toNat) d.toNat a.toNat b.toNat (x.toNat * 4))]
  | .fcmpImm z c d a i => [BitVec.ofNat 32 (fmtVI z (40 + c.toNat) d.toNat a.toNat i.toNat 0)]
  | .kand z d a b => [BitVec.ofNat 32 (fmtV z 48 d.toNat a.toNat b.toNat 0)]
  | .kor z d a b => [BitVec.ofNat 32 (fmtV z 49 d.toNat a.toNat b.toNat 0)]
  | .kxor z d a b => [BitVec.ofNat 32 (fmtV z 50 d.toNat a.toNat b.toNat 0)]
  | .knot z d a => [BitVec.ofNat 32 (fmtV z 51 d.toNat a.toNat 0 0)]
  | .kis z d a t => [BitVec.ofNat 32 (fmtV z 52 d.toNat a.toNat 0 t.toNat)]
  | .isabs z d a t => [BitVec.ofNat 32 (fmtV z 56 d.toNat a.toNat 0 t.toNat)]
  | .isabs64 z d a t => [BitVec.ofNat 32 (fmtV z 64 d.toNat a.toNat 0 t.toNat)]
  | .coal z d a b x t => [BitVec.ofNat 32 (fmtV z 57 d.toNat a.toNat b.toNat (x.toNat * 4 + t.toNat))]
  | .coal64 z d a b x t => [BitVec.ofNat 32 (fmtV z 65 d.toNat a.toNat b.toNat (x.toNat * 4 + t.toNat))]
  | .mkabs z d a b x t => [BitVec.ofNat 32 (fmtV z 58 d.toNat a.toNat b.toNat (x.toNat * 4 + t.toNat))]
  | .mkabs64 z d a b x t => [BitVec.ofNat 32 (fmtV z 66 d.toNat a.toNat b.toNat (x.toNat * 4 + t.toNat))]
  | .nullif z d a b x t => [BitVec.ofNat 32 (fmtV z 59 d.toNat a.toNat b.toNat (x.toNat * 4 + t.toNat))]
  | .nullif64 z d a b x t => [BitVec.ofNat 32 (fmtV z 67 d.toNat a.toNat b.toNat (x.toNat * 4 + t.toNat))]
  | .sel z d a b x t => [BitVec.ofNat 32 (fmtV z 60 d.toNat a.toNat b.toNat (x.toNat * 4 + t.toNat))]
  | .sel64 z d a b x t => [BitVec.ofNat 32 (fmtV z 68 d.toNat a.toNat b.toNat (x.toNat * 4 + t.toNat))]
  | .cvt z d a ext => [BitVec.ofNat 32 (fmtV z 72 d.toNat a.toNat 0 0), encodeCvt ext]
  | .rsum z w d a b x t => [BitVec.ofNat 32 (fmtV z (w.toNat * 8) d.toNat a.toNat b.toNat (x.toNat * 4 + t.toNat))]
  | .rmin z w d a b x t => [BitVec.ofNat 32 (fmtV z (1 + w.toNat * 8) d.toNat a.toNat b.toNat (x.toNat * 4 + t.toNat))]
  | .rmax z w d a b x t => [BitVec.ofNat 32 (fmtV z (2 + w.toNat * 8) d.toNat a.toNat b.toNat (x.toNat * 4 + t.toNat))]
  | .rcnt z w d a t => [BitVec.ofNat 32 (fmtV z (3 + w.toNat * 8) d.toNat a.toNat 0 t.toNat)]
  | .scan z w d a b x t => [BitVec.ofNat 32 (fmtV z (4 + w.toNat * 8) d.toNat a.toNat b.toNat (x.toNat * 4 + t.toNat))]
  | .shfl z d a b x o => [BitVec.ofNat 32 (fmtV z 16 d.toNat a.toNat b.toNat (x.toNat * 4 + o.toNat))]
  | .shflImm z d a i o => [BitVec.ofNat 32 (fmtVI z 17 d.toNat a.toNat i.toNat o.toNat)]
  | .bcastImm z d a i => [BitVec.ofNat 32 (fmtVI z 18 d.toNat a.toNat i.toNat 0)]
  | .bcast z d a b x => [BitVec.ofNat 32 (fmtV z 19 d.toNat a.toNat b.toNat (x.toNat * 4))]
  | .vote z d a o => [BitVec.ofNat 32 (fmtV z 20 d.toNat a.toNat 0 o.toNat)]
  | .dot4 z d a b x t => [BitVec.ofNat 32 (fmtV z 24 d.toNat a.toNat b.toNat (x.toNat * 4 + t.toNat))]
  | .dot8 z d a b x t => [BitVec.ofNat 32 (fmtV z 25 d.toNat a.toNat b.toNat (x.toNat * 4 + t.toNat))]
  | .dot2 z d a b x => [BitVec.ofNat 32 (fmtV z 26 d.toNat a.toNat b.toNat (x.toNat * 4))]
  | .scale z d a b x => [BitVec.ofNat 32 (fmtV z 27 d.toNat a.toNat b.toNat (x.toNat * 4))]
  | .pack z d a b x t => [BitVec.ofNat 32 (fmtV z 28 d.toNat a.toNat b.toNat (x.toNat * 4 + t.toNat))]
  | .unpk z d a b x t => [BitVec.ofNat 32 (fmtV z 29 d.toNat a.toNat b.toNat (x.toNat * 4 + t.toNat))]
  | .xfRcp z d a => [BitVec.ofNat 32 (fmtV z 0 d.toNat a.toNat 0 0)]
  | .xfRsqrt z d a => [BitVec.ofNat 32 (fmtV z 1 d.toNat a.toNat 0 0)]
  | .xfSqrt z d a => [BitVec.ofNat 32 (fmtV z 2 d.toNat a.toNat 0 0)]
  | .xfExp2 z d a => [BitVec.ofNat 32 (fmtV z 3 d.toNat a.toNat 0 0)]
  | .xfLog2 z d a => [BitVec.ofNat 32 (fmtV z 4 d.toNat a.toNat 0 0)]
  | .xfSin z d a => [BitVec.ofNat 32 (fmtV z 5 d.toNat a.toNat 0 0)]
  | .xfCos z d a => [BitVec.ofNat 32 (fmtV z 6 d.toNat a.toNat 0 0)]
  | .xfTanh z d a => [BitVec.ofNat 32 (fmtV z 7 d.toNat a.toNat 0 0)]
  | .xfErf z d a => [BitVec.ofNat 32 (fmtV z 8 d.toNat a.toNat 0 0)]
  | .xfQsb8 z d a b => [BitVec.ofNat 32 (fmtV z 9 d.toNat a.toNat b.toNat 0)]
  | .xfXpose z d a => [BitVec.ofNat 32 (fmtV z 10 d.toNat a.toNat 0 0)]
  | .xfSort z d a b t => [BitVec.ofNat 32 (fmtV z 11 d.toNat a.toNat b.toNat t.toNat)]
  | .ld z t d a b x f ext => withMem (fmtV z t.toNat d.toNat a.toNat b.toNat (x.toNat * 4 + f.toNat * 2)) ext
  | .st z t d a b x f ext => withMem (fmtV z (16 + t.toNat) d.toNat a.toNat b.toNat (x.toNat * 4 + f.toNat * 2)) ext
  | .stSk z t d a b x f ext => withMem (fmtV z (32 + t.toNat) d.toNat a.toNat b.toNat (x.toNat * 4 + f.toNat * 2)) ext
  | .stnt z t d a b x f ext => withMem (fmtV z (48 + t.toNat) d.toNat a.toNat b.toNat (x.toNat * 4 + f.toNat * 2)) ext
  | .ntdrain z ext => withMem (fmtV z 56 0 0 0 0) (some ext)
  | .touch z a b x f ext => withMem (fmtV z 57 0 a.toNat b.toNat (x.toNat * 4 + f.toNat * 2)) ext
  | .fence z ext => withMem (fmtV z 58 0 0 0 0) (some ext)
  | .xfence z d a ext => withMem (fmtV z 59 d.toNat a.toNat 0 0) (some ext)
  | .post z d => [BitVec.ofNat 32 (fmtV z 60 d.toNat 0 0 0)]
  | .bwait z d a b x f ext => withMem (fmtV z 61 d.toNat a.toNat b.toNat (x.toNat * 4 + f.toNat * 2)) ext
  | .wake z d a b x f ext => withMem (fmtV z 62 d.toNat a.toNat b.toNat (x.toNat * 4 + f.toNat * 2)) ext
  | .atomAdd z t d a b x f ext => withMem (fmtV z (64 + t.toNat) d.toNat a.toNat b.toNat (x.toNat * 4 + f.toNat * 2)) ext
  | .atomMin z t d a b x f ext => withMem (fmtV z (72 + t.toNat) d.toNat a.toNat b.toNat (x.toNat * 4 + f.toNat * 2)) ext
  | .atomMax z t d a b x f ext => withMem (fmtV z (76 + t.toNat) d.toNat a.toNat b.toNat (x.toNat * 4 + f.toNat * 2)) ext
  | .atomAnd z w d a b x f ext => withMem (fmtV z (80 + w.toNat) d.toNat a.toNat b.toNat (x.toNat * 4 + f.toNat * 2)) ext
  | .atomOr z w d a b x f ext => withMem (fmtV z (82 + w.toNat) d.toNat a.toNat b.toNat (x.toNat * 4 + f.toNat * 2)) ext
  | .atomXor z w d a b x f ext => withMem (fmtV z (84 + w.toNat) d.toNat a.toNat b.toNat (x.toNat * 4 + f.toNat * 2)) ext
  | .atomXchg z w d a b x f ext => withMem (fmtV z (86 + w.toNat) d.toNat a.toNat b.toNat (x.toNat * 4 + f.toNat * 2)) ext
  | .cas z w d a b x f ext => withMem (fmtV z (88 + w.toNat) d.toNat a.toNat b.toNat (x.toNat * 4 + f.toNat * 2)) ext
  | .waita z w d a b x f ext => withMem (fmtV z (90 + w.toNat) d.toNat a.toNat b.toNat (x.toNat * 4 + f.toNat * 2)) ext
  | .gath z d a b ext => withMem (fmtV z 96 d.toNat a.toNat b.toNat 4) ext
  | .scat z d a b ext => withMem (fmtV z 97 d.toNat a.toNat b.toNat 4) ext
  | .scadd z d a b ext => withMem (fmtV z 98 d.toNat a.toNat b.toNat 4) ext
  | .confd z d a => [BitVec.ofNat 32 (fmtV z 99 d.toNat a.toNat 0 0)]
  | .tld z t d a h ext => withMem (fmtVI z t.toNat d.toNat a.toNat h.toNat 0) ext
  | .tst z t d a h ext => withMem (fmtVI z (8 + t.toNat) d.toNat a.toNat h.toNat 0) ext
  | .tstSk z t d a h ext => withMem (fmtVI z (12 + t.toNat) d.toNat a.toNat h.toNat 0) ext
  | .br z p u o j => [BitVec.ofNat 32 (fmtBR z 0 p.toNat u.toNat o.toNat j.toNat)]
  | .brc z p u o j => [BitVec.ofNat 32 (fmtBR z 1 p.toNat u.toNat o.toNat j.toNat)]
  | .brq z q o => [BitVec.ofNat 32 (fmtBR z 2 q.toNat 0 o.toNat 0)]
  | .join z => [BitVec.ofNat 32 (fmtV z 3 0 0 0 0)]
  | .call z o => [BitVec.ofNat 32 (fmtBR z 4 63 0 o.toNat 0)]
  | .ret z => [BitVec.ofNat 32 (fmtV z 5 0 0 0 0)]
  | .jmpx z a g => [BitVec.ofNat 32 (fmtV z 6 0 a.toNat (g.toNat * 2) 0)]
  | .callx z a g => [BitVec.ofNat 32 (fmtV z 7 0 a.toNat (g.toNat * 2) 0)]
  | .exit z => [BitVec.ofNat 32 (fmtV z 8 0 0 0 0)]
  | .bar z i a l => [BitVec.ofNat 32 (fmtV z 9 i.toNat a.toNat 0 l.toNat)]
  | .live z a => [BitVec.ofNat 32 (fmtV z 10 0 a.toNat 0 0)]
  | .savept z i => [BitVec.ofNat 32 (fmtVI z 11 0 0 i.toNat 0)]
  | .trap z i => [BitVec.ofNat 32 (fmtVI z 12 0 0 i.toNat 0)]
  | .rdstat z d => [BitVec.ofNat 32 (fmtVI z 12 d.toNat 0 62 0)]
  | .wrstat z a => [BitVec.ofNat 32 (fmtVI z 12 0 a.toNat 63 0)]
  | .rtf z r => [BitVec.ofNat 32 (fmtV z 13 0 0 0 r.toNat)]
  | .yield z => [BitVec.ofNat 32 (fmtV z 14 0 0 0 0)]
  | .leadAdd z d a b y c32 t => [BitVec.ofNat 32 (fmtL z 0 d.toNat a.toNat b.toNat (y.toNat * 16 + c32.toNat * 4 + t.toNat))]
  | .leadAddImm z d a i t => [BitVec.ofNat 32 (fmtLI z 1 d.toNat a.toNat i.toNat t.toNat)]
  | .leadSub z d a b y c32 t => [BitVec.ofNat 32 (fmtL z 2 d.toNat a.toNat b.toNat (y.toNat * 16 + c32.toNat * 4 + t.toNat))]
  | .leadSubImm z d a i t => [BitVec.ofNat 32 (fmtLI z 3 d.toNat a.toNat i.toNat t.toNat)]
  | .leadMul z d a b y c32 t => [BitVec.ofNat 32 (fmtL z 4 d.toNat a.toNat b.toNat (y.toNat * 16 + c32.toNat * 4 + t.toNat))]
  | .leadMulImm z d a i t => [BitVec.ofNat 32 (fmtLI z 5 d.toNat a.toNat i.toNat t.toNat)]
  | .leadMulh z d a b y c32 t => [BitVec.ofNat 32 (fmtL z 6 d.toNat a.toNat b.toNat (y.toNat * 16 + c32.toNat * 4 + t.toNat))]
  | .div z d a b y c32 t => [BitVec.ofNat 32 (fmtL z 7 d.toNat a.toNat b.toNat (y.toNat * 16 + c32.toNat * 4 + t.toNat))]
  | .rem z d a b y c32 t => [BitVec.ofNat 32 (fmtL z 8 d.toNat a.toNat b.toNat (y.toNat * 16 + c32.toNat * 4 + t.toNat))]
  | .leadAnd z d a b y c32 => [BitVec.ofNat 32 (fmtL z 9 d.toNat a.toNat b.toNat (2 + y.toNat * 16 + c32.toNat * 4))]
  | .leadAndImm z d a i => [BitVec.ofNat 32 (fmtLI z 10 d.toNat a.toNat i.toNat 2)]
  | .leadOr z d a b y c32 => [BitVec.ofNat 32 (fmtL z 11 d.toNat a.toNat b.toNat (2 + y.toNat * 16 + c32.toNat * 4))]
  | .leadOrImm z d a i => [BitVec.ofNat 32 (fmtLI z 12 d.toNat a.toNat i.toNat 2)]
  | .leadXor z d a b y c32 => [BitVec.ofNat 32 (fmtL z 13 d.toNat a.toNat b.toNat (2 + y.toNat * 16 + c32.toNat * 4))]
  | .leadXorImm z d a i => [BitVec.ofNat 32 (fmtLI z 14 d.toNat a.toNat i.toNat 2)]
  | .leadShl z d a b y c32 => [BitVec.ofNat 32 (fmtL z 15 d.toNat a.toNat b.toNat (2 + y.toNat * 16 + c32.toNat * 4))]
  | .leadShlImm z d a i => [BitVec.ofNat 32 (fmtLI z 16 d.toNat a.toNat i.toNat 2)]
  | .leadShr z d a b y c32 => [BitVec.ofNat 32 (fmtL z 17 d.toNat a.toNat b.toNat (2 + y.toNat * 16 + c32.toNat * 4))]
  | .leadShrImm z d a i => [BitVec.ofNat 32 (fmtLI z 18 d.toNat a.toNat i.toNat 2)]
  | .leadSar z d a b y c32 => [BitVec.ofNat 32 (fmtL z 19 d.toNat a.toNat b.toNat (2 + y.toNat * 16 + c32.toNat * 4))]
  | .leadSarImm z d a i => [BitVec.ofNat 32 (fmtLI z 20 d.toNat a.toNat i.toNat 2)]
  | .leadMin z d a b y c32 t => [BitVec.ofNat 32 (fmtL z 21 d.toNat a.toNat b.toNat (y.toNat * 16 + c32.toNat * 4 + t.toNat))]
  | .leadMax z d a b y c32 t => [BitVec.ofNat 32 (fmtL z 22 d.toNat a.toNat b.toNat (y.toNat * 16 + c32.toNat * 4 + t.toNat))]
  | .leadCmp z c d a b y c32 t => [BitVec.ofNat 32 (fmtL z (24 + c.toNat) d.toNat a.toNat b.toNat (y.toNat * 16 + c32.toNat * 4 + t.toNat))]
  | .leadCmpImm z c d a i t => [BitVec.ofNat 32 (fmtLI z (32 + c.toNat) d.toNat a.toNat i.toNat t.toNat)]
  | .leadSel z d a b y c32 t => [BitVec.ofNat 32 (fmtL z 30 d.toNat a.toNat b.toNat (y.toNat * 16 + c32.toNat * 4 + t.toNat))]
  | .movi z d i t => [BitVec.ofNat 32 (fmtLI z 31 d.toNat 0 i.toNat t.toNat)]
  | .movc z d a w => [BitVec.ofNat 32 (fmtL z 38 d.toNat a.toNat 0 w.toNat)]
  | .ldx z t d a i => [BitVec.ofNat 32 (fmtLI z (40 + t.toNat) d.toNat a.toNat i.toNat 0)]
  | .stx z t d a i => [BitVec.ofNat 32 (fmtLI z (44 + t.toNat) d.toNat a.toNat i.toNat 0)]
  | .atomxAdd z t d a b p o => [BitVec.ofNat 32 (fmtL z (48 + t.toNat) d.toNat a.toNat b.toNat (p.toNat * 4 + o.toNat))]
  | .atomxMinI64 z d a b p o => [BitVec.ofNat 32 (fmtL z 51 d.toNat a.toNat b.toNat (p.toNat * 4 + o.toNat))]
  | .atomxMinN64 z d a b p o => [BitVec.ofNat 32 (fmtL z 52 d.toNat a.toNat b.toNat (p.toNat * 4 + o.toNat))]
  | .atomxMaxI64 z d a b p o => [BitVec.ofNat 32 (fmtL z 53 d.toNat a.toNat b.toNat (p.toNat * 4 + o.toNat))]
  | .atomxMaxN64 z d a b p o => [BitVec.ofNat 32 (fmtL z 54 d.toNat a.toNat b.toNat (p.toNat * 4 + o.toNat))]
  | .atomxAnd z d a b p o => [BitVec.ofNat 32 (fmtL z 55 d.toNat a.toNat b.toNat (p.toNat * 4 + o.toNat))]
  | .atomxOr z d a b p o => [BitVec.ofNat 32 (fmtL z 56 d.toNat a.toNat b.toNat (p.toNat * 4 + o.toNat))]
  | .atomxXor z d a b p o => [BitVec.ofNat 32 (fmtL z 57 d.toNat a.toNat b.toNat (p.toNat * 4 + o.toNat))]
  | .atomxXchg z d a b p o => [BitVec.ofNat 32 (fmtL z 58 d.toNat a.toNat b.toNat (p.toNat * 4 + o.toNat))]
  | .atomxCas z d a b p o => [BitVec.ofNat 32 (fmtL z 59 d.toNat a.toNat b.toNat (p.toNat * 4 + o.toNat))]
  | .leadBr z p u o => [BitVec.ofNat 32 (fmtBR z 0 p.toNat u.toNat o.toNat 0)]
  | .leadBrc z p u o => [BitVec.ofNat 32 (fmtBR z 1 p.toNat u.toNat o.toNat 0)]
  | .leadCall z p u o => [BitVec.ofNat 32 (fmtBR z 2 p.toNat u.toNat o.toNat 0)]
  | .leadRet z => [BitVec.ofNat 32 (fmtL z 3 0 0 0 0)]
  | .dqpush z d a => [BitVec.ofNat 32 (fmtL z 8 d.toNat a.toNat 0 0)]
  | .rqpop z d => [BitVec.ofNat 32 (fmtL z 9 d.toNat 0 0 0)]
  | .qpush z d a b p => [BitVec.ofNat 32 (fmtL z 10 d.toNat a.toNat b.toNat (p.toNat * 4))]
  | .qpop z d a p => [BitVec.ofNat 32 (fmtL z 11 d.toNat a.toNat 0 (p.toNat * 4))]
  | .leadWaita z d a b p w => [BitVec.ofNat 32 (fmtL z 12 d.toNat a.toNat b.toNat (p.toNat * 4 + w.toNat))]
  | .leadWake z d a b p => [BitVec.ofNat 32 (fmtL z 13 d.toNat a.toNat b.toNat (p.toNat * 4))]
  | .leadFence z p o => [BitVec.ofNat 32 (fmtL z 14 0 0 0 (p.toNat * 4 + o.toNat))]
  | .leadXfence z d a p => [BitVec.ofNat 32 (fmtL z 15 d.toNat a.toNat 0 (p.toNat * 4))]
  | .mzero z d unit acc ty => [BitVec.ofNat 32 (fmtL z 0 d.toNat 0 0 0), BitVec.ofNat 32 (unit.toNat * 2 ^ 29 + acc.toNat * 2 ^ 25 + ty.toNat * 2 ^ 24)]
  | .mma z d a b unit acc k strict => [BitVec.ofNat 32 (fmtL z 1 d.toNat a.toNat b.toNat 0), BitVec.ofNat 32 (unit.toNat * 2 ^ 29 + acc.toNat * 2 ^ 25 + k.toNat * 2 ^ 17 + strict.toNat * 2 ^ 16)]
  | .mmc z d b unit acc src fmt strict => [BitVec.ofNat 32 (fmtL z 2 d.toNat 0 b.toNat 0), BitVec.ofNat 32 (unit.toNat * 2 ^ 29 + acc.toNat * 2 ^ 25 + src.toNat * 2 ^ 21 + fmt.toNat * 2 ^ 16 + strict.toNat * 2 ^ 15)]
  | .mmw z d a unit acc h strict => [BitVec.ofNat 32 (fmtL z 3 d.toNat a.toNat 0 0), BitVec.ofNat 32 (unit.toNat * 2 ^ 29 + acc.toNat * 2 ^ 25 + h.toNat * 2 ^ 17 + strict.toNat * 2 ^ 16)]
  | .mdrain z d a b unit acc => [BitVec.ofNat 32 (fmtL z 4 d.toNat a.toNat b.toNat 0), BitVec.ofNat 32 (unit.toNat * 2 ^ 29 + acc.toNat * 2 ^ 25)]
  | .mload z d a unit acc ty => [BitVec.ofNat 32 (fmtL z 5 d.toNat a.toNat 0 0), BitVec.ofNat 32 (unit.toNat * 2 ^ 29 + acc.toNat * 2 ^ 25 + ty.toNat * 2 ^ 24)]
  | .talloc z d a b h fmt slice packed => [BitVec.ofNat 32 (fmtL z 8 d.toNat a.toNat b.toNat 0), BitVec.ofNat 32 (h.toNat * 2 ^ 23 + fmt.toNat * 2 ^ 18 + slice.toNat * 2 ^ 17 + packed.toNat * 2 ^ 16)]
  | .tfree z d h => [BitVec.ofNat 32 (fmtL z 9 d.toNat 0 0 0), BitVec.ofNat 32 (h.toNat * 2 ^ 23)]
  | .tbind z d a h => [BitVec.ofNat 32 (fmtL z 10 d.toNat a.toNat 0 0), BitVec.ofNat 32 (h.toNat * 2 ^ 23)]
  | .tdry z d h => [BitVec.ofNat 32 (fmtL z 11 d.toNat 0 0 0), BitVec.ofNat 32 (h.toNat * 2 ^ 23)]
  | .tstat z d a h => [BitVec.ofNat 32 (fmtL z 12 d.toNat a.toNat 0 0), BitVec.ofNat 32 (h.toNat * 2 ^ 23)]
  | .abind z d a h slice => [BitVec.ofNat 32 (fmtL z 16 d.toNat a.toNat 0 0), BitVec.ofNat 32 (h.toNat * 2 ^ 23 + slice.toNat * 2 ^ 17)]
  | .seek z d a b unit ka mc n => [BitVec.ofNat 32 (fmtL z 17 d.toNat a.toNat b.toNat 0), BitVec.ofNat 32 (unit.toNat * 2 ^ 29 + ka.toNat * 2 ^ 26 + mc.toNat * 2 ^ 23 + n.toNat * 2 ^ 15)]
  | .proj z d a b unit => [BitVec.ofNat 32 (fmtL z 18 d.toNat a.toNat b.toNat 0), BitVec.ofNat 32 (unit.toNat * 2 ^ 29)]
  | .copy z d a tile h => [BitVec.ofNat 32 (fmtL z 0 d.toNat a.toNat 0 0), BitVec.ofNat 32 (tile.toNat * 2 ^ 30 + h.toNat * 2 ^ 22)]
  | .pcopy z d a b scope n => [BitVec.ofNat 32 (fmtL z 1 d.toNat a.toNat b.toNat 0), BitVec.ofNat 32 (scope.toNat * 2 ^ 16 + n.toNat)]
  | .binit z a b tile h scope => [BitVec.ofNat 32 (fmtL z 2 0 a.toNat b.toNat 0), BitVec.ofNat 32 (tile.toNat * 2 ^ 30 + h.toNat * 2 ^ 22 + scope.toNat * 2 ^ 18)]
  | .barr z d a b tile h scope => [BitVec.ofNat 32 (fmtL z 3 d.toNat a.toNat b.toNat 0), BitVec.ofNat 32 (tile.toNat * 2 ^ 30 + h.toNat * 2 ^ 22 + scope.toNat * 2 ^ 18)]
  | .leadBwait z d a b tile h scope => [BitVec.ofNat 32 (fmtL z 4 d.toNat a.toNat b.toNat 0), BitVec.ofNat 32 (tile.toNat * 2 ^ 30 + h.toNat * 2 ^ 22 + scope.toNat * 2 ^ 18)]
  | .smapLook z d a b => [BitVec.ofNat 32 (fmtL z 8 d.toNat a.toNat b.toNat 0), BitVec.ofNat 32 (0)]
  | .smapAppend z d a b => [BitVec.ofNat 32 (fmtL z 8 d.toNat a.toNat b.toNat 0), BitVec.ofNat 32 (1)]
  | .smapShare z d a b => [BitVec.ofNat 32 (fmtL z 8 d.toNat a.toNat b.toNat 0), BitVec.ofNat 32 (2)]
  | .smapLen z d a b => [BitVec.ofNat 32 (fmtL z 8 d.toNat a.toNat b.toNat 0), BitVec.ofNat 32 (3)]
  | .smapEvict z d a b => [BitVec.ofNat 32 (fmtL z 8 d.toNat a.toNat b.toNat 0), BitVec.ofNat 32 (4)]
  | .chase z d a b q lim => [BitVec.ofNat 32 (fmtL z 9 d.toNat a.toNat b.toNat 0), BitVec.ofNat 32 (q.toNat * 2 ^ 16 + lim.toNat)]
  | .launch z d a p => [BitVec.ofNat 32 (fmtL z 0 d.toNat a.toNat 0 (p.toNat * 4))]
  | .mark z d a b => [BitVec.ofNat 32 (fmtL z 4 d.toNat a.toNat b.toNat 0)]
  | .snap z => [BitVec.ofNat 32 (fmtL z 5 0 0 0 0)]
  | .rollbk z => [BitVec.ofNat 32 (fmtL z 6 0 0 0 0)]
  | .commit z => [BitVec.ofNat 32 (fmtL z 7 0 0 0 0)]
  | .leadTrap z b => [BitVec.ofNat 32 (fmtL z 8 0 0 b.toNat 0)]
  | .leadRdstat z d => [BitVec.ofNat 32 (fmtL z 8 d.toNat 0 62 0)]
  | .leadWrstat z a => [BitVec.ofNat 32 (fmtL z 8 0 a.toNat 63 0)]
  | .leadRtf z r => [BitVec.ofNat 32 (fmtL z 9 0 0 0 r.toNat)]
  | .leadSavept z i h => [BitVec.ofNat 32 (fmtL z 10 0 0 i.toNat h.toNat)]
  | .leadExit z => [BitVec.ofNat 32 (fmtL z 11 0 0 0 0)]
  | .rep n k t => [BitVec.ofNat 32 (fmtP false 0 n.toNat k.toNat t.toNat 0)]
  | .unlistedOpcode w => [w]
  | .clauseFetch => []
  | .resultReturn _ _ => []
  | .regcacheFill _ _ _ => []
  | .xfReply _ => []
  | .memoryReply _ _ => []
  | .collectorRoom _ => []
  | .queueStallRelease _ => []
  | .waitEnd _ _ => []
  | .waitTimeout _ => []
  | .bwaitResume _ => []
  | .pageResident _ => []
  | .tileFill _ _ _ => []
  | .tileEvict _ _ _ => []
  | .matrixKStep _ => []
  | .matrixOpComplete _ => []
  | .chunkDeliver _ _ => []
  | .pcopyComplete _ => []
  | .chasePage _ => []
  | .sqDoorbell _ _ => []
  | .queueEnable _ => []
  | .queueDisable _ => []
  | .cancel _ => []
  | .cancelAll => []
  | .retire _ => []
  | .registerWrite _ _ _ => []
  | .recordConsume _ _ => []
  | .launchAccept _ _ => []
  | .gangBind _ _ => []
  | .crewStart _ => []
  | .boundOverrun _ => []
  | .preemptRequest _ _ => []
  | .saveComplete _ => []
  | .saveTimeout _ => []
  | .gangRestore _ _ => []
  | .gangRelaunch _ => []
  | .comparePoint _ _ => []
  | .unitCompare _ => []
  | .pairFaultMatch _ _ => []
  | .uncorrectableError _ _ => []
  | .scrub _ _ => []
  | .ageingMeasure _ _ => []
  | .clockLimitApply _ => []
  | .machineDissent _ _ => []
  | .machineResync _ _ => []
  | .powerControl _ => []
  | .hostMemoryAccess _ => []
  | .podAccess _ => []
  | .linkReplay _ => []
  | .linkFailure _ => []
  | .routeChange _ => []
  | .powerOn => []
  | .deviceReset => []
  | .imageCheck => []
  | .dieBringUp _ _ => []
  | .memoryTraining _ => []
  | .schedulerStart => []
  | .getMeasurements _ => []
  | .challenge _ => []
  | .pldmFirmwareUpdate _ => []
  | .pldmSetCap _ => []
  | .pldmSensors => []
  | .pageDemotion _ _ => []

/-- The class of an instruction's clause (R80 to R91); 16 for the steps of the device. -/
def classOf : Instr → Nat
  | .add _ _ _ _ _ _ _ => 0
  | .addImm _ _ _ _ _ _ => 0
  | .sub _ _ _ _ _ _ _ => 0
  | .subImm _ _ _ _ _ _ => 0
  | .mul _ _ _ _ _ _ _ => 0
  | .mulImm _ _ _ _ _ _ => 0
  | .mulh _ _ _ _ _ _ _ => 0
  | .mad _ _ _ _ _ _ _ => 0
  | .abs _ _ _ _ => 0
  | .neg _ _ _ _ _ => 0
  | .min _ _ _ _ _ _ _ => 0
  | .minImm _ _ _ _ _ _ => 0
  | .max _ _ _ _ _ _ _ => 0
  | .maxImm _ _ _ _ _ _ => 0
  | .and _ _ _ _ _ _ => 0
  | .andImm _ _ _ _ _ => 0
  | .or _ _ _ _ _ _ => 0
  | .orImm _ _ _ _ _ => 0
  | .xor _ _ _ _ _ _ => 0
  | .xorImm _ _ _ _ _ => 0
  | .not _ _ _ _ => 0
  | .shl _ _ _ _ _ _ => 0
  | .shlImm _ _ _ _ _ => 0
  | .shr _ _ _ _ _ _ => 0
  | .shrImm _ _ _ _ _ => 0
  | .sar _ _ _ _ _ _ => 0
  | .sarImm _ _ _ _ _ => 0
  | .rot _ _ _ _ _ _ => 0
  | .rotImm _ _ _ _ _ => 0
  | .clz _ _ _ _ => 0
  | .popc _ _ _ _ => 0
  | .bfe _ _ _ _ _ _ => 0
  | .bfi _ _ _ _ _ _ => 0
  | .fadd _ _ _ _ _ => 1
  | .faddImm _ _ _ _ => 1
  | .fsub _ _ _ _ _ => 1
  | .fsubImm _ _ _ _ => 1
  | .fmul _ _ _ _ _ => 1
  | .fmulImm _ _ _ _ => 1
  | .fma _ _ _ _ _ => 1
  | .fmin _ _ _ _ _ => 1
  | .fminImm _ _ _ _ => 1
  | .fmax _ _ _ _ _ => 1
  | .fmaxImm _ _ _ _ => 1
  | .fabs _ _ _ => 1
  | .fneg _ _ _ => 1
  | .frnd _ _ _ _ => 1
  | .cmp _ _ _ _ _ _ _ _ => 2
  | .cmpImm _ _ _ _ _ _ _ => 2
  | .fcmp _ _ _ _ _ _ => 2
  | .fcmpImm _ _ _ _ _ => 2
  | .kand _ _ _ _ => 2
  | .kor _ _ _ _ => 2
  | .kxor _ _ _ _ => 2
  | .knot _ _ _ => 2
  | .kis _ _ _ _ => 2
  | .isabs _ _ _ _ => 2
  | .isabs64 _ _ _ _ => 2
  | .coal _ _ _ _ _ _ => 2
  | .coal64 _ _ _ _ _ _ => 2
  | .mkabs _ _ _ _ _ _ => 2
  | .mkabs64 _ _ _ _ _ _ => 2
  | .nullif _ _ _ _ _ _ => 2
  | .nullif64 _ _ _ _ _ _ => 2
  | .sel _ _ _ _ _ _ => 2
  | .sel64 _ _ _ _ _ _ => 2
  | .cvt _ _ _ _ => 2
  | .rsum _ _ _ _ _ _ _ => 3
  | .rmin _ _ _ _ _ _ _ => 3
  | .rmax _ _ _ _ _ _ _ => 3
  | .rcnt _ _ _ _ _ => 3
  | .scan _ _ _ _ _ _ _ => 3
  | .shfl _ _ _ _ _ _ => 3
  | .shflImm _ _ _ _ _ => 3
  | .bcastImm _ _ _ _ => 3
  | .bcast _ _ _ _ _ => 3
  | .vote _ _ _ _ => 3
  | .dot4 _ _ _ _ _ _ => 3
  | .dot8 _ _ _ _ _ _ => 3
  | .dot2 _ _ _ _ _ => 3
  | .scale _ _ _ _ _ => 3
  | .pack _ _ _ _ _ _ => 3
  | .unpk _ _ _ _ _ _ => 3
  | .xfRcp _ _ _ => 7
  | .xfRsqrt _ _ _ => 7
  | .xfSqrt _ _ _ => 7
  | .xfExp2 _ _ _ => 7
  | .xfLog2 _ _ _ => 7
  | .xfSin _ _ _ => 7
  | .xfCos _ _ _ => 7
  | .xfTanh _ _ _ => 7
  | .xfErf _ _ _ => 7
  | .xfQsb8 _ _ _ _ => 7
  | .xfXpose _ _ _ => 7
  | .xfSort _ _ _ _ _ => 7
  | .ld _ _ _ _ _ _ _ _ => 4
  | .st _ _ _ _ _ _ _ _ => 4
  | .stSk _ _ _ _ _ _ _ _ => 4
  | .stnt _ _ _ _ _ _ _ _ => 4
  | .ntdrain _ _ => 4
  | .touch _ _ _ _ _ _ => 4
  | .fence _ _ => 4
  | .xfence _ _ _ _ => 4
  | .post _ _ => 4
  | .bwait _ _ _ _ _ _ _ => 4
  | .wake _ _ _ _ _ _ _ => 4
  | .atomAdd _ _ _ _ _ _ _ _ => 4
  | .atomMin _ _ _ _ _ _ _ _ => 4
  | .atomMax _ _ _ _ _ _ _ _ => 4
  | .atomAnd _ _ _ _ _ _ _ _ => 4
  | .atomOr _ _ _ _ _ _ _ _ => 4
  | .atomXor _ _ _ _ _ _ _ _ => 4
  | .atomXchg _ _ _ _ _ _ _ _ => 4
  | .cas _ _ _ _ _ _ _ _ => 4
  | .waita _ _ _ _ _ _ _ _ => 4
  | .gath _ _ _ _ _ => 4
  | .scat _ _ _ _ _ => 4
  | .scadd _ _ _ _ _ => 4
  | .confd _ _ _ => 4
  | .tld _ _ _ _ _ _ => 5
  | .tst _ _ _ _ _ _ => 5
  | .tstSk _ _ _ _ _ _ => 5
  | .br _ _ _ _ _ => 6
  | .brc _ _ _ _ _ => 6
  | .brq _ _ _ => 6
  | .join _ => 6
  | .call _ _ => 6
  | .ret _ => 6
  | .jmpx _ _ _ => 6
  | .callx _ _ _ => 6
  | .exit _ => 6
  | .bar _ _ _ _ => 6
  | .live _ _ => 6
  | .savept _ _ => 6
  | .trap _ _ => 6
  | .rdstat _ _ => 6
  | .wrstat _ _ => 6
  | .rtf _ _ => 6
  | .yield _ => 6
  | .leadAdd _ _ _ _ _ _ _ => 8
  | .leadAddImm _ _ _ _ _ => 8
  | .leadSub _ _ _ _ _ _ _ => 8
  | .leadSubImm _ _ _ _ _ => 8
  | .leadMul _ _ _ _ _ _ _ => 8
  | .leadMulImm _ _ _ _ _ => 8
  | .leadMulh _ _ _ _ _ _ _ => 8
  | .div _ _ _ _ _ _ _ => 8
  | .rem _ _ _ _ _ _ _ => 8
  | .leadAnd _ _ _ _ _ _ => 8
  | .leadAndImm _ _ _ _ => 8
  | .leadOr _ _ _ _ _ _ => 8
  | .leadOrImm _ _ _ _ => 8
  | .leadXor _ _ _ _ _ _ => 8
  | .leadXorImm _ _ _ _ => 8
  | .leadShl _ _ _ _ _ _ => 8
  | .leadShlImm _ _ _ _ => 8
  | .leadShr _ _ _ _ _ _ => 8
  | .leadShrImm _ _ _ _ => 8
  | .leadSar _ _ _ _ _ _ => 8
  | .leadSarImm _ _ _ _ => 8
  | .leadMin _ _ _ _ _ _ _ => 8
  | .leadMax _ _ _ _ _ _ _ => 8
  | .leadCmp _ _ _ _ _ _ _ _ => 8
  | .leadCmpImm _ _ _ _ _ _ => 8
  | .leadSel _ _ _ _ _ _ _ => 8
  | .movi _ _ _ _ => 8
  | .movc _ _ _ _ => 8
  | .ldx _ _ _ _ _ => 8
  | .stx _ _ _ _ _ => 8
  | .atomxAdd _ _ _ _ _ _ _ => 8
  | .atomxMinI64 _ _ _ _ _ _ => 8
  | .atomxMinN64 _ _ _ _ _ _ => 8
  | .atomxMaxI64 _ _ _ _ _ _ => 8
  | .atomxMaxN64 _ _ _ _ _ _ => 8
  | .atomxAnd _ _ _ _ _ _ => 8
  | .atomxOr _ _ _ _ _ _ => 8
  | .atomxXor _ _ _ _ _ _ => 8
  | .atomxXchg _ _ _ _ _ _ => 8
  | .atomxCas _ _ _ _ _ _ => 8
  | .leadBr _ _ _ _ => 9
  | .leadBrc _ _ _ _ => 9
  | .leadCall _ _ _ _ => 9
  | .leadRet _ => 9
  | .dqpush _ _ _ => 9
  | .rqpop _ _ => 9
  | .qpush _ _ _ _ _ => 9
  | .qpop _ _ _ _ => 9
  | .leadWaita _ _ _ _ _ _ => 9
  | .leadWake _ _ _ _ _ => 9
  | .leadFence _ _ _ => 9
  | .leadXfence _ _ _ _ => 9
  | .mzero _ _ _ _ _ => 10
  | .mma _ _ _ _ _ _ _ _ => 10
  | .mmc _ _ _ _ _ _ _ _ => 10
  | .mmw _ _ _ _ _ _ _ => 10
  | .mdrain _ _ _ _ _ _ => 10
  | .mload _ _ _ _ _ _ => 10
  | .talloc _ _ _ _ _ _ _ _ => 10
  | .tfree _ _ _ => 10
  | .tbind _ _ _ _ => 10
  | .tdry _ _ _ => 10
  | .tstat _ _ _ _ => 10
  | .abind _ _ _ _ _ => 10
  | .seek _ _ _ _ _ _ _ _ => 10
  | .proj _ _ _ _ _ => 10
  | .copy _ _ _ _ _ => 11
  | .pcopy _ _ _ _ _ _ => 11
  | .binit _ _ _ _ _ _ => 11
  | .barr _ _ _ _ _ _ _ => 11
  | .leadBwait _ _ _ _ _ _ _ => 11
  | .smapLook _ _ _ _ => 11
  | .smapAppend _ _ _ _ => 11
  | .smapShare _ _ _ _ => 11
  | .smapLen _ _ _ _ => 11
  | .smapEvict _ _ _ _ => 11
  | .chase _ _ _ _ _ _ => 11
  | .launch _ _ _ _ => 12
  | .mark _ _ _ _ => 12
  | .snap _ => 12
  | .rollbk _ => 12
  | .commit _ => 12
  | .leadTrap _ _ => 12
  | .leadRdstat _ _ => 12
  | .leadWrstat _ _ => 12
  | .leadRtf _ _ => 12
  | .leadSavept _ _ _ => 12
  | .leadExit _ => 12
  | .rep _ _ _ => 13
  | .clauseFetch => 16
  | .resultReturn _ _ => 16
  | .regcacheFill _ _ _ => 16
  | .xfReply _ => 16
  | .memoryReply _ _ => 16
  | .collectorRoom _ => 16
  | .queueStallRelease _ => 16
  | .waitEnd _ _ => 16
  | .waitTimeout _ => 16
  | .bwaitResume _ => 16
  | .pageResident _ => 16
  | .tileFill _ _ _ => 16
  | .tileEvict _ _ _ => 16
  | .matrixKStep _ => 16
  | .matrixOpComplete _ => 16
  | .chunkDeliver _ _ => 16
  | .pcopyComplete _ => 16
  | .chasePage _ => 16
  | .sqDoorbell _ _ => 16
  | .queueEnable _ => 16
  | .queueDisable _ => 16
  | .cancel _ => 16
  | .cancelAll => 16
  | .retire _ => 16
  | .registerWrite _ _ _ => 16
  | .recordConsume _ _ => 16
  | .launchAccept _ _ => 16
  | .gangBind _ _ => 16
  | .crewStart _ => 16
  | .boundOverrun _ => 16
  | .preemptRequest _ _ => 16
  | .saveComplete _ => 16
  | .saveTimeout _ => 16
  | .gangRestore _ _ => 16
  | .gangRelaunch _ => 16
  | .comparePoint _ _ => 16
  | .unitCompare _ => 16
  | .pairFaultMatch _ _ => 16
  | .uncorrectableError _ _ => 16
  | .scrub _ _ => 16
  | .ageingMeasure _ _ => 16
  | .clockLimitApply _ => 16
  | .machineDissent _ _ => 16
  | .machineResync _ _ => 16
  | .powerControl _ => 16
  | .hostMemoryAccess _ => 16
  | .podAccess _ => 16
  | .linkReplay _ => 16
  | .linkFailure _ => 16
  | .routeChange _ => 16
  | .powerOn => 16
  | .deviceReset => 16
  | .imageCheck => 16
  | .dieBringUp _ _ => 16
  | .memoryTraining _ => 16
  | .schedulerStart => 16
  | .getMeasurements _ => 16
  | .challenge _ => 16
  | .pldmFirmwareUpdate _ => 16
  | .pldmSetCap _ => 16
  | .pldmSensors => 16
  | .unlistedOpcode _ => 16
  | .pageDemotion _ _ => 16

/-- The decoding of one word and its extension in a class, as an option. -/
def decodeIn (cls : Nat) (w ext : Word) : Option Instr :=
  match decodeWord cls w (some ext) with
  | .ok (.unlistedOpcode _) _ => none
  | .ok i _ => some i
  | .bad _ => none

/-- The first class of a list in which a word decodes. -/
def firstClass (w ext : Word) : List Nat → Option (Nat × Instr)
  | [] => none
  | c :: cs =>
    match decodeIn c w ext with
    | some i => some (c, i)
    | none => firstClass w ext cs

/-- A word read by the numbering of the opcode table, with the class that reads it. A word of the Ralanarad has a meaning
only inside a clause, whose header names the class (R44, R45); the table's bits do not, so the lowest class that accepts the
word is taken (log 7). -/
def tableClass (nbits w : Nat) : Option (Nat × Instr) :=
  let v := w % 2 ^ nbits
  firstClass (BitVec.ofNat 32 v) (BitVec.ofNat 32 (v / 2 ^ 32)) (List.range 14)

/-- The instruction that the decoder reads from a word numbered as the opcode table numbers it (log 7). -/
def decodeTableWord (nbits w : Nat) : Option Instr := (tableClass nbits w).map Prod.snd

end Sys2Proof
end

