-- ==== Sys2Proof/Machine/Flags.lean ====
section
/-!
DEFINITION. The sticky flags (R102) and the rounding modes (R100), at their places in the low byte of the status
registers (R131, R174).
-/

namespace Sys2Proof.Machine

/-- Six sticky flags, NV DZ OF UF NX SA from bit 5 down (R131, R174). -/
abbrev Flags := BitVec 6

def Flags.none : Flags := 0x00#6
/-- Integer clamp (R93). -/
def Flags.sa : Flags := 0x01#6
/-- Inexact (R102). -/
def Flags.nx : Flags := 0x02#6
/-- Tiny after rounding and inexact (R102). -/
def Flags.uf : Flags := 0x04#6
/-- Overflow (R102). -/
def Flags.of : Flags := 0x08#6
/-- Division of a finite nonzero value by zero (R102). -/
def Flags.dz : Flags := 0x10#6
/-- Invalid (R102). -/
def Flags.nv : Flags := 0x20#6

/-- A flag, or none. -/
def Flags.when (c : Bool) (f : Flags) : Flags := if c then f else Flags.none

/-- Rounding modes (R100). -/
inductive Rnd where
  /-- To nearest, ties to even. -/
  | rne
  /-- Toward zero. -/
  | rz
  /-- Toward plus infinity. -/
  | ru
  /-- Toward minus infinity. -/
  | rd
  deriving DecidableEq, Repr, Inhabited

/-- The two mode bits (R100). -/
def Rnd.ofCode (c : Nat) : Rnd :=
  match c % 4 with
  | 0 => .rne
  | 1 => .rz
  | 2 => .ru
  | _ => .rd

/-- The mode field [7:6] of a status register. -/
def statusMode (st : BitVec 64) : Rnd := Rnd.ofCode (fieldNat st.toNat 6 2)

/-- Set sticky flags in a status register: a set flag stays set (R102). -/
def raiseFlags (st : BitVec 64) (f : Flags) : BitVec 64 := st ||| f.zeroExtend 64

/-- Replace the low byte of a status register (R168, R198). -/
def writeStatusByte (st : BitVec 64) (b : BitVec 8) : BitVec 64 :=
  (st &&& ~~~(0xFF#64)) ||| b.zeroExtend 64

/-- The address of the 256-byte fault-record area, bits [56:8] (R131, R174). -/
def statusFrec (st : BitVec 64) : Nat := fieldNat st.toNat 8 49 * 256

/-- A status register with every field clear but frec (R131, R174). -/
def freshStatus (frec : BitVec 49) : BitVec 64 := frec.zeroExtend 64 <<< 8

end Sys2Proof.Machine
end

