-- ==== Sys2Proof/Machine/Values.lean ====
section
/-!
DEFINITION. Integer and raw-bits values: absent codes and ranges (R92), saturation (R93), wrapping (R94), and trits with
Kleene's logic (R109 to R112).
-/

namespace Sys2Proof.Machine

/-- The kind of an integer type (R92). -/
inductive Kind where
  | signed
  | unsigned
  | raw
  deriving DecidableEq, Repr, Inhabited

/-- The type codes of m[1:0]: 00 .i, 01 .n, 10 .b (R80, R88). Code 11 never decodes. -/
def Kind.ofCode (c : BitVec 2) : Kind :=
  match c.toNat with
  | 0 => .signed
  | 1 => .unsigned
  | _ => .raw

/-- Kinds that have an absent code (R92). -/
def Kind.isValue : Kind → Bool
  | .raw => false
  | _ => true

/-- The absent code of `n` bits (R92); all ones where the type has none, as a dead register and a fill read (R178, R245). -/
def absentCode (k : Kind) (n : Nat) : Nat :=
  match k with
  | .signed => 2 ^ (n - 1)
  | .unsigned => 2 ^ n - 1
  | .raw => 2 ^ n - 1

/-- Whether a code is the type's absent code (R92). Raw bits know no absent (R94). -/
def isAbsentCode (k : Kind) (n w : Nat) : Bool := k.isValue && w == absentCode k n

/-- The number that a code holds, absent aside. -/
def intOf (k : Kind) (n w : Nat) : Int :=
  match k with
  | .signed => toSigned n w
  | _ => (w % 2 ^ n : Nat)

/-- The value of a code: none where it is absent (R92). -/
def valueOf (k : Kind) (n w : Nat) : Option Int :=
  if isAbsentCode k n w then none else some (intOf k n w)

/-- Least present value (R92). -/
def minPresent (k : Kind) (n : Nat) : Int :=
  match k with
  | .signed => -(2 ^ (n - 1) - 1 : Int)
  | _ => 0

/-- Greatest present value (R92). -/
def maxPresent (k : Kind) (n : Nat) : Int :=
  match k with
  | .signed => (2 ^ (n - 1) - 1 : Int)
  | .unsigned => (2 ^ n - 2 : Int)
  | .raw => (2 ^ n - 1 : Int)

/-- Narrow an exact result to a type: saturate with SA on value types (R93), wrap on raw bits (R94). -/
def narrow (k : Kind) (n : Nat) (e : Int) : Nat × Flags :=
  match k with
  | .raw => (ofInt n e, Flags.none)
  | _ =>
    if e < minPresent k n then (ofInt n (minPresent k n), Flags.sa)
    else if e > maxPresent k n then (ofInt n (maxPresent k n), Flags.sa)
    else (ofInt n e, Flags.none)

/-- One integer operation on codes: absent operands of a value type give absent and no flag (R93, R208, R134). -/
def intOp (k : Kind) (n : Nat) (ops : List Nat) (f : List Int → Int) : Nat × Flags :=
  if ops.any (isAbsentCode k n) then (absentCode k n, Flags.none)
  else narrow k n (f (ops.map (intOf k n)))

/-- Shift right of an integer, rounding toward minus infinity. -/
def asr (i : Int) (s : Nat) : Int := i / (2 ^ s : Int)

/-- High `n` bits of the exact product: signed for .i, unsigned for .n and .b (R208, R134). -/
def mulHigh (n : Nat) (a b : Int) : Int := asr (a * b) n

/-- A truth value (R109). -/
inductive Trit where
  | f
  | t
  | u
  deriving DecidableEq, Repr, Inhabited

/-- The two bits of a trit: 00 F, 01 T, 10 U (R109). -/
def Trit.code : Trit → Nat
  | .f => 0
  | .t => 1
  | .u => 2

/-- Two bits read as a trit: 11 reads as U (R109). -/
def Trit.ofCode (c : Nat) : Trit :=
  match c % 4 with
  | 0 => .f
  | 1 => .t
  | _ => .u

/-- KNOT (R111). -/
def Trit.not : Trit → Trit
  | .f => .t
  | .t => .f
  | .u => .u

/-- KAND (R111). -/
def Trit.and : Trit → Trit → Trit
  | .f, _ => .f
  | _, .f => .f
  | .t, .t => .t
  | _, _ => .u

/-- KOR (R111). -/
def Trit.or : Trit → Trit → Trit
  | .t, _ => .t
  | _, .t => .t
  | .f, .f => .f
  | _, _ => .u

/-- KXOR (R111). -/
def Trit.xor : Trit → Trit → Trit
  | .u, _ => .u
  | _, .u => .u
  | .t, .t => .f
  | .f, .f => .f
  | _, _ => .t

/-- A test's result as a trit. -/
def Trit.ofBool (b : Bool) : Trit := if b then .t else .f

/-- The six conditions in opcode order (R82, R88). -/
inductive Cond where
  | eq
  | ne
  | lt
  | le
  | gt
  | ge
  deriving DecidableEq, Repr, Inhabited

def Cond.ofCode (c : Nat) : Cond :=
  match c with
  | 0 => .eq
  | 1 => .ne
  | 2 => .lt
  | 3 => .le
  | 4 => .gt
  | _ => .ge

/-- A condition on an ordering of two present values. -/
def Cond.holds (c : Cond) (o : Ordering) : Bool :=
  match c with
  | .eq => o == .eq
  | .ne => o != .eq
  | .lt => o == .lt
  | .le => o != .gt
  | .gt => o == .gt
  | .ge => o != .lt

/-- Integer and raw-bits comparison of codes: U where a value type meets absent (R110). -/
def cmpInt (c : Cond) (k : Kind) (n a b : Nat) : Trit :=
  if isAbsentCode k n a || isAbsentCode k n b then .u
  else Trit.ofBool (c.holds (compare (intOf k n a) (intOf k n b)))

/-- The value of an 8-bit immediate for an integer type, as a code of `n` bits (R54). -/
def immCode (k : Kind) (n : Nat) (imm : BitVec 8) : Nat :=
  match k with
  | .signed => if imm = 0x80#8 then absentCode .signed n else ofInt n (toSigned 8 imm.toNat)
  | .unsigned => if imm = 0xFF#8 then absentCode .unsigned n else imm.toNat
  | .raw => ofInt n (toSigned 8 imm.toNat)

end Sys2Proof.Machine
end

