-- ==== Sys2Proof/Machine/Float.lean ====
section
/-!
DEFINITION. Floating values (R96 to R102). A finite value is a sign, a natural mantissa and a binary exponent, exact before
rounding; one function narrows it to a format.
-/

namespace Sys2Proof.Machine

/-- The floating formats of R96. -/
inductive FFmt where
  | f32
  | f16
  | bf16
  | e4m3
  | e5m2
  | e2m1
  deriving DecidableEq, Repr, Inhabited

/-- Exponent bits (R96). -/
def FFmt.exp : FFmt → Nat
  | .f32 => 8 | .f16 => 5 | .bf16 => 8 | .e4m3 => 4 | .e5m2 => 5 | .e2m1 => 2
/-- Fraction bits (R96). -/
def FFmt.frac : FFmt → Nat
  | .f32 => 23 | .f16 => 10 | .bf16 => 7 | .e4m3 => 3 | .e5m2 => 2 | .e2m1 => 1
/-- Exponent bias (R96). -/
def FFmt.bias : FFmt → Nat
  | .f32 => 127 | .f16 => 15 | .bf16 => 127 | .e4m3 => 7 | .e5m2 => 15 | .e2m1 => 1
/-- Width in bits. -/
def FFmt.width (f : FFmt) : Nat := 1 + f.exp + f.frac
/-- Code of the largest finite value (R96). -/
def FFmt.maxCode : FFmt → Nat
  | .f32 => 0x7F7F_FFFF | .f16 => 0x7BFF | .bf16 => 0x7F7F | .e4m3 => 0x7E | .e5m2 => 0x7B | .e2m1 => 0x7
/-- Whether the format has infinities (R96). -/
def FFmt.hasInf : FFmt → Bool
  | .e4m3 => false | .e2m1 => false | _ => true
/-- The absent code (R96). -/
def FFmt.absent : FFmt → Nat
  | .f32 => 0xFFFF_FFFF | .f16 => 0xFFFF | .bf16 => 0xFFFF | .e4m3 => 0xFF | .e5m2 => 0xFF | .e2m1 => 0x8
/-- The canonical NaN (R96); .e2m1 has none and converts a NaN to absent (R127). -/
def FFmt.nanCode : FFmt → Nat
  | .f32 => 0x7FC0_0000 | .f16 => 0x7E00 | .bf16 => 0x7FC0 | .e4m3 => 0x7F | .e5m2 => 0x7E | .e2m1 => 0x8
/-- The sign bit's weight. -/
def FFmt.signBit (f : FFmt) : Nat := 2 ^ (f.exp + f.frac)
/-- Code of plus infinity, for formats that have it. -/
def FFmt.infCode (f : FFmt) : Nat := f.maxCode + 1

/-- A floating value: absent, a NaN (signalling or quiet), an infinity, or the number (-1)^neg * m * 2^e. -/
inductive FV where
  | absent
  | nan (signalling : Bool)
  | inf (neg : Bool)
  | num (neg : Bool) (m : Nat) (e : Int)
  deriving DecidableEq, Repr, Inhabited

/-- Plus zero. -/
def FV.zero : FV := .num false 0 0

def FV.isAbsent : FV → Bool
  | .absent => true
  | _ => false

def FV.isNan : FV → Bool
  | .nan _ => true
  | _ => false

def FV.isSignalling : FV → Bool
  | .nan s => s
  | _ => false

/-- A number of value zero, either sign. -/
def FV.isZero : FV → Bool
  | .num _ m _ => m == 0
  | _ => false

/-- The value of a code (R96, R97). -/
def FFmt.decode (f : FFmt) (code : Nat) : FV :=
  let w := code % 2 ^ f.width
  let neg := bitNat w (f.exp + f.frac)
  let ee := fieldNat w f.frac f.exp
  let fr := fieldNat w 0 f.frac
  if w = f.absent then .absent
  else if f.hasInf ∧ ee = 2 ^ f.exp - 1 then
    if fr = 0 then .inf neg else .nan (!bitNat fr (f.frac - 1))
  else if f = .e4m3 ∧ w = 0x7F then .nan false
  else if ee = 0 then .num neg fr (1 - (f.bias : Int) - f.frac)
  else .num neg (2 ^ f.frac + fr) ((ee : Int) - f.bias - f.frac)

/-- The rounding decision: `low` is whether the last kept bit is odd, `cmp` compares the discarded part with one half. -/
def roundUpBy (mode : Rnd) (neg odd : Bool) (half : Ordering) (inexact : Bool) : Bool :=
  match mode with
  | .rne => half == .gt || (half == .eq && odd)
  | .rz => false
  | .ru => inexact && !neg
  | .rd => inexact && neg

/-- `m * 2^(-s)` rounded to an integer, and whether it was inexact. -/
def roundShift (mode : Rnd) (neg : Bool) (m s : Nat) : Nat × Bool :=
  let q := m / 2 ^ s
  let r := m % 2 ^ s
  let inexact := r != 0
  let half := if s = 0 then Ordering.lt else compare (2 * r) (2 ^ s)
  (if roundUpBy mode neg (q % 2 == 1) half inexact then q + 1 else q, inexact)

/-- `m * 2^(e - q)` rounded to an integer: the mantissa at exponent `q`. -/
def roundAt (mode : Rnd) (neg : Bool) (m : Nat) (e q : Int) : Nat × Bool :=
  if q ≤ e then (m * 2 ^ (e - q).toNat, false) else roundShift mode neg m (q - e).toNat

/-- The code and flags of an overflow of a sign in a format (R127). -/
def FFmt.overflow (f : FFmt) (mode : Rnd) (neg : Bool) : Nat :=
  let s := if neg then f.signBit else 0
  let toInf := match mode with
    | .rne => true
    | .rz => false
    | .ru => !neg
    | .rd => neg
  if f.hasInf && toInf then s + f.infCode else s + f.maxCode

/-- A zero of a sign: .e2m1 has no negative zero (R96). -/
def FFmt.zeroCode (f : FFmt) (neg : Bool) : Nat :=
  if neg && f != .e2m1 then f.signBit else 0

/-- Narrow the exact number (-1)^neg * m * 2^e to a format: rounding R100, overflow R127, flags R102, subnormals kept
(R101). Tiny is judged after rounding to the format's precision with an unbounded exponent. -/
def FFmt.roundNum (f : FFmt) (mode : Rnd) (neg : Bool) (m : Nat) (e : Int) : Nat × Flags :=
  if m = 0 then (f.zeroCode neg, Flags.none)
  else
    let emin : Int := 1 - (f.bias : Int) - f.frac
    let top : Int := e + m.log2 - f.frac
    let q := max top emin
    let (n, inexact) := roundAt mode neg m e q
    let code := (q - emin).toNat * 2 ^ f.frac + n
    if code > f.maxCode then (f.overflow mode neg, Flags.of ||| Flags.nx)
    else
      let (p, _) := roundAt mode neg m e top
      let tiny := decide (top + (if p = 2 ^ (f.frac + 1) then 1 else 0) < emin)
      let body := if code = 0 then f.zeroCode neg else code + (if neg then f.signBit else 0)
      (body, Flags.when inexact Flags.nx ||| Flags.when (inexact && tiny) Flags.uf)

/-- Narrow a value to a format (R98, R99, R127). A NaN gives the canonical NaN; a NaN that the format cannot hold gives
absent and NV. The NV of a signalling NaN is the caller's. -/
def FFmt.narrow (f : FFmt) (mode : Rnd) : FV → Nat × Flags
  | .absent => (f.absent, Flags.none)
  | .nan _ => (f.nanCode, Flags.when (f == .e2m1) Flags.nv)
  | .inf neg =>
    if f.hasInf then (f.infCode + (if neg then f.signBit else 0), Flags.none)
    else (f.maxCode + (if neg then f.signBit else 0), Flags.of ||| Flags.nx)
  | .num neg m e => f.roundNum mode neg m e

/-- The signed mantissa of a number. -/
def signedMant (neg : Bool) (m : Nat) : Int := if neg then -(m : Int) else m

/-- The exact product of two values and whether it is invalid (infinity times zero). Absent takes precedence (R99). -/
def FV.mul (a b : FV) : FV × Bool :=
  match a, b with
  | .absent, _ => (.absent, false)
  | _, .absent => (.absent, false)
  | .nan s, .nan t => (.nan (s || t), false)
  | .nan s, _ => (.nan s, false)
  | _, .nan t => (.nan t, false)
  | .inf x, .inf y => (.inf (x != y), false)
  | .inf x, .num y m _ => if m = 0 then (.nan false, true) else (.inf (x != y), false)
  | .num x m _, .inf y => if m = 0 then (.nan false, true) else (.inf (x != y), false)
  | .num x m e, .num y n k => (.num (x != y) (m * n) (e + k), false)

/-- Least exponent among numbers. -/
def minExp (xs : List (Bool × Nat × Int)) : Int :=
  xs.foldl (fun a x => if x.2.1 = 0 then a else min a x.2.2) (xs.foldl (fun a x => max a x.2.2) 0)

/-- The numbers of a list of values. -/
def FV.nums : List FV → List (Bool × Nat × Int)
  | [] => []
  | .num s m e :: xs => (s, m, e) :: FV.nums xs
  | _ :: xs => FV.nums xs

/-- The exact sum of numbers as a mantissa at their least exponent. -/
def exactSum (xs : List (Bool × Nat × Int)) : Int × Int :=
  let q := minExp xs
  (xs.foldl (fun a x => a + (if x.2.1 = 0 then 0 else signedMant x.1 (x.2.1 * 2 ^ (x.2.2 - q).toNat))) 0, q)

/-- The exact sum of values as one IEEE 754 operation (R99, R115, R120): opposite infinities are invalid; a zero sum takes its
sign by IEEE 754, minus only where every term is a negative zero or the mode is RD. -/
def FV.sum (mode : Rnd) (xs : List FV) : FV × Bool :=
  if xs.any FV.isAbsent then (.absent, false)
  else if xs.any FV.isNan then (.nan (xs.any FV.isSignalling), false)
  else
    let pos := xs.any (· == .inf false)
    let neg := xs.any (· == .inf true)
    if pos && neg then (.nan false, true)
    else if pos then (.inf false, false)
    else if neg then (.inf true, false)
    else
      let ns := FV.nums xs
      let (s, q) := exactSum ns
      if s = 0 then
        let allNeg := ns.all (fun n => n.2.1 == 0 && n.1)
        let allPos := ns.all (fun n => n.2.1 == 0 && !n.1)
        (.num (if allNeg then true else if allPos then false else mode == .rd) 0 0, false)
      else (.num (decide (s < 0)) s.natAbs q, false)

/-- The value with its sign inverted. -/
def FV.neg : FV → FV
  | .num s m e => .num (!s) m e
  | .inf s => .inf (!s)
  | x => x

/-- The negative of a sign for a total order: -1 where negative. -/
def ordInt (a b : Int) : Ordering := compare a b

/-- Order of two present values that are no NaNs, minus zero equal to plus zero (R110). -/
def FV.compareNum (a b : FV) : Ordering :=
  match a, b with
  | .inf x, .inf y => compare (if x then 0 else 1) (if y then 0 else 1)
  | .inf x, _ => if x then .lt else .gt
  | _, .inf y => if y then .gt else .lt
  | .num x m e, .num y n k =>
    let q := min e k
    compare (signedMant x (m * 2 ^ (e - q).toNat)) (signedMant y (n * 2 ^ (k - q).toNat))
  | _, _ => .eq

/-- Order with minus zero below plus zero (R116, R212, R235). -/
def FV.compareTotal (a b : FV) : Ordering :=
  match FV.compareNum a b with
  | .eq =>
    match a, b with
    | .num true 0 _, .num false 0 _ => .lt
    | .num false 0 _, .num true 0 _ => .gt
    | _, _ => .eq
  | o => o

/-- Whether any of some values is a signalling NaN and none is absent: NV of an operation (R99, R211). -/
def signallingNv (xs : List FV) : Flags :=
  Flags.when (!xs.any FV.isAbsent && xs.any FV.isSignalling) Flags.nv

/-- An IEEE operation on values: an exact result that is then narrowed to .f32 (R99, R100, R211). -/
def finishF32 (mode : Rnd) (ins : List FV) (r : FV × Bool) : Nat × Flags :=
  let (c, fl) := FFmt.f32.narrow mode r.1
  (c, fl ||| signallingNv ins ||| Flags.when r.2 Flags.nv)

def fAdd (mode : Rnd) (a b : Nat) : Nat × Flags :=
  let x := FFmt.f32.decode a
  let y := FFmt.f32.decode b
  finishF32 mode [x, y] (FV.sum mode [x, y])

def fSub (mode : Rnd) (a b : Nat) : Nat × Flags :=
  let x := FFmt.f32.decode a
  let y := FFmt.f32.decode b
  finishF32 mode [x, y] (FV.sum mode [x, y.neg])

def fMul (mode : Rnd) (a b : Nat) : Nat × Flags :=
  let x := FFmt.f32.decode a
  let y := FFmt.f32.decode b
  finishF32 mode [x, y] (FV.mul x y)

/-- The sum of products and addends, invalid where a product or the sum is; whether infinity times zero is so beside a NaN is open
(log 20). -/
def FV.sumProducts (mode : Rnd) (ps : List (FV × FV)) (c : FV) : FV × Bool :=
  let prods := ps.map fun p => FV.mul p.1 p.2
  let (s, bad) := FV.sum mode (prods.map Prod.fst ++ [c])
  let inval := prods.any Prod.snd
  let opens := c.isNan || ps.any fun p => p.1.isNan || p.2.isNan
  if s.isAbsent then (.absent, false)
  else (s, bad || (inval && (!opens || Config.fmaInfZeroQuietInvalid)))

/-- FMA: one rounding of the exact a * b + d (R211). -/
def fFma (mode : Rnd) (a b d : Nat) : Nat × Flags :=
  let x := FFmt.f32.decode a
  let y := FFmt.f32.decode b
  let z := FFmt.f32.decode d
  finishF32 mode [x, y, z] (FV.sumProducts mode [(x, y)] z)

/-- DOT2: two bf16 products and an f32 addend, one rounding (R120, R226). -/
def fDot2 (mode : Rnd) (a b d : Nat) : Nat × Flags :=
  let el (w i : Nat) := FFmt.bf16.decode (fieldNat w (16 * i) 16)
  let z := FFmt.f32.decode d
  finishF32 mode [el a 0, el a 1, el b 0, el b 1, z]
    (FV.sumProducts mode [(el a 0, el b 0), (el a 1, el b 1)] z)

/-- FMIN, FMAX: `o` is the ordering that picks `a` (R116, R212). -/
def fMinMax (pick : Ordering) (a b : Nat) : Nat :=
  let x := FFmt.f32.decode a
  let y := FFmt.f32.decode b
  if x.isAbsent || y.isAbsent then FFmt.f32.absent
  else if x.isNan || y.isNan then FFmt.f32.nanCode
  else if FV.compareTotal x y == pick || FV.compareTotal x y == .eq then a else b

/-- FABS, FNEG on the code: absent stays, a NaN becomes canonical (R212). -/
def fSign (negate : Bool) (a : Nat) : Nat :=
  match FFmt.f32.decode a with
  | .absent => FFmt.f32.absent
  | .nan _ => FFmt.f32.nanCode
  | _ =>
    let mag := a % 2 ^ 31
    if negate && !bitNat a 31 then mag + 2 ^ 31 else mag

/-- FRND: an integral f32 value (R213). -/
def fRnd (mode : Rnd) (a : Nat) : Nat × Flags :=
  match FFmt.f32.decode a with
  | .absent => (FFmt.f32.absent, Flags.none)
  | .nan s => (FFmt.f32.nanCode, Flags.when s Flags.nv)
  | .inf _ => (a, Flags.none)
  | .num neg m e =>
    if e ≥ 0 ∨ m = 0 then (a, Flags.none)
    else
      let (n, _) := roundShift mode neg m (-e).toNat
      ((FFmt.f32.roundNum .rne neg n 0).1, Flags.none)

/-- Floating comparison of f32 codes (R110, R217): U with absent; unordered gives F, and T for ne; NV for a signalling NaN. -/
def fCmp (c : Cond) (a b : Nat) : Trit × Flags :=
  let x := FFmt.f32.decode a
  let y := FFmt.f32.decode b
  if x.isAbsent || y.isAbsent then (.u, Flags.none)
  else if x.isNan || y.isNan then (Trit.ofBool (c == .ne), signallingNv [x, y])
  else (Trit.ofBool (c.holds (FV.compareNum x y)), Flags.none)

/-- SCALE: s * 2^(ea + eb - 4096) in f32, RNE (R119, R227). -/
def fScale (s ea eb : Nat) : Nat × Flags :=
  if isAbsentCode .signed 32 s || ea == 0xFFF || eb == 0xFFF then (FFmt.f32.absent, Flags.none)
  else if ea == 0 || eb == 0 then (0, Flags.none)
  else
    let v := toSigned 32 s
    if v = 0 then (0, Flags.none)
    else FFmt.f32.roundNum .rne (decide (v < 0)) v.natAbs ((ea : Int) + eb - 4096)

/-- The e4m3 code of an immediate, converted exactly to f32 (R54). -/
def immF32 (imm : BitVec 8) : Nat := (FFmt.f32.narrow .rne (FFmt.e4m3.decode imm.toNat)).1

/-- One node of a floating sum that skips absent terms (R115, R117). -/
def fNode (mode : Rnd) (a b : Nat) : Nat × Flags :=
  if a = FFmt.f32.absent then (b, Flags.none)
  else if b = FFmt.f32.absent then (a, Flags.none)
  else fAdd mode a b

/-- The level above: neighbours added (R115). -/
def fTreeLevel (mode : Rnd) : List Nat → List Nat × Flags
  | a :: b :: xs =>
    let (r, f) := fNode mode a b
    let (rs, g) := fTreeLevel mode xs
    (r :: rs, f ||| g)
  | xs => (xs, Flags.none)

/-- `n` levels of the balanced tree (R115). -/
def fTree (mode : Rnd) : Nat → List Nat → List Nat × Flags
  | 0, xs => (xs, Flags.none)
  | n + 1, xs =>
    let (ys, f) := fTreeLevel mode xs
    let (zs, g) := fTree mode n ys
    (zs, f ||| g)

/-- RSUM .f32 of 32 lane codes (R115). -/
def fTreeSum (mode : Rnd) (xs : List Nat) : Nat × Flags :=
  let (ys, f) := fTree mode 5 xs
  (ys.headD FFmt.f32.absent, f)

end Sys2Proof.Machine
end

