-- ==== Sys2Proof/Machine/Convert.lean ====
section
/-!
DEFINITION. The format codes (R215, R282), conversions between formats (R127, R128), block formats and their layouts
(R103 to R108), and the counts of zero and absent elements (R126).
-/

namespace Sys2Proof.Machine

/-- An element format: an integer kind and width, or a floating format (R92, R96). -/
inductive Fmt where
  | int (k : Kind) (n : Nat)
  | flt (f : FFmt)
  deriving DecidableEq, Repr, Inhabited

/-- The format of a code (R215); block codes 20 and 21 and the reserved codes have no element format. -/
def Fmt.ofCode (c : Nat) : Option Fmt :=
  match c with
  | 0 => some (.int .signed 8)
  | 1 => some (.int .signed 16)
  | 2 => some (.int .signed 32)
  | 3 => some (.int .signed 64)
  | 4 => some (.int .unsigned 8)
  | 5 => some (.int .unsigned 16)
  | 6 => some (.int .unsigned 32)
  | 7 => some (.int .unsigned 64)
  | 8 => some (.int .raw 8)
  | 9 => some (.int .raw 16)
  | 10 => some (.int .raw 32)
  | 11 => some (.int .raw 64)
  | 12 => some (.flt .f32)
  | 13 => some (.flt .f16)
  | 14 => some (.flt .bf16)
  | 15 => some (.flt .e4m3)
  | 16 => some (.flt .e5m2)
  | 17 => some (.flt .e2m1)
  | 18 => some (.int .signed 4)
  | 19 => some (.int .unsigned 4)
  | _ => none

/-- Width in bits. -/
def Fmt.width : Fmt → Nat
  | .int _ n => n
  | .flt f => f.width

def Fmt.isRaw : Fmt → Bool
  | .int .raw _ => true
  | _ => false

/-- The absent code of a value format; all ones for raw bits, which have none (R92, R336). -/
def Fmt.absent : Fmt → Nat
  | .int k n => absentCode k n
  | .flt f => f.absent

/-- Whether a code is absent (R92, R97). -/
def Fmt.isAbsent (f : Fmt) (w : Nat) : Bool :=
  match f with
  | .int k n => isAbsentCode k n w
  | .flt g => w % 2 ^ g.width == g.absent

/-- Whether a present code counts as zero (R126). -/
def Fmt.isZero (f : Fmt) (w : Nat) : Bool :=
  match f with
  | .int _ n => w % 2 ^ n == 0
  | .flt g => !f.isAbsent w && w % 2 ^ (g.width - 1) == 0

/-- The value of a code as a floating value: integers are exact, raw bits read as unsigned. -/
def Fmt.toFV (f : Fmt) (w : Nat) : FV :=
  match f with
  | .int k n =>
    if isAbsentCode k n w then .absent
    else
      let i := intOf k n w
      .num (decide (i < 0)) i.natAbs 0
  | .flt g => g.decode w

/-- Floating to integer: rounds by mode, clamps with SA and NV, a NaN gives absent and NV (R127). An inexact integer result sets no NX,
which is of floating results (R102). -/
def fvToInt (k : Kind) (n : Nat) (mode : Rnd) (v : FV) : Nat × Flags :=
  match v with
  | .absent => (absentCode k n, Flags.none)
  | .nan _ => (absentCode k n, Flags.nv)
  | .inf neg =>
    (ofInt n (if neg then minPresent k n else maxPresent k n), Flags.sa ||| Flags.nv)
  | .num neg m e =>
    let r := if e ≥ 0 then m * 2 ^ e.toNat else (roundShift mode neg m (-e).toNat).1
    let i := signedMant neg r
    if i < minPresent k n then (ofInt n (minPresent k n), Flags.sa ||| Flags.nv)
    else if i > maxPresent k n then (ofInt n (maxPresent k n), Flags.sa ||| Flags.nv)
    else (ofInt n i, Flags.none)

/-- A conversion of one element (R127, R128): the code in the destination format and the flags a wave sets. -/
def convert (src dst : Fmt) (mode : Rnd) (w : Nat) : Nat × Flags :=
  if src.isRaw || dst.isRaw then (w % 2 ^ src.width % 2 ^ dst.width, Flags.none)
  else if src.isAbsent w then (dst.absent, Flags.none)
  else
    let v := src.toFV w
    match src, dst with
    | .int _ _, .int k n =>
      match v with
      | .num neg m _ => narrow k n (signedMant neg m)
      | _ => (absentCode k n, Flags.none)
    | _, .int k n =>
      let (c, f) := fvToInt k n mode v
      (c, f ||| signallingNv [v])
    | _, .flt g =>
      let (c, f) := g.narrow mode v
      (c, f ||| signallingNv [v])

/-- A value narrowed to a format without regard to flags, as the matrix and copy engines do (R102, R127). -/
def fvTo (dst : Fmt) (v : FV) : Nat :=
  match dst with
  | .int k n => (fvToInt k n .rne v).1
  | .flt g => (g.narrow .rne v).1

/-! ### Blocks (R103 to R108) -/

/-- A block format: .sb8 with 8-bit or .sb4 with 4-bit elements (R103). -/
inductive BFmt where
  | sb8
  | sb4
  deriving DecidableEq, Repr, Inhabited

/-- Element width in bits. -/
def BFmt.bits : BFmt → Nat
  | .sb8 => 8
  | .sb4 => 4
/-- Largest element magnitude Q of R108. -/
def BFmt.q : BFmt → Nat
  | .sb8 => 127
  | .sb4 => 7
/-- Element bytes of one block (R105). -/
def BFmt.bytes : BFmt → Nat
  | .sb8 => 32
  | .sb4 => 16

/-- A block: its 12-bit scale and its 32 element codes (R103). -/
structure Block where
  e : Nat
  els : List Nat
  deriving DecidableEq, Repr, Inhabited

/-- `m * 2^s` rounded to nearest even. -/
def scaleRne (m : Nat) (s : Int) : Nat :=
  if s ≥ 0 then m * 2 ^ s.toNat else (roundShift .rne false m (-s).toNat).1

/-- NaN and infinite inputs of a quantisation are absent (R108). -/
def quantInput : FV → FV
  | .num s m e => .num s m e
  | _ => .absent

/-- The greatest magnitude among numbers, as a mantissa and exponent. -/
def maxMag : List FV → Nat × Int
  | [] => (0, 0)
  | .num _ m e :: xs =>
    let (n, k) := maxMag xs
    if m = 0 then (n, k)
    else if n = 0 then (m, e)
    else
      let q := min e k
      if m * 2 ^ (e - q).toNat ≥ n * 2 ^ (k - q).toNat then (m, e) else (n, k)
  | _ :: xs => maxMag xs

/-- The scale of R108 for a greatest magnitude m * 2^k that is not zero. -/
def quantScale (b : BFmt) (m : Nat) (k : Int) : Nat :=
  let e0 : Int := 2048 + (k + m.log2) - (b.bits - 2 : Nat)
  let ok (e : Int) : Bool := decide (scaleRne m (k + 2048 - e) ≤ b.q)
  let e := if ok e0 then e0 else e0 + 1
  if e < 1 then 1 else if e > 0xFFE then 0xFFE else e.toNat

/-- One element under a scale (R108). -/
def quantElem (b : BFmt) (e : Nat) (v : FV) : Nat :=
  match v with
  | .num neg m k =>
    let q := min (scaleRne m (k + 2048 - e)) b.q
    ofInt b.bits (signedMant neg q)
  | _ => absentCode .signed b.bits

/-- Quantisation of floating values to one block (R108). Where every input is absent the rule gives the scale 0xFFF alone; the
model writes the absent code in each element (log 34). -/
def quantise (b : BFmt) (xs : List FV) : Block :=
  let ys := xs.map quantInput
  let (m, k) := maxMag ys
  if ys.all FV.isAbsent then ⟨0xFFF, ys.map (quantElem b 2048)⟩
  else if m = 0 then
    if ys.any FV.isAbsent then ⟨2048, ys.map (quantElem b 2048)⟩ else ⟨0, ys.map (quantElem b 2048)⟩
  else
    let e := quantScale b m k
    ⟨e, ys.map (quantElem b e)⟩

/-- The value of an element of a block (R103). -/
def Block.value (b : BFmt) (blk : Block) (i : Nat) : FV :=
  if blk.e = 0 then FV.zero
  else if blk.e ≥ 0xFFF then .absent
  else
    let c := blk.els.getD i 0
    if isAbsentCode .signed b.bits c then .absent
    else
      let v := toSigned b.bits c
      .num (decide (v < 0)) v.natAbs ((blk.e : Int) - 2048)

/-- Element codes as bytes: one byte each, or two nibbles each, low first (R104). -/
def packEls (b : BFmt) (els : List Nat) : List Byte :=
  match b with
  | .sb8 => els.map (BitVec.ofNat 8)
  | .sb4 => (List.range 16).map fun i => BitVec.ofNat 8 (els.getD (2 * i) 0 % 16 + 16 * (els.getD (2 * i + 1) 0 % 16))

/-- Element codes from bytes (R104). -/
def unpackEls (b : BFmt) (bs : List Byte) : List Nat :=
  match b with
  | .sb8 => (List.range 32).map fun i => (bs.getD i 0).toNat
  | .sb4 => (List.range 32).map fun i => (bs.getD (i / 2) 0).toNat / (if i % 2 = 0 then 1 else 16) % 16

/-- Scales as groups of three bytes, two scales each, a lone last scale leaving the high half zero (R104). -/
def packScales : List Nat → List Byte
  | [] => []
  | [a] => toBytes 3 (a % 4096)
  | a :: b :: xs => toBytes 3 (a % 4096 + 4096 * (b % 4096)) ++ packScales xs

/-- Padding to a multiple of four bytes (R104). -/
def padTo4 (bs : List Byte) : List Byte := bs ++ List.replicate (roundUp bs.length 4 - bs.length) 0

/-- Scale `i` of groups that start at byte 0 of a byte reader (R104). -/
def scaleAt (rd : Nat → Byte) (i : Nat) : Nat :=
  let g := ofBytes [rd (i / 2 * 3), rd (i / 2 * 3 + 1), rd (i / 2 * 3 + 2)]
  if i % 2 = 0 then g % 4096 else g / 4096 % 4096

/-- Bytes of the scale region of `n` blocks, padded (R104, R105). -/
def scaleBytes (n : Nat) : Nat := roundUp (3 * ceilDiv n 2) 4

/-- Size of `n` blocks in plain layout (R105). -/
def plainSize (b : BFmt) (n : Nat) : Nat := scaleBytes n + b.bytes * n

/-- Plain layout (R105). -/
def plainBytes (b : BFmt) (bs : List Block) : List Byte :=
  padTo4 (packScales (bs.map Block.e)) ++ (bs.map fun k => packEls b k.els).flatten

/-- Block `j` of `n` blocks in plain layout (R105). -/
def plainBlock (b : BFmt) (n : Nat) (rd : Nat → Byte) (j : Nat) : Block :=
  ⟨scaleAt rd j, unpackEls b ((List.range b.bytes).map fun i => rd (scaleBytes n + b.bytes * j + i))⟩

/-- The occupancy code that a writer gives a block (R106, R107). -/
def occCode (blk : Block) : Nat := if blk.e = 0 then 0 else if blk.e ≥ 0xFFF then 2 else 1

/-- The occupancy map: two bits per block (R106). -/
def occMap (cs : List Nat) : List Byte :=
  (List.range (ceilDiv cs.length 4)).map fun i =>
    BitVec.ofNat 8 (cs.getD (4 * i) 0 + 4 * cs.getD (4 * i + 1) 0 + 16 * cs.getD (4 * i + 2) 0 + 64 * cs.getD (4 * i + 3) 0)

/-- Packed layout (R106). -/
def packedBytes (b : BFmt) (bs : List Block) : List Byte :=
  let here := bs.filter fun k => occCode k == 1
  padTo4 (occMap (bs.map occCode)) ++ padTo4 (packScales (here.map Block.e)) ++ (here.map fun k => packEls b k.els).flatten

/-- The occupancy code of block `j` in packed data (R106). -/
def occAt (rd : Nat → Byte) (j : Nat) : Nat := (rd (j / 4)).toNat / 4 ^ (j % 4) % 4

/-- Number of present blocks among the first `n` (R106). -/
def occCount (rd : Nat → Byte) (n : Nat) : Nat := ((List.range n).filter fun j => occAt rd j == 1).length

/-- Bytes that `n` packed blocks occupy, as their map says (R106). -/
def packedSize (b : BFmt) (n : Nat) (rd : Nat → Byte) : Nat :=
  let p := occCount rd n
  roundUp (ceilDiv n 4) 4 + scaleBytes p + b.bytes * p

/-- Block `j` of `n` packed blocks: code 11 is an absent block without bytes (R107). -/
def packedBlock (b : BFmt) (n : Nat) (rd : Nat → Byte) (j : Nat) : Block :=
  match occAt rd j with
  | 0 => ⟨0, List.replicate 32 0⟩
  | 1 =>
    let p := occCount rd n
    let i := occCount rd j
    let base := roundUp (ceilDiv n 4) 4
    ⟨scaleAt (fun k => rd (base + k)) i,
      unpackEls b ((List.range b.bytes).map fun k => rd (base + scaleBytes p + b.bytes * i + k))⟩
  | _ => ⟨0xFFF, List.replicate 32 (absentCode .signed b.bits)⟩

/-! ### CRC-64 (R337) -/

/-- One bit of the CRC-64 with the ECMA-182 polynomial. -/
def crcBit (c : BitVec 64) (b : Bool) : BitVec 64 :=
  let top := c.getLsbD 63 != b
  let s := c <<< 1
  if top then s ^^^ 0x42F0_E1EB_A9EA_3693#64 else s

/-- One byte, most significant bit first (R337). -/
def crcByte (c : BitVec 64) (b : Byte) : BitVec 64 :=
  [7, 6, 5, 4, 3, 2, 1, 0].foldl (fun a i => crcBit a (b.getLsbD i)) c

/-- The CRC-64 of a byte string, continued from a value (R337, R390). -/
def crcFrom (c : BitVec 64) (bs : List Byte) : BitVec 64 := bs.foldl crcByte c

/-- The CRC-64 of a byte string (R337). -/
def crc64 (bs : List Byte) : BitVec 64 := crcFrom 0#64 bs

end Sys2Proof.Machine
end

