-- ==== Sys2Proof/Machine/State.lean ====
section
/-!
DEFINITION. The state of the machine: everything the spec gives the device, and the model's own bookkeeping (agenda, free
counter, allocation numbers). Plain data throughout. Contexts, gangs, launches and operations stand in tables keyed by
their allocation numbers; a table is a list of pairs (Machine/Table.lean). Docstrings name the rule that gives a field.
-/

namespace Sys2Proof.Machine

/-- Fault codes (R172). -/
inductive FaultCode where
  | illegalClause
  | illegalInstruction
  | landingMismatch
  | jumpTarget
  | splitOverflow
  | barrierMismatch
  | unknownCondition
  | misaligned
  | elementAccess
  | tileHandle
  | tileShape
  | accordWrite
  | accordRecord
  | chunkCheck
  | queueOverflow
  | restoreCapacity
  | redundancyMismatch
  | uncorrectable
  | controlUncontained
  | trap
  deriving DecidableEq, Repr, Inhabited

/-- A fault as a word or an operation raises it: its code and the fields of the fault record that it fills (R171, R200). -/
structure Raised where
  code : FaultCode
  aux : Nat
  addr : Nat
  failing : LaneSet
  issuePc : DWord
  deriving DecidableEq, Repr, Inhabited

/-- The control of a REP in progress: repeats, stepped fields and stride (R59). -/
structure RepCtl where
  n : Nat
  stepD : Bool
  stepA : Bool
  stepB : Bool
  stride : Nat
  deriving DecidableEq, Repr, Inhabited

/-- Scoreboard categories (R47), and the transform pipe, which is always checked (R55). -/
inductive Cat where
  | load
  | tile
  | cross
  | leadMem
  | leadQueue
  | pipe
  deriving DecidableEq, Repr, Inhabited

/-- A register write of an outstanding result (R56, R57). -/
inductive RegWrite where
  | v (r : Nat) (lanes : LaneSet) (vals : Vector Word 32)
  | k (r : Nat) (lanes : LaneSet) (vals : Vector Trit 32)
  | x (r : Nat) (val : DWord)
  deriving DecidableEq, Repr

/-- An outstanding result: its category, what its return still writes, what its word gave, its collector entries (R263) and the
pages a TOUCH waits for (R243). A later word's write of a register leaves `writes` without it, `gives` as it was (R57). -/
structure Pending where
  cat : Cat
  writes : List RegWrite
  gives : List RegWrite
  entries : Nat
  needs : List Nat
  deriving DecidableEq, Repr

/-- A value that a register held or that a returned result gave before other writes of the run (R57); a lane that read as dead
has none (R178). -/
inductive OldValue where
  | v (r : Nat) (lanes : LaneSet) (vals : Vector (Option Word) 32)
  | k (r : Nat) (vals : Vector Trit 32)
  | x (r : Nat) (val : DWord)
  deriving DecidableEq, Repr

/-- Such a value since the context last finished parking, and the categories it has waited on since (R57). -/
structure Past where
  val : OldValue
  waited : List Cat
  deriving DecidableEq, Repr

/-! ### Paths (R14, R33; log 35) -/

/-- Access paths (R14). -/
inductive Path where
  | w
  | l
  | m
  | c
  deriving DecidableEq, Repr, Inhabited

/-- A party of the memory model: some lanes of a wave, a lead context, an operation with the crew of the context that issued it (R31). -/
inductive Actor where
  | wave (k : WaveKey) (lanes : LaneSet)
  | lead (k : CrewKey)
  | op (n : Nat) (k : CrewKey)
  deriving DecidableEq, Repr, Inhabited

/-- A four-byte unit of memory or of a tile, which a release may be read from. -/
inductive Spot where
  | mem (n : Nat)
  | tile (g h n : Nat)
  deriving DecidableEq, Repr, Inhabited

/-- What a chain of R32 has reached: a party, or an object that carries the chain to the party that acquires from it. -/
inductive Holder where
  | actor (a : Actor)
  /-- A token register that an operation has written (R25). -/
  | token (k : CrewKey) (r : Nat)
  /-- The operations of a crew that a matrix unit has done (R279). -/
  | unit (k : CrewKey) (u : Nat)
  /-- An entry of a decision queue, by the number of its push (R21). -/
  | pushed (k : CrewKey) (q n : Nat)
  /-- The entry at a position of a return queue (R22). -/
  | posted (k : CrewKey) (n : Nat)
  /-- The phase of a barrier (R192). -/
  | phase (g id : Nat)
  /-- A value released at a scope by a party of a crew (R31), and a count-down of an unfinished phase (R29). -/
  | released (at_ : Spot) (scope : Nat) (by_ : CrewKey)
  | arriving (at_ : Spot) (scope : Nat) (by_ : CrewKey)
  /-- A release fence in force, and a released value that a party has read, for its next acquire fence (R266). -/
  | fence (a : Actor) (scope : Nat)
  | heard (a : Actor) (scope : Nat) (by_ : CrewKey)
  /-- A submission and a launch (R30). -/
  | sub (n : Nat)
  | launch (seq : DWord)
  deriving DecidableEq, Repr, Inhabited

/-! ### Waves -/

/-- The state field of a split (R180). -/
inductive SplitState where
  | ready
  | barrier
  | held
  deriving DecidableEq, Repr, Inhabited

/-- A split parked in WAITA: its lanes with the physical address of each, the destination and when it parked, in thousandths of a
cycle of its cluster (R256). -/
structure AddrWait where
  lanes : List (Lane × Nat)
  wide : Bool
  d : Nat
  since : Nat
  words : Nat
  z : Bool
  scope : Nat
  /-- Whether a pair's leading gang forwards the final read (R394). -/
  fwd : Bool
  deriving DecidableEq, Repr, Inhabited

/-- The barrier a split waits at (R192). -/
structure BarWait where
  id : Nat
  members : BitVec 128
  lead : Bool
  z : Bool
  deriving DecidableEq, Repr, Inhabited

/-- Why a split does not issue. Every reason but `none` ends by a step of the device. -/
inductive SplitWait where
  | none
  /-- An empty decision queue (R18). -/
  | queue (q : Nat)
  /-- A full return queue (R22). -/
  | post
  /-- No room in the request collector (R263). -/
  | collector
  /-- A page that is not resident (R256, R258). -/
  | page (va : Nat)
  | waita (w : AddrWait)
  | bwait
  /-- Parked at a save point while a save is pending (R199). -/
  | savept (ix : Nat)
  | bar (b : BarWait)
  /-- A class-7 destination (R55) or a register-cache line (R177). -/
  | regs (r : Nat)
  /-- A sub-block of a bound tile to be filled (R250). -/
  | fill (h sb : Nat)
  /-- A synchronising compare point of a pair (R392), and the same once it has matched. -/
  | point (n : Nat)
  | matched (n : Nat)
  /-- A forwarded value of a pair, the one that ends a wait on an address (R394), or the slack of R392. -/
  | forward
  | forwardAddr
  | slack
  /-- A fault of a pair that waits for its counterpart (R397). -/
  | pairFault (f : Raised) (nextPc : DWord)
  deriving DecidableEq, Repr, Inhabited

/-- A live or pending split (R179, R180). -/
structure Split where
  pc : DWord
  lanes : LaneSet
  link : Option Nat
  rep : Nat
  reps : Option RepCtl
  state : SplitState
  wait : SplitWait
  deriving DecidableEq, Repr, Inhabited

/-- A join record (R179, R180). -/
structure JoinRec where
  pc : DWord
  lanes : LaneSet
  arrived : LaneSet
  parked : LaneSet
  link : Option Nat
  deriving DecidableEq, Repr, Inhabited

/-- An entry of the split stack (R180). -/
inductive StackEntry where
  | empty
  | pending (s : Split)
  | join (r : JoinRec)
  deriving DecidableEq, Repr, Inhabited

/-- What a wave keeps of the fault it handles (R200, R201): the record's PCs and lanes, the repeat, and the stack depth. -/
structure Handling where
  pc : DWord
  nextPc : DWord
  lanes : LaneSet
  rep : Nat
  reps : Option RepCtl
  depth : Nat
  link : Option Nat
  deriving DecidableEq, Repr, Inhabited

/-- An undrained non-temporal store (R37): a physical address and its byte. -/
abbrev NtByte := Nat × Byte

/-- A word as a party of a pair issues it, for the faults of R397: the interval, the word, the repeat and the lanes. -/
structure WordKey where
  interval : Nat
  pc : DWord
  rep : Nat
  lanes : LaneSet
  deriving DecidableEq, Repr, Inhabited

/-- A wave (R173). -/
structure Wave where
  v : Vector (Vector Word 32) 128
  k : Vector (Vector Trit 32) 48
  status : DWord
  slot0 : Option Split
  slot1 : Option Split
  stack : List StackEntry
  /-- Lanes of each register that read by R178: never written, or dead since a LIVE. The dead set of R173 is the registers
  with every lane here. -/
  unset : Vector LaneSet 128
  exited : LaneSet
  handling : Option Handling
  outstanding : List Pending
  past : List Past
  parked : Bool
  /-- Categories that a clause's wait field still drains: meanwhile neither split issues (R47, R196). -/
  drain : List Cat
  /-- Entries popped from each decision queue since the crew started (R18). -/
  popped : Vector Nat 4
  nt : List NtByte
  /-- Register-cache lines present and dirty (R177). -/
  cached : BitVec 128
  dirty : BitVec 128
  /-- Words of the register cache that hold poison: register and pair of lanes (R383). -/
  bad : List (Nat × Nat)
  /-- In a pair, how often each word of the present interval has completed (R397). -/
  ran : List (WordKey × Nat)
  /-- The split that issued last, with the flags its word set, for a WRSTAT of the other in the same cycle (R206). -/
  just : Option (Fin 2 × Flags)
  ended : Bool
  deriving DecidableEq, Repr

/-! ### Lead contexts -/

/-- A token register that an operation has not written (R23, R26). -/
inductive Token where
  | pending (op : Nat)
  | faulted (op : Nat) (f : Raised)
  deriving DecidableEq, Repr, Inhabited

/-- The collective words (R167). -/
inductive Collective where
  | snap
  | rollbk
  | commit
  deriving DecidableEq, Repr, Inhabited

/-- Why a lead context does not issue. -/
inductive LeadWait where
  | none
  | token (r : Nat)
  | dqFull (q : Nat)
  | rqEmpty
  | page (va : Nat)
  /-- On an address: width, destination, since when, the value compared with, scope, switch bit, whether a pair forwards (R145). -/
  | waita (pa : Nat) (wide : Bool) (d since old scope : Nat) (z fwd : Bool)
  | bwait
  | savept (ix : Nat)
  | collective (c : Collective) (z : Bool)
  /-- Pending tokens at EXIT (R157). -/
  | ops
  /-- A full queue of a unit or of the copy engine (R279). -/
  | room
  | point (n : Nat)
  | matched (n : Nat)
  | forward
  | forwardAddr
  | slack
  | pairFault (f : Raised) (nextPc : DWord)
  /-- The same for an unread faulted token at EXIT, which ends the gang (R26). -/
  | exitFault (f : Raised)
  deriving DecidableEq, Repr, Inhabited

/-- What a lead context keeps of the fault it handles (R170). -/
structure LeadHandling where
  pc : DWord
  nextPc : DWord
  rep : Nat
  reps : Option RepCtl
  deriving DecidableEq, Repr, Inhabited

/-- A lead context (R130). -/
structure Lead where
  x : Vector DWord 64
  j : Vector Trit 16
  pc : DWord
  status : DWord
  rep : Nat
  reps : Option RepCtl
  handling : Option LeadHandling
  tokens : List (Nat × Token)
  outstanding : List Pending
  past : List Past
  parked : Bool
  wait : LeadWait
  ran : List (WordKey × Nat)
  exited : Bool
  deriving DecidableEq, Repr

/-! ### Crews, accumulators and operations -/

/-- A decision queue: the unretired entries with the CHASE that pushed each, and how many have been retired (R18, R165). -/
structure DQueue where
  entries : List (DWord × Option Nat)
  retired : Nat
  deriving DecidableEq, Repr, Inhabited

/-- An accumulator element that is not empty (R121, R276). -/
inductive AccElem where
  | present (val : Word) (count : Nat)
  | absent
  deriving DecidableEq, Repr, Inhabited

/-- An accumulator: its type and its nonempty elements by index 64 * i + j (R276, R278). -/
structure Acc where
  i32 : Bool
  elems : List (Nat × AccElem)
  /-- 64-bit words that hold poison, element index over two (R383). -/
  bad : List Nat
  deriving DecidableEq, Repr, Inhabited

/-- A crew (R10, R14): uniform registers, queues, grants and place. -/
structure Crew where
  place : CrewPlace
  cluster : Nat
  waves : Nat
  c : Vector Word 64
  dq : Vector DQueue 4
  rq : List DWord
  /-- Barrier entries due for a full return queue (R192). -/
  rqDue : List DWord
  acc : Nat
  accs : List ((Nat × Nat) × Acc)
  deriving DecidableEq, Repr

/-- The matrix words that run on a unit, with the operands read at issue (R295, R316, R320, R322). -/
inductive UnitWord where
  | mzero (acc : Nat) (i32 : Bool)
  | mma (acc steps : Nat) (strict : Bool) (a b : DWord)
  | mmc (acc src fmt : Nat) (strict : Bool) (b : DWord)
  | mmw (acc h : Nat) (strict : Bool) (a : DWord)
  | mdrain (acc : Nat) (a : DWord) (b : Option DWord)
  | mload (acc : Nat) (i32 : Bool) (a : DWord)
  | seek (ka mc n : Nat) (a seed : DWord)
  | proj (a addr : DWord)
  deriving DecidableEq, Repr, Inhabited

/-- The tile-management words (R295, R313). -/
inductive TileWord where
  | talloc (h fmt : Nat) (slice packed : Bool) (rows cols : DWord)
  | tfree (h : Nat)
  | tbind (h : Nat) (addr : DWord)
  | tdry (h : Nat)
  | tstat (h : Nat) (at_ : DWord)
  | abind (h : Nat) (slice : Bool) (addr : DWord)
  deriving DecidableEq, Repr, Inhabited

/-- What an asynchronous operation does and how far it is (R23). -/
inductive OpKind where
  /-- On a unit; `next` is the next K step, `temp` and `counts` the temporary P of MMW (R306, R317), `fmts` the formats of its
  tile operands as found at its first step. -/
  | unit (u : Nat) (w : UnitWord) (next : Nat) (temp : List (Nat × AccElem)) (counts : List (Nat × Nat)) (fmts : List Nat)
  | tile (w : TileWord)
  /-- A copy: its record, the chunks delivered and the faults of the chunks that failed (R338). -/
  | copy (record : BitVec 512) (done : List Nat) (failed : List (Nat × Raised))
  | pcopy (src dst : DWord) (scope n : Nat)
  /-- A walk: pages still to push, pages pushed, whether the final entry is pushed (R165). -/
  | chase (desc pos : DWord) (q limit pushed : Nat)
  | launch (sub : Nat)
  deriving DecidableEq, Repr, Inhabited

/-- An unfinished asynchronous operation (R23, R26). `units` counts the comparisons of R393 it still waits for. -/
structure Op where
  crew : CrewKey
  token : Nat
  issuePc : DWord
  kind : OpKind
  units : Nat
  deriving DecidableEq, Repr, Inhabited

/-! ### Tiles -/

/-- A sub-block's summary flags, none where not known (R285), and its fill state (R287). -/
structure Sub where
  zero : Option Bool
  absent : Option Bool
  filled : Bool
  dirty : Bool
  deriving DecidableEq, Repr, Inhabited

/-- A tile (R282, R283, R287): shape in elements, format code, level, layout, bound range, storage, sub-blocks. -/
structure Tile where
  rows : Nat
  cols : Nat
  fmt : Nat
  slice : Bool
  packed : Bool
  bound : Option Nat
  data : List Host.Cell
  subs : List (Nat × Sub)
  /-- 64-bit words of the storage that hold poison, byte offset over eight (R383). -/
  bad : List Nat
  deriving DecidableEq, Repr, Inhabited

/-- What a handle names (R294, R313). -/
inductive Handle where
  | tile (t : Tile)
  | accord (slice : Bool) (bytes : List Byte)
  deriving DecidableEq, Repr, Inhabited

/-! ### Writes that are late on some path (R33, R34; log 35) -/

/-- What stood where a write was made: bytes of memory by physical address, bytes of a tile by offset, what a handle named. -/
inductive Former where
  | mem (old : List Host.Cell)
  | tile (g h : Nat) (old : List Host.Cell)
  | handle (g h : Nat) (old : Option Handle)
  deriving DecidableEq, Repr, Inhabited

/-- A write that not every path shows yet: the paths that show it to all, those that an XFENCE has made show it within a scope, and
what the chains from it have reached. -/
structure Late where
  path : Path
  by_ : Actor
  cluster : Nat
  former : Former
  seen : List Path
  /-- The path, the scope, and the party that fenced with its cluster. -/
  shown : List (Path × Nat × Actor × Nat)
  known : List Holder
  /-- Whether the write is of a read-modify-write: a later one at its location finds it, on whatever path (R254). -/
  rmw : Bool
  deriving DecidableEq, Repr, Inhabited

/-! ### Gangs and launches -/

/-- A phase of a barrier (R192, R193). -/
structure Phase where
  members : BitVec 128
  lead : Bool
  arrived : List (Nat × Nat)
  /-- Crews whose entry is due or posted, and those whose lead context has popped it. -/
  posted : List Nat
  popped : List Nat
  deriving DecidableEq, Repr, Inhabited

/-- The states of a gang (R377). -/
inductive GangState where
  | bound
  | running
  | saving
  | saved
  /-- Stopped, to be run again; whether its open checkpoint is rolled back first. -/
  | flushing (roll : Bool)
  deriving DecidableEq, Repr, Inhabited

/-- A compare point of a party: its number, its kind (0 periodic, else the synchronising word), the interval's signature
(R391), and the operands of a lead word that one gang performs for both, which must agree (R396). -/
structure Point where
  n : Nat
  kind : Nat
  sig : BitVec 64
  op : List Nat
  deriving DecidableEq, Repr, Inhabited

/-- A buffered write of a pair's interval (R392). -/
structure BufWrite where
  interval : Nat
  pa : Nat
  bytes : List Byte
  deriving DecidableEq, Repr, Inhabited

/-- A result that the leading gang of a pair forwards: the lanes and the operation that gave it, register writes, flags, and the fault
where the work ends in one (R394, R396, R397). -/
structure Forward where
  lanes : LaneSet
  op : Nat
  writes : List RegWrite
  flags : Flags
  fault : Option Raised
  deriving DecidableEq, Repr

/-- The comparison state of one party of a pair gang (R390, R391). -/
structure PartyState where
  sig : BitVec 64
  stores : Nat
  next : Nat
  points : List Point
  /-- Results forwarded to this party by its leading counterpart (R394). -/
  forwards : List Forward
  /-- The ordinals of the stores at compare points that have not been performed (R390). -/
  ords : List (Nat × Nat)
  deriving DecidableEq, Repr

/-- A unit of work on M or C that a pair compares (R393): what the counterpart's unit is found by, the operation, its CRC, the
writes it makes, and the chunk of a copy. -/
structure PairUnit where
  key : List Nat
  op : Option Nat
  crew : Nat
  sig : BitVec 64
  writes : List (Nat × List Byte)
  /-- Physical addresses to which the writes carry poison (R383). -/
  bad : List Nat
  chunk : Option Nat
  deriving DecidableEq, Repr, Inhabited

/-- The pair state of a gang: the allocation number of the other gang, its role, its parties and units. -/
structure PairState where
  peer : Nat
  leading : Bool
  parties : List (Party × PartyState)
  /-- The gang's Sillage buffer, in the order of its stores (R392). -/
  buf : List (Party × BufWrite)
  units : List PairUnit
  deriving DecidableEq, Repr

/-- A gang that has been bound (R11, R377). -/
structure Gang where
  seq : DWord
  index : Nat
  trailing : Bool
  state : GangState
  place : GangPlace
  crews : Nat
  waves : Nat
  barriers : Nat
  phases : List (Nat × Phase)
  handles : List (Nat × Handle)
  resCluster : Nat
  resSlice : Nat
  acc : Nat
  /-- Marked regions: base and size in virtual addresses (R166). -/
  regions : List (Nat × (Nat × Nat))
  /-- The open checkpoint: logged lines by physical address with their old contents (R167). -/
  ckpt : Option (List (Nat × List Byte))
  bindOrder : Nat
  /-- When the gang started or was last restored, in thousandths of a cycle of its cluster, and the cycles it ran before (R369); when
  its save began (R371). -/
  since : Nat
  progress : Nat
  saveSince : Nat
  pair : Option PairState
  deriving DecidableEq, Repr

/-- Where a launch came from (R30). -/
inductive Origin where
  | host (q : Nat)
  | lead (k : CrewKey) (op : Nat)
  deriving DecidableEq, Repr, Inhabited

/-- An outcome: kind and fault code (R153, R352). -/
structure Ending where
  kind : Nat
  fault : Nat
  deriving DecidableEq, Repr, Inhabited

/-- An accepted launch (R150, R354). -/
structure Launch where
  record : BitVec 2048
  retained : Nat
  origin : Origin
  scope : Nat
  accepted : Nat
  /-- Gangs below `next` have been started; `again` holds those that wait to be relaunched (R376). -/
  next : Nat
  again : List Nat
  endedOk : Nat
  failed : Option Ending
  done : Option Ending
  /-- The tile request table as it stood at acceptance: its header and entries, empty where the record names none (R280). -/
  table : List (BitVec 256)
  /-- Mismatches so far: gang index, party and compare point (R396). -/
  mismatches : List (Nat × Party × Nat)
  /-- Uncorrectable errors by gang index (R402). -/
  errors : List (Nat × Nat)
  /-- Relaunches of gang 0, which are not injected (R151). -/
  reruns : Nat
  /-- The plan of a bounded launch (R362) and the pre-emptions that it intends. -/
  plan : List PlanEntry
  victims : List Victim
  /-- Pages that the gangs of a pair launch have accessed (R395). -/
  pages : List Nat
  deriving DecidableEq, Repr, Inhabited

/-- A LAUNCH that the device has not yet accepted or refused (R153). -/
structure Submission where
  crew : CrewKey
  addr : Nat
  record : BitVec 2048
  scope : Nat
  deriving DecidableEq, Repr, Inhabited

/-! ### Memory map, code and waiters -/

/-- A mapped page: virtual base, size, permissions, residency and the physical address it maps to (R138, R240; log 3). -/
structure Page where
  base : Nat
  size : Nat
  r : Bool
  w : Bool
  x : Bool
  resident : Bool
  pa : Nat
  deriving DecidableEq, Repr, Inhabited

/-- A code stream as loaded: its range, its header map and its handler entry (R63, R65, R78). -/
structure Stream where
  base : Nat
  size : Nat
  headers : List Nat
  handler : Option Nat
  deriving DecidableEq, Repr, Inhabited

/-- A save point of the live-range table (R374). -/
structure SavePoint where
  lead : Bool
  index : BitVec 8
  vlive : BitVec 128
  klive : BitVec 48
  interval : BitVec 32
  deriving DecidableEq, Repr, Inhabited

/-- A loaded code object (R63, R75). -/
structure CodeObj where
  addr : Nat
  lead : Stream
  wave : Stream
  /-- The 32-byte entries of the live-range section (R374). -/
  live : List (BitVec 256)
  deriving DecidableEq, Repr, Inhabited

/-- A waiter: who waits, on which aligned 8-byte physical addresses (R146), and the bytes that end the wait when a write changes
them (R145, R256). -/
structure Waiter where
  who : Ctx
  keys : List Nat
  watch : List (Nat × Nat)
  deriving DecidableEq, Repr, Inhabited

/-! ### Device registers -/

/-- A host queue's register block (R348), and the completion phase of R349. -/
structure HostQueue where
  sqbase : BitVec 64
  cqbase : BitVec 64
  size : BitVec 6
  enable : Bool
  err : Bool
  sqhead : BitVec 32
  sqtail : BitVec 32
  cqtail : BitVec 32
  cqhead : BitVec 32
  lasthseq : BitVec 64
  phase : Bool
  deriving DecidableEq, Repr, Inhabited

/-- A copy of a control machine (R387). -/
inductive CopyState where
  | inStep
  | fenced
  | retired
  deriving DecidableEq, Repr, Inhabited

/-- A control machine: three copies, the times of each copy's dissents, and its counters (R386, R387, R404). -/
structure CtlMachine where
  copies : Vector CopyState 3
  times : List (Nat × Nat)
  dissents : BitVec 64
  resyncs : BitVec 64
  deriving DecidableEq, Repr

/-- The counters of the reliability block (R404). -/
structure Counters where
  compares : BitVec 64
  mismatches : BitVec 64
  retries : BitVec 64
  pairfail : BitVec 64
  snaps : BitVec 64
  rollbacks : BitVec 64
  cesram : BitVec 64
  cehbm : BitVec 64
  ue : BitVec 64
  kills : BitVec 64
  relaunch : BitVec 64
  deriving DecidableEq, Repr, Inhabited

/-- A bind record of the slot table (R366). -/
structure BindRec where
  state : Nat
  resume : BitVec 64
  acc : Nat
  waves : Nat
  crew : Nat
  barbase : Nat
  gang : BitVec 32
  wframe : BitVec 64
  lframe : BitVec 64
  record : BitVec 64
  dseq : BitVec 64
  deriving DecidableEq, Repr, Inhabited

/-- A routing entry (R413). -/
structure RouteEntry where
  valid : Bool
  links : BitVec 18
  deriving DecidableEq, Repr, Inhabited

/-- The states of start-up (R415). -/
inductive Boot where
  | rom
  | check
  | dies
  | memory
  | scheduler
  | ready
  | recovery
  | uncontained
  deriving DecidableEq, Repr, Inhabited

/-- What the device sends out: interrupts, alerts, replies (R411, R417, R418). -/
inductive Output where
  | msix (n : Nat)
  | pldmAlert
  | hostRead (bytes : List Byte) (poisoned : Bool)
  | podRead (bytes : List Byte) (poisoned : Bool)
  | measurements (ix : Nat) (digest : BitVec 256)
  | challengeAuth (slot0 : List (List Byte)) (signature : List Byte)
  | sensors (draw : BitVec 32) (pclock cap : BitVec 16)
  deriving DecidableEq, Repr, Inhabited

/-- The management cluster's own state: drives, epoch, fuses, measurements (R354, R415 to R417). -/
structure Mgmt where
  drive0 : Option Image
  drive1 : Option Image
  running : Option Nat
  storedEpoch : BitVec 16
  keyDigest : BitVec 256
  svnMin : BitVec 32
  debug : Bool
  measured : List (Nat × BitVec 256)
  /-- The identity key pair in fuses, and the certificates of slot 0 above it (R417). -/
  identity : List Byte
  identityPrivate : List Byte
  issuers : List (List Byte)
  deriving DecidableEq, Repr, Inhabited

/-- The device block and the other single registers (R355, R404, R410, R413, R418). -/
structure Regs where
  winbase : BitVec 64
  epoch : BitVec 16
  chip : BitVec 8
  svn : BitVec 32
  fwver : BitVec 64
  reason : BitVec 8
  boot : Boot
  /-- Numbers assigned in this epoch: the count of accseq (R354, R355). -/
  accepted : Nat
  uncontained : Bool
  alert : Bool
  degraded : BitVec 6
  service : BitVec 128
  clock : Vector (BitVec 16) 32
  cap : BitVec 16
  pclock : BitVec 16
  draw : BitVec 32
  bindStop : Bool
  expbase : BitVec 44
  expsize : BitVec 44
  routes : Vector RouteEntry 256
  msixTable : List Host.Cell
  msixPending : BitVec 128
  /-- Next queue in rotating order (R351). -/
  turn : Nat
  deriving DecidableEq, Repr

/-- The place on which the scheduler intends to bind what waits first: for which gangs, on which clusters, and when it is expected
to be free (R359). -/
structure Intent where
  seq : DWord
  ixs : List Nat
  clusters : List Nat
  freeAt : Nat
  deriving DecidableEq, Repr, Inhabited

/-- The machine. -/
structure State where
  /-- Memory as the writes made so far leave it; what a path shows of it is `State.on`. -/
  mem : List Host.Cell
  pages : List Page
  /-- Pages that TOUCH has asked for (R243). -/
  touched : List Nat
  /-- Poisoned 64-byte lines by physical address (R383). -/
  poison : List Nat
  codeObjs : List CodeObj
  waves : List (WaveKey × Wave)
  leads : List (CrewKey × Lead)
  crews : List (CrewKey × Crew)
  gangs : List (Nat × Gang)
  ops : List (Nat × Op)
  subs : List (Nat × Submission)
  launches : List (DWord × Launch)
  waiters : List Waiter
  /-- Resident sequences of each column, most recently used first: descriptor and pages (R161). -/
  seqMaps : List (Nat × List (Nat × List Nat))
  queues : Vector HostQueue 64
  slots : List (Nat × BindRec)
  counters : Counters
  machines : Vector CtlMachine 6
  regs : Regs
  mgmt : Mgmt
  /-- Export windows of pod peers, by chip: the peers' state (R413). -/
  peers : List (Nat × (Nat × Nat))
  /-- Birth frequency of each cluster and the lowest one measured since device start, which gives its drift (R384). -/
  birth : Vector Nat 32
  drift : Vector (Option Nat) 32
  /-- Times of the uncorrectable errors of each core, in thousandths of a cycle of its cluster (R403). -/
  coreErrors : List (Nat × Nat)
  /-- The place on which the scheduler intends to bind what waits first (R359). -/
  intent : Option Intent
  mtime : Nat
  /-- Thousandths of a cycle that each cluster had run when a clock last changed, and when that was (R7). -/
  ticks : Vector Nat 32
  tickedAt : Nat
  outbox : List Output
  /-- Writes that not every path shows yet, newest first (R33, log 35). -/
  late : List Late
  /-- Register-cache lines in the order of their use, the latest first (R177). -/
  recent : List (WaveKey × Nat)
  /-- The model's own: who issues, what moves next, counters (logs 5, 9). -/
  cur : Ctx
  agenda : List Action
  free : Nat
  nextId : Nat
  deriving DecidableEq, Repr

/-- Why the machine stops with a fault. -/
inductive Fault where
  /-- Raised by every meaning of a wave word when `cur` names no live split of a wave. Safe: no step of the device issues a
  word without a context (R14), so the state does not arise from the agenda; a claim about it says nothing of the device. -/
  | noSplit
  /-- Raised by every meaning of a lead word when `cur` names no lead context that runs. Safe, as `noSplit`. -/
  | noLead
  deriving DecidableEq, Repr, Inhabited

/-- Why an instruction is refused. -/
inductive Refusal where
  /-- Raised by an arm of exec that has no meaning yet. Safe: nothing is claimed of it. -/
  | notModelled (mnemonic : String)
  deriving DecidableEq, Repr, Inhabited

/-! ### Reset -/

/-- A host queue after reset (R348): every field 0; idle reads 1. -/
def HostQueue.reset : HostQueue :=
  { sqbase := 0, cqbase := 0, size := 0, enable := false, err := false, sqhead := 0, sqtail := 0, cqtail := 0,
    cqhead := 0, lasthseq := 0, phase := false }

/-- A control machine after reset: three copies in step (log 15). -/
def CtlMachine.reset : CtlMachine :=
  { copies := Vector.replicate 3 .inStep, times := [], dissents := 0, resyncs := 0 }

/-- Counters after reset (R404). -/
def Counters.reset : Counters :=
  { compares := 0, mismatches := 0, retries := 0, pairfail := 0, snaps := 0, rollbacks := 0, cesram := 0, cehbm := 0,
    ue := 0, kills := 0, relaunch := 0 }

/-- The MSI-X table after reset: every vector masked, as PCI Express lays it out (R409, log 16). -/
def msixReset : List Host.Cell := (List.range 65).map fun n => (16 * n + 12, 1#8)

/-- The registers after reset (R355, R404, R410, R413, R418; log 15 for fields without a reset value). -/
def Regs.reset : Regs :=
  { winbase := 0, epoch := 0, chip := 0, svn := 0, fwver := 0, reason := 0, boot := .rom, accepted := 0,
    uncontained := false, alert := false, degraded := 0, service := BitVec.allOnes 128, clock := Vector.replicate 32 0,
    cap := 2400, pclock := 1500, draw := 0, bindStop := false, expbase := 0, expsize := 0,
    routes := Vector.replicate 256 { valid := false, links := 0 }, msixTable := msixReset, msixPending := 0, turn := 0 }

/-- The management cluster as a new device has it: no image, stored epoch 0 (R354), fuses and policy at log 15. -/
def Mgmt.reset : Mgmt :=
  { drive0 := none, drive1 := none, running := none, storedEpoch := 0, keyDigest := 0, svnMin := 0, debug := false,
    measured := [], identity := [], identityPrivate := [], issuers := [] }

/-- The machine right after reset: start-up state 0, nothing mapped, loaded, launched or bound (R381, R415). -/
def State.reset : State :=
  { mem := [], pages := [], touched := [], poison := [], codeObjs := [], waves := [], leads := [], crews := [],
    gangs := [], ops := [], subs := [], launches := [], waiters := [], seqMaps := [],
    queues := Vector.replicate 64 HostQueue.reset, slots := [], counters := Counters.reset,
    machines := Vector.replicate 6 CtlMachine.reset, regs := Regs.reset, mgmt := Mgmt.reset, peers := [],
    birth := Vector.replicate 32 0, drift := Vector.replicate 32 none, coreErrors := [], intent := none, mtime := 0, ticks := Vector.replicate 32 0,
    tickedAt := 0, outbox := [], late := [], recent := [],
    cur := .none, agenda := [], free := 0, nextId := 0 }

end Sys2Proof.Machine
end

