-- ==== Sys2Proof/Machine/Table.lean ====
section
/-!
DEFINITION. Tables: lists of key and value pairs with at most one entry for each key, in the order of first insertion.
-/

namespace Sys2Proof.Machine

/-- The value under a key. -/
def tabGet {κ α : Type} [DecidableEq κ] (t : List (κ × α)) (k : κ) : Option α :=
  match t with
  | [] => none
  | (j, a) :: t => if j = k then some a else tabGet t k

/-- Set the value under a key: in place where the key is there, else at the end. -/
def tabSet {κ α : Type} [DecidableEq κ] (t : List (κ × α)) (k : κ) (a : α) : List (κ × α) :=
  match t with
  | [] => [(k, a)]
  | (j, b) :: t => if j = k then (k, a) :: t else (j, b) :: tabSet t k a

/-- Remove a key. -/
def tabDel {κ α : Type} [DecidableEq κ] (t : List (κ × α)) (k : κ) : List (κ × α) := t.filter fun e => decide (e.1 ≠ k)

/-- Change the value under a key, if there is one. -/
def tabMod {κ α : Type} [DecidableEq κ] (t : List (κ × α)) (k : κ) (f : α → α) : List (κ × α) :=
  match tabGet t k with
  | none => t
  | some a => tabSet t k (f a)

/-- Keys in table order. -/
def tabKeys {κ α : Type} (t : List (κ × α)) : List κ := t.map Prod.fst

end Sys2Proof.Machine
end

