-- ==== Sys2Proof/Machine/Memory.lean ====
section
/-!
DEFINITION. Byte memory as a canonical list of cells: addresses strictly rising, no cell holding the byte that an unlisted
address reads as (log 1). Every write keeps that form.
-/

namespace Sys2Proof.Machine

/-- What an unlisted address reads as: the spec gives memory no contents at reset (log 1). -/
def memDefault : Byte := 0#8

/-- The byte at an address. -/
def memRead (m : List Host.Cell) (a : Nat) : Byte :=
  match m with
  | [] => memDefault
  | c :: m => if c.1 = a then c.2 else memRead m a

/-- Put a cell that is not the default in front, or nothing. -/
def memCons (a : Nat) (b : Byte) (m : List Host.Cell) : List Host.Cell := if b = memDefault then m else (a, b) :: m

/-- Write one byte. -/
def memWrite (m : List Host.Cell) (a : Nat) (b : Byte) : List Host.Cell :=
  match m with
  | [] => memCons a b []
  | c :: m =>
    if a < c.1 then memCons a b (c :: m)
    else if a = c.1 then memCons a b m
    else c :: memWrite m a b

/-- `n` bytes from an address. -/
def memReads (m : List Host.Cell) (a : Nat) : Nat → List Byte
  | 0 => []
  | n + 1 => memRead m a :: memReads m (a + 1) n

/-- Write bytes from an address upward. -/
def memWrites (m : List Host.Cell) (a : Nat) : List Byte → List Host.Cell
  | [] => m
  | b :: bs => memWrites (memWrite m a b) (a + 1) bs

/-- Every cell of a list lies above an address and holds no default. -/
def memAbove (lo : Nat) : List Host.Cell → Bool
  | [] => true
  | c :: m => decide (lo ≤ c.1) && (c.2 != memDefault) && memAbove (c.1 + 1) m

/-- The canonical form: strictly rising addresses, no default listed. -/
def Memory.wf (m : List Host.Cell) : Bool := memAbove 0 m

end Sys2Proof.Machine
end

