-- ==== Sys2Proof/Machine/Access.lean ====
section
/-!
DEFINITION. Translation (R138, R240), reads and writes of physical memory with poison (R383) and the undo logs of open
checkpoints (R167, R398), and free values (log 9).
-/

namespace Sys2Proof.Machine

/-! ### Free values -/

/-- A choice among `n` alternatives at a place of the counter (log 9); 0 where there is no alternative. -/
def State.pick (s : State) (place n : Nat) : Nat := if n ≤ 1 then 0 else Config.freeNat (s.free + place) % n

/-- Move the counter on, past every place that a step may use. -/
def State.spend (s : State) : State := { s with free := s.free + 65536 }

/-! ### Address spaces (log 2) -/

/-- Bytes of local memory (R1). -/
def localSize : Nat := 768 * 2 ^ 30

/-- Key of a host address. -/
def hostKey (a : Nat) : Nat := 2 ^ 64 + a

/-- Key of a pod address: bits [51:44] the chip, [43:0] the address in it (R412); the own chip's are local. -/
def State.podKey (s : State) (a : Nat) : Nat :=
  if fieldNat a 44 8 = s.regs.chip.toNat then fieldNat a 0 44 else 2 ^ 52 + a % 2 ^ 52

/-- Whether a key lies in the device's local memory. -/
def isLocal (pa : Nat) : Bool := decide (pa < localSize)

/-! ### Translation -/

/-- Kinds of access that a page allows or forbids. -/
inductive AccKind where
  | read
  | write
  | exec
  deriving DecidableEq, Repr, Inhabited

/-- A translation: an element failure for good, a page that is mapped and allowed but not resident, or a physical address. -/
inductive Tr where
  | bad
  | away (va : Nat)
  | ok (pa : Nat)
  deriving DecidableEq, Repr, Inhabited

/-- Whether a page allows an access. -/
def Page.allows (p : Page) : AccKind → Bool
  | .read => p.r
  | .write => p.w
  | .exec => p.x

/-- The page that maps a virtual address. -/
def pageAt (ps : List Page) (va : Nat) : Option Page := ps.find? fun p => decide (p.base ≤ va) && decide (va < p.base + p.size)

/-- Whether an access can reach a physical address: a pod peer must be routed, and the address exported (R413). -/
def State.reachable (s : State) (pa : Nat) : Bool :=
  if 2 ^ 52 ≤ pa ∧ pa < 2 ^ 53 then
    let chip := fieldNat pa 44 8
    let lo := fieldNat pa 0 44
    let e := s.regs.routes.toList.getD chip { valid := false, links := 0 }
    e.valid && e.links != 0 &&
      match tabGet s.peers chip with
      | some (base, size) => decide (base ≤ lo) && decide (lo < base + size)
      | none => false
  else true

/-- Translate a virtual address: bits [63:57] zero, mapped, allowed, resident (R138, R240), the home reachable (R413). -/
def State.translate (s : State) (acc : AccKind) (va : Nat) : Tr :=
  if va ≥ 2 ^ 57 then .bad
  else
    match pageAt s.pages va with
    | none => .bad
    | some p =>
      if !p.allows acc then .bad
      else if !p.resident then .away va
      else if s.reachable (p.pa + (va - p.base)) then .ok (p.pa + (va - p.base))
      else .bad

/-- Virtual addresses that a page maps to a physical address. -/
def State.virtsOf (s : State) (pa : Nat) : List Nat :=
  s.pages.filterMap fun p => if p.pa ≤ pa ∧ pa < p.pa + p.size then some (p.base + (pa - p.pa)) else none

/-- A virtual range as physical pieces, page by page; `fuel` bounds the number of pieces. -/
def State.pieces (s : State) (acc : AccKind) (fuel va n : Nat) : Except Tr (List (Nat × Nat)) :=
  match fuel with
  | 0 => if n = 0 then .ok [] else .error .bad
  | fuel + 1 =>
    if n = 0 then .ok []
    else
      match s.translate acc va with
      | .ok pa =>
        let room := match pageAt s.pages va with
          | some p => p.base + p.size - va
          | none => 1
        let k := min n room
        do
          let rest ← s.pieces acc fuel (va + k) (n - k)
          return (pa, k) :: rest
      | t => .error t

/-! ### Physical memory -/

/-- Poison the lines of some addresses (R383). -/
def State.addPoison (s : State) (pas : List Nat) : State :=
  { s with poison := pas.foldl (fun ls pa => if ls.contains (pa / 64) then ls else ls ++ [pa / 64]) s.poison }

/-- The byte at a physical address. -/
def State.rd (s : State) (pa : Nat) : Byte := memRead s.mem pa

/-- `n` bytes at a physical address. -/
def State.rdBytes (s : State) (pa n : Nat) : List Byte := memReads s.mem pa n

/-- A little-endian number of `n` bytes (R3). -/
def State.rdNat (s : State) (pa n : Nat) : Nat := ofBytes (s.rdBytes pa n)

/-- The 64-byte lines of a range. -/
def linesOf (pa n : Nat) : List Nat := if n = 0 then [] else upFrom (pa / 64) ((pa + n - 1) / 64 - pa / 64 + 1)

/-- Whether a range holds poison (R383). -/
def State.poisoned (s : State) (pa n : Nat) : Bool := !s.poison.isEmpty && (linesOf pa n).any s.poison.contains

/-- Whether a physical address lies in a marked region of a gang (R166). -/
def State.inRegions (s : State) (g : Gang) (pa : Nat) : Bool :=
  (s.virtsOf pa).any fun va => g.regions.any fun r => decide (r.2.1 ≤ va) && decide (va < r.2.1 + r.2.2)

/-- Log the old contents of the 128-byte lines that a write reaches for the first time (R167, R398). -/
def State.logLines (s : State) (g : Gang) (pa n : Nat) : Gang :=
  match g.ckpt with
  | none => g
  | some log =>
    let lines := if n = 0 then [] else upFrom (pa / 128) ((pa + n - 1) / 128 - pa / 128 + 1)
    let fresh := lines.filter fun l => (tabGet log (l * 128)).isNone && s.inRegions g (l * 128)
    { g with ckpt := some (fresh.foldl (fun a l => tabSet a (l * 128) (s.rdBytes (l * 128) 128)) log) }

/-- Late writes under a write that every path shows: its bytes show (R33). -/
def Late.under (pa n : Nat) (r : Late) : Late :=
  match r.former with
  | .mem old => { r with former := .mem (old.filter fun c => decide (c.1 < pa) || decide (pa + n ≤ c.1)) }
  | _ => r

/-- Whether the write of some bytes ends a wait: a value that it waits on changes (R145, R256). -/
def Waiter.ends (w : Waiter) (old new : List Host.Cell) : Bool := w.watch.any fun p => memReads old p.1 p.2 != memReads new p.1 p.2

/-- Write bytes at a physical address: open checkpoints log first (R167), poison clears in the lines that the write covers whole
(R383), and waits on a value that changes end (R145, R256). Every path shows the bytes; a party's write on its own path is
`State.wrBy`. -/
def State.wr (s : State) (pa : Nat) (bs : List Byte) : State :=
  let gangs := if s.gangs.any fun e => e.2.ckpt.isSome then s.gangs.map fun e => (e.1, s.logLines e.2 pa bs.length) else s.gangs
  let poison := if s.poison.isEmpty then [] else s.poison.filter fun l => !(decide (pa ≤ l * 64) && decide (l * 64 + 64 ≤ pa + bs.length))
  let mem := memWrites s.mem pa bs
  { s with mem, gangs, poison, waiters := s.waiters.filter (fun w => !w.ends s.mem mem), late := s.late.map (Late.under pa bs.length) }

/-- Write a little-endian number of `n` bytes (R3). -/
def State.wrNat (s : State) (pa n v : Nat) : State := s.wr pa (toBytes n v)

/-- Write bytes over physical pieces. -/
def State.wrPieces (s : State) : List (Nat × Nat) → List Byte → State
  | [], _ => s
  | (pa, n) :: ps, bs => (s.wr pa (bs.take n)).wrPieces ps (bs.drop n)

/-- Read physical pieces. -/
def State.rdPieces (s : State) (ps : List (Nat × Nat)) : List Byte := (ps.map fun p => s.rdBytes p.1 p.2).flatten

/-- Read `n` bytes at a virtual address. -/
def State.rdVirt (s : State) (va n : Nat) : Except Tr (List Byte) := do
  let ps ← s.pieces .read (n + 1) va n
  return s.rdPieces ps

/-- Bytes of a buffer of own stores laid over memory, in the order of the stores (R392). -/
def overlay (buf : List (Party × BufWrite)) (pa : Nat) (bs : List Byte) : List Byte :=
  buf.foldl (fun acc e =>
    acc.mapIdx fun i b =>
      if e.2.pa ≤ pa + i ∧ pa + i < e.2.pa + e.2.bytes.length then e.2.bytes.getD (pa + i - e.2.pa) b else b) bs

/-- What a gang's own load reads: memory under its own buffered stores (R247, R392). -/
def State.rdOwn (s : State) (g : Gang) (pa n : Nat) : List Byte :=
  match g.pair with
  | none => s.rdBytes pa n
  | some p => overlay p.buf pa (s.rdBytes pa n)

/-- The state as a gang's own reads see it, for reads only: its buffered stores lie over memory (R247, R392). -/
def State.seenBy (s : State) (g : Gang) : State :=
  match g.pair with
  | none => s
  | some p => { s with mem := p.buf.foldl (fun m e => memWrites m e.2.pa e.2.bytes) s.mem }

/-- The first address of a virtual range that fails for good. -/
def State.badAt (s : State) (acc : AccKind) (va n : Nat) : Nat := ((upFrom va n).find? fun a => s.translate acc a == .bad).getD va

end Sys2Proof.Machine
end

