-- ==== Sys2Proof/Machine/Paths.lean ====
section
/-!
DEFINITION. Access paths (R14, R16, R33, R34): which writes a path shows, and the chains of R32 along which the knowledge of a
write travels to the fence that makes another path show it. A write that every path shows leaves no trace: with no late
write, every function here leaves the machine as it is (log 35).
-/

namespace Sys2Proof.Machine

/-! ### Scopes (R31) -/

def Actor.crewKey : Actor → CrewKey
  | .wave k _ => { gang := k.gang, crew := k.crew }
  | .lead k => k
  | .op _ k => k

/-- The cluster of a crew. -/
def State.clusterOf (s : State) (k : CrewKey) : Nat := ((tabGet s.crews k).map Crew.cluster).getD 0

/-- Whether one instance of a scope, crew or wider, holds a crew on a cluster and another crew (R10, R31, R420). -/
def State.crewsShare (s : State) (scope : Nat) (a : CrewKey) (cluster : Nat) (b : CrewKey) : Bool :=
  let near (n : Nat) : Bool := a.gang == b.gang || ((tabGet s.crews b).map fun c => c.cluster / n == cluster / n).getD false
  match scope with
  | 3 => a == b
  | 4 => a.gang == b.gang
  | 5 => near 2
  | 6 => near 4
  | 7 => near 16
  | n => decide (n ≥ 8)

/-- Whether two parties are one: the lanes of a wave that act together (R265), a lead context, an operation. -/
def Actor.meets : Actor → Actor → Bool
  | .wave j a, .wave k b => j == k && a &&& b != 0
  | .lead j, .lead k => j == k
  | .op m _, .op n _ => m == n
  | _, _ => false

/-- Whether one instance of a scope holds a party on a cluster and another party; an operation belongs to the scopes of its lead
context (R31). -/
def State.share (s : State) (scope : Nat) (a : Actor) (cluster : Nat) (b : Actor) : Bool :=
  if scope ≥ 3 then s.crewsShare scope a.crewKey cluster b.crewKey
  else
    a.meets b ||
    match a, b with
    | .wave j _, .wave k _ => scope == 2 && j == k
    | .lead j, .op _ k => j == k
    | .op _ j, .lead k => j == k
    | .op _ j, .op _ k => j == k
    | _, _ => false

/-! ### What a path shows -/

/-- Whether a path shows a write to a party. -/
def State.shows (s : State) (q : Path) (a : Actor) (r : Late) : Bool :=
  r.seen.contains q || r.shown.any fun e => e.1 == q && s.share e.2.1 e.2.2.1 e.2.2.2 a

/-- Put back cells whose key no later write that shows has written. -/
def putBack (newer : List Nat) (m : List Host.Cell) (old : List Host.Cell) : List Host.Cell :=
  old.foldl (fun m c => if newer.contains c.1 then m else memWrite m c.1 c.2) m

/-- Keys of one kind that later writes which show have written: addresses, tile bytes, handles. -/
structure Newer where
  mem : List Nat
  tile : List (Nat × Nat × Nat)
  handle : List (Nat × Nat)
  deriving DecidableEq, Repr, Inhabited

/-- Handles after a change of one. -/
def setHandle (hs : List (Nat × Handle)) (h : Nat) : Option Handle → List (Nat × Handle)
  | some x => tabSet hs h x
  | none => tabDel hs h

/-- Take back one write, unless it shows. -/
def State.unwrite (q : Path) (a : Actor) (e : State × Newer) (r : Late) : State × Newer :=
  let (s, n) := e
  let shows := s.shows q a r
  match r.former with
  | .mem old =>
    if shows then (s, { n with mem := old.map Prod.fst ++ n.mem })
    else ({ s with mem := putBack n.mem s.mem old }, n)
  | .tile g h old =>
    if n.handle.contains (g, h) then e
    else if shows then (s, { n with tile := old.map (fun c => (g, h, c.1)) ++ n.tile })
    else
      let back (t : Tile) : Tile := { t with data := putBack ((n.tile.filter fun x => x.1 == g && x.2.1 == h).map fun x => x.2.2) t.data old }
      ({ s with gangs := tabMod s.gangs g fun gg => { gg with handles := tabMod gg.handles h fun x => match x with
          | .tile t => .tile (back t)
          | x => x } }, n)
  | .handle g h old =>
    if n.handle.contains (g, h) then e
    else if shows then (s, { n with handle := (g, h) :: n.handle })
    else ({ s with gangs := tabMod s.gangs g fun gg => { gg with handles := setHandle gg.handles h old } }, n)

/-- The machine as a party reads it on a path, for reads only (R33, R34). -/
def State.on (s : State) (q : Path) (a : Actor) : State :=
  (s.late.foldl (State.unwrite q a) (s, { mem := [], tile := [], handle := [] })).1

/-- Every path. -/
def allPaths : List Path := [.w, .l, .m, .c]

/-- Whether some path does not show a write yet. -/
def Late.lasts (r : Late) : Bool := !(allPaths.all fun q => r.seen.contains q)

/-- What an earlier write still has to take back where a later one shows on every path; none where that is nothing. -/
def Former.beneath (later : Former) (f : Former) : Option Former :=
  let rest (old new : List Host.Cell) : List Host.Cell := old.filter fun c => !new.any fun d => d.1 == c.1
  match later, f with
  | .mem new, .mem old => if (rest old new).isEmpty then none else some (.mem (rest old new))
  | .tile g h new, .tile g' h' old =>
    if g = g' ∧ h = h' then if (rest old new).isEmpty then none else some (.tile g' h' (rest old new)) else some f
  | .handle g h _, .tile g' h' _ => if g = g' ∧ h = h' then none else some f
  | .handle g h _, .handle g' h' _ => if g = g' ∧ h = h' then none else some f
  | _, _ => some f

/-- Drop writes that every path shows, with what lies beneath them. -/
def dropShown : List Late → List Late
  | [] => []
  | r :: rs =>
    let rs := dropShown rs
    if r.lasts then r :: rs
    else rs.filterMap fun x => (r.former.beneath x.former).map fun f => { x with former := f }

/-- Before a read on a path: each late write may by now show on it, to all from then on (R34). -/
def State.hear (s : State) (q : Path) : State :=
  let late := s.late.mapIdx fun i r => if s.pick (16384 + i) 2 = 0 then { r with seen := q :: r.seen } else r
  { s with late := dropShown late, free := s.free + (if s.late.isEmpty then 0 else 65536) }

/-! ### Writes -/

/-- The number of a path (R251). -/
def Path.code : Path → Nat
  | .w => 0
  | .l => 1
  | .m => 2
  | .c => 3

/-- The paths that show a write at once: its own, unless it is a drained non-temporal store, which its own shows within a scope (R37);
of the others a free choice. -/
def State.atOnce (s : State) (q : Path) (nt : Bool) : List Path := allPaths.filter fun p => (p == q && !nt) || s.pick p.code 2 == 0

/-- Note a write that a party has made on a path, by what stood there. -/
def State.noteAt (s : State) (q : Path) (a : Actor) (f : Former) (seen : List Path) (nt : Option Nat)
    (rmw : Bool := false) : State :=
  let r : Late := { path := q, by_ := a, cluster := s.clusterOf a.crewKey, former := f, seen,
                    shown := nt.toList.map fun scope => (q, scope, a, s.clusterOf a.crewKey), known := [.actor a], rmw }
  { s with late := dropShown (r :: s.late) }.spend

def State.note (s : State) (q : Path) (a : Actor) (f : Former) : State := s.noteAt q a f (s.atOnce q false) none

/-- The cells of a range. -/
def cellsAt (m : List Host.Cell) (a n : Nat) : List Host.Cell := (upFrom a n).map fun x => (x, memRead m x)

/-- The units of a range of memory. -/
def memSpots (pa n : Nat) : List Spot := if n = 0 then [] else (upFrom (pa / 4) ((pa + n - 1) / 4 - pa / 4 + 1)).map Spot.mem

/-- What the chains from each late write reach more. -/
def State.learn (s : State) (f : Late → List Holder) : State :=
  { s with late := s.late.map fun r => { r with known := (f r).filter (fun h => !r.known.contains h) ++ r.known } }

/-- What the chains no longer reach. -/
def State.unlearn (s : State) (p : Holder → Bool) : State :=
  { s with late := s.late.map fun r => { r with known := r.known.filter fun h => !p h } }

/-- Whether a chain from a write has reached a party. -/
def Late.knows (r : Late) (a : Actor) : Bool := r.known.any fun h => match h with
  | .actor b => b.meets a
  | _ => false

/-- A plain write of some units: no earlier release is read from them, and the fences in force are (R266). -/
def State.overwrite (s : State) (a : Actor) (ps : List Spot) : State :=
  (s.unlearn fun h => match h with
    | .released p _ _ => ps.contains p
    | _ => false).learn fun r => r.known.flatMap fun h => match h with
      | .fence b scope => if b.meets a then ps.map fun p => .released p scope a.crewKey else []
      | _ => []

/-- A write on a path, as an ordinary one or as a non-temporal store drained at a scope. -/
def State.wrAs (s : State) (q : Path) (a : Actor) (nt : Option Nat) (pa : Nat) (bs : List Byte) (rmw : Bool := false) : State :=
  ({ s.wr pa bs with late := s.late }.overwrite a (memSpots pa bs.length)).noteAt q a (.mem (cellsAt s.mem pa bs.length))
    (s.atOnce q nt.isSome) nt rmw

/-- A PARTY WRITES BYTES ON A PATH (R16, R33). -/
def State.wrBy (s : State) (q : Path) (a : Actor) (pa : Nat) (bs : List Byte) : State := s.wrAs q a none pa bs

/-- Write a little-endian number of `n` bytes (R3). -/
def State.wrNatBy (s : State) (q : Path) (a : Actor) (pa n v : Nat) : State := s.wrBy q a pa (toBytes n v)

/-- Perform writes in order. -/
def State.wrAllBy (s : State) (q : Path) (a : Actor) (ws : List (Nat × List Byte)) : State :=
  ws.foldl (fun s w => s.wrBy q a w.1 w.2) s

/-- Before a read-modify-write: those that came before it at its location show on its path (R254). -/
def State.meetRmw (s : State) (q : Path) (pa n : Nat) : State :=
  let meets (r : Late) : Bool := r.rmw && match r.former with
    | .mem old => old.any fun c => decide (pa ≤ c.1) && decide (c.1 < pa + n)
    | _ => false
  { s with late := dropShown (s.late.map fun r => if meets r && !r.seen.contains q then { r with seen := q :: r.seen } else r) }

/-- The write of a read-modify-write (R252). -/
def State.wrRmw (s : State) (q : Path) (a : Actor) (pa n v : Nat) : State := s.wrAs q a none pa (toBytes n v) true

/-- Write bytes over physical pieces. -/
def State.wrPiecesBy (s : State) (q : Path) (a : Actor) : List (Nat × Nat) → List Byte → State
  | [], _ => s
  | (pa, n) :: ps, bs => (s.wrBy q a pa (bs.take n)).wrPiecesBy q a ps (bs.drop n)

/-- Note a write to ranges of a tile, by what stood there. -/
def State.noteTile (s : State) (q : Path) (a : Actor) (g h : Nat) (t : Tile) (rs : List (Nat × Nat)) : State :=
  s.note q a (.tile g h (rs.flatMap fun r => cellsAt t.data r.1 r.2))

/-- Note a change of a handle, a write on M, by what it named: wave tile words alone may find the old state (R328). -/
def State.noteHandle (s : State) (a : Actor) (g h : Nat) (old : Option Handle) : State :=
  s.noteAt .m a (.handle g h old) ((s.atOnce .m false).filter (· == .w) ++ [.l, .m, .c]) none

/-- Whether a path still shows a party what a handle named before a change. -/
def State.staleHandle (s : State) (q : Path) (a : Actor) (g h : Nat) : Bool :=
  s.late.any fun r => match r.former with
    | .handle g' h' _ => g' == g && h' == h && !s.shows q a r
    | _ => false

/-! ### Chains (R32) -/

/-- From one holder to another. -/
def State.pass (s : State) (from_ to_ : Holder) : State := s.learn fun r => if r.known.contains from_ then [to_] else []

/-- A party releases into an object (R21, R22, R23, R30). -/
def State.release (s : State) (a : Actor) (to_ : Holder) : State := s.learn fun r => if r.knows a then [to_] else []

/-- A party acquires from an object. -/
def State.acquire (s : State) (from_ : Holder) (a : Actor) : State := s.pass from_ (.actor a)

/-- An object carries its chain once. -/
def State.spent (s : State) (h : Holder) : State := s.unlearn (· == h)

/-- A party releases at a scope, at the units that it writes (R31, R266). -/
def State.releaseAt (s : State) (a : Actor) (scope : Nat) (ps : List Spot) : State :=
  s.learn fun r => if r.knows a then ps.map fun p => .released p scope a.crewKey else []

/-- A party acquires at a scope from the units that it reads: the narrower scope decides (R31). -/
def State.acquireAt (s : State) (a : Actor) (scope : Nat) (ps : List Spot) : State :=
  s.learn fun r =>
    if r.known.any fun h => match h with
        | .released p sc k => ps.contains p && s.crewsShare (min sc scope) k (s.clusterOf k) a.crewKey
        | _ => false
    then [.actor a] else []

/-- A party reads units plainly: an acquire fence may follow (R266). -/
def State.hearAt (s : State) (a : Actor) (ps : List Spot) : State :=
  s.learn fun r => r.known.filterMap fun h => match h with
    | .released p sc k => if ps.contains p then some (.heard a sc k) else none
    | _ => none

/-- A FENCE of a party (R266): a release fence stays in force for its later writes, an acquire fence acts on its earlier reads. -/
def State.fenceBy (s : State) (a : Actor) (scope order : Nat) : State :=
  let s := if order / 2 % 2 = 1 then s.learn fun r => if r.knows a then [.fence a scope] else [] else s
  if order % 2 = 1 then
    s.learn fun r =>
      if r.known.any fun h => match h with
          | .heard b sc k => b.meets a && s.crewsShare (min sc scope) k (s.clusterOf k) a.crewKey
          | _ => false
      then [.actor a] else []
  else s

/-- A count-down on an object, as a release at a scope (R29): what a finished phase has counted is released. -/
def State.countAt (s : State) (a : Actor) (scope : Nat) (p : Spot) (ends : Bool) : State :=
  let s := s.learn fun r => if r.knows a then [.arriving p scope a.crewKey] else []
  if ends then
    s.learn fun r => r.known.filterMap fun h => match h with
      | .arriving q sc k => if q == p then some (.released p sc k) else none
      | _ => none
  else s

/-- The return queue moves up by one entry, which a party takes (R22). -/
def State.takePosted (s : State) (k : CrewKey) (a : Actor) : State :=
  let s := (s.acquire (.posted k 0) a).spent (.posted k 0)
  { s with late := s.late.map fun r => { r with known := r.known.map fun h => match h with
      | .posted j n => if j = k then .posted j (n - 1) else h
      | h => h } }

/-- The lanes of a split act together from word to word (R265). -/
def State.together265 (s : State) (a : Actor) : State := s.learn fun r => if r.knows a then [.actor a] else []

/-- XFENCE from one path to another at a scope, by a party (R33): it shows the writes of the one that happen before it on the
other. -/
def State.xfenceBy (s : State) (a : Actor) (src dst : Path) (scope : Nat) : State :=
  { s with late := s.late.map fun r =>
      if r.path == src && r.knows a && s.share scope r.by_ r.cluster a then
        { r with shown := (dst, scope, a, s.clusterOf a.crewKey) :: r.shown }
      else r }

/-- The same from every path to every path (R155, R167). -/
def State.xfenceAll (s : State) (a : Actor) (scope : Nat) : State :=
  allPaths.foldl (fun s p => allPaths.foldl (fun s q => if p = q then s else s.xfenceBy a p q scope) s) s

/-- The path of a path code (R33). -/
def Path.ofCode (n : Nat) : Path :=
  match n with
  | 0 => .w
  | 1 => .l
  | 2 => .m
  | _ => .c

end Sys2Proof.Machine
end

