-- ==== Sys2Proof/Machine/Tiles.lean ====
section
/-!
DEFINITION. Tiles: formats, storage layout (R282, R283), elements and blocks, summary flags (R285), fill and drydown
(R287 to R289).
-/

namespace Sys2Proof.Machine

/-- The block format of a tile format code. -/
def blockOf (c : Nat) : Option BFmt := if c = 20 then some .sb8 else if c = 21 then some .sb4 else none

/-- Tile formats (R282). -/
def isTileFmt (c : Nat) : Bool := decide (c ≤ 21) && c != 3 && c != 7 && c != 11

/-- Bytes of one sub-block's area (R283). -/
def areaOf (c : Nat) : Nat :=
  match blockOf c with
  | some .sb8 => 1088
  | some .sb4 => 576
  | none => 128 * ((Fmt.ofCode c).map Fmt.width).getD 0

/-- A tile shape (R282). -/
def shapeOk (n : Nat) : Bool := decide (32 ≤ n) && decide (n ≤ 8192) && n % 32 == 0

/-- Size of a tile in bytes. -/
def tileSize (rows cols c : Nat) : Nat := rows / 32 * (cols / 32) * areaOf c

def Tile.area (t : Tile) : Nat := areaOf t.fmt
def Tile.size (t : Tile) : Nat := tileSize t.rows t.cols t.fmt
/-- Number of sub-blocks. -/
def Tile.subCount (t : Tile) : Nat := t.rows / 32 * (t.cols / 32)
/-- The sub-block of element (r, c). -/
def Tile.subOf (t : Tile) (r c : Nat) : Nat := r / 32 * (t.cols / 32) + c / 32

/-- A sub-block as TALLOC leaves it: all zero, not absent (R285); an unbound tile's storage is its contents. -/
def Sub.fresh : Sub := { zero := some true, absent := some false, filled := true, dirty := false }

def Tile.sub (t : Tile) (i : Nat) : Sub := (tabGet t.subs i).getD Sub.fresh

def Tile.setSub (t : Tile) (i : Nat) (b : Sub) : Tile := { t with subs := tabSet t.subs i b }

/-- A tile of an allocation: every element reads as zero (R301). -/
def Tile.alloc (rows cols fmt : Nat) (slice packed : Bool) : Tile :=
  { rows, cols, fmt, slice, packed, bound := none, data := [], subs := [], bad := [] }

/-- A byte of the storage. -/
def Tile.rd (t : Tile) (off : Nat) : Byte := memRead t.data off

/-- Bytes of the storage that belong to a sub-block's layout, the rest of its area being not architected (R283). -/
def Tile.used (t : Tile) (i : Nat) : Nat :=
  match blockOf t.fmt with
  | none => t.area
  | some b => if t.packed then packedSize b 32 (fun k => t.rd (i * t.area + k)) else plainSize b 32

/-- Flags not known, and dirty where bound: what every write to a sub-block leaves (R285, R287). -/
def Sub.written (b : Sub) (bound : Bool) : Sub := { b with zero := none, absent := none, dirty := bound }

/-- Write bytes into the storage: the sub-blocks they reach are marked. -/
def Tile.wr (t : Tile) (off : Nat) (bs : List Byte) : Tile :=
  let subs := if bs.length = 0 then [] else upFrom (off / t.area) ((off + bs.length - 1) / t.area - off / t.area + 1)
  let t := subs.foldl (fun t i => t.setSub i ((t.sub i).written t.bound.isSome)) t
  { t with data := memWrites t.data off bs, bad := t.bad.filter fun w => !(decide (off ≤ 8 * w) && decide (8 * w + 8 ≤ off + bs.length)) }

/-- Late writes of a tile under a write that every path shows: its bytes show (R33). -/
def Late.underTile (g h off n : Nat) (r : Late) : Late :=
  match r.former with
  | .tile g' h' old =>
    if g = g' ∧ h = h' then { r with former := .tile g h (old.filter fun c => decide (c.1 < off) || decide (off + n ≤ c.1)) } else r
  | _ => r

/-- Whether a range of the storage holds poison (R383). -/
def Tile.poisoned (t : Tile) (off n : Nat) : Bool := t.bad.any fun w => decide (8 * w < off + n) && decide (off < 8 * w + 8)

/-- The code of an element of an element format (R283). -/
def Tile.code (t : Tile) (r c : Nat) : Nat :=
  let w := ((Fmt.ofCode t.fmt).map Fmt.width).getD 8
  let e := r % 32 * 32 + c % 32
  let base := t.subOf r c * t.area
  if w = 4 then (t.rd (base + e / 2)).toNat / (if e % 2 = 0 then 1 else 16) % 16
  else ofBytes (memReads t.data (base + e * (w / 8)) (w / 8))

/-- The block of tile row `r` in the sub-block of column `c` of a block format (R283). -/
def Tile.block (t : Tile) (b : BFmt) (r c : Nat) : Block :=
  let base := t.subOf r c * t.area
  let rd (k : Nat) : Byte := t.rd (base + k)
  if t.packed then packedBlock b 32 rd (r % 32) else plainBlock b 32 rd (r % 32)

/-- The value of an element; outside the shape it is absent (R292). -/
def Tile.value (t : Tile) (r c : Nat) : FV :=
  if t.rows ≤ r ∨ t.cols ≤ c then .absent
  else
    match blockOf t.fmt with
    | some b => (t.block b r c).value b (c % 32)
    | none =>
      match Fmt.ofCode t.fmt with
      | some f => f.toFV (t.code r c)
      | none => .absent

/-- Whether an element counts as zero or absent (R126): none where it is neither. -/
inductive ElemKind where
  | zero
  | absent
  | nonzero
  deriving DecidableEq, Repr, Inhabited

/-- The kind of an element (R126). -/
def Tile.kind (t : Tile) (r c : Nat) : ElemKind :=
  match blockOf t.fmt with
  | some b =>
    match (t.block b r c).value b (c % 32) with
    | .absent => .absent
    | v => if v.isZero then .zero else .nonzero
  | none =>
    match Fmt.ofCode t.fmt with
    | some f =>
      let w := t.code r c
      if f.isAbsent w then .absent else if f.isZero w then .zero else .nonzero
    | none => .zero

/-- The elements of a sub-block. -/
def Tile.subKinds (t : Tile) (i : Nat) : List ElemKind :=
  let rb := i / (t.cols / 32)
  let cb := i % (t.cols / 32)
  (List.range 1024).map fun e => t.kind (32 * rb + e / 32) (32 * cb + e % 32)

/-- Recompute a sub-block's flags (R285). -/
def Tile.recompute (t : Tile) (i : Nat) : Tile :=
  let ks := t.subKinds i
  t.setSub i { t.sub i with zero := some (ks.all (· == .zero)), absent := some (ks.all (· == .absent)) }

/-! ### Fill and drydown -/

/-- Fill sub-block `i` of a tile bound at `base` (R288): for a packed tile the map, then only the bytes in use. -/
def State.fillSub (s : State) (t : Tile) (base i : Nat) : Except Tr Tile := do
  let at_ := base + i * t.area
  let bs ← match blockOf t.fmt with
    | some b =>
      if t.packed then do
        let map ← s.rdVirt at_ 8
        s.rdVirt at_ (packedSize b 32 fun k => map.getD k 0)
      else s.rdVirt at_ (plainSize b 32)
    | none => s.rdVirt at_ t.area
  let t := { t with data := memWrites t.data (i * t.area) bs, bad := t.bad.filter fun w => !(decide (i * t.area ≤ 8 * w) && decide (8 * w < (i + 1) * t.area)) }
  return t.setSub i { zero := none, absent := none, filled := true, dirty := false }

/-- Whether an access must fill a sub-block first (R250, R288). -/
def Tile.needsFill (t : Tile) (i : Nat) : Bool := t.bound.isSome && !(t.sub i).filled

/-- The writes of a sub-block's drydown: physical pieces with their bytes (R289). -/
def State.dryWrites (s : State) (t : Tile) (base i : Nat) : Except Tr (List (Nat × List Byte)) := do
  let n := t.used i
  let ps ← s.pieces .write (n + 1) (base + i * t.area) n
  let bs := memReads t.data (i * t.area) n
  return (ps.foldl (fun a p => (a.1 ++ [(p.1, a.2.take p.2)], a.2.drop p.2)) (([] : List (Nat × List Byte)), bs)).1

/-- The physical addresses to which the drydown of a sub-block carries poison (R383). -/
def State.dryPoison (s : State) (t : Tile) (base i : Nat) : List Nat :=
  (t.bad.filter fun w => decide (i * t.area < 8 * w + 8) && decide (8 * w < i * t.area + t.used i)).filterMap fun w =>
    match s.translate .write (base + max (8 * w) (i * t.area)) with
    | .ok pa => some pa
    | _ => none

/-- The dirty sub-blocks of a bound tile. -/
def Tile.dirtySubs (t : Tile) : List Nat :=
  if t.bound.isSome then (tabKeys t.subs).filter fun i => (t.sub i).dirty && (t.sub i).filled else []

/-- Every write of a tile's drydown. -/
def State.dryAll (s : State) (t : Tile) (subs : List Nat) : Except Tr (List (Nat × List Byte)) :=
  match t.bound, subs with
  | none, _ => .ok []
  | some _, [] => .ok []
  | some base, i :: is => do
    let a ← s.dryWrites t base i
    let b ← s.dryAll t is
    return a ++ b

/-- The writes of a drydown, on M, with the poison that it carries (R38, R289, R383). -/
def State.dryDown (s : State) (a : Actor) (t : Tile) (subs : List Nat) (ws : List (Nat × List Byte)) : State :=
  (s.wrAllBy .m a ws).addPoison (if t.bad.isEmpty then [] else subs.flatMap (s.dryPoison t (t.bound.getD 0)))

/-- Sub-blocks clean after their drydown. -/
def Tile.clean (t : Tile) (subs : List Nat) : Tile := subs.foldl (fun t i => t.setSub i { t.sub i with dirty := false }) t

end Sys2Proof.Machine
end

