-- ==== Sys2Proof/Machine/Launches.lean ====
section
/-!
DEFINITION. Launch records (R150), gangs and their ends (R290, R377, R378, R401), barriers (R192), tokens (R23 to R26),
completions (R352, R353, R357) and the chain of effects that the end of a gang or launch has. The settling loop is bounded
by the number of gangs and launches.
-/

namespace Sys2Proof.Machine

/-! ### Fields of a launch record (R150) -/

def recField (r : BitVec 2048) (lo n : Nat) : Nat := (r.toNat >>> lo) % 2 ^ n
def recCode (r : BitVec 2048) : Nat := recField r 0 64
def recLeadEntry (r : BitVec 2048) : Nat := recField r 64 64
def recWaveEntry (r : BitVec 2048) : Nat := recField r 128 64
def recUniform (r : BitVec 2048) : Nat := recField r 192 64
def recTiles (r : BitVec 2048) : Nat := recField r 256 64
def recGangs (r : BitVec 2048) : Nat := recField r 320 32
def recCrews (r : BitVec 2048) : Nat := recField r 352 8
def recWaves (r : BitVec 2048) : Nat := recField r 360 8
def recPlacement (r : BitVec 2048) : Nat := recField r 368 4
def recBarriers (r : BitVec 2048) : Nat := recField r 376 8
def recNtiles (r : BitVec 2048) : Nat := recField r 384 16
/-- Restart class: 0 I, 1 C, 2 N (R42, R150). -/
def recRestart (r : BitVec 2048) : Nat := recField r 400 2
def recPair (r : BitVec 2048) : Bool := recField r 402 1 == 1
def recBounded (r : BitVec 2048) : Bool := recField r 403 1 == 1
def recPriority (r : BitVec 2048) : Nat := recField r 408 4
def recScope (r : BitVec 2048) : Nat := recField r 416 4
def recNdep (r : BitVec 2048) : Nat := recField r 424 3
def recBound (r : BitVec 2048) : Nat := recField r 448 64
def recCost (r : BitVec 2048) : Nat := recField r 512 64
def recDep (r : BitVec 2048) (n : Nat) : Nat := recField r (576 + 64 * n) 64
def recDeps (r : BitVec 2048) : List Nat := (List.range (min (recNdep r) 4)).map (recDep r)
def recHseq (r : BitVec 2048) : Nat := recField r 832 64
def recInject (r : BitVec 2048) : Nat := recField r 960 64

/-- Gangs that a launch runs in all: twice the count for a pair launch (R389). -/
def recTotal (r : BitVec 2048) : Nat := recGangs r * (if recPair r then 2 else 1)

/-! ### Lookups -/

def FaultCode.num : FaultCode → Nat
  | .illegalClause => 0x01 | .illegalInstruction => 0x02 | .landingMismatch => 0x03 | .jumpTarget => 0x04
  | .splitOverflow => 0x05 | .barrierMismatch => 0x06 | .unknownCondition => 0x07 | .misaligned => 0x08
  | .elementAccess => 0x09 | .tileHandle => 0x0A | .tileShape => 0x0B | .accordWrite => 0x0C | .accordRecord => 0x0D
  | .chunkCheck => 0x0E | .queueOverflow => 0x0F | .restoreCapacity => 0x10 | .redundancyMismatch => 0x11
  | .uncorrectable => 0x12 | .controlUncontained => 0x13 | .trap => 0x14

def State.wave (s : State) (k : WaveKey) : Option Wave := tabGet s.waves k
def State.lead (s : State) (k : CrewKey) : Option Lead := tabGet s.leads k
def State.crew (s : State) (k : CrewKey) : Option Crew := tabGet s.crews k
def State.gang (s : State) (g : Nat) : Option Gang := tabGet s.gangs g
def State.launch (s : State) (q : DWord) : Option Launch := tabGet s.launches q

def State.setWave (s : State) (k : WaveKey) (w : Wave) : State := { s with waves := tabSet s.waves k w }
def State.setLead (s : State) (k : CrewKey) (l : Lead) : State := { s with leads := tabSet s.leads k l }
def State.setCrew (s : State) (k : CrewKey) (c : Crew) : State := { s with crews := tabSet s.crews k c }
def State.setGang (s : State) (g : Nat) (x : Gang) : State := { s with gangs := tabSet s.gangs g x }
def State.setLaunch (s : State) (q : DWord) (x : Launch) : State := { s with launches := tabSet s.launches q x }
def State.setOp (s : State) (n : Nat) (x : Op) : State := { s with ops := tabSet s.ops n x }

def State.modWave (s : State) (k : WaveKey) (f : Wave → Wave) : State := { s with waves := tabMod s.waves k f }
def State.modLead (s : State) (k : CrewKey) (f : Lead → Lead) : State := { s with leads := tabMod s.leads k f }
def State.modCrew (s : State) (k : CrewKey) (f : Crew → Crew) : State := { s with crews := tabMod s.crews k f }
def State.modGang (s : State) (g : Nat) (f : Gang → Gang) : State := { s with gangs := tabMod s.gangs g f }
def State.modLaunch (s : State) (q : DWord) (f : Launch → Launch) : State := { s with launches := tabMod s.launches q f }

/-- The launch of a gang. -/
def State.launchOf (s : State) (g : Gang) : Option Launch := s.launch g.seq

/-- The code object of a gang (R63). -/
def State.codeOf (s : State) (g : Gang) : Option CodeObj :=
  match s.launchOf g with
  | some l => s.codeObjs.find? fun c => c.addr == recCode l.record
  | none => none

/-! ### Cycles (R7) -/

/-- A cluster's maximum clock in MHz (R385, R419). -/
def State.clusterMhz (s : State) (cl : Nat) : Nat := min ((s.regs.clock.toList.getD cl 0).toNat) s.regs.pclock.toNat

/-- Thousandths of a cycle that a cluster has run: those up to the last change of a clock, and the time since at its clock. -/
def State.ticksOf (s : State) (cl : Nat) : Nat := s.ticks.toList.getD cl 0 + (s.mtime - s.tickedAt) * s.clusterMhz cl

/-- Before a clock changes, the cycles run so far are kept. -/
def State.bankClocks (s : State) : State := { s with ticks := Vector.ofFn fun cl : Fin 32 => s.ticksOf cl.val, tickedAt := s.mtime }

/-- Whether a number of cycles of a cluster has passed since a time in its thousandths. -/
def State.cyclesPassed (s : State) (cl since n : Nat) : Bool := decide (s.ticksOf cl - since ≥ n * 1000)

/-! ### Contexts as they start -/

/-- A wave at its start (R174, R175). -/
def Wave.start (pc : DWord) (frec : BitVec 49) : Wave :=
  { v := Vector.replicate 128 (Vector.replicate 32 0), k := Vector.replicate 48 (Vector.replicate 32 .u),
    status := freshStatus frec,
    slot0 := some { pc, lanes := BitVec.allOnes 32, link := none, rep := 0, reps := none, state := .ready, wait := .none },
    slot1 := none, stack := [], unset := Vector.replicate 128 (BitVec.allOnes 32), exited := 0, handling := none,
    outstanding := [], past := [], parked := false, drain := [], popped := Vector.replicate 4 0, nt := [], cached := 0, dirty := 0,
    bad := [], ran := [], just := none, ended := false }

/-- A lead context at its start (R131, R132). -/
def Lead.start (pc : DWord) (frec : BitVec 49) : Lead :=
  { x := Vector.replicate 64 0, j := Vector.replicate 16 .u, pc, status := freshStatus frec, rep := 0, reps := none,
    handling := none, tokens := [], outstanding := [], past := [], parked := false, wait := .none, ran := [], exited := false }

/-- A crew at its start: the uniform table, empty queues, and every accumulator of its grant empty (R18, R66, R278). -/
def Crew.start (place : CrewPlace) (cluster waves acc : Nat) (c : Vector Word 64) : Crew :=
  { place, cluster, waves, c, dq := Vector.replicate 4 { entries := [], retired := 0 }, rq := [], rqDue := [], acc, accs := [] }

/-! ### Parties of a pair (R390) -/

/-- The party state as a gang starts (R390). -/
def PartyState.fresh : PartyState := { sig := 0, stores := 0, next := 1, points := [], forwards := [], ords := [] }

def PairState.party (p : PairState) (q : Party) : PartyState := (tabGet p.parties q).getD PartyState.fresh

/-- Change the state of a party of a pair gang. -/
def State.modParty (s : State) (g : Nat) (q : Party) (f : PartyState → PartyState) : State :=
  s.modGang g fun gg => { gg with pair := gg.pair.map fun p => { p with parties := tabSet p.parties q (f (p.party q)) } }

/-- A word that a party of a pair gang has completed once more in its present interval (R397). -/
def ranWord (g : Gang) (q : Party) (pc : DWord) (rep : Nat) (lanes : LaneSet) (ran : List (WordKey × Nat)) : List (WordKey × Nat) :=
  match g.pair with
  | none => ran
  | some p =>
    let k : WordKey := { interval := (p.party q).next, pc, rep, lanes }
    tabSet (ran.filter fun e => e.1.interval == k.interval) k ((tabGet ran k).getD 0 + 1)

/-- Pages that a pair launch has accessed are noted (R395): those that hold some addresses. -/
def State.notePages (s : State) (g : Gang) (vas : List Nat) : State :=
  if g.pair.isNone then s
  else
    let bases := vas.filterMap fun va => (pageAt s.pages va).map Page.base
    s.modLaunch g.seq fun l => { l with pages := bases.foldl (fun ps b => if ps.contains b then ps else ps ++ [b]) l.pages }

/-- The same for the pages that a virtual range reaches. -/
def State.noteRange (s : State) (g : Gang) (va n : Nat) : State :=
  s.notePages g ((s.pages.filter fun p => decide (p.base < va + n) && decide (va < p.base + p.size)).map Page.base)

/-- A set switch bit parks a wave; with nothing outstanding it has finished parking at once (R56, R57). -/
def Wave.parkIf (w : Wave) (z : Bool) : Wave :=
  if z then if w.outstanding.isEmpty then { w with past := [] } else { w with parked := true } else w

/-- The same for a lead context. -/
def Lead.parkIf (l : Lead) (z : Bool) : Lead :=
  if z then if l.outstanding.isEmpty then { l with past := [] } else { l with parked := true } else l

def crewOf (k : WaveKey) : CrewKey := { gang := k.gang, crew := k.crew }

/-- Waves of a crew that have not ended. -/
def State.liveWaves (s : State) (k : CrewKey) : List (WaveKey × Wave) :=
  s.waves.filter fun e => decide (crewOf e.1 = k) && !e.2.ended

/-- Whether the crew's lead context has exited (R144). -/
def State.leadExited (s : State) (k : CrewKey) : Bool :=
  match s.lead k with
  | some l => l.exited
  | none => true

/-- A fresh allocation number (log 5). -/
def State.fresh (s : State) : Nat × State := (s.nextId, { s with nextId := s.nextId + 1 })

/-! ### Decision queues and return queues (R18 to R22) -/

/-- Retire the entries that every running wave of the crew has popped (R18, R20). -/
def State.retireQueues (s : State) (k : CrewKey) : State :=
  let ws := s.liveWaves k
  s.modCrew k fun c =>
    { c with dq := Vector.ofFn fun i : Fin 4 =>
        let q := c.dq[i]
        let floor := ws.foldl (fun a e => min a e.2.popped[i]) (q.retired + q.entries.length)
        { entries := q.entries.drop (floor - q.retired), retired := max q.retired floor } }

/-- Let due barrier entries into a return queue that has room (R192). -/
def Crew.letIn (c : Crew) : Crew :=
  let n := 64 - c.rq.length
  { c with rq := c.rq ++ c.rqDue.take n, rqDue := c.rqDue.drop n }

/-! ### Barriers (R192, R193) -/

/-- The wave indices that a membership names. -/
def barMembers (m : BitVec 128) : List Nat := (List.range 128).filter fun w => bitNat m.toNat w

/-- Whether a member counts as arrived: it has arrived, or it has exited. -/
def State.barArrived (s : State) (g : Nat) (p : Phase) (w : Nat) : Bool :=
  p.arrived.contains (w / 32, w % 32) ||
    match s.wave { gang := g, crew := w / 32, wave := w % 32 } with
    | some v => v.ended
    | none => true

/-- The entry that a barrier puts into return queues. -/
def barEntry (id : Nat) : DWord := BitVec.ofNat 64 (0xFFFF_FFFF_FFFF_FF00 + id)

/-- Crews that hold a member. -/
def barCrews (m : BitVec 128) : List Nat := (List.range 4).filter fun c => (barMembers m).any fun w => w / 32 == c

/-- A split leaves its barrier: ready and past the BAR, with its switch bit. -/
def releaseSplit (id : Nat) (sp : Split) : Split × Bool :=
  match sp.wait with
  | .bar b =>
    if b.id = id ∧ sp.state = .barrier then
      ({ sp with pc := sp.pc + 4, state := .ready, wait := .none }, b.z)
    else (sp, false)
  | _ => (sp, false)

/-- Every split of a wave that waits at a barrier continues. -/
def Wave.releaseBar (w : Wave) (id : Nat) : Wave :=
  let a := w.slot0.map (releaseSplit id)
  let b := w.slot1.map (releaseSplit id)
  { w with slot0 := a.map Prod.fst, slot1 := b.map Prod.fst }.parkIf ((a.map Prod.snd).getD false || (b.map Prod.snd).getD false)

/-- The entry of a barrier carries what its arrivals have released (R192). -/
def State.postBar (s : State) (g id : Nat) (k : CrewKey) : State :=
  s.pass (.phase g id) (.posted k (((s.crew k).map fun c => c.rq.length + c.rqDue.length).getD 0))

/-- Completion of a phase is an acquire by every waiting split, and by the lead contexts that take part (R192). -/
def State.barAcquire (s : State) (g id : Nat) (leads : List Nat) : State :=
  let waits (p : Option Split) : LaneSet := match p with
    | some sp => match sp.wait with
      | .bar b => if b.id = id then sp.lanes else 0
      | _ => 0
    | none => 0
  let s := (s.waves.filter fun e => e.1.gang == g).foldl (fun s e =>
    [waits e.2.slot0, waits e.2.slot1].foldl (fun s m => if m = 0 then s else s.acquire (.phase g id) (.wave e.1 m)) s) s
  (leads.foldl (fun s c => s.acquire (.phase g id) (.lead { gang := g, crew := c })) s).spent (.phase g id)

/-- Advance one barrier phase: due entries into return queues, and its completion (R192). -/
def State.barStep (s : State) (g id : Nat) : State :=
  match s.gang g with
  | none => s
  | some gg =>
    match tabGet gg.phases id with
    | none => s
    | some p =>
      let crews := barCrews p.members
      let full (c : Nat) : Bool := ((barMembers p.members).filter fun w => w / 32 == c).all (s.barArrived g p)
      let due := if p.lead then crews.filter fun c => full c && !p.posted.contains c else []
      let s := due.foldl (fun s c => (s.postBar g id { gang := g, crew := c }).modCrew { gang := g, crew := c } fun k =>
        if s.leadExited { gang := g, crew := c } then k else { k with rqDue := k.rqDue ++ [barEntry id] }.letIn) s
      let p := { p with posted := p.posted ++ due }
      let passed (c : Nat) : Bool := p.popped.contains c || s.leadExited { gang := g, crew := c }
      if crews.all full && (!p.lead || crews.all passed) then
        let s := s.modGang g fun x => { x with phases := tabDel x.phases id }
        let s := s.barAcquire g id (if p.lead then crews else [])
        { s with waves := s.waves.map fun e => if e.1.gang = g then (e.1, e.2.releaseBar id) else e }
      else s.modGang g fun x => { x with phases := tabSet x.phases id p }

/-- Advance every barrier phase of a gang. -/
def State.barAll (s : State) (g : Nat) : State :=
  match s.gang g with
  | none => s
  | some gg => (tabKeys gg.phases).foldl (fun s id => s.barStep g id) s

/-! ### Tokens (R23 to R26) -/

/-- A token stall ends when its register is no longer pending. -/
def Lead.awake (l : Lead) : Lead :=
  match l.wait with
  | .token r =>
    match tabGet l.tokens r with
    | some (.pending _) => l
    | _ => { l with wait := .none }
  | .ops => { l with wait := .none }
  | .room => { l with wait := .none }
  | _ => l

/-- Write an x register; x0 discards (R50). -/
def Lead.putX (l : Lead) (r : Nat) (v : DWord) : Lead :=
  if h : r < 64 then if r = 0 then l else { l with x := l.x.set r v h } else l

/-- The completion of an operation is a release that the read of its token acquires (R25); on M it also precedes the later operations
of its unit (R279). -/
def State.opEnds (s : State) (op : Nat) (o : Op) : State :=
  let s := (s.spent (.token o.crew o.token)).release (.op op o.crew) (.token o.crew o.token)
  match o.kind with
  | .unit u _ _ _ _ _ => s.release (.op op o.crew) (.unit o.crew u)
  | _ => s

/-- The token of a completed operation is written and the operation ends (R23). -/
def State.writeToken (s : State) (op : Nat) (v : DWord) : State :=
  match tabGet s.ops op with
  | none => s
  | some o =>
    let s := { (s.opEnds op o) with ops := tabDel s.ops op }
    s.modLead o.crew fun l =>
      match tabGet l.tokens o.token with
      | some (.pending n) =>
        if n = op then ({ l with tokens := tabDel l.tokens o.token }.putX o.token v).awake else l.awake
      | _ => l.awake

/-- The token of a failed operation is marked faulted and the operation ends (R26). -/
def State.faultToken (s : State) (op : Nat) (f : Raised) : State :=
  match tabGet s.ops op with
  | none => s
  | some o =>
    let s := { s with ops := tabDel s.ops op }
    s.modLead o.crew fun l =>
      { l with tokens := tabSet l.tokens o.token (.faulted op { f with issuePc := o.issuePc }) }.awake

/-! ### Completion entries (R352, R353) and host signals (R411) -/

/-- Signal an MSI-X vector: masked vectors stay pending (log 16). -/
def State.msix (s : State) (n : Nat) : State :=
  if (memRead s.regs.msixTable (16 * n + 12)).toNat % 2 = 1 then
    { s with regs := { s.regs with msixPending := s.regs.msixPending ||| BitVec.ofNat 128 (2 ^ n) } }
  else { s with outbox := s.outbox ++ [.msix n] }

/-- The host alert: vector 64 and a PLDM event (R411). -/
def State.hostAlert (s : State) : State :=
  let s := { s with regs := { s.regs with alert := true } }
  let s := s.msix 64
  { s with outbox := s.outbox ++ [.pldmAlert] }

/-- Change one host queue. -/
def State.modQueue (s : State) (q : Nat) (f : HostQueue → HostQueue) : State :=
  if h : q < 64 then { s with queues := s.queues.set q (f s.queues[q]) h } else s

/-- The bytes of a completion entry (R352). -/
def cqBytes (dseq hseq elapsed fault kind q : Nat) (phase : Bool) : List Byte :=
  toBytes 8 (phase.toNat + q * 2 ^ 16 + kind * 2 ^ 32 + fault * 2 ^ 48) ++ toBytes 8 elapsed ++ toBytes 8 hseq ++ toBytes 8 dseq

/-- Write a completion entry into its queue's ring and signal it (R352, R353, R411). -/
def State.completionEntry (s : State) (q dseq hseq elapsed fault kind : Nat) : State :=
  if h : q < 64 then
    let k := s.queues[q]
    let n := 2 ^ k.size.toNat
    let at_ := hostKey (k.cqbase.toNat + 32 * (k.cqtail.toNat % n))
    let s := s.wr at_ (cqBytes dseq hseq elapsed fault kind q k.phase)
    let s := s.modQueue q fun k =>
      { k with cqtail := k.cqtail + 1, phase := if (k.cqtail.toNat + 1) % n = 0 then !k.phase else k.phase }
    s.msix q
  else s

/-! ### Launches -/

/-- The value of a LAUNCH token (R153). -/
def launchToken (seq : DWord) (e : Ending) : DWord := BitVec.ofNat 64 (fieldNat seq.toNat 0 48 * 2 ^ 16 + e.fault * 2 ^ 8 + e.kind)

/-- Operations that stand for a submission: one, or one in each gang of a pair (R394). -/
def State.launchOps (s : State) (sub : Nat) : List Nat :=
  (s.ops.filter fun e => match e.2.kind with
    | .launch n => n == sub
    | _ => false).map Prod.fst

/-- Write the tokens of a submission. -/
def State.launchTokens (s : State) (sub : Nat) (v : DWord) : State := (s.launchOps sub).foldl (fun s op => s.writeToken op v) s

/-- The completion of a launch acts as an XFENCE from every path to every path for what its gangs have written, at its scope, and its
token carries the release (R155). -/
def State.launchFence (s : State) (seq : DWord) (l : Launch) : State :=
  let show_ (a : Actor) (scope : Nat) : State :=
    { s with late := s.late.map fun r =>
        if r.known.contains (.launch seq) then { r with shown := allPaths.map (fun q => (q, scope, a, s.clusterOf a.crewKey)) ++ r.shown } else r }
  match l.origin with
  | .host _ => show_ (.lead { gang := 0, crew := 0 }) 10
  | .lead k sub => (s.launchOps sub).foldl (fun s n => s.pass (.launch seq) (.actor (.op n k))) (show_ (.lead k) l.scope)

/-- Complete a launch: its outcome, then its completion entry or token (R357, R378). -/
def State.completeLaunch (s : State) (seq : DWord) (e : Ending) : State :=
  match s.launch seq with
  | none => s
  | some l =>
    let s := (s.launchFence seq l).setLaunch seq { l with done := some e }
    match l.origin with
    | .host q => s.completionEntry q seq.toNat (recHseq l.record) (s.mtime - l.accepted) e.fault e.kind
    | .lead _ sub => s.launchTokens sub (launchToken seq e)

/-- The launch ends in error: the first error stands (R378). -/
def State.failLaunch (s : State) (seq : DWord) (e : Ending) : State :=
  s.modLaunch seq fun l => if l.done.isSome || l.failed.isSome then l else { l with failed := some e }

/-- Slots of the slot table that a gang holds: slot 4 * core + position (R365, R420). -/
def placeSlots (p : GangPlace) : List Nat := p.crews.map fun c => 4 * c.core + c.pos

/-- Free the slots of a gang. -/
def State.freeSlots (s : State) (g : Gang) : State := { s with slots := s.slots.filter fun e => !(placeSlots g.place).contains e.1 }

/-- Non-temporal stores that no NTDRAIN has gathered may or may not become visible when their gang ends (R401, log 19). -/
def State.ntEnd (s : State) (g : Nat) : State :=
  (s.waves.filter fun e => e.1.gang == g).foldl (fun s e =>
    e.2.nt.foldl (fun s b => if s.pick 0 2 = 0 then s.spend else (s.wrBy .w (.wave e.1 (BitVec.allOnes 32)) b.1 [b.2]).spend) s) s

/-- Submissions and launches that a gang issued are cancelled (R358, R401). -/
def State.cancelChildren (s : State) (g : Nat) : State :=
  let s := { s with subs := s.subs.filter fun e => e.2.crew.gang != g }
  let mine := (s.launches.filter fun e => match e.2.origin with
    | .lead k _ => k.gang == g && e.2.done.isNone
    | .host _ => false).map Prod.fst
  mine.foldl (fun s q => s.failLaunch q { kind := 6, fault := 0 }) s

/-- Whoever waits on an address and belongs to a gang. -/
def ctxOfGang (g : Nat) : Ctx → Bool
  | .none => false
  | .lead k => k.gang == g
  | .split k _ => k.gang == g

/-- Whether a write is a gang's own or has come to it (R32). -/
def Late.reaches (r : Late) (g : Nat) : Bool := r.known.any fun h => match h with
  | .actor a => a.crewKey.gang == g
  | _ => false

/-- What a gang has written, and what has come to it, belongs to the writes of its launch (R155); its lines leave the register caches. -/
def State.gangWrote (s : State) (g : Nat) (seq : DWord) : State :=
  { s with recent := s.recent.filter fun l => l.1.gang != g }.learn fun r => if r.reaches g then [.launch seq] else []

/-- Remove a gang with everything it holds; tiles go without drydown (R290, R401). -/
def State.dropGang (s : State) (g : Nat) : State :=
  match s.gang g with
  | none => s
  | some gg =>
    let s := ((s.ntEnd g).cancelChildren g).gangWrote g gg.seq
    let s := s.freeSlots gg
    { s with gangs := tabDel s.gangs g,
             waves := s.waves.filter fun e => e.1.gang != g,
             leads := s.leads.filter fun e => e.1.gang != g,
             crews := s.crews.filter fun e => e.1.gang != g,
             ops := s.ops.filter fun e => e.2.crew.gang != g,
             waiters := s.waiters.filter fun w => !ctxOfGang g w.who }

/-- Restore every logged line of an open checkpoint (R167). -/
def State.rollback (s : State) (log : List (Nat × List Byte)) : State := log.foldl (fun s e => s.wr e.1 e.2) s

/-- Whether a launch may not start yet: some dependence has not completed (R356). -/
def State.depFailed (s : State) (l : Launch) : Bool :=
  (recDeps l.record).any fun d =>
    match s.launch (BitVec.ofNat 64 d) with
    | some m => match m.done with
      | some e => e.kind != 0
      | none => false
    | none => false

/-- Whether every dependence has completed with kind 0 (R356). -/
def State.depsMet (s : State) (l : Launch) : Bool :=
  (recDeps l.record).all fun d =>
    match s.launch (BitVec.ofNat 64 d) with
    | some m => m.done == some { kind := 0, fault := 0 }
    | none => false

/-- Gangs of a launch. -/
def State.gangsOf (s : State) (seq : DWord) : List (Nat × Gang) := s.gangs.filter fun e => e.2.seq == seq

/-- Whether a gang is being saved or flushed: it ends once that step stops (R379). -/
def GangState.stopping : GangState → Bool
  | .saving => true
  | .flushing _ => true
  | _ => false

/-- Whether a gang's contexts run (R377). -/
def GangState.live : GangState → Bool
  | .running => true
  | .saving => true
  | _ => false

/-- Whether the contexts of the gang under a number run. -/
def State.gangLive (s : State) (g : Nat) : Bool := ((s.gang g).map fun x => x.state.live).getD false

/-- One consequence of the ends so far, if one is due: a gang of a failed launch ends (one being saved or flushed once that
stops, R379), a launch without gangs left completes, a dependent of a failed launch completes with kind 5. -/
def State.settleOnce (s : State) : Option State :=
  match s.gangs.find? fun e => !e.2.state.stopping && ((s.launchOf e.2).map fun l => l.failed.isSome).getD false with
  | some (g, _) => some (s.dropGang g)
  | none =>
    match s.launches.find? fun e => e.2.done.isNone && e.2.failed.isSome && (s.gangsOf e.1).isEmpty with
    | some (q, l) => some (s.completeLaunch q (l.failed.getD { kind := 0, fault := 0 }))
    | none =>
      match s.launches.find? fun e => e.2.done.isNone && decide (e.2.endedOk = recTotal e.2.record) with
      | some (q, _) => some (s.completeLaunch q { kind := 0, fault := 0 })
      | none =>
        match s.launches.find? fun e => e.2.done.isNone && e.2.failed.isNone && s.depFailed e.2 with
        | some (q, _) => some (s.completeLaunch q { kind := 5, fault := 0 })
        | none => none

/-- Every consequence, one at a time. -/
def State.settleFor (s : State) : Nat → State
  | 0 => s
  | n + 1 =>
    match s.settleOnce with
    | none => s
    | some s' => s'.settleFor n

/-- The save points that the entries of a live-range section give: an entry with a reserved bit set is none, and of two entries of one
stream with one index the first stands (R374, log 8). -/
def savePointOf (e : BitVec 256) : Option SavePoint :=
  if fieldNat e.toNat 9 39 ≠ 0 then none
  else some { lead := bitNat e.toNat 8, index := BitVec.ofNat 8 e.toNat, vlive := BitVec.ofNat 128 (fieldNat e.toNat 128 128),
              klive := BitVec.ofNat 48 (fieldNat e.toNat 80 48), interval := BitVec.ofNat 32 (fieldNat e.toNat 48 32) }

def CodeObj.savepoints (c : CodeObj) : List SavePoint :=
  c.live.foldl (fun ps e => match savePointOf e with
    | some p => if ps.any fun q => q.lead == p.lead && q.index == p.index then ps else ps ++ [p]
    | none => ps) []

/-- Settle: each gang ends and each launch completes at most once, each launch fails at most once. -/
def State.settle (s : State) : State := s.settleFor (s.gangs.length + 2 * s.launches.length + 1)

/-- The pair gang of a gang. -/
def State.peerOf (s : State) (g : Nat) : Option Nat :=
  match s.gang g with
  | some gg => gg.pair.map PairState.peer
  | none => none

/-- A gang ends in error, and with it its launch (R377, R378, R401). -/
def State.endGang (s : State) (g : Nat) (e : Ending) : State :=
  match s.gang g with
  | none => s
  | some gg => (s.failLaunch gg.seq e).settle

/-- A gang ends by a fault (R42). -/
def State.endByFault (s : State) (g : Nat) (c : FaultCode) : State := s.endGang g { kind := 3, fault := c.num }

/-- The tiles of a gang that hold dirty sub-blocks. -/
def Gang.dirtyTiles (g : Gang) : List (Nat × Tile) :=
  g.handles.filterMap fun e => match e.2 with
    | .tile t => if t.dirtySubs.isEmpty then none else some (e.1, t)
    | .accord _ _ => none

/-- The control plane as it writes for a gang. -/
def controlOf (g : Nat) : Actor := .op 0 { gang := g, crew := 0 }

/-- Dry down every tile of a gang (R289, R290). -/
def State.dryGang (s : State) (a : Actor) (ts : List (Nat × Tile)) : Except Tr State :=
  match ts with
  | [] => .ok s
  | (_, t) :: ts => do
    let ws ← s.dryAll t t.dirtySubs
    (s.dryDown a t t.dirtySubs ws).dryGang a ts

/-- Whether every context of a gang has exited. -/
def State.allExited (s : State) (g : Nat) : Bool :=
  (s.waves.all fun e => e.1.gang != g || e.2.ended) && (s.leads.all fun e => e.1.gang != g || e.2.exited)

/-- The unit of a sub-block's drydown: the CRC of its area bytes with the address (R393). -/
def State.dryUnit (s : State) (op : Option Nat) (crew : Nat) (t : Tile) (i : Nat) (ws : List (Nat × List Byte)) : PairUnit :=
  let at_ := t.bound.getD 0 + i * t.area
  { key := [0, at_], op, crew, sig := crcFrom (crc64 (toBytes 8 at_)) (memReads t.data (i * t.area) (t.used i)), writes := ws,
    bad := s.dryPoison t (t.bound.getD 0) i, chunk := none }

/-- A gang whose contexts have all exited ends with success: drydown and freeing first, then the count towards its launch
(R290, R377, R378). A drydown that a page forbids ends it with element_access, and one whose page is away waits (R289). In a pair the drydowns are units of
work, compared before they are written (R393), and both gangs end together (R389). -/
def State.endIfDone (s : State) (g : Nat) : State :=
  match s.gang g with
  | none => s
  | some gg =>
    if !gg.state.live || !s.allExited g then s
    else
      let finish (s : State) : State :=
        let seq := gg.seq
        ((s.dropGang g).modLaunch seq fun l => { l with endedOk := l.endedOk + 1 }).settle
      match gg.pair with
      | none =>
        match s.dryGang (controlOf g) gg.dirtyTiles with
        | .ok s => finish s
        | .error (.away _) => s
        | .error _ => s.endByFault g .elementAccess
      | some p =>
        match gg.dirtyTiles with
        | [] =>
          match s.gang p.peer with
          | none => s
          | some h =>
            if p.units.isEmpty && (h.pair.map fun q => q.units.isEmpty).getD true && s.allExited p.peer && h.dirtyTiles.isEmpty then
              ((((s.dropGang g).dropGang p.peer).modLaunch gg.seq fun l => { l with endedOk := l.endedOk + 2 })).settle
            else s
        | (h, t) :: _ =>
          let i := t.dirtySubs.headD 0
          match s.dryWrites t (t.bound.getD 0) i with
          | .ok ws =>
            let u := s.dryUnit none 0 t i ws
            s.setGang g { gg with handles := tabSet gg.handles h (.tile (t.clean [i])),
                                  pair := some { p with units := p.units ++ [u] } }
          | .error (.away _) => s
          | .error _ => s.endByFault g .elementAccess

end Sys2Proof.Machine
end

