-- ==== Sys2Proof/Machine/Frames.lean ====
section
/-!
DEFINITION. Context frames: what the control plane writes of a wave or a lead context to local memory on a fault and on a save
(R58, R176, R180, R373). Private areas of a frame are not written.
-/

namespace Sys2Proof.Machine

/-- The two-bit code of each split state (R180). -/
def SplitState.code : SplitState → Nat
  | .ready => 0
  | .barrier => 1
  | .held => 2

/-- A link: the index of a join record, or 0xFF (R180). -/
def linkCode (l : Option Nat) : Nat := l.getD 0xFF % 256

/-- A split in its 256-bit layout (R180). -/
def Split.bits (p : Split) : Nat :=
  1 + linkCode p.link * 2 ^ 8 + p.state.code * 2 ^ 88 + (p.rep % 64) * 2 ^ 90 + p.lanes.toNat * 2 ^ 160 + p.pc.toNat * 2 ^ 192

/-- A stack entry in its 256-bit layout (R180). -/
def StackEntry.bits : StackEntry → Nat
  | .empty => 0
  | .pending p => p.bits
  | .join r =>
    2 + linkCode r.link * 2 ^ 8 + r.parked.toNat * 2 ^ 96 + r.arrived.toNat * 2 ^ 128 + r.lanes.toNat * 2 ^ 160 + r.pc.toNat * 2 ^ 192

/-- A split slot (R176). -/
def slotBits (p : Option Split) : Nat := (p.map Split.bits).getD 0

/-- Two-bit codes of trits, the first in the lowest bits. -/
def tritsNat : List Trit → Nat
  | [] => 0
  | t :: ts => t.code + 4 * tritsNat ts

/-- The bytes of a register in a context frame (R176). -/
def lineBytes (v : Vector Word 32) : List Byte := v.toList.flatMap fun x => toBytes 4 x.toNat

/-- The frame address of a wave (R366). -/
def frameAt (c : Crew) (k : WaveKey) : Nat := c.place.wframe.toNat + 32768 * k.wave

/-- The dead set (R173, R178): registers that no lane has had written since they died. -/
def Wave.dead (w : Wave) : BitVec 128 :=
  BitVec.ofNat 128 ((List.finRange 128).foldl (fun n r => if w.unset[r] = BitVec.allOnes 32 then n + 2 ^ r.val else n) 0)

/-- The dirty lines of a wave that are not dead: register numbers with their bytes. -/
def Wave.dirtyLines (w : Wave) : List (Nat × List Byte) :=
  (List.finRange 128).filterMap fun r =>
    if w.dirty.getLsbD r.val && decide (w.unset[r] ≠ BitVec.allOnes 32) then some (r.val, lineBytes w.v[r]) else none

/-- The pieces of a wave's frame by offset, from the top down (R176). -/
def Wave.frame (w : Wave) : List (Nat × List Byte) :=
  let depth := w.stack.length
  [ (0x5000, (List.range 64).flatMap fun i => toBytes 32 ((w.stack[i]?.map StackEntry.bits).getD 0)),
    (0x4270, toBytes 0xD90 0),
    (0x4200, toBytes 8 w.status.toNat ++ toBytes 8 (depth + (if w.handling.isSome then 256 else 0) + w.exited.toNat * 2 ^ 32) ++
      toBytes 16 0 ++ toBytes 32 (slotBits w.slot0) ++ toBytes 32 (slotBits w.slot1) ++ toBytes 16 w.dead.toNat),
    (0x4180, toBytes 128 0),
    (0x4000, w.k.toList.flatMap fun k => toBytes 8 (tritsNat k.toList)) ] ++
  w.dirtyLines.map fun l => (128 * l.1, l.2)

/-- The frame addresses to which the poison of some registers goes when their lines are written (R383). -/
def Wave.poisonedAt (w : Wave) (c : Crew) (k : WaveKey) (rs : List Nat) : List Nat :=
  (w.bad.filter fun e => rs.contains e.1).map fun e => frameAt c k + 128 * e.1 + 8 * e.2

/-- Write a wave's frame; its lines are clean then. -/
def State.writeFrame (s : State) (k : WaveKey) : State :=
  match s.wave k, s.crew (crewOf k) with
  | some w, some c =>
    let s := (w.frame.foldl (fun s e => s.wr (frameAt c k + e.1) e.2) s).addPoison (w.poisonedAt c k (w.dirtyLines.map Prod.fst))
    s.setWave k { w with dirty := 0 }
  | _, _ => s

/-- Bits of the x registers whose token is in a state. -/
def Lead.tokenBits (l : Lead) (faulted : Bool) : Nat :=
  (List.range 64).foldl (fun n r => match tabGet l.tokens r with
    | some (.pending _) => if faulted then n else n + 2 ^ r
    | some (.faulted _ _) => if faulted then n + 2 ^ r else n
    | none => n) 0

/-- A lead context's frame, its private area apart (R373). -/
def Lead.frame (l : Lead) : List Byte :=
  l.x.toList.flatMap (fun x => toBytes 8 x.toNat) ++ toBytes 8 (tritsNat l.j.toList) ++ toBytes 8 l.pc.toNat ++
  toBytes 8 l.status.toNat ++ toBytes 8 (l.rep % 64 + (if l.handling.isSome then 128 else 0)) ++
  toBytes 8 (l.tokenBits false) ++ toBytes 8 (l.tokenBits true)

/-- Write a lead context's frame. -/
def State.writeLeadFrame (s : State) (k : CrewKey) : State :=
  match s.lead k, s.crew k with
  | some l, some c => s.wr c.place.lframe.toNat l.frame
  | _, _ => s

end Sys2Proof.Machine
end

