-- ==== Sys2Proof/Machine/Uses.lean ====
section
/-!
DEFINITION. Which registers a word reads and writes, and in which field it names them. The scoreboards of R23, R55 and R177
and the checks of REP (R60) read it.
-/

namespace Sys2Proof.Machine

/-- A field of a word that REP can step (R59). -/
inductive Slot where
  | d
  | a
  | b
  deriving DecidableEq, Repr, Inhabited

/-- Register kinds (R50, R51): v, k, uniform c, queue q, special operands, x and j. -/
inductive RegKind where
  | v
  | k
  | c
  | q
  | special
  | x
  | j
  deriving DecidableEq, Repr, Inhabited

/-- The last code of a kind in its field (R50, R51). -/
def RegKind.last : RegKind → Nat
  | .v => 127
  | .k => 47
  | .c => 63
  | .q => 67
  | .special => 73
  | .x => 63
  | .j => 15

/-- A use of registers `first` to `first + count - 1` of a kind; `slot` is none for registers that no field names. -/
structure Use where
  slot : Option Slot
  kind : RegKind
  first : Nat
  count : Nat
  rd : Bool
  wr : Bool
  deriving DecidableEq, Repr, Inhabited

/-- Registers of a 32-bit or 64-bit v operand. -/
def pair (w : Bool) : Nat := if w then 2 else 1

def rd (s : Slot) (r : BitVec 7) (n : Nat) : List Use := [⟨some s, .v, r.toNat, n, true, false⟩]
def wr (s : Slot) (r : BitVec 7) (n : Nat) : List Use := [⟨some s, .v, r.toNat, n, false, true⟩]
def rw (s : Slot) (r : BitVec 7) (n : Nat) : List Use := [⟨some s, .v, r.toNat, n, true, true⟩]
def krd (s : Slot) (r : BitVec 7) : List Use := [⟨some s, .k, r.toNat, 1, true, false⟩]
def kwr (s : Slot) (r : BitVec 7) : List Use := [⟨some s, .k, r.toNat, 1, false, true⟩]
def xrd (s : Slot) (r : BitVec 6) : List Use := [⟨some s, .x, r.toNat, 1, true, false⟩]
def xwr (s : Slot) (r : BitVec 6) : List Use := [⟨some s, .x, r.toNat, 1, false, true⟩]
def xrw (s : Slot) (r : BitVec 6) : List Use := [⟨some s, .x, r.toNat, 1, true, true⟩]
def jrd (s : Slot) (r : BitVec 6) : List Use := [⟨some s, .j, r.toNat, 1, true, false⟩]
def jwr (s : Slot) (r : BitVec 6) : List Use := [⟨some s, .j, r.toNat, 1, false, true⟩]

/-- The b operand of a V or K word (R51). -/
def srcUse (w x : Bool) (b : BitVec 7) : List Use :=
  if x then
    if b.toNat < 64 then [⟨some .b, .c, b.toNat, pair w, true, false⟩]
    else if b.toNat < 68 then [⟨some .b, .q, b.toNat, 1, true, false⟩]
    else [⟨some .b, .special, b.toNat, 1, true, false⟩]
  else rd .b b (pair w)

/-- The address operand of a class-4 word (R237). -/
def addrUse (a b : BitVec 7) (x f : Bool) : List Use :=
  (if f then (if x then [] else rd .a a 2) else rd .a a 1) ++
  (if x then [⟨some .b, .c, b.toNat, 2, true, false⟩] else [])

/-- The residency predicate (R242). -/
def resUse : Option MemExt → List Use
  | some e => if e.res.toNat < 48 then [⟨none, .k, e.res.toNat, 1, false, true⟩] else []
  | none => []

/-- The count register of a reduction (R220). -/
def countUse (x : Bool) (b : BitVec 7) : List Use := if x then [] else wr .b b 1

/-- Registers of a conversion's element (R216). -/
def cvtRegs (c : Nat) : Nat := if c = 3 ∨ c = 7 ∨ c = 11 then 2 else 1

/-- The predicate of a wave branch, none for always (R185). -/
def predUse (p : BitVec 6) : List Use := if p.toNat < 48 then [⟨none, .k, p.toNat, 1, true, false⟩] else []

/-- The predicate of a lead branch (R141). -/
def leadPredUse (p : BitVec 6) : List Use := if p.toNat < 16 then [⟨none, .j, p.toNat, 1, true, false⟩] else []

/-- The link pair v126, v127 (R189). -/
def link (w : Bool) : List Use := [⟨none, .v, 126, 2, !w, w⟩]

/-- The b operand of a class-8 word (R133). -/
def leadUse (b : BitVec 6) (y : BitVec 2) (c32 : Bool) : List Use :=
  match y.toNat with
  | 0 => xrd .b b
  | 1 => [⟨some .b, .c, b.toNat, if c32 then 1 else 2, true, false⟩]
  | _ => [⟨some .b, .special, b.toNat + 68, 1, true, false⟩]

/-- The register uses of an instruction. -/
def uses : Instr → List Use
  | .add _ w d a b x _ => wr .d d (pair w) ++ rd .a a (pair w) ++ srcUse w x b
  | .addImm _ w d a _ _ => wr .d d (pair w) ++ rd .a a (pair w)
  | .sub _ w d a b x _ => wr .d d (pair w) ++ rd .a a (pair w) ++ srcUse w x b
  | .subImm _ w d a _ _ => wr .d d (pair w) ++ rd .a a (pair w)
  | .mul _ w d a b x _ => wr .d d (pair w) ++ rd .a a (pair w) ++ srcUse w x b
  | .mulImm _ w d a _ _ => wr .d d (pair w) ++ rd .a a (pair w)
  | .mulh _ w d a b x _ => wr .d d (pair w) ++ rd .a a (pair w) ++ srcUse w x b
  | .mad _ w d a b x _ => rw .d d (pair w) ++ rd .a a (pair w) ++ srcUse w x b
  | .abs _ w d a => wr .d d (pair w) ++ rd .a a (pair w)
  | .neg _ w d a _ => wr .d d (pair w) ++ rd .a a (pair w)
  | .min _ w d a b x _ => wr .d d (pair w) ++ rd .a a (pair w) ++ srcUse w x b
  | .minImm _ w d a _ _ => wr .d d (pair w) ++ rd .a a (pair w)
  | .max _ w d a b x _ => wr .d d (pair w) ++ rd .a a (pair w) ++ srcUse w x b
  | .maxImm _ w d a _ _ => wr .d d (pair w) ++ rd .a a (pair w)
  | .and _ w d a b x => wr .d d (pair w) ++ rd .a a (pair w) ++ srcUse w x b
  | .andImm _ w d a _ => wr .d d (pair w) ++ rd .a a (pair w)
  | .or _ w d a b x => wr .d d (pair w) ++ rd .a a (pair w) ++ srcUse w x b
  | .orImm _ w d a _ => wr .d d (pair w) ++ rd .a a (pair w)
  | .xor _ w d a b x => wr .d d (pair w) ++ rd .a a (pair w) ++ srcUse w x b
  | .xorImm _ w d a _ => wr .d d (pair w) ++ rd .a a (pair w)
  | .not _ w d a => wr .d d (pair w) ++ rd .a a (pair w)
  | .shl _ w d a b x => wr .d d (pair w) ++ rd .a a (pair w) ++ srcUse w x b
  | .shlImm _ w d a _ => wr .d d (pair w) ++ rd .a a (pair w)
  | .shr _ w d a b x => wr .d d (pair w) ++ rd .a a (pair w) ++ srcUse w x b
  | .shrImm _ w d a _ => wr .d d (pair w) ++ rd .a a (pair w)
  | .sar _ w d a b x => wr .d d (pair w) ++ rd .a a (pair w) ++ srcUse w x b
  | .sarImm _ w d a _ => wr .d d (pair w) ++ rd .a a (pair w)
  | .rot _ w d a b x => wr .d d (pair w) ++ rd .a a (pair w) ++ srcUse w x b
  | .rotImm _ w d a _ => wr .d d (pair w) ++ rd .a a (pair w)
  | .clz _ w d a => wr .d d (pair w) ++ rd .a a (pair w)
  | .popc _ w d a => wr .d d (pair w) ++ rd .a a (pair w)
  | .bfe _ w d a b x => wr .d d (pair w) ++ rd .a a (pair w) ++ srcUse w x b
  | .bfi _ w d a b x => rw .d d (pair w) ++ rd .a a (pair w) ++ srcUse w x b
  | .fadd _ d a b x => wr .d d 1 ++ rd .a a 1 ++ srcUse false x b
  | .faddImm _ d a _ => wr .d d 1 ++ rd .a a 1
  | .fsub _ d a b x => wr .d d 1 ++ rd .a a 1 ++ srcUse false x b
  | .fsubImm _ d a _ => wr .d d 1 ++ rd .a a 1
  | .fmul _ d a b x => wr .d d 1 ++ rd .a a 1 ++ srcUse false x b
  | .fmulImm _ d a _ => wr .d d 1 ++ rd .a a 1
  | .fma _ d a b x => rw .d d 1 ++ rd .a a 1 ++ srcUse false x b
  | .fmin _ d a b x => wr .d d 1 ++ rd .a a 1 ++ srcUse false x b
  | .fminImm _ d a _ => wr .d d 1 ++ rd .a a 1
  | .fmax _ d a b x => wr .d d 1 ++ rd .a a 1 ++ srcUse false x b
  | .fmaxImm _ d a _ => wr .d d 1 ++ rd .a a 1
  | .fabs _ d a => wr .d d 1 ++ rd .a a 1
  | .fneg _ d a => wr .d d 1 ++ rd .a a 1
  | .frnd _ d a _ => wr .d d 1 ++ rd .a a 1
  | .cmp _ w _ d a b x _ => kwr .d d ++ rd .a a (pair w) ++ srcUse w x b
  | .cmpImm _ w _ d a _ _ => kwr .d d ++ rd .a a (pair w)
  | .fcmp _ _ d a b x => kwr .d d ++ rd .a a 1 ++ srcUse false x b
  | .fcmpImm _ _ d a _ => kwr .d d ++ rd .a a 1
  | .kand _ d a b => kwr .d d ++ krd .a a ++ krd .b b
  | .kor _ d a b => kwr .d d ++ krd .a a ++ krd .b b
  | .kxor _ d a b => kwr .d d ++ krd .a a ++ krd .b b
  | .knot _ d a => kwr .d d ++ krd .a a
  | .kis _ d a _ => kwr .d d ++ krd .a a
  | .isabs _ d a _ => kwr .d d ++ rd .a a 1
  | .isabs64 _ d a _ => kwr .d d ++ rd .a a 2
  | .coal _ d a b x _ => wr .d d 1 ++ rd .a a 1 ++ srcUse false x b
  | .coal64 _ d a b x _ => wr .d d 2 ++ rd .a a 2 ++ srcUse true x b
  | .mkabs _ d a b x _ => wr .d d 1 ++ rd .a a 1 ++ srcUse false x b
  | .mkabs64 _ d a b x _ => wr .d d 2 ++ rd .a a 2 ++ srcUse true x b
  | .nullif _ d a b x _ => wr .d d 1 ++ rd .a a 1 ++ srcUse false x b
  | .nullif64 _ d a b x _ => wr .d d 2 ++ rd .a a 2 ++ srcUse true x b
  | .sel _ d a b x _ => rw .d d 1 ++ krd .a a ++ srcUse false x b
  | .sel64 _ d a b x _ => rw .d d 2 ++ krd .a a ++ srcUse true x b
  | .cvt _ d a ext => wr .d d (cvtRegs ext.target.toNat) ++ rd .a a (cvtRegs ext.source.toNat)
  | .rsum _ w d a b x _ => wr .d d (pair w) ++ rd .a a (pair w) ++ countUse x b
  | .rmin _ w d a b x _ => wr .d d (pair w) ++ rd .a a (pair w) ++ countUse x b
  | .rmax _ w d a b x _ => wr .d d (pair w) ++ rd .a a (pair w) ++ countUse x b
  | .rcnt _ w d a _ => wr .d d 1 ++ rd .a a (pair w)
  | .scan _ w d a b x _ => wr .d d (pair w) ++ rd .a a (pair w) ++ countUse x b
  | .shfl _ d a b x _ => wr .d d 1 ++ rd .a a 1 ++ srcUse false x b
  | .shflImm _ d a _ _ => wr .d d 1 ++ rd .a a 1
  | .bcastImm _ d a _ => wr .d d 1 ++ rd .a a 1
  | .bcast _ d a b x => wr .d d 1 ++ rd .a a 1 ++ srcUse false x b
  | .vote _ d a _ => wr .d d 1 ++ krd .a a
  | .dot4 _ d a b x _ => rw .d d 1 ++ rd .a a 1 ++ srcUse false x b
  | .dot8 _ d a b x _ => rw .d d 1 ++ rd .a a 1 ++ srcUse false x b
  | .dot2 _ d a b x => rw .d d 1 ++ rd .a a 1 ++ srcUse false x b
  | .scale _ d a b x => wr .d d 1 ++ rd .a a 1 ++ srcUse false x b
  | .pack _ d a b x _ => rw .d d 1 ++ rd .a a 1 ++ srcUse false x b
  | .unpk _ d a b x _ => wr .d d 1 ++ rd .a a 1 ++ srcUse false x b
  | .xfRcp _ d a => wr .d d 1 ++ rd .a a 1
  | .xfRsqrt _ d a => wr .d d 1 ++ rd .a a 1
  | .xfSqrt _ d a => wr .d d 1 ++ rd .a a 1
  | .xfExp2 _ d a => wr .d d 1 ++ rd .a a 1
  | .xfLog2 _ d a => wr .d d 1 ++ rd .a a 1
  | .xfSin _ d a => wr .d d 1 ++ rd .a a 1
  | .xfCos _ d a => wr .d d 1 ++ rd .a a 1
  | .xfTanh _ d a => wr .d d 1 ++ rd .a a 1
  | .xfErf _ d a => wr .d d 1 ++ rd .a a 1
  | .xfQsb8 _ d a b => wr .d d 1 ++ rd .a a 1 ++ wr .b b 1
  | .xfXpose _ d a => wr .d d 1 ++ rd .a a 1
  | .xfSort _ d a b _ => wr .d d 1 ++ rd .a a 1 ++ wr .b b 1
  | .ld _ t d a b x f ext => wr .d d (ldRegs t.toNat) ++ addrUse a b x f ++ resUse ext
  | .st _ t d a b x f ext => rd .d d (ldRegs t.toNat) ++ addrUse a b x f ++ resUse ext
  | .stSk _ t d a b x f ext => rd .d d (skRegs t.toNat) ++ addrUse a b x f ++ resUse ext
  | .stnt _ t d a b x f ext => rd .d d (ldRegs t.toNat) ++ addrUse a b x f ++ resUse ext
  | .ntdrain _ _ => []
  | .touch _ a b x f ext => addrUse a b x f ++ resUse ext
  | .fence _ _ => []
  | .xfence _ _ _ _ => []
  | .post _ d => rd .d d 2
  | .bwait _ d a b x f _ => rw .d d 1 ++ addrUse a b x f
  | .wake _ d a b x f _ => rw .d d 1 ++ addrUse a b x f
  | .atomAdd _ t d a b x f ext => rw .d d (if t.toNat ≥ 4 then 2 else 1) ++ addrUse a b x f ++ resUse ext
  | .atomMin _ t d a b x f ext => rw .d d (if t.toNat ≥ 2 then 2 else 1) ++ addrUse a b x f ++ resUse ext
  | .atomMax _ t d a b x f ext => rw .d d (if t.toNat ≥ 2 then 2 else 1) ++ addrUse a b x f ++ resUse ext
  | .atomAnd _ w d a b x f ext => rw .d d (pair w) ++ addrUse a b x f ++ resUse ext
  | .atomOr _ w d a b x f ext => rw .d d (pair w) ++ addrUse a b x f ++ resUse ext
  | .atomXor _ w d a b x f ext => rw .d d (pair w) ++ addrUse a b x f ++ resUse ext
  | .atomXchg _ w d a b x f ext => rw .d d (pair w) ++ addrUse a b x f ++ resUse ext
  | .cas _ w d a b x f ext => rw .d d (2 * pair w) ++ addrUse a b x f ++ resUse ext
  | .waita _ w d a b x f _ => rw .d d (pair w) ++ addrUse a b x f
  | .gath _ d a b ext => wr .d d 1 ++ addrUse a b true false ++ resUse ext
  | .scat _ d a b ext => rd .d d 1 ++ addrUse a b true false ++ resUse ext
  | .scadd _ d a b ext => rd .d d 1 ++ addrUse a b true false ++ resUse ext
  | .confd _ d a => wr .d d 1 ++ rd .a a 1
  | .tld _ t d a _ _ => wr .d d (2 ^ t.toNat) ++ rd .a a 1
  | .tst _ t d a _ _ => rd .d d (2 ^ t.toNat) ++ rd .a a 1
  | .tstSk _ _ d a _ _ => rd .d d 1 ++ rd .a a 1
  | .br _ p _ _ _ => predUse p
  | .brc _ p _ _ _ => predUse p
  | .brq _ _ _ => []
  | .join _ => []
  | .call _ _ => link true
  | .ret _ => link false
  | .jmpx _ a _ => rd .a a 2
  | .callx _ a _ => rd .a a 2 ++ link true
  | .exit _ => []
  | .bar _ _ _ _ => []
  | .live _ _ => []
  | .savept _ _ => []
  | .trap _ _ => []
  | .rdstat _ d => wr .d d 2
  | .wrstat _ a => rd .a a 1
  | .rtf _ _ => []
  | .yield _ => []
  | .leadAdd _ d a b y c32 _ => xwr .d d ++ xrd .a a ++ leadUse b y c32
  | .leadAddImm _ d a _ _ => xwr .d d ++ xrd .a a
  | .leadSub _ d a b y c32 _ => xwr .d d ++ xrd .a a ++ leadUse b y c32
  | .leadSubImm _ d a _ _ => xwr .d d ++ xrd .a a
  | .leadMul _ d a b y c32 _ => xwr .d d ++ xrd .a a ++ leadUse b y c32
  | .leadMulImm _ d a _ _ => xwr .d d ++ xrd .a a
  | .leadMulh _ d a b y c32 _ => xwr .d d ++ xrd .a a ++ leadUse b y c32
  | .div _ d a b y c32 _ => xwr .d d ++ xrd .a a ++ leadUse b y c32
  | .rem _ d a b y c32 _ => xwr .d d ++ xrd .a a ++ leadUse b y c32
  | .leadAnd _ d a b y c32 => xwr .d d ++ xrd .a a ++ leadUse b y c32
  | .leadAndImm _ d a _ => xwr .d d ++ xrd .a a
  | .leadOr _ d a b y c32 => xwr .d d ++ xrd .a a ++ leadUse b y c32
  | .leadOrImm _ d a _ => xwr .d d ++ xrd .a a
  | .leadXor _ d a b y c32 => xwr .d d ++ xrd .a a ++ leadUse b y c32
  | .leadXorImm _ d a _ => xwr .d d ++ xrd .a a
  | .leadShl _ d a b y c32 => xwr .d d ++ xrd .a a ++ leadUse b y c32
  | .leadShlImm _ d a _ => xwr .d d ++ xrd .a a
  | .leadShr _ d a b y c32 => xwr .d d ++ xrd .a a ++ leadUse b y c32
  | .leadShrImm _ d a _ => xwr .d d ++ xrd .a a
  | .leadSar _ d a b y c32 => xwr .d d ++ xrd .a a ++ leadUse b y c32
  | .leadSarImm _ d a _ => xwr .d d ++ xrd .a a
  | .leadMin _ d a b y c32 _ => xwr .d d ++ xrd .a a ++ leadUse b y c32
  | .leadMax _ d a b y c32 _ => xwr .d d ++ xrd .a a ++ leadUse b y c32
  | .leadCmp _ _ d a b y c32 _ => jwr .d d ++ xrd .a a ++ leadUse b y c32
  | .leadCmpImm _ _ d a _ _ => jwr .d d ++ xrd .a a
  | .leadSel _ d a b y c32 _ => xrw .d d ++ jrd .a a ++ leadUse b y c32
  | .movi _ d _ _ => xwr .d d
  | .movc _ d a w => [⟨some .d, .c, d.toNat, pair w, false, true⟩] ++ xrd .a a
  | .ldx _ _ d a _ => xwr .d d ++ xrd .a a
  | .stx _ _ d a _ => xrd .d d ++ xrd .a a
  | .atomxAdd _ _ d a b _ _ => xwr .d d ++ xrd .a a ++ xrd .b b
  | .atomxMinI64 _ d a b _ _ => xwr .d d ++ xrd .a a ++ xrd .b b
  | .atomxMinN64 _ d a b _ _ => xwr .d d ++ xrd .a a ++ xrd .b b
  | .atomxMaxI64 _ d a b _ _ => xwr .d d ++ xrd .a a ++ xrd .b b
  | .atomxMaxN64 _ d a b _ _ => xwr .d d ++ xrd .a a ++ xrd .b b
  | .atomxAnd _ d a b _ _ => xwr .d d ++ xrd .a a ++ xrd .b b
  | .atomxOr _ d a b _ _ => xwr .d d ++ xrd .a a ++ xrd .b b
  | .atomxXor _ d a b _ _ => xwr .d d ++ xrd .a a ++ xrd .b b
  | .atomxXchg _ d a b _ _ => xwr .d d ++ xrd .a a ++ xrd .b b
  | .atomxCas _ d a b _ _ => xrw .d d ++ xrd .a a ++ xrd .b b
  | .leadBr _ p _ _ => leadPredUse p
  | .leadBrc _ p _ _ => leadPredUse p
  | .leadCall _ _ _ _ => [⟨none, .x, 63, 1, false, true⟩]
  | .leadRet _ => [⟨none, .x, 63, 1, true, false⟩]
  | .dqpush _ _ a => xrd .a a
  | .rqpop _ d => xwr .d d
  | .qpush _ d a b _ => xrd .d d ++ xrd .a a ++ xrd .b b
  | .qpop _ d a _ => xwr .d d ++ xrd .a a
  | .leadWaita _ d a b _ _ => xwr .d d ++ xrd .a a ++ xrd .b b
  | .leadWake _ d a b _ => xwr .d d ++ xrd .a a ++ xrd .b b
  | .leadFence _ _ _ => []
  | .leadXfence _ _ _ _ => []
  | .mzero _ d _ _ _ => xwr .d d
  | .mma _ d a b _ _ _ _ => xwr .d d ++ xrd .a a ++ xrd .b b
  | .mmc _ d b _ _ _ _ _ => xwr .d d ++ xrd .b b
  | .mmw _ d a _ _ _ _ => xwr .d d ++ xrd .a a
  | .mdrain _ d a b _ _ => xwr .d d ++ xrd .a a ++ xrd .b b
  | .mload _ d a _ _ _ => xwr .d d ++ xrd .a a
  | .talloc _ d a b _ _ _ _ => xwr .d d ++ xrd .a a ++ xrd .b b
  | .tfree _ d _ => xwr .d d
  | .tbind _ d a _ => xwr .d d ++ xrd .a a
  | .tdry _ d _ => xwr .d d
  | .tstat _ d a _ => xwr .d d ++ xrd .a a
  | .abind _ d a _ _ => xwr .d d ++ xrd .a a
  | .seek _ d a b _ _ _ _ => xwr .d d ++ xrd .a a ++ xrd .b b
  | .proj _ d a b _ => xwr .d d ++ xrd .a a ++ xrd .b b
  | .copy _ d a _ _ => xwr .d d ++ xrd .a a
  | .pcopy _ d a b _ _ => xwr .d d ++ xrd .a a ++ xrd .b b
  | .binit _ a b _ _ _ => xrd .a a ++ xrd .b b
  | .barr _ d a b _ _ _ => xwr .d d ++ xrd .a a ++ xrd .b b
  | .leadBwait _ d a b _ _ _ => xwr .d d ++ xrd .a a ++ xrd .b b
  | .smapLook _ d a b => xwr .d d ++ xrd .a a ++ xrd .b b
  | .smapAppend _ d a b => xwr .d d ++ xrd .a a ++ xrd .b b
  | .smapShare _ d a b => xwr .d d ++ xrd .a a ++ xrd .b b
  | .smapLen _ d a b => xwr .d d ++ xrd .a a ++ xrd .b b
  | .smapEvict _ d a b => xwr .d d ++ xrd .a a ++ xrd .b b
  | .chase _ d a b _ _ => xwr .d d ++ xrd .a a ++ xrd .b b
  | .launch _ d a _ => xwr .d d ++ xrd .a a
  | .mark _ _ a b => xrd .a a ++ xrd .b b
  | .snap _ => []
  | .rollbk _ => []
  | .commit _ => []
  | .leadTrap _ _ => []
  | .leadRdstat _ d => xwr .d d
  | .leadWrstat _ a => xrd .a a
  | .leadRtf _ _ => []
  | .leadSavept _ _ _ => []
  | .leadExit _ => []
  | .rep _ _ _ => []
  | .clauseFetch => []
  | .resultReturn _ _ => []
  | .regcacheFill _ _ _ => []
  | .xfReply _ => []
  | .memoryReply _ _ => []
  | .collectorRoom _ => []
  | .queueStallRelease _ => []
  | .waitEnd _ _ => []
  | .waitTimeout _ => []
  | .bwaitResume _ => []
  | .pageResident _ => []
  | .tileFill _ _ _ => []
  | .tileEvict _ _ _ => []
  | .matrixKStep _ => []
  | .matrixOpComplete _ => []
  | .chunkDeliver _ _ => []
  | .pcopyComplete _ => []
  | .chasePage _ => []
  | .sqDoorbell _ _ => []
  | .queueEnable _ => []
  | .queueDisable _ => []
  | .cancel _ => []
  | .cancelAll => []
  | .retire _ => []
  | .registerWrite _ _ _ => []
  | .recordConsume _ _ => []
  | .launchAccept _ _ => []
  | .gangBind _ _ => []
  | .crewStart _ => []
  | .boundOverrun _ => []
  | .preemptRequest _ _ => []
  | .saveComplete _ => []
  | .saveTimeout _ => []
  | .gangRestore _ _ => []
  | .gangRelaunch _ => []
  | .comparePoint _ _ => []
  | .unitCompare _ => []
  | .pairFaultMatch _ _ => []
  | .uncorrectableError _ _ => []
  | .scrub _ _ => []
  | .ageingMeasure _ _ => []
  | .clockLimitApply _ => []
  | .machineDissent _ _ => []
  | .machineResync _ _ => []
  | .powerControl _ => []
  | .hostMemoryAccess _ => []
  | .podAccess _ => []
  | .linkReplay _ => []
  | .linkFailure _ => []
  | .routeChange _ => []
  | .powerOn => []
  | .deviceReset => []
  | .imageCheck => []
  | .dieBringUp _ _ => []
  | .memoryTraining _ => []
  | .schedulerStart => []
  | .getMeasurements _ => []
  | .challenge _ => []
  | .pldmFirmwareUpdate _ => []
  | .pldmSetCap _ => []
  | .pldmSensors => []
  | .unlistedOpcode _ => []
  | .pageDemotion _ _ => []

/-- v registers that a word reads. -/
def vReads (i : Instr) : List Nat :=
  ((uses i).filter fun u => decide (u.kind = .v) && u.rd).flatMap fun u => upFrom u.first u.count

/-- v registers that a word reads or writes (R177). -/
def vUses (i : Instr) : List Nat := ((uses i).filter fun u => decide (u.kind = .v)).flatMap fun u => upFrom u.first u.count

/-- x registers that a word reads or writes, x0 aside: the ones the token scoreboard looks at (R23). -/
def xUses (i : Instr) : List Nat :=
  (((uses i).filter fun u => decide (u.kind = .x)).map Use.first).filter fun r => r != 0

end Sys2Proof.Machine
end

