-- ==== Sys2Proof/Machine/Ops.lean ====
section
/-!
DEFINITION. The named operations that every meaning is built from: contexts, registers with outstanding results (R55 to R58),
splits and joins (R179 to R184), taking a fault and returning from one (R170, R200, R201), and the two wrappers that run a
wave word or a lead word.
-/

namespace Sys2Proof.Machine

/-! ### Raising -/

/-- A fault with an aux value and nothing else to say. -/
def Raised.of (c : FaultCode) (aux : Nat) : Raised := { code := c, aux, addr := 0, failing := 0, issuePc := 0 }

/-- illegal_instruction with the position of R79. -/
def illegal (aux : Nat) : Raised := Raised.of .illegalInstruction aux

/-- A fault at a data address. -/
def Raised.at (c : FaultCode) (addr : Nat) : Raised := { code := c, aux := 0, addr, failing := 0, issuePc := 0 }

/-- A fault of some lanes, at the address of the lowest. -/
def Raised.lanes (c : FaultCode) (aux addr : Nat) (failing : LaneSet) : Raised := { code := c, aux, addr, failing, issuePc := 0 }

/-- How a word ends without completing: a fault before any effect, a fault after its effects (R262), a stall, consumption of poison
(R383), or another operation than the counterpart of a pair has forwarded (R396). -/
inductive Stop (ω : Type) where
  | fault (f : Raised)
  | after (s : State) (f : Raised)
  | wait (s : State) (w : ω)
  | poison
  | diverge
  deriving DecidableEq, Repr

/-- What a word that completes has done: the state with its effects on memory, queues and units, and the register writes
still to be made. `cat` is the category of an outstanding result; none where the results are written at once (R55). -/
structure Done where
  s : State
  writes : List RegWrite := []
  flags : Flags := Flags.none
  pop : Option Nat := none
  cat : Option Cat := none
  entries : Nat := 0
  needs : List Nat := []
  j : Option (Nat × Trit) := none
  deriving DecidableEq, Repr

abbrev WaveRes := Except (Stop SplitWait) Done
abbrev LeadRes := Except (Stop LeadWait) Done

/-! ### Wave contexts -/

/-- A wave context that issues: a live split and all that stands around it. -/
structure WCtx where
  key : WaveKey
  slot : Fin 2
  w : Wave
  sp : Split
  crew : Crew
  gang : Gang
  deriving DecidableEq, Repr

def Wave.slot (w : Wave) (i : Fin 2) : Option Split := if i = 0 then w.slot0 else w.slot1
def Wave.setSlot (w : Wave) (i : Fin 2) (p : Option Split) : Wave := if i = 0 then { w with slot0 := p } else { w with slot1 := p }

/-- The other slot. -/
def other (i : Fin 2) : Fin 2 := if i = 0 then 1 else 0

/-- The context that `cur` names, if it is a live split. -/
def State.wctx (s : State) : Option WCtx :=
  match s.cur with
  | .split k i =>
    match s.wave k, s.crew (crewOf k), s.gang k.gang with
    | some w, some c, some g =>
      match w.slot i with
      | some sp => if w.ended then none else some { key := k, slot := i, w, sp, crew := c, gang := g }
      | none => none
    | _, _, _ => none
  | _ => none

/-- Change the issuing split's own slot. -/
def State.modSplit (s : State) (c : WCtx) (f : Split → Split) : State :=
  s.modWave c.key fun w => w.setSlot c.slot ((w.slot c.slot).map f)

/-! ### Wave registers -/

/-- One register write. Written lanes are live (R178). -/
def Wave.put (w : Wave) : RegWrite → Wave
  | .v r lanes vals =>
    if h : r < 128 then
      let old := w.v[r]
      let new := Vector.ofFn fun l : Lane => if lanes.getLsbD l.val then vals[l] else old[l]
      { w with v := w.v.set r new h, unset := w.unset.set r (w.unset[r] &&& ~~~lanes) h, dirty := w.dirty ||| BitVec.ofNat 128 (2 ^ r),
               bad := w.bad.filter fun e => !(e.1 == r && bitNat lanes.toNat (2 * e.2) && bitNat lanes.toNat (2 * e.2 + 1)) }
    else w
  | .k r lanes vals =>
    if h : r < 48 then
      let old := w.k[r]
      { w with k := w.k.set r (Vector.ofFn fun l : Lane => if lanes.getLsbD l.val then vals[l] else old[l]) h }
    else w
  | .x _ _ => w

/-- A later write of the same register replaces an outstanding one (R57): those lanes leave it. -/
def RegWrite.under (later : RegWrite) (p : RegWrite) : RegWrite :=
  match later, p with
  | .v r lanes _, .v q ls vals => if r = q then .v q (ls &&& ~~~lanes) vals else p
  | .k r lanes _, .k q ls vals => if r = q then .k q (ls &&& ~~~lanes) vals else p
  | _, _ => p

/-- Writes that replace a later-issued write of the same x register are dropped. -/
def RegWrite.sameX (later : RegWrite) (p : RegWrite) : Bool :=
  match later, p with
  | .x r _, .x q _ => r == q
  | _, _ => false

/-- What their returns still write of outstanding results under later writes. -/
def underAll (later : List RegWrite) (ps : List Pending) : List Pending :=
  if ps.isEmpty then []
  else ps.map fun p => { p with writes := (p.writes.filter fun w => !later.any fun l => l.sameX w).map fun w => later.foldl (fun a l => l.under a) w }

/-- What a write of a register replaces, for reads that R57 still lets see it. -/
def Wave.replaced (w : Wave) : RegWrite → Option Past
  | .v r lanes _ =>
    if h : r < 128 then
      some { val := .v r lanes (Vector.ofFn fun l : Lane => if w.unset[r].getLsbD l.val then none else some (w.v[r])[l]), waited := [] }
    else none
  | .k r _ _ => if h : r < 48 then some { val := .k r w.k[r], waited := [] } else none
  | .x _ _ => none

/-- The value that a returned result gave, whether or not its return still writes it (R57). -/
def Wave.given (w : Wave) : RegWrite → Option Past
  | .v r lanes vals => some { val := .v r lanes (vals.map some), waited := [] }
  | .k r lanes vals =>
    if h : r < 48 then
      let old := w.k[r]
      some { val := .k r (Vector.ofFn fun l : Lane => if lanes.getLsbD l.val then vals[l] else old[l]), waited := [] }
    else none
  | .x _ _ => none

/-- The context has waited on some categories (R47, R57). -/
def waitedOn (cs : List Cat) (ps : List Past) : List Past :=
  if cs.isEmpty then ps else ps.map fun p => { p with waited := cs ++ p.waited }

/-- Write results at once. -/
def Wave.putNow (w : Wave) (ws : List RegWrite) : Wave :=
  let w := { w with outstanding := underAll ws w.outstanding, past := ws.filterMap w.replaced ++ w.past }
  ws.foldl Wave.put w

/-- Return outstanding result `n` (R56, R57). -/
def Wave.return (w : Wave) (n : Nat) : Wave :=
  match w.outstanding[n]? with
  | none => w
  | some p =>
    let w := { w with outstanding := underAll p.writes (w.outstanding.take n) ++ w.outstanding.drop (n + 1),
                      past := p.writes.filterMap w.replaced ++ p.gives.filterMap w.given ++ w.past }
    p.writes.foldl Wave.put w

/-- Parking and a clause's drain end when nothing they wait for is outstanding (R47, R56). -/
def Wave.unpark (w : Wave) : Wave :=
  let w := if w.parked && w.outstanding.isEmpty then { w with parked := false, past := [] } else w
  if w.outstanding.any fun p => w.drain.contains p.cat then w else { w with drain := [], past := waitedOn w.drain w.past }

/-- Every outstanding result is written, in program order (R58). -/
def Wave.flush (w : Wave) : Wave :=
  let w := (w.outstanding.flatMap Pending.writes).foldl Wave.put w
  { w with outstanding := [], past := [], parked := false, drain := [] }

/-- What outstanding results give a v register in a lane (R57). -/
def pendingV (ps : List Pending) (r : Nat) (l : Lane) : List Word :=
  ps.flatMap fun p => p.gives.filterMap fun w => match w with
    | .v q lanes vals => if q = r ∧ lanes.getLsbD l.val then some vals[l] else none
    | _ => none

/-- The categories of the outstanding results for a register that `touches` names. -/
def pendingCats (ps : List Pending) (touches : RegWrite → Bool) : List Cat := (ps.filter fun p => p.gives.any touches).map Pending.cat

/-- The values of the run that a register has had, but for those before the context last waited on a category of its outstanding
results (R57). -/
def pastOf {α : Type} (ps : List Past) (cs : List Cat) (of : OldValue → Option α) : List α :=
  ps.filterMap fun p => if cs.any p.waited.contains then none else of p.val

/-- The choice of R57: the register as it is, or, while a result for it is outstanding, what such a result gives or what the
register has had in the run. -/
def State.choose57 {α : Type} (s : State) (place : Nat) (own : α) (given past : List α) : α :=
  if given.isEmpty then own else (own :: given ++ past).getD (s.pick place (given.length + past.length + 1)) own

/-- One v register in one lane, none where it reads as dead (R178), with the choice of R57. -/
def State.vLane (s : State) (w : Wave) (r : Nat) (l : Lane) : Option Word :=
  if h : r < 128 then
    let own := if w.unset[r].getLsbD l.val then none else some (w.v[r])[l]
    if w.outstanding.isEmpty then own
    else
      let cats := pendingCats w.outstanding fun x => match x with
        | .v q lanes _ => q == r && lanes.getLsbD l.val
        | _ => false
      s.choose57 (32 * r + l.val) own ((pendingV w.outstanding r l).map some) (pastOf w.past cats fun v => match v with
        | .v q lanes vals => if q = r ∧ lanes.getLsbD l.val then some vals[l] else none
        | _ => none)
  else none

/-- A 32-bit v operand: `fill` is what a dead register reads as (R178). -/
def State.v32 (s : State) (w : Wave) (r fill : Nat) : Vector Nat 32 :=
  Vector.ofFn fun l => ((s.vLane w r l).map BitVec.toNat).getD fill

/-- A 64-bit v operand, low half in the even register; a dead half makes the element dead (R178, log 22). -/
def State.v64 (s : State) (w : Wave) (r fill : Nat) : Vector Nat 32 :=
  Vector.ofFn fun l =>
    match s.vLane w r l, s.vLane w (r + 1) l with
    | some a, some b => a.toNat + 2 ^ 32 * b.toNat
    | _, _ => fill

/-- A v operand of either width. -/
def State.vReg (s : State) (w : Wave) (wide : Bool) (r fill : Nat) : Vector Nat 32 := if wide then s.v64 w r fill else s.v32 w r fill

/-- A k register with the choice of R57: the register is one unit. -/
def State.kReg (s : State) (w : Wave) (r : Nat) : Vector Trit 32 :=
  if h : r < 48 then
    let own := w.k[r]
    if w.outstanding.isEmpty then own
    else
      let given := w.outstanding.flatMap fun p => p.gives.filterMap fun x => match x with
        | .k q lanes vals => if q = r then some (Vector.ofFn fun l : Lane => if lanes.getLsbD l.val then vals[l] else own[l]) else none
        | _ => none
      let cats := pendingCats w.outstanding fun x => match x with
        | .k q _ _ => q == r
        | _ => false
      s.choose57 (4096 + r) own given (pastOf w.past cats fun v => match v with
        | .k q vals => if q = r then some vals else none
        | _ => none)
  else Vector.replicate 32 .u

/-- Register writes of a lane vector into a v register or pair. -/
def vWrites (wide : Bool) (d : Nat) (lanes : LaneSet) (vals : Vector Nat 32) : List RegWrite :=
  if wide then
    [.v d lanes (vals.map (BitVec.ofNat 32)), .v (d + 1) lanes (vals.map fun x => BitVec.ofNat 32 (x / 2 ^ 32))]
  else [.v d lanes (vals.map (BitVec.ofNat 32))]

/-! ### Splits, joins and the stack (R179 to R184) -/

/-- Drop empty entries above the topmost nonempty one (R179). -/
def trimStack : List StackEntry → List StackEntry
  | [] => []
  | e :: es =>
    match e, trimStack es with
    | .empty, [] => []
    | e, es => e :: es

/-- Depth of the stack (R179). -/
def Wave.depth (w : Wave) : Nat := (trimStack w.stack).length

/-- Push an entry at index depth. -/
def Wave.push (w : Wave) (e : StackEntry) : Wave := { w with stack := trimStack w.stack ++ [e] }

/-- Empty entry `i`. -/
def Wave.clearEntry (w : Wave) (i : Nat) : Wave := { w with stack := trimStack (w.stack.set i .empty) }

/-- A free slot takes a pending split from the top (R181). -/
def Wave.refillSlot (w : Wave) (i : Fin 2) : Wave :=
  match w.slot i with
  | some _ => w
  | none =>
    match w.stack.getLast? with
    | some (.pending p) => ({ w with stack := trimStack w.stack.dropLast }).setSlot i (some p)
    | _ => w

/-- Both slots look at the stack. -/
def Wave.refill (w : Wave) : Wave := ({ w with stack := trimStack w.stack }.refillSlot 0).refillSlot 1

/-- A record as its index names it. -/
def Wave.record? (w : Wave) (i : Nat) : Option JoinRec :=
  match w.stack[i]? with
  | some (.join r) => some r
  | _ => none

/-- Put a split into a slot: the given one if free, else the other, else the stack. -/
def Wave.place (w : Wave) (i : Fin 2) (p : Split) : Wave :=
  match w.slot i with
  | none => w.setSlot i (some p)
  | some _ =>
    match w.slot (other i) with
    | none => w.setSlot (other i) (some p)
    | some _ => w.push (.pending p)

/-- A ready split. -/
def Split.ready (pc : DWord) (lanes : LaneSet) (link : Option Nat) : Split :=
  { pc, lanes, link, rep := 0, reps := none, state := .ready, wait := .none }

/-- Complete record `i` if every expected lane that has not exited has arrived or is parked; the merged split takes slot `n`,
and arrives at once where its own record stands at the same address (R182). `fuel` bounds the nesting. -/
def Wave.complete (w : Wave) (n : Fin 2) (i : Nat) (fuel : Nat) : Wave :=
  match fuel with
  | 0 => w
  | fuel + 1 =>
    match w.record? i with
    | none => w
    | some r =>
      let want := r.lanes &&& ~~~w.exited
      if want &&& ~~~(r.arrived ||| r.parked) = 0 then
        let w := w.clearEntry i
        if want = 0 then w
        else
          match r.link with
          | none => w.place n (Split.ready r.pc want none)
          | some j =>
            match w.record? j with
            | some q =>
              if q.pc = r.pc then
                { w with stack := w.stack.set j (.join { q with arrived := q.arrived ||| want }) }.complete n j fuel
              else w.place n (Split.ready r.pc want (some j))
            | none => w.place n (Split.ready r.pc want (some j))
      else w

/-- The split in slot `n` arrives at record `i` (R182). -/
def Wave.arrive (w : Wave) (n : Fin 2) (i : Nat) : Wave :=
  match w.slot n, w.record? i with
  | some sp, some r =>
    let w := { w with stack := w.stack.set i (.join { r with arrived := r.arrived ||| sp.lanes }) }.setSlot n none
    w.complete n i 65
  | _, _ => w

/-- Lanes exit: they leave the expected lanes of every record, and records that this completes merge, in rising order of
index (R183). -/
def Wave.exitLanes (w : Wave) (n : Fin 2) (lanes : LaneSet) : Wave :=
  let w := (Wave.setSlot w n none)
  let w := { w with exited := w.exited ||| lanes, stack := w.stack.map fun e => match e with
      | StackEntry.join r => StackEntry.join { r with lanes := r.lanes &&& ~~~lanes }
      | e => e }
  (List.range 64).foldl (fun w i => w.complete n i 65) w

/-- Whether `n` more entries fit (R184). -/
def Wave.fits (w : Wave) (n : Nat) : Bool := decide (w.depth + n ≤ 64)

/-! ### Ending gangs with a relaunch (R42, R376, R402) -/

/-- Set the state field of some slots (R366). -/
def markSlots (which : List Nat) (state : Nat) (slots : List (Nat × BindRec)) : List (Nat × BindRec) :=
  slots.map fun (n, b) => (n, if which.contains n then { b with state } else b)

/-- Stop a gang to run it again: its contexts and operations end, what it issued is cancelled, its tiles and buffers go (R376,
R396, R401). The gang keeps its slots and its checkpoint until GANG_RELAUNCH. -/
def State.startFlush (s : State) (g : Nat) (roll : Bool) : State :=
  match s.gang g with
  | none => s
  | some gg =>
    let s := ((s.ntEnd g).cancelChildren g).gangWrote g gg.seq
    let s := { s with waves := s.waves.filter fun e => e.1.gang != g,
                      leads := s.leads.filter fun e => e.1.gang != g,
                      crews := s.crews.filter fun e => e.1.gang != g,
                      ops := s.ops.filter fun e => e.2.crew.gang != g,
                      waiters := s.waiters.filter fun w => !ctxOfGang g w.who,
                      slots := markSlots (placeSlots gg.place) 4 s.slots }
    s.modGang g fun x => { x with state := .flushing roll, handles := [], phases := [],
                                  pair := x.pair.map fun p => { p with parties := [], buf := [], units := [] } }

/-- Take a gang down, a pair with its other gang, to run it again from its retained record. `roll` says whether the open
checkpoint is rolled back first. A run of gang 0 after the first is not injected (R151). -/
def State.relaunch (s : State) (g : Nat) (roll : Bool) : State :=
  match s.gang g with
  | none => s
  | some gg =>
    let s := s.startFlush g roll
    let s := match gg.pair with
      | some p => s.startFlush p.peer roll
      | none => s
    (s.modLaunch gg.seq fun l => { l with reruns := if gg.index = 0 then l.reruns + 1 else l.reruns }).settle

/-- A gang has consumed an uncorrectable error (R402): class I and C run it again, up to the fourth error of the gang. -/
def State.uncorrectable (s : State) (g : Nat) : State :=
  match s.gang g with
  | none => s
  | some gg =>
    let s := { s with counters := { s.counters with kills := s.counters.kills + 1 } }
    match s.launchOf gg with
    | none => s
    | some l =>
      let n := (tabGet l.errors gg.index).getD 0 + 1
      let s := s.setLaunch gg.seq { l with errors := tabSet l.errors gg.index n }
      if recRestart l.record = 2 ∨ n ≥ 4 then s.endByFault g .uncorrectable
      else
        let s := { s with counters := { s.counters with relaunch := s.counters.relaunch + 1 } }
        s.relaunch g (recRestart l.record == 1)

/-- A mismatch at a party and compare point (R396): the launch ends where this point has mismatched before, at the pair's 16th,
and under class N; otherwise the pair runs again. -/
def State.mismatch (s : State) (g : Nat) (q : Party) (n : Nat) : State :=
  match s.gang g with
  | none => s
  | some gg =>
    match s.launchOf gg with
    | none => s
    | some l =>
      let k := s.counters
      let ends := l.mismatches.contains (gg.index, q, n) || decide ((l.mismatches.filter fun e => e.1 == gg.index).length ≥ 15) ||
        recRestart l.record == 2
      if ends then
        { s with counters := { k with mismatches := k.mismatches + 1, pairfail := k.pairfail + 1 } }.endByFault g .redundancyMismatch
      else
        let s := s.setLaunch gg.seq { l with mismatches := l.mismatches ++ [(gg.index, q, n)] }
        { s with counters := { k with mismatches := k.mismatches + 1, retries := k.retries + 1 } }.relaunch g true

/-- A party diverges from its counterpart in its present interval (R396). -/
def State.diverged (s : State) (g : Nat) (q : Party) : State :=
  s.mismatch g q ((((s.gang g).bind Gang.pair).map fun p => (p.party q).next).getD 0)

/-! ### Taking a fault -/

/-- The wave fault record (R200). -/
def waveRecord (f : Raised) (pc nextPc : Nat) (lanes : LaneSet) (rep : Nat) : List Byte :=
  toBytes 8 f.code.num ++ toBytes 8 rep ++ toBytes 4 (if f.failing = 0 then lanes else f.failing).toNat ++ toBytes 4 lanes.toNat ++
  toBytes 8 pc ++ toBytes 8 nextPc ++ toBytes 8 f.aux ++ toBytes 8 f.addr ++ toBytes 8 0

/-- The lead fault record (R171). -/
def leadRecord (f : Raised) (pc nextPc rep : Nat) : List Byte :=
  toBytes 8 f.code.num ++ toBytes 8 rep ++ toBytes 8 0 ++ toBytes 8 pc ++ toBytes 8 nextPc ++ toBytes 8 f.aux ++
  toBytes 8 f.addr ++ toBytes 8 f.issuePc.toNat

/-- Write a fault record at status.frec; nothing is written where the area is not mapped (log 12). -/
def State.writeRecord (s : State) (status : DWord) (bs : List Byte) : State :=
  match s.translate .write (statusFrec status) with
  | .ok pa => s.wr pa bs
  | _ => s

/-- The split that is not faulting is held for the handler and leaves a barrier it waited at (R200). -/
def holdSplit (p : Split) : Split :=
  match p.wait with
  | .bar _ => { p with state := .held, wait := .none }
  | _ => { p with state := .held }

/-- TAKING A WAVE FAULT (R200): outstanding results, the frame as it then stands (R58, R176), the record, then the handler or the end of the gang. The record's pc is
the split's, `nextPc` where RTF resumes past it. -/
def State.takeWaveFault (s : State) (k : WaveKey) (n : Fin 2) (f : Raised) (nextPc : DWord) : State :=
  match s.wave k, s.gang k.gang with
  | some w, some g =>
    match w.slot n with
    | none => s
    | some sp =>
      let s := (s.setWave k w.flush).writeFrame k
      let w := { w.flush with dirty := 0 }
      let s := s.writeRecord w.status (waveRecord f sp.pc.toNat nextPc.toNat sp.lanes sp.rep)
      let handler := match s.codeOf g with
        | some c => c.wave.handler
        | none => none
      match handler, w.handling with
      | some h, none =>
        let w := { w with handling := some { pc := sp.pc, nextPc, lanes := sp.lanes, rep := sp.rep, reps := sp.reps,
                                             depth := w.depth, link := sp.link } }
        let w := w.setSlot n (some { Split.ready (BitVec.ofNat 64 h) sp.lanes sp.link with rep := 0 })
        s.setWave k (w.setSlot (other n) ((w.slot (other n)).map holdSplit))
      | _, _ => (s.setWave k w).endByFault k.gang f.code
  | _, _ => s

/-- RETURN FROM A WAVE FAULT (R201), once its checks have passed: the flag clears, the held split is ready again, the issuing
split goes to the recorded PC or past it. -/
def Wave.returnFault (w : Wave) (n : Fin 2) (h : Handling) (skip : Bool) : Wave :=
  let w := { w with handling := none }
  let w := w.setSlot n ((w.slot n).map fun sp =>
    if skip then { sp with pc := h.nextPc, rep := 0, reps := none } else { sp with pc := h.pc, rep := h.rep, reps := h.reps })
  w.setSlot (other n) ((w.slot (other n)).map fun p => if p.state = .held then { p with state := .ready } else p)

/-! ### Lead contexts -/

/-- A lead context that issues. -/
structure LCtx where
  key : CrewKey
  l : Lead
  crew : Crew
  gang : Gang
  deriving DecidableEq, Repr

/-- The context that `cur` names, if it is a lead context that has not exited. -/
def State.lctx (s : State) : Option LCtx :=
  match s.cur with
  | .lead k =>
    match s.lead k, s.crew k, s.gang k.gang with
    | some l, some c, some g => if l.exited then none else some { key := k, l, crew := c, gang := g }
    | _, _, _ => none
  | _ => none

/-- Write an outstanding x result. -/
def Lead.put (l : Lead) : RegWrite → Lead
  | .x r v => l.putX r v
  | _ => l

/-- What a write of an x register replaces (R57). -/
def Lead.replaced (l : Lead) : RegWrite → Option Past
  | .x r _ => if h : r < 64 then some { val := .x r l.x[r], waited := [] } else none
  | _ => none

/-- The value that a returned result gave (R57). -/
def Lead.given : RegWrite → Option Past
  | .x r v => some { val := .x r v, waited := [] }
  | _ => none

/-- Write results at once (R55). -/
def Lead.putNow (l : Lead) (ws : List RegWrite) : Lead :=
  let l := { l with outstanding := underAll ws l.outstanding, past := ws.filterMap l.replaced ++ l.past }
  ws.foldl Lead.put l

/-- Return outstanding result `n` (R56, R57). -/
def Lead.return (l : Lead) (n : Nat) : Lead :=
  match l.outstanding[n]? with
  | none => l
  | some p =>
    let l := { l with outstanding := underAll p.writes (l.outstanding.take n) ++ l.outstanding.drop (n + 1),
                      past := p.writes.filterMap l.replaced ++ p.gives.filterMap Lead.given ++ l.past }
    let l := p.writes.foldl Lead.put l
    if l.parked && l.outstanding.isEmpty then { l with parked := false, past := [] } else l

/-- Every outstanding result is written (R58). -/
def Lead.flush (l : Lead) : Lead :=
  { (l.outstanding.flatMap Pending.writes).foldl Lead.put l with outstanding := [], past := [], parked := false }

/-- An x register: x0 reads zero; the choice of R57 where results are outstanding. -/
def State.xReg (s : State) (l : Lead) (r : Nat) : DWord :=
  if h : r < 64 then
    if r = 0 then 0
    else if l.outstanding.isEmpty then l.x[r]
    else
      let given := l.outstanding.flatMap fun p => p.gives.filterMap fun w => match w with
        | .x q v => if q = r then some v else none
        | _ => none
      let cats := pendingCats l.outstanding fun x => match x with
        | .x q _ => q == r
        | _ => false
      s.choose57 (8192 + r) l.x[r] given (pastOf l.past cats fun v => match v with
        | .x q v => if q = r then some v else none
        | _ => none)
  else 0

/-- A j register. -/
def Lead.jReg (l : Lead) (r : Nat) : Trit := if h : r < 16 then l.j[r] else .u

/-- TAKING A LEAD FAULT (R170): outstanding results, the frame as it then stands (R58), the record, then the handler or the end of the gang. -/
def State.takeLeadFault (s : State) (k : CrewKey) (f : Raised) (nextPc : DWord) : State :=
  match s.lead k, s.gang k.gang with
  | some l, some g =>
    let l := l.flush
    let s := (s.setLead k l).writeLeadFrame k
    let s := s.writeRecord l.status (leadRecord f l.pc.toNat nextPc.toNat l.rep)
    let handler := match s.codeOf g with
      | some c => c.lead.handler
      | none => none
    match handler, l.handling with
    | some h, none =>
      s.setLead k { l with handling := some { pc := l.pc, nextPc, rep := l.rep, reps := l.reps },
                           pc := BitVec.ofNat 64 h, rep := 0, reps := none, wait := .none }
    | _, _ => (s.setLead k l).endByFault k.gang f.code
  | _, _ => s

/-- RETURN FROM A LEAD FAULT (R170): the flag clears; the faulting word again, or the next one. -/
def Lead.returnFault (l : Lead) (h : LeadHandling) (skip : Bool) : Lead :=
  if skip then { l with handling := none, pc := h.nextPc, rep := 0, reps := none }
  else { l with handling := none, pc := h.pc, rep := h.rep, reps := h.reps }

/-- In a pair a fault waits for its counterpart (R397). -/
def State.raiseLead (s : State) (c : LCtx) (f : Raised) (nextPc : DWord) : State :=
  if c.gang.pair.isSome then s.modLead c.key fun l => { l with wait := .pairFault f nextPc } else s.takeLeadFault c.key f nextPc

/-- In a pair a fault waits for its counterpart (R397). -/
def State.raiseWave (s : State) (c : WCtx) (f : Raised) (nextPc : DWord) : State :=
  if c.gang.pair.isSome then s.modSplit c fun p => { p with wait := .pairFault f nextPc } else s.takeWaveFault c.key c.slot f nextPc

/-! ### Barrier arrival and the end of a wave -/

/-- Every live split of a wave with the barrier it waits at, if all of them wait at one. -/
def Wave.atBarriers (w : Wave) : Option (List BarWait) :=
  let one (p : Option Split) : Option (List BarWait) :=
    match p with
    | none => some []
    | some p =>
      match p.state, p.wait with
      | .barrier, .bar b => some [b]
      | _, _ => none
  match one w.slot0, one w.slot1 with
  | some a, some b => if (a ++ b).isEmpty then none else some (a ++ b)
  | _, _ => none

/-- The split that faults where a fault concerns a whole wave (R200). -/
def Wave.faultSlot (w : Wave) : Fin 2 := if w.slot0.isSome then 0 else 1

/-- barrier_mismatch for the waves of a phase and the wave that disagrees (R193). -/
def State.barMismatch (s : State) (g : Nat) (ids : List Nat) (k : WaveKey) : State :=
  match s.gang g with
  | none => s
  | some gg =>
    let there := ids.flatMap fun id => match tabGet gg.phases id with
      | some p => p.arrived.map fun a => ({ gang := g, crew := a.1, wave := a.2 } : WaveKey)
      | none => []
    let s := s.setGang g { gg with phases := ids.foldl (fun a i => tabDel a i) gg.phases }
    ((there.filter (· != k)).eraseDups ++ [k]).foldl (fun s j =>
      match s.wave j with
      | none => s
      | some w =>
        let n := w.faultSlot
        match w.slot n with
        | none => s
        | some sp =>
          let w := w.setSlot n (some { sp with state := .ready, wait := .none })
          let f := Raised.of .barrierMismatch 0
          let s := s.setWave j w
          if gg.pair.isSome then s.modWave j fun w => w.setSlot n ((w.slot n).map fun p => { p with wait := .pairFault f (sp.pc + 4) })
          else s.takeWaveFault j n f (sp.pc + 4)) s

/-- An arrival is a release by the splits that wait (R192). -/
def State.arriveBar (s : State) (k : WaveKey) (w : Wave) (id : Nat) : State :=
  let lanes (p : Option Split) : LaneSet := (p.map Split.lanes).getD 0
  s.release (.wave k (lanes w.slot0 ||| lanes w.slot1)) (.phase k.gang id)

/-- A wave arrives at a barrier when all its live splits wait there (R192, R193). -/
def State.barArrive (s : State) (k : WaveKey) : State :=
  match s.wave k, s.gang k.gang with
  | some w, some g =>
    match w.atBarriers with
    | none => s
    | some [] => s
    | some (b :: bs) =>
      if bs.any fun c => c.id != b.id || c.members != b.members || c.lead != b.lead then
        s.barMismatch k.gang (b.id :: bs.map BarWait.id) k
      else
        let me := 32 * k.crew + k.wave
        let s := s.arriveBar k w b.id
        let p := (tabGet g.phases b.id).getD { members := b.members, lead := b.lead, arrived := [], posted := [], popped := [] }
        if p.arrived.contains (k.crew, k.wave) then s
        else if p.members != b.members || p.lead != b.lead || !bitNat b.members.toNat me ||
            (barMembers b.members).any fun m => decide (m / 32 ≥ g.crews) || decide (m % 32 ≥ g.waves) then
          s.barMismatch k.gang [b.id] k
        else
          let p := { p with arrived := p.arrived ++ [(k.crew, k.wave)] }
          (s.setGang k.gang { g with phases := tabSet g.phases b.id p }).barStep k.gang b.id
  | _, _ => s

/-- A wave of which every lane has exited ends once its outstanding results are written (R183). -/
def State.endWave (s : State) (k : WaveKey) : State :=
  match s.wave k with
  | none => s
  | some w =>
    if w.exited = BitVec.allOnes 32 ∧ w.outstanding.isEmpty ∧ ¬w.ended then
      let s := s.setWave k { w with ended := true }
      let s := (s.retireQueues (crewOf k)).barAll k.gang
      s.endIfDone k.gang
    else s

/-- After a split has moved: free slots refill (R181), the wave may arrive at a barrier or end. -/
def State.tidyWave (s : State) (k : WaveKey) : State := ((s.modWave k Wave.refill).barArrive k).endWave k

/-! ### Running a word -/

/-- The lowest position of a field that breaks a rule (R79). -/
def leastFault (i : Instr) : Option Nat :=
  match fieldFaults i with
  | [] => none
  | a :: as => some (as.foldl (fun x y => if y < x then y else x) a)

/-- The address past a word of `n` words. -/
def pastWord (pc : DWord) (n : Nat) : DWord := pc + BitVec.ofNat 64 (4 * n)

/-- The first register of a word whose register-cache line is absent (R177). -/
def missing (w : Wave) (i : Instr) : Option Nat := (vUses i).find? fun r => !w.cached.getLsbD r

/-- The first register that a word reads and an unfinished class-7 word writes (R55, R230). -/
def awaited (w : Wave) (i : Instr) : Option Nat :=
  if w.outstanding.isEmpty then none
  else (vReads i).find? fun r => w.outstanding.any fun p => p.cat == .pipe && p.writes.any fun x => match x with
    | .v q lanes _ => q == r && lanes != 0
    | _ => false

/-- A stall keeps the split at its word. -/
def State.stallWave (s : State) (c : WCtx) (w : SplitWait) : State := s.modSplit c fun p => { p with wait := w }

/-- The next place of a split after a word: the next repeat of a REP, or past the word (R59). -/
def Split.step (p : Split) (n : Nat) : Split × Bool :=
  match p.reps with
  | some r => if p.rep + 1 < r.n then ({ p with rep := p.rep + 1, wait := .none }, false)
              else ({ p with pc := pastWord p.pc n, rep := 0, reps := none, wait := .none }, true)
  | none => ({ p with pc := pastWord p.pc n, rep := 0, wait := .none }, true)

/-- Results of a word that completes: written at once or made outstanding (R55). -/
def Wave.results (w : Wave) (d : Done) : Wave :=
  let w := { w with status := raiseFlags w.status d.flags }
  match d.cat with
  | none => w.putNow d.writes
  | some c =>
    if d.writes.isEmpty && d.needs.isEmpty then w
    else { w with outstanding := w.outstanding ++ [{ cat := c, writes := d.writes, gives := d.writes, entries := d.entries, needs := d.needs }] }

/-- Pop an entry of a decision queue (R18, R19). -/
def Wave.popQueue (w : Wave) : Option Nat → Wave
  | none => w
  | some q => if h : q < 4 then { w with popped := w.popped.set q (w.popped[q] + 1) h } else w

/-- The party that a split is (R265). -/
def WCtx.actor (c : WCtx) : Actor := .wave c.key c.sp.lanes

/-- The pop of an entry is an acquire (R21). -/
def State.popAcquire (s : State) (c : WCtx) : Option Nat → State
  | none => s
  | some q => s.acquire (.pushed (crewOf c.key) q (c.w.popped.toList.getD q 0)) c.actor

/-- Registers of a wave are used: their lines stand first in the order of replacement (R177). -/
def State.useLines (s : State) (k : WaveKey) (rs : List Nat) : State :=
  { s with recent := rs.map (fun r => (k, r)) ++ s.recent.filter fun l => !(l.1 == k && rs.contains l.2) }

/-- The word that a split issues counts as run in a pair's interval (R397); its flags meet a WRSTAT of the other split (R206). -/
def Wave.noteRun (w : Wave) (c : WCtx) (flags : Option Flags) : Wave :=
  { w with ran := ranWord c.gang (.wave c.key.crew c.key.wave) c.sp.pc c.sp.rep c.sp.lanes w.ran, just := flags.map fun f => (c.slot, f) }

/-- What the completion of a word leaves in its wave: results, queue pop, the next place, parking (R56). -/
def Wave.finish (w : Wave) (c : WCtx) (z : Bool) (n : Nat) (d : Done) : Wave :=
  let w := ((w.results d).popQueue d.pop).noteRun c (some d.flags)
  match w.slot c.slot with
  | none => w
  | some p => (w.setSlot c.slot (some (p.step n).1)).parkIf (z && (p.step n).2)

/-- What a control word leaves of the wave that it moves. -/
def Wave.ranControl (w : Wave) (c : WCtx) (z : Bool) : Wave := (w.parkIf z).noteRun c none

/-- Complete a wave word. -/
def finishWave (c : WCtx) (z : Bool) (n : Nat) (d : Done) : State :=
  let t := d.s.modWave c.key fun w => w.finish c z n d
  let t := if d.pop.isSome then (t.popAcquire c d.pop).retireQueues (crewOf c.key) else t
  if c.w.outstanding.isEmpty then t else { t with free := t.free + 65536 }

/-- End a wave word that does not complete. -/
def State.stopWave (s : State) (c : WCtx) (n : Nat) : Stop SplitWait → State
  | .fault f => s.raiseWave c f (pastWord c.sp.pc n)
  | .after u f => u.raiseWave c f (pastWord c.sp.pc n)
  | .wait u w => u.stallWave c w
  | .poison => s.uncorrectable c.key.gang
  | .diverge => s.diverged c.key.gang (.wave c.key.crew c.key.wave)

/-- Whether a word reads poison out of the register cache: a word of it that holds a lane of the split (R383). -/
def WCtx.readsPoison (c : WCtx) (i : Instr) : Bool :=
  c.w.bad.any fun e => (vReads i).contains e.1 && (bitNat c.sp.lanes.toNat (2 * e.2) || bitNat c.sp.lanes.toNat (2 * e.2 + 1))

/-- What stands before a wave word: field checks (R79), the register cache and the transform pipe's scoreboard (R55, R177), poison
(R383). -/
def State.waveGate (s : State) (c : WCtx) (i : Instr) (n : Nat) : Option State :=
  match leastFault i with
  | some aux => some (s.stopWave c n (.fault (illegal aux)))
  | none =>
    match missing c.w i with
    | some r => some (s.stallWave c (.regs r))
    | none =>
      match awaited c.w i with
      | some r => some (s.stallWave c (.regs r))
      | none => if c.readsPoison i then some (s.stopWave c n .poison) else none

/-- RUN A WAVE WORD of `n` words: what stands before it, its body, and what follows from how the body ends. -/
def State.waveWord (s : State) (i : Instr) (z : Bool) (n : Nat) (body : WCtx → WaveRes) : Host.Outcome State Fault Refusal :=
  match s.wctx with
  | none => .fault .noSplit
  | some c =>
    match s.waveGate c i n with
    | some t => .next t
    | none =>
      match body c with
      | .ok d => .next ((finishWave c z n d).useLines c.key (vUses i))
      | .error e => .next (s.stopWave c n e)

/-- RUN A WAVE CONTROL WORD: its body moves the split itself; parking and the effects of moved splits follow. -/
def State.waveControl (s : State) (i : Instr) (z : Bool) (body : WCtx → Except (Stop SplitWait) State) :
    Host.Outcome State Fault Refusal :=
  match s.wctx with
  | none => .fault .noSplit
  | some c =>
    match s.waveGate c i 1 with
    | some t => .next t
    | none =>
      match body c with
      | .ok t =>
        let t := t.modWave c.key fun w => w.ranControl c z
        let t := if c.w.outstanding.isEmpty then t else { t with free := t.free + 65536 }
        .next ((t.useLines c.key (vUses i)).tidyWave c.key)
      | .error e => .next (s.stopWave c 1 e)

/-- A stall keeps the context at its word. -/
def State.stallLead (s : State) (c : LCtx) (w : LeadWait) : State := s.modLead c.key fun l => { l with wait := w }

/-- The faulted tokens among some registers. -/
def Lead.faultedIn (l : Lead) (rs : List Nat) : List (Nat × Nat × Raised) :=
  rs.filterMap fun r => match tabGet l.tokens r with
    | some (.faulted op f) => some (r, op, f)
    | _ => none

/-- A pending token among some registers. -/
def Lead.pendingIn (l : Lead) (rs : List Nat) : Option Nat :=
  rs.find? fun r => match tabGet l.tokens r with
    | some (.pending _) => true
    | _ => false

/-- The faulted token whose operation was issued first (R26). -/
def firstFaulted : List (Nat × Nat × Raised) → Option (Nat × Nat × Raised)
  | [] => none
  | a :: as =>
    match firstFaulted as with
    | some b => if b.2.1 < a.2.1 then some b else some a
    | none => some a

/-- Write a j register, if a word writes one (R136). -/
def Lead.putJ (l : Lead) : Option (Nat × Trit) → Lead
  | some (r, t) => if h : r < 16 then { l with j := l.j.set r t h } else l
  | none => l

/-- Results of a lead word (R55). -/
def Lead.results (l : Lead) (d : Done) : Lead :=
  let l := { l with status := raiseFlags l.status d.flags }.putJ d.j
  match d.cat with
  | none => l.putNow d.writes
  | some c => if d.writes.isEmpty then l else { l with outstanding := l.outstanding ++ [{ cat := c, writes := d.writes, gives := d.writes, entries := 0, needs := [] }] }

/-- The next place of a lead context after a word (R59). -/
def Lead.step (l : Lead) (n : Nat) : Lead × Bool :=
  match l.reps with
  | some r => if l.rep + 1 < r.n then ({ l with rep := l.rep + 1, wait := .none }, false)
              else ({ l with pc := pastWord l.pc n, rep := 0, reps := none, wait := .none }, true)
  | none => ({ l with pc := pastWord l.pc n, rep := 0, wait := .none }, true)

/-- The read of a token is an acquire (R25). -/
def State.readTokens (s : State) (i : Instr) : State :=
  match s.cur with
  | .lead k => (xUses i).foldl (fun s r => s.acquire (.token k r) (.lead k)) s
  | _ => s

/-- The word that a lead context issues counts as run in a pair's interval (R397). -/
def Lead.noteRun (l : Lead) (c : LCtx) : Lead := { l with ran := ranWord c.gang (.lead c.key.crew) c.l.pc c.l.rep 0 l.ran }

/-- What the completion of a word leaves in its lead context. -/
def Lead.finish (l : Lead) (c : LCtx) (z : Bool) (n : Nat) (d : Done) : Lead :=
  let l := (l.noteRun c).results d
  (l.step n).1.parkIf (z && (l.step n).2)

/-- What a control word leaves of the lead context that it moves. -/
def Lead.ranControl (l : Lead) (c : LCtx) (z : Bool) : Lead := (l.parkIf z).noteRun c

/-- Complete a lead word. -/
def finishLead (c : LCtx) (z : Bool) (n : Nat) (d : Done) : State :=
  let t := d.s.modLead c.key fun l => l.finish c z n d
  if c.l.outstanding.isEmpty then t else { t with free := t.free + 65536 }

/-- End a lead word that does not complete. -/
def State.stopLead (s : State) (c : LCtx) (n : Nat) : Stop LeadWait → State
  | .fault f => s.raiseLead c f (pastWord c.l.pc n)
  | .after u f => u.raiseLead c f (pastWord c.l.pc n)
  | .wait u w => u.stallLead c w
  | .poison => s.uncorrectable c.key.gang
  | .diverge => s.diverged c.key.gang (.lead c.key.crew)

/-- What stands before a lead word: field checks, then the token scoreboard (R23, R26, R79). -/
def State.leadGate (s : State) (c : LCtx) (i : Instr) (n : Nat) : Option State :=
  match leastFault i with
  | some aux => some (s.stopLead c n (.fault (illegal aux)))
  | none =>
    if c.l.tokens.isEmpty then none
    else
      match c.l.pendingIn (xUses i) with
      | some r => some (s.stallLead c (.token r))
      | none =>
        match firstFaulted (c.l.faultedIn (xUses i)) with
        | some (r, _, f) =>
          some ((s.modLead c.key fun l => { l with tokens := tabDel l.tokens r }).stopLead c n (.fault f))
        | none => none

/-- RUN A LEAD WORD of `n` words. -/
def State.leadWord (s : State) (i : Instr) (z : Bool) (n : Nat) (body : LCtx → LeadRes) : Host.Outcome State Fault Refusal :=
  match s.lctx with
  | none => .fault .noLead
  | some c =>
    match s.leadGate c i n with
    | some t => .next t
    | none =>
      match body c with
      | .ok d => .next ((finishLead c z n d).readTokens i)
      | .error e => .next (s.stopLead c n e)

/-- RUN A LEAD WORD that releases: what the tokens that it reads carry comes first (R25). -/
def State.leadRelease (s : State) (i : Instr) (z : Bool) (n : Nat) (body : State → LCtx → LeadRes) : Host.Outcome State Fault Refusal :=
  (s.readTokens i).leadWord i z n (body (s.readTokens i))

/-- RUN A LEAD CONTROL WORD: its body moves the context itself. -/
def State.leadControl (s : State) (i : Instr) (z : Bool) (body : LCtx → Except (Stop LeadWait) State) :
    Host.Outcome State Fault Refusal :=
  match s.lctx with
  | none => .fault .noLead
  | some c =>
    match s.leadGate c i 1 with
    | some t => .next t
    | none =>
      match body c with
      | .ok t =>
        let t := t.modLead c.key fun l => l.ranControl c z
        .next ((if c.l.outstanding.isEmpty then t else { t with free := t.free + 65536 }).readTokens i)
      | .error e => .next (s.stopLead c 1 e)

end Sys2Proof.Machine
end

