-- ==== Sys2Proof/Machine/Operands.lean ====
section
/-!
DEFINITION. Every operand form: the second source of wave words with uniform registers, queue pops and special operands
(R19, R51, R144, R204), immediates (R54), the second source of lead words (R133), and the address operands, limits and
alignment of wave memory words (R237 to R240).
-/

namespace Sys2Proof.Machine

/-- Width in bits of an operand. -/
def bitsOf (wide : Bool) : Nat := if wide then 64 else 32

/-- A uniform register of a crew (R66). -/
def Crew.cReg (c : Crew) (n : Nat) : Nat := if h : n < 64 then (c.c[n]).toNat else 0

/-- A 64-bit uniform pair, low half in the even register (R66). -/
def Crew.cPair (c : Crew) (n : Nat) : Nat := c.cReg n + 2 ^ 32 * c.cReg (n + 1)

/-- The 128-bit set of a uniform quad (R178, R192). -/
def Crew.cQuad (c : Crew) (n : Nat) : BitVec 128 := BitVec.ofNat 128 (c.cPair n + 2 ^ 64 * c.cPair (n + 2))

/-- Gangs of the launch of a gang (R13). -/
def State.ngang (s : State) (g : Gang) : Nat := ((s.launchOf g).map fun l => recGangs l.record).getD 0

/-- A special operand of a wave (R13, R51; wave i of a crew runs on partition i mod 4, R367). -/
def State.waveSpecial (s : State) (c : WCtx) (code : Nat) (l : Lane) : Nat :=
  match code with
  | 68 => l.val
  | 69 => 32 * c.key.crew + c.key.wave
  | 70 => c.key.crew
  | 71 => c.key.wave % 4
  | 72 => c.gang.index
  | _ => s.ngang c.gang

/-- A special operand of a lead context: lane and part read 0, wave the index of its crew's wave 0 (R13, R133). -/
def State.leadSpecial (s : State) (c : LCtx) (code : Nat) : Nat :=
  match code with
  | 0 => 0
  | 1 => 32 * c.key.crew
  | 2 => c.key.crew
  | 3 => 0
  | 4 => c.gang.index
  | _ => s.ngang c.gang

/-! ### Wave sources -/

/-- The second source of a wave word: a b field with its b-space, or an immediate already read by R54. -/
inductive Src where
  | field (b : BitVec 7) (x : Bool)
  | imm (code : Nat)
  deriving DecidableEq, Repr

/-- The entry that a pop of decision queue `q` takes: all ones where the queue is empty and the lead context has exited
(R144), none where the wave stalls (R18). -/
def State.frontOf (s : State) (c : WCtx) (q : Nat) : Option (DWord × Option Nat) :=
  if h : q < 4 then
    let dq := c.crew.dq[q]
    match dq.entries[c.w.popped[q] - dq.retired]? with
    | some e => some (e.1, some q)
    | none => if s.leadExited (crewOf c.key) then some (BitVec.allOnes 64, none) else none
  else none

/-- What a wave source gives: its value in every lane and the queue to pop when the word completes (R19). -/
abbrev Operand := Vector Nat 32 × Option Nat

/-- The value of a wave source; `fill` is what a dead register reads as (R178). -/
def State.src (s : State) (c : WCtx) (wide : Bool) (fill : Nat) : Src → Except (Stop SplitWait) Operand
  | .imm code => .ok (Vector.replicate 32 code, none)
  | .field b x =>
    let n := b.toNat
    if !x then .ok (s.vReg c.w wide n fill, none)
    else if n < 64 then .ok (Vector.replicate 32 (if wide then c.crew.cPair n else c.crew.cReg n), none)
    else if n < 68 then
      match s.frontOf c (n - 64) with
      | some (e, pop) => .ok (Vector.replicate 32 (if wide then e.toNat else e.toNat % 2 ^ 32), pop)
      | none => .error (.wait s (.queue (n - 64)))
    else .ok (Vector.ofFn fun l => s.waveSpecial c n l, none)

/-- A word that completes with a v result in the lanes of the split. -/
def lanewise (s : State) (c : WCtx) (wide : Bool) (d : BitVec 7) (pop : Option Nat) (f : Lane → Nat × Flags) : Done :=
  let r : Vector (Nat × Flags) 32 := Vector.ofFn f
  { s, writes := vWrites wide d.toNat c.sp.lanes (r.map Prod.fst), pop,
    flags := (lanesOf c.sp.lanes).foldl (fun a l => a ||| r[l].2) Flags.none }

/-- A word that completes with a k result in the lanes of the split. -/
def kwise (s : State) (c : WCtx) (d : BitVec 7) (pop : Option Nat) (f : Lane → Trit × Flags) : Done :=
  let r : Vector (Trit × Flags) 32 := Vector.ofFn f
  { s, writes := [.k d.toNat c.sp.lanes (r.map Prod.fst)], pop,
    flags := (lanesOf c.sp.lanes).foldl (fun a l => a ||| r[l].2) Flags.none }

/-! ### Lead sources -/

/-- The second source of a lead word (R133). -/
def State.leadSrc (s : State) (c : LCtx) (k : Kind) (b : BitVec 6) (y : BitVec 2) (c32 : Bool) : Nat :=
  match y.toNat with
  | 0 => (s.xReg c.l b.toNat).toNat
  | 1 =>
    if c32 then
      match k with
      | .signed => ofInt 64 (toSigned 32 (c.crew.cReg b.toNat))
      | _ => c.crew.cReg b.toNat
    else c.crew.cPair b.toNat
  | _ => s.leadSpecial c b.toNat

/-- A lead word that completes with one x result written at once. -/
def leadDone (s : State) (d : BitVec 6) (v : Nat) (flags : Flags) : Done :=
  { s, writes := [.x d.toNat (BitVec.ofNat 64 v)], flags }

/-! ### Wave addresses -/

/-- The offset of an extension word (R52, R237). -/
def extOff : Option MemExt → Int
  | some e => toSigned 8 e.off.toNat
  | none => 0

/-- The address of every lane, none where absent (R237, R238). -/
def State.addrs (s : State) (c : WCtx) (a b : BitVec 7) (x f : Bool) (ext : Option MemExt) : Vector (Option Nat) 32 :=
  let at_ (i : Int) : Option Nat := some (ofInt 64 (i + extOff ext))
  if !f then
    let va := s.v32 c.w a.toNat 0x8000_0000
    Vector.ofFn fun l => if va[l] = 0x8000_0000 then none else at_ (c.crew.cPair b.toNat + toSigned 32 va[l])
  else if x then Vector.replicate 32 (at_ (c.crew.cPair b.toNat))
  else
    let va := s.v64 c.w a.toNat (2 ^ 64 - 1)
    Vector.ofFn fun l => if va[l] = 2 ^ 64 - 1 ∨ va[l] = 2 ^ 63 then none else at_ va[l]

/-- The addresses of GATH, SCAT and SCADD: base + 4 * index + offset (R259). -/
def State.elemAddrs (s : State) (c : WCtx) (a b : BitVec 7) (ext : Option MemExt) : Vector (Option Nat) 32 :=
  let va := s.v32 c.w a.toNat 0x8000_0000
  Vector.ofFn fun l =>
    if va[l] = 0x8000_0000 then none else some (ofInt 64 (c.crew.cPair b.toNat + 4 * toSigned 32 va[l] + extOff ext))

/-- The limit of an extension word (R239). -/
def limitOf (c : WCtx) : Option MemExt → Option Nat
  | some e => if e.limit.toNat = 0x7F then none else some (c.crew.cPair e.limit.toNat)
  | none => none

/-- Whether an access of `n` bytes lies within the limit (R239). -/
def inLimit (lim : Option Nat) (addr n : Nat) : Bool :=
  match lim with
  | none => true
  | some m => decide (addr + n ≤ m)

/-- The address of every lane of the split that takes part (R240). -/
def partAddrs (c : WCtx) (ext : Option MemExt) (n : Nat) (addrs : Vector (Option Nat) 32) : Vector (Option Nat) 32 :=
  let lim := limitOf c ext
  Vector.ofFn fun l =>
    match addrs[l] with
    | some a => if c.sp.lanes.getLsbD l.val && inLimit lim a n then some a else none
    | none => none

end Sys2Proof.Machine
end

