-- ==== Sys2Proof/Machine/Fences.lean ====
section
/-!
DEFINITION. Code as contexts read it: the word at an address, the clause that covers it (R44, R63), and the look ahead for an
acquire fence that R394 makes in a pair.
-/

namespace Sys2Proof.Machine

/-- The word at a virtual address of a code page. -/
def State.codeWord (s : State) (va : Nat) : Except Tr Word :=
  match s.translate .exec va with
  | .ok pa => .ok (BitVec.ofNat 32 (s.rdNat pa 4))
  | t => .error t

/-- Whether a code word stands in a poisoned line (R383). -/
def State.codePoisoned (s : State) (va : Nat) : Bool :=
  match s.translate .exec va with
  | .ok pa => s.poisoned pa 4
  | _ => false

/-- The distance in words back to the clause header that covers a word. -/
def clauseBack (headers : List Nat) (pc : Nat) : Option Nat :=
  (upFrom 1 15).find? fun k => decide (4 * k ≤ pc) && headers.contains (pc - 4 * k)

/-- Whether the word at an address is the last of its clause (R44). -/
def State.lastInClause (s : State) (headers : List Nat) (pc : Nat) : Bool :=
  match clauseBack headers pc with
  | none => false
  | some k =>
    match s.codeWord (pc - 4 * k) with
    | .ok h => fieldNat h.toNat 24 4 == k
    | .error _ => false

/-- Scopes wider than gang (R52). -/
def widerThanGang (scope : BitVec 4) : Bool := decide (scope.toNat > 4)

/-- Whether an instruction is an acquire FENCE at a scope wider than gang. -/
def isAcquireFence : Instr → Bool
  | .fence _ e => widerThanGang e.scope && e.order.toNat % 2 == 1
  | .leadFence _ p o => widerThanGang p && o.toNat % 2 == 1
  | _ => false

/-- Whether the word at an address, or the first word of the clause that begins there, is such a fence. -/
def State.acquireFenceAt (s : State) (headers : List Nat) (pc : Nat) : Bool :=
  let pc := if headers.contains pc then pc + 4 else pc
  match clauseBack headers pc with
  | none => false
  | some k =>
    match s.codeWord (pc - 4 * k), s.codeWord pc with
    | .ok h, .ok w =>
      let cls := fieldNat h.toNat 28 4
      let ext := match s.codeWord (pc + 4) with
        | .ok e => some e
        | .error _ => none
      match decodeWord cls w (if needsExt cls w then ext else none) with
      | .ok i _ => isAcquireFence i
      | .bad _ => false
    | _, _ => false

end Sys2Proof.Machine
end

