-- ==== Sys2Proof/Machine/Pairs.lean ====
section
/-!
DEFINITION. Redundant pairs as the words of a pair gang meet them: signatures, injection, compare points, buffered stores,
slack and forwarding (R151, R389 to R395). Outside a pair every gate is the plain action.
-/

namespace Sys2Proof.Machine

/-! ### Compare points by kind (R391) -/

def kindAtom : Nat := 1
def kindCas : Nat := 2
def kindScadd : Nat := 3
def kindAtomx : Nat := 4
def kindStore : Nat := 5
def kindFence : Nat := 6
def kindNtdrain : Nat := 7
def kindQpush : Nat := 8
def kindQpop : Nat := 9
def kindLaunch : Nat := 10
def kindSmap : Nat := 11
def kindBinit : Nat := 12
def kindBarr : Nat := 13
def kindMark : Nat := 14
def kindSnap : Nat := 15
def kindRollbk : Nat := 16
def kindCommit : Nat := 17
def kindCopy : Nat := 18
def kindPcopy : Nat := 19
def kindExit : Nat := 20

/-! ### Parties -/

/-- The party state of the counterpart. -/
def State.peerParty (s : State) (p : PairState) (q : Party) : PartyState :=
  match s.gang p.peer with
  | some gg => (gg.pair.map fun r => r.party q).getD PartyState.fresh
  | none => PartyState.fresh

/-- The party of a wave context. -/
def WCtx.party (c : WCtx) : Party := .wave c.key.crew c.key.wave
/-- The party of a lead context. -/
def LCtx.party (c : LCtx) : Party := .lead c.key.crew

/-- Whether a split waits for its counterpart: for a forwarded value, or for slack. -/
def wakePair (slackOnly : Bool) (w : SplitWait) : SplitWait :=
  match w with
  | .forward => if slackOnly then .forward else .matched 0
  | .forwardAddr => if slackOnly then .forwardAddr else .matched 0
  | .slack => .none
  | w => w

def wakePairLead (slackOnly : Bool) (w : LeadWait) : LeadWait :=
  match w with
  | .forward => if slackOnly then .forward else .matched 0
  | .forwardAddr => if slackOnly then .forwardAddr else .matched 0
  | .slack => .none
  | w => w

/-- Wake what a party waits for from its counterpart. -/
def State.wakeParty (s : State) (g : Nat) (q : Party) (slackOnly : Bool) : State :=
  match q with
  | .wave crew wave =>
    s.modWave { gang := g, crew, wave } fun w =>
      { w with slot0 := w.slot0.map fun p => { p with wait := wakePair slackOnly p.wait },
               slot1 := w.slot1.map fun p => { p with wait := wakePair slackOnly p.wait } }
  | .lead crew => s.modLead { gang := g, crew } fun l => { l with wait := wakePairLead slackOnly l.wait }

/-- Forward a result to the counterpart (R394). -/
def State.forward (s : State) (p : PairState) (q : Party) (f : Forward) : State :=
  (s.modParty p.peer q fun t => { t with forwards := t.forwards ++ [f] }).wakeParty p.peer q false

/-! ### Records and injection -/

/-- A record of the signature (R390). -/
def sigRecord (va size : Nat) (rmw release : Bool) (data : List Byte) : List Byte :=
  toBytes 8 va ++ toBytes 1 (size % 32 + (if rmw then 128 else 0) + (if release then 64 else 0)) ++ data

/-- Invert one bit of a byte string; none past its end. -/
def flipBit (bs : List Byte) (i : Nat) : List Byte :=
  bs.mapIdx fun j b => if j = i / 8 then b ^^^ BitVec.ofNat 8 (2 ^ (i % 8)) else b

/-- The data of store number `n` of a wave of a pair gang, with the launch's injection (R151, R390). -/
def State.inject (s : State) (g : Gang) (wave n : Nat) (data : List Byte) : List Byte :=
  match g.pair, s.launchOf g with
  | some p, some l =>
    let r := l.record
    let kind := recField r 1016 8
    let hit := (kind == 1 && !p.leading) || (kind == 2 && p.leading)
    if hit && g.index == 0 && l.reruns == 0 && recField r 992 16 == wave && recField r 960 32 == n then
      flipBit data (recField r 1008 8)
    else data
  | _, _ => data

/-- The ordinal of the store that a context is about to make or, past its compare point, is making. -/
def storeOrdinal (p : PairState) (q : Party) (at_ : Option Nat) : Nat :=
  match at_ with
  | some n => (tabGet (p.party q).ords n).getD (p.party q).stores
  | none => (p.party q).stores + 1

/-! ### Gates -/

/-- Whether a wave context is past its compare point. -/
def WCtx.matched (c : WCtx) : Bool :=
  match c.sp.wait with
  | .matched _ => true
  | _ => false

def LCtx.matched (c : LCtx) : Bool :=
  match c.l.wait with
  | .matched _ => true
  | _ => false

/-- The compare point that a context is past. -/
def WCtx.matchedAt (c : WCtx) : Option Nat :=
  match c.sp.wait with
  | .matched n => some n
  | _ => none

def LCtx.matchedAt (c : LCtx) : Option Nat :=
  match c.l.wait with
  | .matched n => some n
  | _ => none

/-- The operation of the word at a place, its registers apart: class, opcode and, for SMAP, the operation in its extension word. Two
gangs that forward work must forward the same (R396). -/
def State.opAt (s : State) (headers : List Nat) (pc : Nat) : Nat :=
  match clauseBack headers pc with
  | none => 0
  | some k =>
    match s.codeWord (pc - 4 * k), s.codeWord pc with
    | .ok h, .ok w =>
      let cls := fieldNat h.toNat 28 4
      let op := fieldNat w.toNat 24 7
      let ext := if cls = 11 ∧ op = 8 then match s.codeWord (pc + 4) with
          | .ok e => e.toNat % 8
          | .error _ => 0
        else 0
      cls * 2 ^ 10 + op * 8 + ext
    | _, _ => 0

/-- The operation of the word that a context issues. -/
def WCtx.op (s : State) (c : WCtx) : Nat :=
  match s.codeOf c.gang with
  | some co => s.opAt co.wave.headers c.sp.pc.toNat
  | none => 0

def LCtx.op (s : State) (c : LCtx) : Nat :=
  match s.codeOf c.gang with
  | some co => s.opAt co.lead.headers c.l.pc.toNat
  | none => 0

/-- Records into a party's signature; a word that makes one is a store (R390). -/
def PartyState.record (t : PartyState) (recs : List (List Byte)) : PartyState :=
  { t with sig := recs.foldl crcFrom t.sig, stores := t.stores + (if recs.isEmpty then 0 else 1) }

/-- A compare point ends the interval (R391). -/
def PartyState.point (t : PartyState) (kind : Nat) (op : List Nat) : PartyState :=
  { t with sig := 0, next := t.next + 1, points := t.points ++ [{ n := t.next, kind, sig := t.sig, op }] }

/-- A periodic compare point falls after every 256th store (R391). -/
def PartyState.periodic (t : PartyState) (stored : Bool) : PartyState :=
  if stored && t.stores % 256 == 0 then t.point 0 [] else t

/-- A word reaches its synchronising compare point: its records end the interval, its store keeps its ordinal, and a periodic point
follows where this was a 256th store (R391). -/
def PartyState.sync (t : PartyState) (kind : Nat) (op : List Nat) (recs : List (List Byte)) : PartyState :=
  let u := t.record recs
  ({ u with ords := tabSet u.ords t.next u.stores }.point kind op).periodic !recs.isEmpty

/-- Whose forwarded value a context takes: a split is known by its lanes, a lead context has none (R394). -/
structure Taker where
  lanes : LaneSet
  op : Nat
  deriving DecidableEq, Repr

/-- The taker that a party is at a word of its gang's code. -/
def State.takerAt (s : State) (g : Gang) (q : Party) (lanes : LaneSet) (pc : Nat) : Taker :=
  match s.codeOf g with
  | none => { lanes, op := 0 }
  | some co => match q with
    | .wave _ _ => { lanes, op := s.opAt co.wave.headers pc }
    | .lead _ => { lanes, op := s.opAt co.lead.headers pc }

def WCtx.taker (s : State) (c : WCtx) : Taker := { lanes := c.sp.lanes, op := c.op s }
def LCtx.taker (s : State) (c : LCtx) : Taker := { lanes := 0, op := c.op s }

/-- The first forwarded result for a context's lanes, if there is one (R394). -/
def State.takeForward (s : State) (g : Nat) (p : PairState) (q : Party) (k : Taker) : Option (Forward × State) :=
  let fs := (p.party q).forwards
  (fs.find? fun f => f.lanes == k.lanes || f.lanes &&& k.lanes != 0).map fun f =>
    (f, s.modParty g q fun t => { t with forwards := fs.erase f })

/-- What the leading gang's work gives to both gangs: its result, or its fault (R394, R397). -/
def leadGives {ω : Type} (p : PairState) (q : Party) (k : Taker) (r : Except (Stop ω) Done) : Except (Stop ω) Done :=
  let f : Forward := { lanes := k.lanes, op := k.op, writes := [], flags := Flags.none, fault := none }
  match r with
  | .ok d => .ok { d with s := d.s.forward p q { f with writes := d.writes, flags := d.flags } }
  | .error (.after s e) => .error (.after (s.forward p q { f with fault := some e }) e)
  | .error e => .error e

/-- A fault of forwarded work carries the state before it. -/
def State.held {ω : Type} (s : State) (r : Except (Stop ω) Done) : Except (Stop ω) Done :=
  match r with
  | .error (.fault f) => .error (.after s f)
  | r => r

/-- The party of a gang as the chains of R32 know it. -/
def partyActor (g : Nat) (q : Party) (lanes : LaneSet) : Actor :=
  match q with
  | .wave crew wave => .wave { gang := g, crew, wave } lanes
  | .lead crew => .lead { gang := g, crew }

/-- A forwarded acquire carries its ordering: the trailing party knows what the leading one does (R394). -/
def State.forwardOrder (s : State) (g : Nat) (p : PairState) (q : Party) (lanes : LaneSet) : State :=
  s.release (partyActor p.peer q lanes) (.actor (partyActor g q lanes))

/-- What the trailing gang takes: the result, or the same fault. Where the leading gang has forwarded another operation, the gangs
diverge (R396). -/
def State.trail {ω : Type} (s : State) (g : Nat) (p : PairState) (q : Party) (k : Taker) (cat : Option Cat) (wait : ω) :
    Except (Stop ω) Done :=
  match s.takeForward g p q k with
  | none => .error (.wait s wait)
  | some (f, t) =>
    if f.lanes ≠ k.lanes ∨ f.op ≠ k.op then .error .diverge
    else
      match f.fault with
      | some e => .error (.after t e)
      | none => .ok { s := t.forwardOrder g p q k.lanes, writes := f.writes, flags := f.flags, cat }

/-- A word that waits on an address: the trailing gang waits there too, and can be saved there (R199, R372). -/
def onAddress (r : WaveRes) : WaveRes :=
  match r with
  | .error (.wait s .forward) => .error (.wait s .forwardAddr)
  | r => r

def onAddressLead (r : LeadRes) : LeadRes :=
  match r with
  | .error (.wait s .forward) => .error (.wait s .forwardAddr)
  | r => r

/-- Work that the leading gang performs once: the trailing gang takes its result (R394). -/
def State.forwarded (s : State) (c : WCtx) (cat : Option Cat) (perform : State → WaveRes) : WaveRes :=
  match c.gang.pair with
  | none => perform s
  | some p =>
    if p.leading then leadGives p c.party (c.taker s) (s.held (perform s))
    else s.trail c.key.gang p c.party (c.taker s) cat .forward

/-- A wait that the leading gang meets past a compare point leaves it there. -/
def stayAt {ω : Type} (leading : Bool) (wait : ω) (r : Except (Stop ω) Done) : Except (Stop ω) Done :=
  match r with
  | .error (.wait s w) => .error (.wait s (if leading then wait else w))
  | r => r

/-- Work at a synchronising compare point: the point first, then the work once (R391, R392, R394). -/
def State.atPoint (s : State) (c : WCtx) (kind : Nat) (recs : List (List Byte)) (cat : Option Cat) (perform : State → WaveRes) :
    WaveRes :=
  match c.gang.pair with
  | none => perform s
  | some p =>
    if c.matched then stayAt p.leading c.sp.wait (s.forwarded c cat perform)
    else .error (.wait (s.modParty c.key.gang c.party fun t => t.sync kind [c.op s] recs) (.point (p.party c.party).next))

/-- The same for a lead context. -/
def State.forwardedLead (s : State) (c : LCtx) (cat : Option Cat) (perform : State → LeadRes) : LeadRes :=
  match c.gang.pair with
  | none => perform s
  | some p =>
    if p.leading then leadGives p c.party (c.taker s) (s.held (perform s))
    else s.trail c.key.gang p c.party (c.taker s) cat .forward

def State.atPointLead (s : State) (c : LCtx) (kind : Nat) (op : List Nat) (recs : List (List Byte)) (cat : Option Cat)
    (perform : State → LeadRes) : LeadRes :=
  match c.gang.pair with
  | none => perform s
  | some p =>
    if c.matched then stayAt p.leading c.l.wait (s.forwardedLead c cat perform)
    else .error (.wait (s.modParty c.key.gang c.party fun t => t.sync kind (c.op s :: op) recs) (.point (p.party c.party).next))

/-- Bytes of a Sillage buffer (R389). -/
def bufferSize : Nat := 4 * 2 ^ 20

/-- Bytes that a pair gang holds in its cluster's buffer: its stores, and the chunks of its copies to memory that wait for their
comparison (R392, R393). -/
def PairState.held (p : PairState) : Nat :=
  p.buf.foldl (fun n e => n + e.2.bytes.length) 0 +
  p.units.foldl (fun n u => if u.chunk.isSome then u.writes.foldl (fun k w => k + w.2.length) n else n) 0

/-- Bytes in the buffer of a cluster. -/
def State.buffered (s : State) (cl : Nat) : Nat :=
  s.gangs.foldl (fun n e => if e.2.place.cluster = cl then n + (e.2.pair.map PairState.held).getD 0 else n) 0

/-- Whether the slack of R392 holds a party back: 4,096 stores ahead of its counterpart, or, in the leading gang, a full buffer. -/
def State.slackFull (s : State) (cl : Nat) (p : PairState) (q : Party) : Bool :=
  decide ((p.party q).stores ≥ (s.peerParty p q).stores + 4096) || (p.leading && decide (s.buffered cl ≥ bufferSize))

/-- A store of a pair gang: into the buffer and the signature; a periodic point after every 256th (R390 to R392). -/
def State.bufferStore (s : State) (g : Nat) (p : PairState) (q : Party) (recs : List (List Byte)) (ws : List (Nat × List Byte)) :
    State :=
  let t := p.party q
  let s := s.modGang g fun gg => { gg with pair := gg.pair.map fun r =>
    { r with buf := r.buf ++ ws.map fun w => (q, { interval := t.next, pa := w.1, bytes := w.2 }) } }
  let s := s.modParty g q fun t => (t.record recs).periodic !recs.isEmpty
  s.wakeParty p.peer q true

/-- A plain store: to memory, or into the pair's buffer. -/
def State.storeGate (s : State) (c : WCtx) (recs : List (List Byte)) (ws : List (Nat × List Byte)) :
    Except (Stop SplitWait) State :=
  match c.gang.pair with
  | none => .ok (s.wrAllBy .w c.actor ws)
  | some p =>
    if !recs.isEmpty && s.slackFull c.gang.place.cluster p c.party then .error (.wait s .slack)
    else .ok (s.bufferStore c.key.gang p c.party recs ws)

/-- The same for a lead context. -/
def State.storeGateLead (s : State) (c : LCtx) (recs : List (List Byte)) (ws : List (Nat × List Byte)) :
    Except (Stop LeadWait) State :=
  match c.gang.pair with
  | none => .ok (s.wrAllBy .l (.lead c.key) ws)
  | some p =>
    if !recs.isEmpty && s.slackFull c.gang.place.cluster p c.party then .error (.wait s .slack)
    else .ok (s.bufferStore c.key.gang p c.party recs ws)

/-- Whether the next word in program order is an acquire FENCE at a scope wider than gang (R394). -/
def WCtx.thenFence (s : State) (c : WCtx) (words : Nat) : Bool :=
  match s.codeOf c.gang with
  | some co => s.acquireFenceAt co.wave.headers (c.sp.pc.toNat + 4 * words)
  | none => false

def LCtx.thenFence (s : State) (c : LCtx) (words : Nat) : Bool :=
  match s.codeOf c.gang with
  | some co => s.acquireFenceAt co.lead.headers (c.l.pc.toNat + 4 * words)
  | none => false

end Sys2Proof.Machine
end

