-- ==== Sys2Proof/Machine/WaveFloat.lean ====
section
/-!
DEFINITION. Class 1: floating words of waves (R211 to R213).
-/

namespace Sys2Proof.Machine

/-- What a dead register reads as for .f32 (R178). -/
def deadF32 : Nat := 0xFFFF_FFFF

/-- An .f32 word with sources a and b, rounded by the status mode (R100, R211). -/
def State.fltTwo (s : State) (d a : BitVec 7) (b : Src) (f : Rnd → Nat → Nat → Nat × Flags) (c : WCtx) : WaveRes := do
  let (vb, pop) ← s.src c false deadF32 b
  let va := s.v32 c.w a.toNat deadF32
  return lanewise s c false d pop fun l => f (statusMode c.w.status) va[l] vb[l]

/-- An .f32 word that also reads d. -/
def State.fltThree (s : State) (d a : BitVec 7) (b : Src) (f : Rnd → Nat → Nat → Nat → Nat × Flags) (c : WCtx) : WaveRes := do
  let (vb, pop) ← s.src c false deadF32 b
  let va := s.v32 c.w a.toNat deadF32
  let vd := s.v32 c.w d.toNat deadF32
  return lanewise s c false d pop fun l => f (statusMode c.w.status) va[l] vb[l] vd[l]

/-- An .f32 word with one source. -/
def State.fltOne (s : State) (d a : BitVec 7) (f : Rnd → Nat → Nat × Flags) (c : WCtx) : WaveRes :=
  let va := s.v32 c.w a.toNat deadF32
  return lanewise s c false d none fun l => f (statusMode c.w.status) va[l]

/-- An immediate of .f32 (R54). -/
def immFlt (i : BitVec 8) : Src := .imm (immF32 i)

def execFadd (z : Bool) (d a b : BitVec 7) (x : Bool) (s : State) :=
  s.waveWord (.fadd z d a b x) z 1 (s.fltTwo d a (.field b x) fAdd)
def execFaddImm (z : Bool) (d a : BitVec 7) (i : BitVec 8) (s : State) :=
  s.waveWord (.faddImm z d a i) z 1 (s.fltTwo d a (immFlt i) fAdd)
def execFsub (z : Bool) (d a b : BitVec 7) (x : Bool) (s : State) :=
  s.waveWord (.fsub z d a b x) z 1 (s.fltTwo d a (.field b x) fSub)
def execFsubImm (z : Bool) (d a : BitVec 7) (i : BitVec 8) (s : State) :=
  s.waveWord (.fsubImm z d a i) z 1 (s.fltTwo d a (immFlt i) fSub)
def execFmul (z : Bool) (d a b : BitVec 7) (x : Bool) (s : State) :=
  s.waveWord (.fmul z d a b x) z 1 (s.fltTwo d a (.field b x) fMul)
def execFmulImm (z : Bool) (d a : BitVec 7) (i : BitVec 8) (s : State) :=
  s.waveWord (.fmulImm z d a i) z 1 (s.fltTwo d a (immFlt i) fMul)
def execFma (z : Bool) (d a b : BitVec 7) (x : Bool) (s : State) :=
  s.waveWord (.fma z d a b x) z 1 (s.fltThree d a (.field b x) fFma)

def execFmin (z : Bool) (d a b : BitVec 7) (x : Bool) (s : State) :=
  s.waveWord (.fmin z d a b x) z 1 (s.fltTwo d a (.field b x) fun _ m n => (fMinMax .lt m n, Flags.none))
def execFminImm (z : Bool) (d a : BitVec 7) (i : BitVec 8) (s : State) :=
  s.waveWord (.fminImm z d a i) z 1 (s.fltTwo d a (immFlt i) fun _ m n => (fMinMax .lt m n, Flags.none))
def execFmax (z : Bool) (d a b : BitVec 7) (x : Bool) (s : State) :=
  s.waveWord (.fmax z d a b x) z 1 (s.fltTwo d a (.field b x) fun _ m n => (fMinMax .gt m n, Flags.none))
def execFmaxImm (z : Bool) (d a : BitVec 7) (i : BitVec 8) (s : State) :=
  s.waveWord (.fmaxImm z d a i) z 1 (s.fltTwo d a (immFlt i) fun _ m n => (fMinMax .gt m n, Flags.none))

def execFabs (z : Bool) (d a : BitVec 7) (s : State) :=
  s.waveWord (.fabs z d a) z 1 (s.fltOne d a fun _ m => (fSign false m, Flags.none))
def execFneg (z : Bool) (d a : BitVec 7) (s : State) :=
  s.waveWord (.fneg z d a) z 1 (s.fltOne d a fun _ m => (fSign true m, Flags.none))

/-- The rounding mode of FRND and CVT: 0 the status mode, else RNE, RZ, RU, RD (R213, R214). -/
def modeOf (status : DWord) (r : Nat) : Rnd := if r = 0 then statusMode status else Rnd.ofCode (r - 1)

def execFrnd (z : Bool) (d a : BitVec 7) (r : BitVec 7) (s : State) :=
  s.waveWord (.frnd z d a r) z 1 fun c => s.fltOne d a (fun _ m => fRnd (modeOf c.w.status r.toNat) m) c

end Sys2Proof.Machine
end

