-- ==== Sys2Proof/Machine/WaveInt.lean ====
section
/-!
DEFINITION. Class 0: integer and raw-bits words of waves (R203, R204, R208 to R210).
-/

namespace Sys2Proof.Machine

/-! ### Shapes -/

/-- A word of an integer type with sources a and b (R208). -/
def State.intTwo (s : State) (w : Bool) (k : Kind) (d a : BitVec 7) (b : Src) (f : Int → Int → Int) (c : WCtx) : WaveRes := do
  let n := bitsOf w
  let fill := absentCode k n
  let (vb, pop) ← s.src c w fill b
  let va := s.vReg c.w w a.toNat fill
  return lanewise s c w d pop fun l => intOp k n [va[l], vb[l]] fun xs => f (xs.getD 0 0) (xs.getD 1 0)

/-- A word of an integer type with one source (R208). -/
def State.intOne (s : State) (w : Bool) (k : Kind) (d a : BitVec 7) (f : Int → Int) (c : WCtx) : WaveRes :=
  let n := bitsOf w
  let va := s.vReg c.w w a.toNat (absentCode k n)
  return lanewise s c w d none fun l => intOp k n [va[l]] fun xs => f (xs.getD 0 0)

/-- A raw-bits word with sources a and b: only the low bits of the result are kept (R208 to R210). -/
def State.bitsTwo (s : State) (w : Bool) (d a : BitVec 7) (b : Src) (f : Nat → Nat → Nat) (c : WCtx) : WaveRes := do
  let n := bitsOf w
  let (vb, pop) ← s.src c w (2 ^ n - 1) b
  let va := s.vReg c.w w a.toNat (2 ^ n - 1)
  return lanewise s c w d pop fun l => (f va[l] vb[l] % 2 ^ n, Flags.none)

/-- A raw-bits word with one source. -/
def State.bitsOne (s : State) (w : Bool) (d a : BitVec 7) (f : Nat → Nat) (c : WCtx) : WaveRes :=
  let n := bitsOf w
  let va := s.vReg c.w w a.toNat (2 ^ n - 1)
  return lanewise s c w d none fun l => (f va[l] % 2 ^ n, Flags.none)

/-- An immediate of an integer type (R54). -/
def immSrc (w : Bool) (k : Kind) (i : BitVec 8) : Src := .imm (immCode k (bitsOf w) i)

/-! ### Bit operations -/

/-- A shift or rotate count: the low bits of b (R209). -/
def countOf (w : Bool) (b : Nat) : Nat := b % bitsOf w

def shlBits (w : Bool) (a b : Nat) : Nat := a * 2 ^ countOf w b
def shrBits (w : Bool) (a b : Nat) : Nat := a % 2 ^ bitsOf w / 2 ^ countOf w b
def sarBits (w : Bool) (a b : Nat) : Nat := ofInt (bitsOf w) (asr (toSigned (bitsOf w) a) (countOf w b))
def rotBits (w : Bool) (a b : Nat) : Nat :=
  let n := bitsOf w
  let c := countOf w b
  a % 2 ^ n * 2 ^ c + a % 2 ^ n / 2 ^ (n - c)

/-- Zero bits above the highest set bit (R209). -/
def clzBits (w : Bool) (a : Nat) : Nat := if a % 2 ^ bitsOf w = 0 then bitsOf w else bitsOf w - 1 - (a % 2 ^ bitsOf w).log2

/-- Position and width of the field that b describes (R210). -/
def fieldOf (w : Bool) (b : Nat) : Nat × Nat :=
  if w then (fieldNat b 0 6, min 64 (fieldNat b 8 7)) else (fieldNat b 0 5, min 32 (fieldNat b 8 6))

def bfeBits (w : Bool) (a b : Nat) : Nat :=
  let (p, n) := fieldOf w b
  a / 2 ^ p % 2 ^ n

/-- A field inserted into d; what reaches past the top is dropped (R210). -/
def bfiBits (w : Bool) (a b d : Nat) : Nat :=
  let (p, n) := fieldOf w b
  let top := p + n
  d % 2 ^ p + a % 2 ^ n * 2 ^ p + d / 2 ^ top * 2 ^ top

/-! ### The words -/

def execAdd (z w : Bool) (d a b : BitVec 7) (x : Bool) (t : BitVec 2) (s : State) :=
  s.waveWord (.add z w d a b x t) z 1 (s.intTwo w (Kind.ofCode t) d a (.field b x) (· + ·))
def execAddImm (z w : Bool) (d a : BitVec 7) (i : BitVec 8) (t : BitVec 2) (s : State) :=
  s.waveWord (.addImm z w d a i t) z 1 (s.intTwo w (Kind.ofCode t) d a (immSrc w (Kind.ofCode t) i) (· + ·))
def execSub (z w : Bool) (d a b : BitVec 7) (x : Bool) (t : BitVec 2) (s : State) :=
  s.waveWord (.sub z w d a b x t) z 1 (s.intTwo w (Kind.ofCode t) d a (.field b x) (· - ·))
def execSubImm (z w : Bool) (d a : BitVec 7) (i : BitVec 8) (t : BitVec 2) (s : State) :=
  s.waveWord (.subImm z w d a i t) z 1 (s.intTwo w (Kind.ofCode t) d a (immSrc w (Kind.ofCode t) i) (· - ·))
def execMul (z w : Bool) (d a b : BitVec 7) (x : Bool) (t : BitVec 2) (s : State) :=
  s.waveWord (.mul z w d a b x t) z 1 (s.intTwo w (Kind.ofCode t) d a (.field b x) (· * ·))
def execMulImm (z w : Bool) (d a : BitVec 7) (i : BitVec 8) (t : BitVec 2) (s : State) :=
  s.waveWord (.mulImm z w d a i t) z 1 (s.intTwo w (Kind.ofCode t) d a (immSrc w (Kind.ofCode t) i) (· * ·))

/-- MULH: the high half of the exact product never clamps (R93, R208). -/
def State.mulhWord (s : State) (w : Bool) (k : Kind) (d a : BitVec 7) (b : Src) (c : WCtx) : WaveRes := do
  let n := bitsOf w
  let fill := absentCode k n
  let (vb, pop) ← s.src c w fill b
  let va := s.vReg c.w w a.toNat fill
  return lanewise s c w d pop fun l =>
    if isAbsentCode k n va[l] || isAbsentCode k n vb[l] then (absentCode k n, Flags.none)
    else (ofInt n (mulHigh n (intOf k n va[l]) (intOf k n vb[l])), Flags.none)

def execMulh (z w : Bool) (d a b : BitVec 7) (x : Bool) (t : BitVec 2) (s : State) :=
  s.waveWord (.mulh z w d a b x t) z 1 (s.mulhWord w (Kind.ofCode t) d a (.field b x))

/-- MAD: d is read and written; one narrowing of the exact sum (R208). -/
def State.madWord (s : State) (w : Bool) (k : Kind) (d a : BitVec 7) (b : Src) (c : WCtx) : WaveRes := do
  let n := bitsOf w
  let fill := absentCode k n
  let (vb, pop) ← s.src c w fill b
  let va := s.vReg c.w w a.toNat fill
  let vd := s.vReg c.w w d.toNat fill
  return lanewise s c w d pop fun l =>
    intOp k n [va[l], vb[l], vd[l]] fun xs => xs.getD 0 0 * xs.getD 1 0 + xs.getD 2 0

def execMad (z w : Bool) (d a b : BitVec 7) (x : Bool) (t : BitVec 2) (s : State) :=
  s.waveWord (.mad z w d a b x t) z 1 (s.madWord w (Kind.ofCode t) d a (.field b x))

def execAbs (z w : Bool) (d a : BitVec 7) (s : State) :=
  s.waveWord (.abs z w d a) z 1 (s.intOne w .signed d a fun i => i.natAbs)
def execNeg (z w : Bool) (d a : BitVec 7) (t : BitVec 2) (s : State) :=
  s.waveWord (.neg z w d a t) z 1 (s.intOne w (Kind.ofCode t) d a fun i => -i)

def execMin (z w : Bool) (d a b : BitVec 7) (x : Bool) (t : BitVec 2) (s : State) :=
  s.waveWord (.min z w d a b x t) z 1 (s.intTwo w (Kind.ofCode t) d a (.field b x) fun i j => if i ≤ j then i else j)
def execMinImm (z w : Bool) (d a : BitVec 7) (i : BitVec 8) (t : BitVec 2) (s : State) :=
  s.waveWord (.minImm z w d a i t) z 1
    (s.intTwo w (Kind.ofCode t) d a (immSrc w (Kind.ofCode t) i) fun i j => if i ≤ j then i else j)
def execMax (z w : Bool) (d a b : BitVec 7) (x : Bool) (t : BitVec 2) (s : State) :=
  s.waveWord (.max z w d a b x t) z 1 (s.intTwo w (Kind.ofCode t) d a (.field b x) fun i j => if i ≤ j then j else i)
def execMaxImm (z w : Bool) (d a : BitVec 7) (i : BitVec 8) (t : BitVec 2) (s : State) :=
  s.waveWord (.maxImm z w d a i t) z 1
    (s.intTwo w (Kind.ofCode t) d a (immSrc w (Kind.ofCode t) i) fun i j => if i ≤ j then j else i)

def execAnd (z w : Bool) (d a b : BitVec 7) (x : Bool) (s : State) :=
  s.waveWord (.and z w d a b x) z 1 (s.bitsTwo w d a (.field b x) fun m n => m &&& n)
def execAndImm (z w : Bool) (d a : BitVec 7) (i : BitVec 8) (s : State) :=
  s.waveWord (.andImm z w d a i) z 1 (s.bitsTwo w d a (immSrc w .raw i) fun m n => m &&& n)
def execOr (z w : Bool) (d a b : BitVec 7) (x : Bool) (s : State) :=
  s.waveWord (.or z w d a b x) z 1 (s.bitsTwo w d a (.field b x) fun m n => m ||| n)
def execOrImm (z w : Bool) (d a : BitVec 7) (i : BitVec 8) (s : State) :=
  s.waveWord (.orImm z w d a i) z 1 (s.bitsTwo w d a (immSrc w .raw i) fun m n => m ||| n)
def execXor (z w : Bool) (d a b : BitVec 7) (x : Bool) (s : State) :=
  s.waveWord (.xor z w d a b x) z 1 (s.bitsTwo w d a (.field b x) fun m n => m ^^^ n)
def execXorImm (z w : Bool) (d a : BitVec 7) (i : BitVec 8) (s : State) :=
  s.waveWord (.xorImm z w d a i) z 1 (s.bitsTwo w d a (immSrc w .raw i) fun m n => m ^^^ n)
def execNot (z w : Bool) (d a : BitVec 7) (s : State) :=
  s.waveWord (.not z w d a) z 1 (s.bitsOne w d a fun m => 2 ^ bitsOf w - 1 - m % 2 ^ bitsOf w)

def execShl (z w : Bool) (d a b : BitVec 7) (x : Bool) (s : State) :=
  s.waveWord (.shl z w d a b x) z 1 (s.bitsTwo w d a (.field b x) (shlBits w))
def execShlImm (z w : Bool) (d a : BitVec 7) (i : BitVec 8) (s : State) :=
  s.waveWord (.shlImm z w d a i) z 1 (s.bitsTwo w d a (immSrc w .raw i) (shlBits w))
def execShr (z w : Bool) (d a b : BitVec 7) (x : Bool) (s : State) :=
  s.waveWord (.shr z w d a b x) z 1 (s.bitsTwo w d a (.field b x) (shrBits w))
def execShrImm (z w : Bool) (d a : BitVec 7) (i : BitVec 8) (s : State) :=
  s.waveWord (.shrImm z w d a i) z 1 (s.bitsTwo w d a (immSrc w .raw i) (shrBits w))
def execSar (z w : Bool) (d a b : BitVec 7) (x : Bool) (s : State) :=
  s.waveWord (.sar z w d a b x) z 1 (s.bitsTwo w d a (.field b x) (sarBits w))
def execSarImm (z w : Bool) (d a : BitVec 7) (i : BitVec 8) (s : State) :=
  s.waveWord (.sarImm z w d a i) z 1 (s.bitsTwo w d a (immSrc w .raw i) (sarBits w))
def execRot (z w : Bool) (d a b : BitVec 7) (x : Bool) (s : State) :=
  s.waveWord (.rot z w d a b x) z 1 (s.bitsTwo w d a (.field b x) (rotBits w))
def execRotImm (z w : Bool) (d a : BitVec 7) (i : BitVec 8) (s : State) :=
  s.waveWord (.rotImm z w d a i) z 1 (s.bitsTwo w d a (immSrc w .raw i) (rotBits w))
def execClz (z w : Bool) (d a : BitVec 7) (s : State) :=
  s.waveWord (.clz z w d a) z 1 (s.bitsOne w d a (clzBits w))
def execPopc (z w : Bool) (d a : BitVec 7) (s : State) :=
  s.waveWord (.popc z w d a) z 1 (s.bitsOne w d a fun m => popCount (bitsOf w) m)
def execBfe (z w : Bool) (d a b : BitVec 7) (x : Bool) (s : State) :=
  s.waveWord (.bfe z w d a b x) z 1 (s.bitsTwo w d a (.field b x) (bfeBits w))

/-- BFI reads d as well. -/
def State.bfiWord (s : State) (w : Bool) (d a : BitVec 7) (b : Src) (c : WCtx) : WaveRes := do
  let n := bitsOf w
  let (vb, pop) ← s.src c w (2 ^ n - 1) b
  let va := s.vReg c.w w a.toNat (2 ^ n - 1)
  let vd := s.vReg c.w w d.toNat (2 ^ n - 1)
  return lanewise s c w d pop fun l => (bfiBits w va[l] vb[l] vd[l] % 2 ^ n, Flags.none)

def execBfi (z w : Bool) (d a b : BitVec 7) (x : Bool) (s : State) :=
  s.waveWord (.bfi z w d a b x) z 1 (s.bfiWord w d a (.field b x))

end Sys2Proof.Machine
end

