-- ==== Sys2Proof/Machine/WaveCompare.lean ====
section
/-!
DEFINITION. Class 2: compares, trit logic, absent operations and conversion (R214 to R219).
-/

namespace Sys2Proof.Machine

/-! ### Compares -/

/-- An integer or raw-bits compare (R110, R217). -/
def State.cmpWord (s : State) (w : Bool) (cond : Cond) (k : Kind) (d a : BitVec 7) (b : Src) (c : WCtx) : WaveRes := do
  let n := bitsOf w
  let fill := absentCode k n
  let (vb, pop) ← s.src c w fill b
  let va := s.vReg c.w w a.toNat fill
  return kwise s c d pop fun l => (cmpInt cond k n va[l] vb[l], Flags.none)

/-- A floating compare (R110, R217). -/
def State.fcmpWord (s : State) (cond : Cond) (d a : BitVec 7) (b : Src) (c : WCtx) : WaveRes := do
  let (vb, pop) ← s.src c false deadF32 b
  let va := s.v32 c.w a.toNat deadF32
  return kwise s c d pop fun l => fCmp cond va[l] vb[l]

def execCmp (z w : Bool) (c : BitVec 3) (d a b : BitVec 7) (x : Bool) (t : BitVec 2) (s : State) :=
  s.waveWord (.cmp z w c d a b x t) z 1 (s.cmpWord w (Cond.ofCode c.toNat) (Kind.ofCode t) d a (.field b x))
def execCmpImm (z w : Bool) (c : BitVec 3) (d a : BitVec 7) (i : BitVec 8) (t : BitVec 2) (s : State) :=
  s.waveWord (.cmpImm z w c d a i t) z 1 (s.cmpWord w (Cond.ofCode c.toNat) (Kind.ofCode t) d a (immSrc w (Kind.ofCode t) i))
def execFcmp (z : Bool) (c : BitVec 3) (d a b : BitVec 7) (x : Bool) (s : State) :=
  s.waveWord (.fcmp z c d a b x) z 1 (s.fcmpWord (Cond.ofCode c.toNat) d a (.field b x))
def execFcmpImm (z : Bool) (c : BitVec 3) (d a : BitVec 7) (i : BitVec 8) (s : State) :=
  s.waveWord (.fcmpImm z c d a i) z 1 (s.fcmpWord (Cond.ofCode c.toNat) d a (immFlt i))

/-! ### Trit logic -/

/-- A word on two k registers (R218). -/
def State.kTwo (s : State) (d a b : BitVec 7) (f : Trit → Trit → Trit) (c : WCtx) : WaveRes :=
  let ka := s.kReg c.w a.toNat
  let kb := s.kReg c.w b.toNat
  return kwise s c d none fun l => (f ka[l] kb[l], Flags.none)

/-- A word on one k register (R218). -/
def State.kOne (s : State) (d a : BitVec 7) (f : Trit → Trit) (c : WCtx) : WaveRes :=
  let ka := s.kReg c.w a.toNat
  return kwise s c d none fun l => (f ka[l], Flags.none)

def execKand (z : Bool) (d a b : BitVec 7) (s : State) := s.waveWord (.kand z d a b) z 1 (s.kTwo d a b Trit.and)
def execKor (z : Bool) (d a b : BitVec 7) (s : State) := s.waveWord (.kor z d a b) z 1 (s.kTwo d a b Trit.or)
def execKxor (z : Bool) (d a b : BitVec 7) (s : State) := s.waveWord (.kxor z d a b) z 1 (s.kTwo d a b Trit.xor)
def execKnot (z : Bool) (d a : BitVec 7) (s : State) := s.waveWord (.knot z d a) z 1 (s.kOne d a Trit.not)

/-- The trit that KIS tests for: 00 T, 01 F, 10 U (R218). -/
def kisTrit (t : BitVec 2) : Trit :=
  match t.toNat with
  | 0 => .t
  | 1 => .f
  | _ => .u

def execKis (z : Bool) (d a : BitVec 7) (t : BitVec 2) (s : State) :=
  s.waveWord (.kis z d a t) z 1 (s.kOne d a fun q => Trit.ofBool (q == kisTrit t))

/-! ### Absent -/

/-- The value types of an absent operation (R219): signed, unsigned, or .f32, of one width. -/
inductive ATy where
  | int (k : Kind) (n : Nat)
  | f32
  deriving DecidableEq, Repr, Inhabited

/-- The type of m[1:0] (R218 to R220). -/
def ATy.ofCode (w : Bool) (t : BitVec 2) : ATy :=
  match t.toNat with
  | 0 => .int .signed (bitsOf w)
  | 1 => .int .unsigned (bitsOf w)
  | _ => .f32

def ATy.absent : ATy → Nat
  | .int k n => absentCode k n
  | .f32 => FFmt.f32.absent

def ATy.isAbsent (t : ATy) (v : Nat) : Bool :=
  match t with
  | .int k n => isAbsentCode k n v
  | .f32 => v == FFmt.f32.absent

/-- Equality of present values: for .f32 that of FCMP eq (R219). -/
def ATy.eq (t : ATy) (a b : Nat) : Bool :=
  match t with
  | .int _ _ => a == b
  | .f32 => (fCmp .eq a b).1 == .t

/-- ISABS (R112, R218). -/
def State.isabsWord (s : State) (w : Bool) (d a : BitVec 7) (t : BitVec 2) (c : WCtx) : WaveRes :=
  let ty := ATy.ofCode w t
  let va := s.vReg c.w w a.toNat ty.absent
  return kwise s c d none fun l => (Trit.ofBool (ty.isAbsent va[l]), Flags.none)

def execIsabs (z : Bool) (d a : BitVec 7) (t : BitVec 2) (s : State) :=
  s.waveWord (.isabs z d a t) z 1 (s.isabsWord false d a t)
def execIsabs64 (z : Bool) (d a : BitVec 7) (t : BitVec 2) (s : State) :=
  s.waveWord (.isabs64 z d a t) z 1 (s.isabsWord true d a t)

/-- COAL: a if present, else b (R219). -/
def State.coalWord (s : State) (w : Bool) (d a : BitVec 7) (b : Src) (t : BitVec 2) (c : WCtx) : WaveRes := do
  let ty := ATy.ofCode w t
  let (vb, pop) ← s.src c w ty.absent b
  let va := s.vReg c.w w a.toNat ty.absent
  return lanewise s c w d pop fun l => (if ty.isAbsent va[l] then vb[l] else va[l], Flags.none)

def execCoal (z : Bool) (d a b : BitVec 7) (x : Bool) (t : BitVec 2) (s : State) :=
  s.waveWord (.coal z d a b x t) z 1 (s.coalWord false d a (.field b x) t)
def execCoal64 (z : Bool) (d a b : BitVec 7) (x : Bool) (t : BitVec 2) (s : State) :=
  s.waveWord (.coal64 z d a b x t) z 1 (s.coalWord true d a (.field b x) t)

/-- MKABS: absent from lane b on; b is unsigned whatever the type (R219). -/
def State.mkabsWord (s : State) (w : Bool) (d a : BitVec 7) (b : Src) (t : BitVec 2) (c : WCtx) : WaveRes := do
  let ty := ATy.ofCode w t
  let n := bitsOf w
  let (vb, pop) ← s.src c w (absentCode .unsigned n) b
  let va := s.vReg c.w w a.toNat ty.absent
  return lanewise s c w d pop fun l =>
    (if isAbsentCode .unsigned n vb[l] ∨ vb[l] ≤ l.val then ty.absent else va[l], Flags.none)

def execMkabs (z : Bool) (d a b : BitVec 7) (x : Bool) (t : BitVec 2) (s : State) :=
  s.waveWord (.mkabs z d a b x t) z 1 (s.mkabsWord false d a (.field b x) t)
def execMkabs64 (z : Bool) (d a b : BitVec 7) (x : Bool) (t : BitVec 2) (s : State) :=
  s.waveWord (.mkabs64 z d a b x t) z 1 (s.mkabsWord true d a (.field b x) t)

/-- NULLIF: absent where a is absent or equals a present b (R219). -/
def State.nullifWord (s : State) (w : Bool) (d a : BitVec 7) (b : Src) (t : BitVec 2) (c : WCtx) : WaveRes := do
  let ty := ATy.ofCode w t
  let (vb, pop) ← s.src c w ty.absent b
  let va := s.vReg c.w w a.toNat ty.absent
  return lanewise s c w d pop fun l =>
    (if ty.isAbsent va[l] || (!ty.isAbsent vb[l] && ty.eq va[l] vb[l]) then ty.absent else va[l], Flags.none)

def execNullif (z : Bool) (d a b : BitVec 7) (x : Bool) (t : BitVec 2) (s : State) :=
  s.waveWord (.nullif z d a b x t) z 1 (s.nullifWord false d a (.field b x) t)
def execNullif64 (z : Bool) (d a b : BitVec 7) (x : Bool) (t : BitVec 2) (s : State) :=
  s.waveWord (.nullif64 z d a b x t) z 1 (s.nullifWord true d a (.field b x) t)

/-- SEL: b where the trit is T, absent where U; where F the lane keeps what it holds, a lane that reads as dead its deadness
(R178, R219; log 23). -/
def State.selWord (s : State) (w : Bool) (d a : BitVec 7) (b : Src) (t : BitVec 2) (c : WCtx) : WaveRes := do
  let ty := ATy.ofCode w t
  let (vb, pop) ← s.src c w ty.absent b
  let ka := s.kReg c.w a.toNat
  let vd := s.vReg c.w w d.toNat ty.absent
  let live (r : Nat) (l : Lane) : Bool := ka[l] != .f || (s.vLane c.w r l).isSome
  let vals : Vector Nat 32 := Vector.ofFn fun l => match ka[l] with
    | .t => vb[l]
    | .f => vd[l]
    | .u => ty.absent
  let lanes := c.sp.lanes &&& laneSet (live d.toNat)
  let lanes := if w then lanes &&& laneSet (live (d.toNat + 1)) else lanes
  return { s, writes := vWrites w d.toNat lanes vals, pop }

def execSel (z : Bool) (d a b : BitVec 7) (x : Bool) (t : BitVec 2) (s : State) :=
  s.waveWord (.sel z d a b x t) z 1 (s.selWord false d a (.field b x) t)
def execSel64 (z : Bool) (d a b : BitVec 7) (x : Bool) (t : BitVec 2) (s : State) :=
  s.waveWord (.sel64 z d a b x t) z 1 (s.selWord true d a (.field b x) t)

/-! ### Conversion -/

/-- CVT: one element per lane; the low bits of a narrow source, a narrow result zero-extended (R214 to R216). -/
def State.cvtWord (s : State) (d a : BitVec 7) (e : CvtExt) (c : WCtx) : WaveRes :=
  match Fmt.ofCode e.source.toNat, Fmt.ofCode e.target.toNat with
  | some f, some t =>
    let va := s.vReg c.w (f.width == 64) a.toNat f.absent
    return lanewise s c (t.width == 64) d none fun l =>
      convert f t (modeOf c.w.status e.rnd.toNat) (va[l] % 2 ^ f.width)
  | none, _ => .error (.fault (illegal 38))
  | some _, none => .error (.fault (illegal 43))

def execCvt (z : Bool) (d a : BitVec 7) (ext : CvtExt) (s : State) :=
  s.waveWord (.cvt z d a ext) z 2 (s.cvtWord d a ext)

end Sys2Proof.Machine
end

