-- ==== Sys2Proof/Machine/WaveCross.lean ====
section
/-!
DEFINITION. Class 3: reductions, scans, cross-lane words, packed dot products, scales and packing (R220 to R229). Their results
are outstanding in the cross-lane category (R47, R205).
-/

namespace Sys2Proof.Machine

/-! ### Reductions and scans -/

/-- A present NaN is written as the canonical NaN (R98). -/
def quiet (v : Nat) : Nat := if (FFmt.f32.decode v).isNan then FFmt.f32.nanCode else v

/-- The codes of 32 lanes, absent outside the split (R203). -/
def splitCodes (ty : ATy) (lanes : LaneSet) (va : Vector Nat 32) : List Nat :=
  (List.finRange 32).map fun l => if lanes.getLsbD l.val then va[l] else ty.absent

/-- The integers of the present codes. -/
def presentInts (k : Kind) (n : Nat) (xs : List Nat) : List Int := (xs.filter fun v => !isAbsentCode k n v).map (intOf k n)

/-- The combination of RSUM (R114, R115). -/
def rsumOf (mode : Rnd) (ty : ATy) (xs : List Nat) : Nat × Flags :=
  match ty with
  | .int k n =>
    let ps := presentInts k n xs
    if ps.isEmpty then (absentCode k n, Flags.none) else narrow k n (ps.foldl (· + ·) 0)
  | .f32 =>
    let (r, f) := fTreeSum mode xs
    (quiet r, f)

/-- Skip absent terms of a minimum or maximum. -/
def skipAbsent (ty : ATy) (f : Nat → Nat → Nat) (acc v : Nat) : Nat :=
  if ty.isAbsent v then acc else if ty.isAbsent acc then v else f acc v

/-- The combination of RMIN and RMAX: `pick` is the order that keeps the earlier term (R116). -/
def rminOf (pick : Ordering) (ty : ATy) (xs : List Nat) : Nat × Flags :=
  match ty with
  | .int k n =>
    (xs.foldl (skipAbsent ty fun a b =>
      let o := compare (intOf k n a) (intOf k n b)
      if o == pick || o == .eq then a else b) ty.absent, Flags.none)
  | .f32 => (quiet (xs.foldl (skipAbsent ty (fMinMax pick)) ty.absent), Flags.none)

/-- The inclusive scan of a list of codes: for each place its result and flags (R117). -/
def scanOf (mode : Rnd) (ty : ATy) : Nat → Int → List Nat → List (Nat × Flags)
  | _, _, [] => []
  | run, tot, v :: vs =>
    if ty.isAbsent v then (run, Flags.none) :: scanOf mode ty run tot vs
    else
      match ty with
      | .int k n =>
        let t := tot + intOf k n v
        let (r, f) := narrow k n t
        (r, f) :: scanOf mode ty r t vs
      | .f32 =>
        let (r, f) := if ty.isAbsent run then (quiet v, Flags.none) else fAdd mode run v
        (r, f) :: scanOf mode ty r tot vs

/-- Number of present codes. -/
def presentCount (ty : ATy) (xs : List Nat) : Nat := (xs.filter fun v => !ty.isAbsent v).length

/-- The write of a count register, unless the word discards it (R220). -/
def countWrite (c : WCtx) (b : BitVec 7) (x : Bool) (counts : Vector Nat 32) : List RegWrite :=
  if x then [] else vWrites false b.toNat c.sp.lanes counts

/-- A reduction: one result and one count in every lane of the split (R220). -/
def State.reduceWord (s : State) (w : Bool) (d a b : BitVec 7) (x : Bool) (t : BitVec 2) (f : Rnd → ATy → List Nat → Nat × Flags)
    (c : WCtx) : WaveRes :=
  let ty := ATy.ofCode w t
  let xs := splitCodes ty c.sp.lanes (s.vReg c.w w a.toNat ty.absent)
  let (r, fl) := f (statusMode c.w.status) ty xs
  return { s, writes := vWrites w d.toNat c.sp.lanes (Vector.replicate 32 r) ++
                        countWrite c b x (Vector.replicate 32 (presentCount ty xs)),
           flags := fl, cat := some .cross }

def execRsum (z w : Bool) (d a b : BitVec 7) (x : Bool) (t : BitVec 2) (s : State) :=
  s.waveWord (.rsum z w d a b x t) z 1 (s.reduceWord w d a b x t rsumOf)
def execRmin (z w : Bool) (d a b : BitVec 7) (x : Bool) (t : BitVec 2) (s : State) :=
  s.waveWord (.rmin z w d a b x t) z 1 (s.reduceWord w d a b x t fun _ => rminOf .lt)
def execRmax (z w : Bool) (d a b : BitVec 7) (x : Bool) (t : BitVec 2) (s : State) :=
  s.waveWord (.rmax z w d a b x t) z 1 (s.reduceWord w d a b x t fun _ => rminOf .gt)

/-- RCNT (R221). -/
def State.rcntWord (s : State) (w : Bool) (d a : BitVec 7) (t : BitVec 2) (c : WCtx) : WaveRes :=
  let ty := ATy.ofCode w t
  let xs := splitCodes ty c.sp.lanes (s.vReg c.w w a.toNat ty.absent)
  return { s, writes := vWrites false d.toNat c.sp.lanes (Vector.replicate 32 (presentCount ty xs)), cat := some .cross }

def execRcnt (z w : Bool) (d a : BitVec 7) (t : BitVec 2) (s : State) :=
  s.waveWord (.rcnt z w d a t) z 1 (s.rcntWord w d a t)

/-- SCAN (R117, R220). -/
def State.scanWord (s : State) (w : Bool) (d a b : BitVec 7) (x : Bool) (t : BitVec 2) (c : WCtx) : WaveRes :=
  let ty := ATy.ofCode w t
  let xs := splitCodes ty c.sp.lanes (s.vReg c.w w a.toNat ty.absent)
  let rs := scanOf (statusMode c.w.status) ty ty.absent 0 xs
  let out : Vector Nat 32 := Vector.ofFn fun l => (rs.getD l.val (0, Flags.none)).1
  let counts : Vector Nat 32 := Vector.ofFn fun l => presentCount ty (xs.take (l.val + 1))
  return { s, writes := vWrites w d.toNat c.sp.lanes out ++ countWrite c b x counts,
           flags := rs.foldl (fun f r => f ||| r.2) Flags.none, cat := some .cross }

def execScan (z w : Bool) (d a b : BitVec 7) (x : Bool) (t : BitVec 2) (s : State) :=
  s.waveWord (.scan z w d a b x t) z 1 (s.scanWord w d a b x t)

/-! ### Cross-lane words -/

/-- What a source lane outside the wave or the split gives (R222, R223, R233). -/
def noLane : Nat := 0xFFFF_FFFF

/-- The value of a source lane. -/
def fromLane (lanes : LaneSet) (va : Vector Nat 32) (src : Int) : Nat :=
  if 0 ≤ src ∧ src < 32 then
    if lanes.getLsbD src.toNat then va.toList.getD src.toNat noLane else noLane
  else noLane

/-- The source lane of SHFL (R222). -/
def shflLane (o : BitVec 2) (l s : Nat) : Int :=
  match o.toNat with
  | 0 => s
  | 1 => (l : Int) - s
  | 2 => (l : Int) + s
  | _ => (l ^^^ s : Nat)

/-- A class-3 word of one v result. -/
def crossDone (s : State) (c : WCtx) (d : BitVec 7) (pop : Option Nat) (f : Lane → Nat × Flags) : Done :=
  { lanewise s c false d pop f with cat := some .cross }

/-- SHFL (R222). -/
def State.shflWord (s : State) (d a : BitVec 7) (b : Src) (o : BitVec 2) (c : WCtx) : WaveRes := do
  let (vb, pop) ← s.src c false noLane b
  let va := s.v32 c.w a.toNat noLane
  return crossDone s c d pop fun l => (fromLane c.sp.lanes va (shflLane o l.val vb[l]), Flags.none)

def execShfl (z : Bool) (d a b : BitVec 7) (x : Bool) (o : BitVec 2) (s : State) :=
  s.waveWord (.shfl z d a b x o) z 1 (s.shflWord d a (.field b x) o)
def execShflImm (z : Bool) (d a : BitVec 7) (i : BitVec 8) (o : BitVec 2) (s : State) :=
  s.waveWord (.shflImm z d a i o) z 1 (s.shflWord d a (.imm i.toNat) o)

/-- BCAST: the lane number is taken from the split's lowest lane (R223). -/
def State.bcastWord (s : State) (d a : BitVec 7) (b : Src) (c : WCtx) : WaveRes := do
  let (vb, pop) ← s.src c false noLane b
  let va := s.v32 c.w a.toNat noLane
  let r := fromLane c.sp.lanes va vb[lowestLane c.sp.lanes]
  return crossDone s c d pop fun _ => (r, Flags.none)

def execBcastImm (z : Bool) (d a : BitVec 7) (i : BitVec 8) (s : State) :=
  s.waveWord (.bcastImm z d a i) z 1 (s.bcastWord d a (.imm i.toNat))
def execBcast (z : Bool) (d a b : BitVec 7) (x : Bool) (s : State) :=
  s.waveWord (.bcast z d a b x) z 1 (s.bcastWord d a (.field b x))

/-- The code of a vote (R224). -/
def voteCode : Trit → Nat
  | .f => 0
  | .t => 1
  | .u => 0xFFFF_FFFF

/-- VOTE (R224). -/
def State.voteWord (s : State) (d a : BitVec 7) (o : BitVec 2) (c : WCtx) : WaveRes :=
  let ka := s.kReg c.w a.toNat
  let ts := (lanesOf c.sp.lanes).map fun l => ka[l]
  let r := match o.toNat with
    | 0 => voteCode (ts.foldl Trit.or .f)
    | 1 => voteCode (ts.foldl Trit.and .t)
    | _ => (laneSet fun l => c.sp.lanes.getLsbD l.val && ka[l] == .t).toNat
  return crossDone s c d none fun _ => (r, Flags.none)

def execVote (z : Bool) (d a : BitVec 7) (o : BitVec 2) (s : State) :=
  s.waveWord (.vote z d a o) z 1 (s.voteWord d a o)

/-! ### Dot products and scales -/

/-- Element `i` of width `n` of a register. -/
def elem (n v i : Nat) : Nat := fieldNat v (n * i) n

/-- A register whose every element of width `n` is one code. -/
def everyElem (n code : Nat) : Nat := (List.range (32 / n)).foldl (fun a i => a + code * 2 ^ (n * i)) 0

/-- DOT4 and DOT8 on one lane: strict, exact, one saturation (R118, R225). -/
def dotOf (k : Kind) (n a b d : Nat) : Nat × Flags :=
  let is := List.range (32 / n)
  if (is.any fun i => isAbsentCode k n (elem n a i) || isAbsentCode k n (elem n b i)) || isAbsentCode k 32 d then
    (absentCode k 32, Flags.none)
  else narrow k 32 (is.foldl (fun e i => e + intOf k n (elem n a i) * intOf k n (elem n b i)) (intOf k 32 d))

/-- A packed dot product (R225). -/
def State.dotWord (s : State) (n : Nat) (d a b : BitVec 7) (x : Bool) (t : BitVec 2) (c : WCtx) : WaveRes := do
  let k := Kind.ofCode t
  let fill := everyElem n (absentCode k n)
  let (vb, pop) ← s.src c false fill (.field b x)
  let va := s.v32 c.w a.toNat fill
  let vd := s.v32 c.w d.toNat (absentCode k 32)
  return crossDone s c d pop fun l => dotOf k n va[l] vb[l] vd[l]

def execDot4 (z : Bool) (d a b : BitVec 7) (x : Bool) (t : BitVec 2) (s : State) :=
  s.waveWord (.dot4 z d a b x t) z 1 (s.dotWord 8 d a b x t)
def execDot8 (z : Bool) (d a b : BitVec 7) (x : Bool) (t : BitVec 2) (s : State) :=
  s.waveWord (.dot8 z d a b x t) z 1 (s.dotWord 4 d a b x t)

/-- DOT2 (R120, R226). -/
def State.dot2Word (s : State) (d a b : BitVec 7) (x : Bool) (c : WCtx) : WaveRes := do
  let (vb, pop) ← s.src c false deadF32 (.field b x)
  let va := s.v32 c.w a.toNat deadF32
  let vd := s.v32 c.w d.toNat deadF32
  return crossDone s c d pop fun l => fDot2 (statusMode c.w.status) va[l] vb[l] vd[l]

def execDot2 (z : Bool) (d a b : BitVec 7) (x : Bool) (s : State) :=
  s.waveWord (.dot2 z d a b x) z 1 (s.dot2Word d a b x)

/-- SCALE (R119, R227). -/
def State.scaleWord (s : State) (d a b : BitVec 7) (x : Bool) (c : WCtx) : WaveRes := do
  let (vb, pop) ← s.src c false noLane (.field b x)
  let va := s.v32 c.w a.toNat (absentCode .signed 32)
  return crossDone s c d pop fun l => fScale va[l] (fieldNat vb[l] 0 12) (fieldNat vb[l] 12 12)

def execScale (z : Bool) (d a b : BitVec 7) (x : Bool) (s : State) :=
  s.waveWord (.scale z d a b x) z 1 (s.scaleWord d a b x)

/-! ### Packing -/

/-- The element width of PACK and UNPK (R228). -/
def packWidth (t : BitVec 2) : Nat :=
  match t.toNat with
  | 0 => 16
  | 1 => 8
  | _ => 4

/-- PACK: two elements into the top, the rest shifted down (R228). -/
def State.packWord (s : State) (d a b : BitVec 7) (x : Bool) (t : BitVec 2) (c : WCtx) : WaveRes := do
  let n := packWidth t
  let (vb, pop) ← s.src c false noLane (.field b x)
  let va := s.v32 c.w a.toNat noLane
  let vd := s.v32 c.w d.toNat noLane
  return crossDone s c d pop fun l =>
    (vd[l] / 2 ^ (2 * n) + va[l] % 2 ^ n * 2 ^ (32 - 2 * n) + vb[l] % 2 ^ n * 2 ^ (32 - n), Flags.none)

def execPack (z : Bool) (d a b : BitVec 7) (x : Bool) (t : BitVec 2) (s : State) :=
  s.waveWord (.pack z d a b x t) z 1 (s.packWord d a b x t)

/-- UNPK: one element, zero-extended (R229). -/
def State.unpkWord (s : State) (d a b : BitVec 7) (x : Bool) (t : BitVec 2) (c : WCtx) : WaveRes := do
  let n := packWidth t
  let (vb, pop) ← s.src c false noLane (.field b x)
  let va := s.v32 c.w a.toNat noLane
  return crossDone s c d pop fun l => (elem n va[l] (vb[l] % (32 / n)), Flags.none)

def execUnpk (z : Bool) (d a b : BitVec 7) (x : Bool) (t : BitVec 2) (s : State) :=
  s.waveWord (.unpk z d a b x t) z 1 (s.unpkWord d a b x t)

end Sys2Proof.Machine
end

