-- ==== Sys2Proof/Machine/Xf.lean ====
section
/-!
DEFINITION. The functions of the transform pipe (R231 to R235). R231 fixes a function up to a bound: each is a free function
of Config, kept where it meets the bound and replaced by the rounded exact result where it does not (log 11). Exact results
are held as integers with 160 binary places; a bound is tested with a slack far below a unit in the last place.
-/

namespace Sys2Proof.Machine

/-- Binary places of the fixed-point values. -/
def xfP : Nat := 160
def xfOne : Int := 2 ^ xfP
/-- ln 2. -/
def xfLn2 : Int := 0xb17217f7d1cf79abc9e3b39803f2f6af40f34326
/-- 2 pi. -/
def xfTau : Int := 0x6487ed5110b4611a62633145c06e0e68948127044
/-- log2 e. -/
def xfLog2e : Int := 0x171547652b82fe1777d0ffda0d23a7d11d6aef551
/-- 2 over the square root of pi. -/
def xfErfScale : Int := 0x120dd750429b6d11ae3a914fed7fd8688281341d7

/-- A fixed-point product. -/
def xfMul (a b : Int) : Int := asr (a * b) xfP

/-- A real near an exact result: `y * 2^q`, off by at most `slack * 2^q`. -/
structure Near where
  y : Int
  q : Int
  slack : Nat
  deriving DecidableEq, Repr, Inhabited

/-- Exponent of a unit in the last place of f32 at a result, subnormals as they are. -/
def Near.ulp (r : Near) : Int := max (r.q + r.y.natAbs.log2 - 23) (-149)

/-- Whether an f32 code is a number within `n * 2^u` of a result. -/
def Near.within (r : Near) (n : Nat) (u : Int) (code : Nat) : Bool :=
  match FFmt.f32.decode code with
  | .num neg m e =>
    let b := min e (min r.q u)
    let d := signedMant neg (m * 2 ^ (e - b).toNat) - r.y * 2 ^ (r.q - b).toNat
    decide (d.natAbs ≤ n * 2 ^ (u - b).toNat + r.slack * 2 ^ (r.q - b).toNat)
  | _ => false

/-- A result rounded to nearest, at most the largest finite value. -/
def Near.rounded (r : Near) : Nat :=
  let c := (FFmt.f32.roundNum .rne (decide (r.y < 0)) r.y.natAbs r.q).1
  let mag := c % 2 ^ 31
  if mag > FFmt.f32.maxCode then c - mag + FFmt.f32.maxCode else c

/-- The free result where it meets the bound, else the rounded one. -/
def Near.choose (r : Near) (n : Nat) (u : Int) (free : BitVec 32) : Nat :=
  if r.within n u free.toNat then free.toNat else r.rounded

/-- The greater of 2 ulp and 2^-24, as the bound of TANH and ERF has it. -/
def Near.chooseAbs (r : Near) (free : BitVec 32) : Nat :=
  let one := 0x3F80_0000
  let keep (c : Nat) : Nat := if c % 2 ^ 31 > one then c - c % 2 ^ 31 + one else c
  let ok := if r.ulp + 1 < -24 then r.within 1 (-24) free.toNat else r.within 2 r.ulp free.toNat
  if ok && decide (free.toNat % 2 ^ 31 ≤ one) then free.toNat else keep r.rounded

/-- `m * 2^e` with 160 binary places, rounded down. -/
def xfFixed (m : Int) (e : Int) : Int := if e + xfP ≥ 0 then m * 2 ^ (e + xfP).toNat else asr m (-(e + xfP)).toNat

/-- The exponential series with `n` terms left: the sum from `term` on. -/
def expSeries : Nat → Nat → Int → Int → Int
  | 0, _, _, _ => 0
  | n + 1, k, x, term => term + expSeries n (k + 1) x (xfMul term x / (k : Int))

/-- 2^a for a fixed-point a: a mantissa with 160 binary places and an exponent. -/
def xfPow2 (a : Int) : Int × Int :=
  let k := asr a xfP
  let f := a - k * xfOne
  (expSeries 48 1 (xfMul f xfLn2) xfOne, k)

/-- EXP2's exact result; far below the least subnormal it is as good as zero. -/
def exp2Near (m : Int) (e : Int) (a : Int) : Near :=
  if e > 40 ∨ a < -256 * xfOne then ⟨if m < 0 then 0 else 1, -400, 1⟩
  else
    let (y, k) := xfPow2 a
    ⟨y, k - xfP, 2 ^ 20⟩

/-- Binary places of a logarithm by repeated squaring of a mantissa in [1, 2). -/
def logDigits : Nat → Int → Int → Int
  | 0, _, acc => acc
  | n + 1, x, acc =>
    let y := xfMul x x
    if y ≥ 2 * xfOne then logDigits n (y / 2) (2 * acc + 1) else logDigits n y (2 * acc)

/-- LOG2's exact result for m * 2^e above zero. -/
def log2Near (m : Nat) (e : Int) : Near :=
  let l := m.log2
  let x := (m : Int) * 2 ^ (xfP - l)
  let digits := logDigits 100 x 0
  ⟨(e + l) * 2 ^ 100 + digits, -100, 4⟩

/-- The alternating series of sine or cosine: `k` is the index of the next factor. -/
def trigSeries : Nat → Nat → Int → Int → Int
  | 0, _, _, _ => 0
  | n + 1, k, x2, term => term + trigSeries n (k + 2) x2 (-(xfMul term x2) / ((k * (k + 1) : Nat) : Int))

/-- SIN's and COS's exact result for a fixed-point a. -/
def sinNear (a : Int) : Near :=
  let r := a % xfTau
  ⟨trigSeries 40 2 (xfMul r r) r, -(xfP : Int), 2 ^ 60⟩

def cosNear (a : Int) : Near :=
  let r := a % xfTau
  ⟨trigSeries 40 1 (xfMul r r) xfOne, -(xfP : Int), 2 ^ 60⟩

/-- A magnitude with a sign put back. -/
def xfSigned (neg : Bool) (i : Int) : Int := if neg then -i else i

/-- TANH's exact result for a magnitude: below 1, so its unit in the last place is at most 2^-24. -/
def tanhNear (neg : Bool) (m : Nat) (e : Int) : Near :=
  let a := if e + m.log2 > 5 then 64 * xfOne else xfFixed m e
  if a ≥ 40 * xfOne then ⟨xfSigned neg (xfOne - 1), -(xfP : Int), 2 ^ 60⟩
  else
    let (y, k) := xfPow2 (xfMul (2 * a) xfLog2e)
    let p := y * 2 ^ k.toNat
    ⟨xfSigned neg ((p - xfOne) * xfOne / (p + xfOne)), -(xfP : Int), 2 ^ 40⟩

/-- The series of ERF. -/
def erfSeries : Nat → Nat → Int → Int → Int
  | 0, _, _, _ => 0
  | n + 1, k, x2, term => term / ((2 * k + 1 : Nat) : Int) + erfSeries n (k + 1) x2 (-(xfMul term x2) / ((k + 1 : Nat) : Int))

/-- ERF's exact result for a magnitude, below 1. -/
def erfNear (neg : Bool) (m : Nat) (e : Int) : Near :=
  let a := if e + m.log2 > 5 then 64 * xfOne else xfFixed m e
  if a ≥ 6 * xfOne then ⟨xfSigned neg (xfOne - 1), -(xfP : Int), 2 ^ 110⟩
  else ⟨xfSigned neg (xfMul (erfSeries 160 0 (xfMul a a) a) xfErfScale), -(xfP : Int), 2 ^ 100⟩

/-! ### The functions -/

/-- An integral value of a number, if it is integral and small. -/
def smallInt (neg : Bool) (m : Nat) (e : Int) : Option Int :=
  if e ≥ 0 then if e + m.log2 > 20 then none else some (signedMant neg (m * 2 ^ e.toNat))
  else if e < -149 then none
  else if m % 2 ^ (-e).toNat = 0 then some (signedMant neg (m / 2 ^ (-e).toNat)) else none

/-- A number that is a power of two. -/
def isPow2 (m : Nat) : Bool := m == 2 ^ m.log2

def f32Inf (neg : Bool) : Nat := if neg then 0xFF80_0000 else 0x7F80_0000
def f32Zero (neg : Bool) : Nat := if neg then 0x8000_0000 else 0
def f32One (neg : Bool) : Nat := if neg then 0xBF80_0000 else 0x3F80_0000
def xfNan : Nat × Flags := (FFmt.f32.nanCode, Flags.nv)

/-- Absent and NaN inputs of every function (R231). -/
def xfCommon (a : Nat) (f : FV → Nat × Flags) : Nat × Flags :=
  match FFmt.f32.decode a with
  | .absent => (FFmt.f32.absent, Flags.none)
  | .nan s => (FFmt.f32.nanCode, Flags.when s Flags.nv)
  | v => f v

/-- RCP: exact for powers of two whose reciprocal is normal, else within 1 ulp; infinite from 2^128 on. -/
def xfRcp (a : Nat) : Nat × Flags :=
  xfCommon a fun v => match v with
    | .inf neg => (f32Zero neg, Flags.none)
    | .num neg m e =>
      if m = 0 then (f32Inf neg, Flags.dz)
      else
        let big := decide (m * 2 ^ (e + 149).toNat ≤ 2 ^ 21)
        if big then (f32Inf neg, Flags.of)
        else
          let r : Near := ⟨xfSigned neg (2 ^ 400 / (m : Int)), -400 - e, 1⟩
          if isPow2 m && decide (-e - m.log2 ≥ -126) then ((FFmt.f32.roundNum .rne neg 1 (-e - m.log2)).1, Flags.none)
          else (r.choose 1 r.ulp (Config.xfRcp (BitVec.ofNat 32 a)), Flags.none)
    | _ => xfNan

/-- RSQRT within 2 ulp. -/
def xfRsqrt (a : Nat) : Nat × Flags :=
  xfCommon a fun v => match v with
    | .inf neg => if neg then xfNan else (f32Zero false, Flags.none)
    | .num neg m e =>
      if m = 0 then (f32Inf neg, Flags.dz)
      else if neg then xfNan
      else
        let odd := e % 2 != 0
        let m2 := if odd then 2 * m else m
        let e2 := if odd then e - 1 else e
        let r : Near := ⟨isqrt (2 ^ 400 / m2), -200 - e2 / 2, 2⟩
        (r.choose 2 r.ulp (Config.xfRsqrt (BitVec.ofNat 32 a)), Flags.none)
    | _ => xfNan

/-- SQRT, correctly rounded to nearest. -/
def xfSqrt (a : Nat) : Nat × Flags :=
  xfCommon a fun v => match v with
    | .inf neg => if neg then xfNan else (f32Inf false, Flags.none)
    | .num neg m e =>
      if m = 0 then (f32Zero neg, Flags.none)
      else if neg then xfNan
      else
        let odd := e % 2 != 0
        let n := (if odd then 2 * m else m) * 2 ^ 64
        let k := ((if odd then e - 1 else e) - 64) / 2
        let q := isqrt n
        ((FFmt.f32.roundNum .rne false (2 * q + (if q * q = n then 0 else 1)) (k - 1)).1, Flags.none)
    | _ => xfNan

/-- EXP2: exact for integers from -149 to 127, infinite from 128 on. -/
def xfExp2 (a : Nat) : Nat × Flags :=
  xfCommon a fun v => match v with
    | .inf neg => (if neg then f32Zero false else f32Inf false, Flags.none)
    | .num neg m e =>
      if m = 0 then (f32One false, Flags.none)
      else if !neg && decide (e + m.log2 ≥ 7) then (f32Inf false, Flags.of)
      else
        let free := Config.xfExp2 (BitVec.ofNat 32 a)
        let r := exp2Near (signedMant neg m) e (if e > 40 then 0 else xfFixed (signedMant neg m) e)
        match smallInt neg m e with
        | some i => if -149 ≤ i then ((FFmt.f32.roundNum .rne false 1 i).1, Flags.none) else (r.choose 2 r.ulp free, Flags.none)
        | none => (r.choose 2 r.ulp free, Flags.none)
    | _ => xfNan

/-- LOG2: exact for powers of two; an absolute bound in [0.5, 2]. -/
def xfLog2 (a : Nat) : Nat × Flags :=
  xfCommon a fun v => match v with
    | .inf neg => if neg then xfNan else (f32Inf false, Flags.none)
    | .num neg m e =>
      if m = 0 then (f32Inf true, Flags.dz)
      else if neg then xfNan
      else if isPow2 m then
        let i := e + m.log2
        ((FFmt.f32.roundNum .rne (decide (i < 0)) i.natAbs 0).1, Flags.none)
      else
        let r := log2Near m e
        let free := Config.xfLog2 (BitVec.ofNat 32 a)
        let k := e + m.log2
        (if k = 0 ∨ k = -1 then r.choose 1 (-22) free else r.choose 2 r.ulp free, Flags.none)
    | _ => xfNan

/-- Some value in [-1, 1] (R231). -/
def unitFree (free : BitVec 32) : Nat :=
  match FFmt.f32.decode free.toNat with
  | .num _ _ _ => if free.toNat % 2 ^ 31 ≤ 0x3F80_0000 then free.toNat else 0
  | _ => 0

/-- Whether a magnitude is at most 2^20. -/
def upTo20 (m : Nat) (e : Int) : Bool := decide (e + m.log2 < 20) || (isPow2 m && decide (e + m.log2 = 20))

def xfSin (a : Nat) : Nat × Flags :=
  xfCommon a fun v => match v with
    | .num neg m e =>
      let free := Config.xfSin (BitVec.ofNat 32 a)
      if m = 0 then (f32Zero neg, Flags.none)
      else if upTo20 m e then ((sinNear (xfFixed (signedMant neg m) e)).choose 1 (-21) free, Flags.none)
      else (unitFree free, Flags.none)
    | _ => xfNan

def xfCos (a : Nat) : Nat × Flags :=
  xfCommon a fun v => match v with
    | .num neg m e =>
      let free := Config.xfCos (BitVec.ofNat 32 a)
      if m = 0 then (f32One false, Flags.none)
      else if upTo20 m e then ((cosNear (xfFixed (signedMant neg m) e)).choose 1 (-21) free, Flags.none)
      else (unitFree free, Flags.none)
    | _ => xfNan

def xfTanh (a : Nat) : Nat × Flags :=
  xfCommon a fun v => match v with
    | .inf neg => (f32One neg, Flags.none)
    | .num neg m e =>
      if m = 0 then (f32Zero neg, Flags.none)
      else ((tanhNear neg m e).chooseAbs (Config.xfTanh (BitVec.ofNat 32 a)), Flags.none)
    | _ => xfNan

def xfErf (a : Nat) : Nat × Flags :=
  xfCommon a fun v => match v with
    | .inf neg => (f32One neg, Flags.none)
    | .num neg m e =>
      if m = 0 then (f32Zero neg, Flags.none)
      else ((erfNear neg m e).chooseAbs (Config.xfErf (BitVec.ofNat 32 a)), Flags.none)
    | _ => xfNan

/-! ### Sorting (R235) -/

/-- Rank of an .f32 key's class: numbers, then NaNs, then absent. -/
def keyRank : FV → Nat
  | .absent => 2
  | .nan _ => 1
  | _ => 0

/-- Insert a key after every key that does not exceed it: the sort is stable. -/
def insertKey {α : Type} (lt : α → α → Bool) (x : α) : List α → List α
  | [] => [x]
  | y :: ys => if lt x y then x :: y :: ys else y :: insertKey lt x ys

/-- A stable sort. -/
def sortKeys {α : Type} (lt : α → α → Bool) (xs : List α) : List α := xs.foldl (fun acc x => insertKey lt x acc) []

end Sys2Proof.Machine
end

