-- ==== Sys2Proof/Machine/WaveXf.lean ====
section
/-!
DEFINITION. Class 7: words of the transform pipe (R230 to R235). Their destinations are outstanding until the pipe replies and
are always checked (R55).
-/

namespace Sys2Proof.Machine

/-- A scalar function (R231). -/
def State.xfWord (s : State) (d a : BitVec 7) (f : Nat → Nat × Flags) (c : WCtx) : WaveRes :=
  let va := s.v32 c.w a.toNat deadF32
  return { lanewise s c false d none (fun l => f va[l]) with cat := some .pipe }

def execXfRcp (z : Bool) (d a : BitVec 7) (s : State) := s.waveWord (.xfRcp z d a) z 1 (s.xfWord d a xfRcp)
def execXfRsqrt (z : Bool) (d a : BitVec 7) (s : State) := s.waveWord (.xfRsqrt z d a) z 1 (s.xfWord d a xfRsqrt)
def execXfSqrt (z : Bool) (d a : BitVec 7) (s : State) := s.waveWord (.xfSqrt z d a) z 1 (s.xfWord d a xfSqrt)
def execXfExp2 (z : Bool) (d a : BitVec 7) (s : State) := s.waveWord (.xfExp2 z d a) z 1 (s.xfWord d a xfExp2)
def execXfLog2 (z : Bool) (d a : BitVec 7) (s : State) := s.waveWord (.xfLog2 z d a) z 1 (s.xfWord d a xfLog2)
def execXfSin (z : Bool) (d a : BitVec 7) (s : State) := s.waveWord (.xfSin z d a) z 1 (s.xfWord d a xfSin)
def execXfCos (z : Bool) (d a : BitVec 7) (s : State) := s.waveWord (.xfCos z d a) z 1 (s.xfWord d a xfCos)
def execXfTanh (z : Bool) (d a : BitVec 7) (s : State) := s.waveWord (.xfTanh z d a) z 1 (s.xfWord d a xfTanh)
def execXfErf (z : Bool) (d a : BitVec 7) (s : State) := s.waveWord (.xfErf z d a) z 1 (s.xfWord d a xfErf)

/-- Flags of QSB8 for one present or lost input (R234). -/
def qsbFlags (e el : Nat) : FV → Flags
  | .absent => Flags.none
  | .num neg m k =>
    let q := toSigned 8 el
    let b := min k ((e : Int) - 2048)
    Flags.when (m != 0 && (q * 2 ^ ((e : Int) - 2048 - b).toNat != signedMant neg m * 2 ^ (k - b).toNat)) Flags.nx
  | _ => Flags.nv

/-- QSB8: one .sb8 block of the split's values (R108, R234). -/
def State.qsb8Word (s : State) (d a b : BitVec 7) (c : WCtx) : WaveRes :=
  let va := s.v32 c.w a.toNat deadF32
  let xs := (splitCodes .f32 c.sp.lanes va).map FFmt.f32.decode
  let blk := quantise .sb8 xs
  let out : Vector Nat 32 := Vector.ofFn fun l => blk.els.getD l.val 0
  let flags := (List.range 32).foldl (fun f i => f ||| qsbFlags blk.e (blk.els.getD i 0) (xs.getD i .absent)) Flags.none
  return { s, writes := vWrites false d.toNat c.sp.lanes out ++ vWrites false b.toNat c.sp.lanes (Vector.replicate 32 blk.e),
           flags, cat := some .pipe }

def execXfQsb8 (z : Bool) (d a b : BitVec 7) (s : State) := s.waveWord (.xfQsb8 z d a b) z 1 (s.qsb8Word d a b)

/-- XPOSE: lane 8c + r receives lane 4r + c (R233). -/
def State.xposeWord (s : State) (d a : BitVec 7) (c : WCtx) : WaveRes :=
  let va := s.v32 c.w a.toNat noLane
  return { lanewise s c false d none (fun l => (fromLane c.sp.lanes va (4 * (l.val % 8) + l.val / 8 : Nat), Flags.none)) with
           cat := some .pipe }

def execXfXpose (z : Bool) (d a : BitVec 7) (s : State) := s.waveWord (.xfXpose z d a) z 1 (s.xposeWord d a)

/-- Order of sort keys: present keys by value, .f32 with -0 below +0, then NaNs, then absent (R235). -/
def keyLt (ty : ATy) (a b : Nat × Nat) : Bool :=
  match ty with
  | .int k n =>
    if isAbsentCode k n a.1 then false
    else if isAbsentCode k n b.1 then true
    else decide (intOf k n a.1 < intOf k n b.1)
  | .f32 =>
    let x := FFmt.f32.decode a.1
    let y := FFmt.f32.decode b.1
    if keyRank x = 0 ∧ keyRank y = 0 then FV.compareTotal x y == .lt else decide (keyRank x < keyRank y)

/-- SORT: keys with their original lanes; a position is written where its lane is in the split (R235). -/
def State.sortWord (s : State) (d a b : BitVec 7) (t : BitVec 2) (c : WCtx) : WaveRes :=
  let ty := ATy.ofCode false t
  let va := s.v32 c.w a.toNat ty.absent
  let sorted := sortKeys (keyLt ty) ((splitCodes ty c.sp.lanes va).mapIdx fun i v => (v, i))
  let keys : Vector Nat 32 := Vector.ofFn fun l => (sorted.getD l.val (0, 0)).1
  let from_ : Vector Nat 32 := Vector.ofFn fun l => (sorted.getD l.val (0, 0)).2
  return { s, writes := vWrites false d.toNat c.sp.lanes keys ++ vWrites false b.toNat c.sp.lanes from_, cat := some .pipe }

def execXfSort (z : Bool) (d a b : BitVec 7) (t : BitVec 2) (s : State) :=
  s.waveWord (.xfSort z d a b t) z 1 (s.sortWord d a b t)

end Sys2Proof.Machine
end

