-- ==== Sys2Proof/Machine/WaveMemory.lean ====
section
/-!
DEFINITION. Class 4: loads, stores, atomics, waits, fences, gather and scatter (R237 to R269). Every access of a word is
performed at its issue (log 4); results are outstanding in the wave-load category.
-/

namespace Sys2Proof.Machine

/-! ### Element types -/

/-- A type of LD, ST, ST.SK and STNT: bytes in memory, registers, and how the register reads (R244). -/
structure MemTy where
  bytes : Nat
  regs : Nat
  fmt : Fmt
  deriving DecidableEq, Repr

/-- Bits of the registers. -/
def MemTy.bits (t : MemTy) : Nat := 32 * t.regs

/-- The register's kind where it holds an integer. -/
def MemTy.wide (t : MemTy) (k : Kind) : MemTy := { t with fmt := .int k t.bits }

/-- The types of LD and ST in opcode order: .b8 to .b128, .i8, .i16, .n8, .n16 (R84, R244). -/
def ldTy (t : Nat) : MemTy :=
  match t with
  | 0 => { bytes := 1, regs := 1, fmt := .int .raw 32 }
  | 1 => { bytes := 2, regs := 1, fmt := .int .raw 32 }
  | 2 => { bytes := 4, regs := 1, fmt := .int .raw 32 }
  | 3 => { bytes := 8, regs := 2, fmt := .int .raw 64 }
  | 4 => { bytes := 16, regs := 4, fmt := .int .raw 128 }
  | 5 => { bytes := 1, regs := 1, fmt := .int .signed 32 }
  | 6 => { bytes := 2, regs := 1, fmt := .int .signed 32 }
  | 7 => { bytes := 1, regs := 1, fmt := .int .unsigned 32 }
  | _ => { bytes := 2, regs := 1, fmt := .int .unsigned 32 }

/-- The types of ST.SK in opcode order (R84, R244). -/
def skTy (t : Nat) : MemTy :=
  match t with
  | 0 => { bytes := 1, regs := 1, fmt := .int .signed 32 }
  | 1 => { bytes := 2, regs := 1, fmt := .int .signed 32 }
  | 2 => { bytes := 4, regs := 1, fmt := .int .signed 32 }
  | 3 => { bytes := 8, regs := 2, fmt := .int .signed 64 }
  | 4 => { bytes := 1, regs := 1, fmt := .int .unsigned 32 }
  | 5 => { bytes := 2, regs := 1, fmt := .int .unsigned 32 }
  | 6 => { bytes := 4, regs := 1, fmt := .int .unsigned 32 }
  | 7 => { bytes := 8, regs := 2, fmt := .int .unsigned 64 }
  | _ => { bytes := 4, regs := 1, fmt := .flt .f32 }

/-- The raw-bits type of `n` bytes. -/
def rawTy (n : Nat) : MemTy := { bytes := n, regs := n / 4, fmt := .int .raw (8 * n) }

/-- What a lane that is not performed receives, and what dead data reads as (R178, R245). -/
def MemTy.fill (t : MemTy) : Nat := t.fmt.absent

/-- A loaded element as the register takes it (R244). -/
def MemTy.load (t : MemTy) (v : Nat) : Nat :=
  match t.fmt with
  | .int .raw _ => v
  | .int k n => if isAbsentCode k (8 * t.bytes) v then absentCode k n else ofInt n (intOf k (8 * t.bytes) v)
  | .flt _ => v

/-- A register as memory takes it, and its flags (R244). -/
def MemTy.store (t : MemTy) (v : Nat) : Nat × Flags :=
  match t.fmt with
  | .int .raw _ => (v % 2 ^ (8 * t.bytes), Flags.none)
  | .int k n => convert (.int k n) (.int k (8 * t.bytes)) .rne v
  | .flt _ => (v, Flags.none)

/-- Data registers, the first lowest; a dead one makes the element dead (R178, log 22). -/
def State.vData (s : State) (w : Wave) (regs r fill : Nat) : Vector Nat 32 :=
  match regs with
  | 1 => s.v32 w r fill
  | 2 => s.v64 w r fill
  | _ => Vector.ofFn fun l =>
    match s.vLane w r l, s.vLane w (r + 1) l, s.vLane w (r + 2) l, s.vLane w (r + 3) l with
    | some a, some b, some c, some d => a.toNat + 2 ^ 32 * b.toNat + 2 ^ 64 * c.toNat + 2 ^ 96 * d.toNat
    | _, _, _, _ => fill

/-- Writes of one to four consecutive registers. -/
def vWritesN (regs d : Nat) (lanes : LaneSet) (vals : Vector Nat 32) : List RegWrite :=
  (List.range regs).map fun i => .v (d + i) lanes (vals.map fun x => BitVec.ofNat 32 (x / 2 ^ (32 * i)))

/-! ### Checks of an access (R240 to R242) -/

/-- Words that an extension makes longer. -/
def wordsOf (ext : Option MemExt) : Nat := if ext.isSome then 2 else 1

def mustOf (ext : Option MemExt) : Bool := (ext.map MemExt.must).getD false

/-- The scope of a word, with the default of R251 where it carries no extension. -/
def scopeOf (dflt : BitVec 4) (ext : Option MemExt) : BitVec 4 := (ext.map MemExt.scope).getD dflt

def orderOf (ext : Option MemExt) : Nat := (ext.map fun e => e.order.toNat).getD 0

/-- Whether a word is an acquire, or a release (R52). -/
def isAcq (order : Nat) : Bool := bitNat order 0
def isRel (order : Nat) : Bool := bitNat order 1

/-- A lane of an access: none, an element failure, or the physical address it reaches. -/
inductive LaneAcc where
  | out
  | failed
  | ok (pa : Nat)
  deriving DecidableEq, Repr, Inhabited

/-- The trit of a lane (R242). -/
def LaneAcc.trit : LaneAcc → Trit
  | .out => .u
  | .failed => .f
  | .ok _ => .t

/-- The lanes whose addresses satisfy a test. -/
def lanesWhere (part : Vector (Option Nat) 32) (p : Nat → Bool) : LaneSet :=
  laneSet fun l => (part[l].map p).getD false

/-- The address of the lowest lane of a set (R200). -/
def lowestAddr (part : Vector (Option Nat) 32) (ls : LaneSet) : Nat := part[lowestLane ls].getD 0

/-- A fault of the lanes whose addresses satisfy a test; none where no lane does. -/
def laneFault (code : FaultCode) (aux : Nat) (part : Vector (Option Nat) 32) (p : Nat → Bool) : Option Raised :=
  let ls := lanesWhere part p
  if ls = 0 then none else some (Raised.lanes code aux (lowestAddr part ls) ls)

/-- Misaligned lanes (R240). -/
def misalignedAt (n : Nat) (part : Vector (Option Nat) 32) : Option Raised :=
  laneFault .misaligned 0 part fun a => a % n != 0

/-- Translation for several kinds of access at once. -/
def State.translateAll (s : State) (va : Nat) : List AccKind → Tr
  | [] => .bad
  | [k] => s.translate k va
  | k :: ks =>
    match s.translate k va with
    | .ok _ => s.translateAll va ks
    | t => t

/-- The accesses of an atomic (R240). -/
def rdWr : List AccKind := [.read, .write]

/-- What each lane of an access meets (R240). -/
def State.laneAccs (s : State) (ks : List AccKind) (part : Vector (Option Nat) 32) : Vector LaneAcc 32 :=
  part.map fun a => match a with
    | none => .out
    | some va => match s.translateAll va ks with
      | .ok pa => .ok pa
      | _ => .failed

/-- Alignment, translation and the residency policy of an access (R240, R241). -/
def State.access (s : State) (ks : List AccKind) (must : Bool) (n : Nat) (part : Vector (Option Nat) 32) :
    Except (Stop SplitWait) (Vector LaneAcc 32) :=
  match misalignedAt n part with
  | some f => .error (.fault f)
  | none =>
    let accs := s.laneAccs ks part
    let ls := laneSet fun l => accs[l] == .failed
    if must && ls != 0 then .error (.fault (Raised.lanes .elementAccess 0 (lowestAddr part ls) ls)) else .ok accs

/-- Translation of a word outside the residency policy: a page that is only away makes the split wait (R256). -/
def State.accessWait (s : State) (n : Nat) (part : Vector (Option Nat) 32) : Except (Stop SplitWait) (Vector LaneAcc 32) :=
  match misalignedAt n part with
  | some f => .error (.fault f)
  | none =>
    match laneFault .elementAccess 0 part fun a => s.translate .read a == .bad with
    | some f => .error (.fault f)
    | none =>
      let accs := s.laneAccs [.read] part
      match (lanesOf (laneSet fun l => accs[l] == .failed)).head? with
      | some l => .error (.wait s (.page (part[l].getD 0)))
      | none => .ok accs

/-- The lanes that are performed: lane, virtual and physical address, in ascending order. -/
def performedOf (part : Vector (Option Nat) 32) (accs : Vector LaneAcc 32) : List (Lane × Nat × Nat) :=
  (List.finRange 32).filterMap fun l =>
    match part[l], accs[l] with
    | some va, .ok pa => some (l, va, pa)
    | _, _ => none

/-- The residency predicate of an extension (R242). -/
def resWrites (c : WCtx) (ext : Option MemExt) (trits : Vector Trit 32) : List RegWrite :=
  match ext with
  | some e => if e.res.toNat < 48 then [.k e.res.toNat c.sp.lanes trits] else []
  | none => []

def accTrits (accs : Vector LaneAcc 32) : Vector Trit 32 := accs.map LaneAcc.trit

/-! ### The collector and poison -/

/-- Entries in use in the request collector of a core (R263). -/
def State.entriesOn (s : State) (core : Nat) : Nat :=
  (s.waves.filter fun e => !e.2.outstanding.isEmpty).foldl (fun n e =>
    match s.crew (crewOf e.1) with
    | some c => if c.place.core = core then n + e.2.outstanding.foldl (fun m p => m + p.entries) 0 else n
    | none => n) 0

/-- Entries of a request collector (R263). -/
def collectorSize : Nat := 4096

/-- Lanes that take part. -/
def countPart (part : Vector (Option Nat) 32) : Nat := (part.toList.filter Option.isSome).length

/-- The entries of a word: one for each lane that takes part, none where it makes no access (R263). -/
def entriesOf (part : Vector (Option Nat) 32) (ps : List (Lane × Nat × Nat)) : Nat := if ps.isEmpty then 0 else countPart part

/-- A word waits until the collector has room for all its entries (R263). -/
def State.room (s : State) (c : WCtx) (n : Nat) : Except (Stop SplitWait) Unit :=
  if n = 0 ∨ s.entriesOn c.crew.place.core + n ≤ collectorSize then .ok ()
  else .error (.wait s .collector)

/-- A memory word of a split: in a pair its pages are noted (R395), and its lanes act together (R265). -/
def State.begins (s : State) (c : WCtx) (part : Vector (Option Nat) 32) : State :=
  (s.notePages c.gang (part.toList.filterMap id)).together265 c.actor

/-- The units of memory that a word reaches. -/
def spotsAt (n : Nat) (ps : List (Lane × Nat × Nat)) : List Spot := ps.flatMap fun p => memSpots p.2.2 n

/-- What the reads of a word order: an acquire at its scope, or a plain read that an acquire fence may follow (R31, R266). -/
def State.readAs (s : State) (c : WCtx) (ext : Option MemExt) (n : Nat) (ps : List (Lane × Nat × Nat)) : State :=
  if isAcq (orderOf ext) then s.acquireAt c.actor (scopeOf 0 ext).toNat (spotsAt n ps) else s.hearAt c.actor (spotsAt n ps)

/-- What the writes of a word order: a release at its scope (R31). -/
def State.wroteAs (s : State) (c : WCtx) (ext : Option MemExt) (n : Nat) (ps : List (Lane × Nat × Nat)) : State :=
  if isRel (orderOf ext) then s.releaseAt c.actor (scopeOf 0 ext).toNat (spotsAt n ps) else s

/-- The machine as a split reads memory: on path W (R16). -/
def State.onW (s : State) (c : WCtx) : State := s.on .w c.actor

/-- Reading a poisoned line consumes it (R383). -/
def State.noPoison (s : State) (n : Nat) (ps : List (Lane × Nat × Nat)) : Except (Stop SplitWait) Unit :=
  if ps.any fun p => s.poisoned p.2.2 n then .error .poison else .ok ()

/-! ### Loads -/

/-- Whether a pair's leading gang reads once for both: an acquire wider than gang, or a plain load before such a fence (R394). -/
def loadForwarded (s : State) (c : WCtx) (ext : Option MemExt) : Bool :=
  match c.gang.pair with
  | none => false
  | some _ =>
    if isAcq (orderOf ext) then widerThanGang (scopeOf 0 ext)
    else (match c.sp.reps with
      | some r => decide (r.n ≤ c.sp.rep + 1)
      | none => true) && c.thenFence s (wordsOf ext)

/-- Work in a pair that one gang performs for both, or that each performs. -/
def State.perhapsForwarded (s : State) (c : WCtx) (once : Bool) (cat : Option Cat) (perform : State → WaveRes) : WaveRes :=
  if once then s.forwarded c cat perform else perform s

/-- A load of the lanes that take part (R244, R245). What it reads of a barrier object, which R28 leaves an unspecified snapshot of its fields,
is the object's bytes of the moment (log 32). -/
def State.loadWord (s : State) (ty : MemTy) (d : BitVec 7) (part : Vector (Option Nat) 32) (ext : Option MemExt) (c : WCtx) :
    WaveRes := do
  let accs ← s.access [.read] (mustOf ext) ty.bytes part
  let ps := performedOf part accs
  s.perhapsForwarded c (loadForwarded s c ext) (some .load) fun s => do
    s.room c (entriesOf part ps)
    s.noPoison ty.bytes ps
    let s := (s.begins c part).hear .w
    let vals : Vector Nat 32 := accs.map fun a => match a with
      | .ok pa => ty.load (ofBytes ((s.onW c).rdOwn c.gang pa ty.bytes))
      | _ => ty.fill
    return { s := s.readAs c ext ty.bytes ps, writes := vWritesN ty.regs d.toNat c.sp.lanes vals ++ resWrites c ext (accTrits accs),
             cat := some .load, entries := entriesOf part ps }

def execLd (z : Bool) (t : BitVec 4) (d a b : BitVec 7) (x f : Bool) (ext : Option MemExt) (s : State) :=
  s.waveWord (.ld z t d a b x f ext) z (wordsOf ext) fun c =>
    s.loadWord (ldTy t.toNat) d (partAddrs c ext (ldTy t.toNat).bytes (s.addrs c a b x f ext)) ext c

/-- GATH loads .b32 by element index (R259). -/
def execGath (z : Bool) (d a b : BitVec 7) (ext : Option MemExt) (s : State) :=
  s.waveWord (.gath z d a b ext) z (wordsOf ext) fun c => s.loadWord (ldTy 2) d (partAddrs c ext 4 (s.elemAddrs c a b ext)) ext c

/-! ### Stores -/

/-- The data of a word's accesses, with the injection into its lowest one (R151, R390). -/
def State.injected (s : State) (c : WCtx) (datas : List (List Byte)) : List (List Byte) :=
  match c.gang.pair, datas with
  | some p, d :: ds => s.inject c.gang (32 * c.key.crew + c.key.wave) (storeOrdinal p c.party c.matchedAt) d :: ds
  | _, ds => ds

/-- Records of accesses at virtual addresses (R390). -/
def recordsOf (rmw release : Bool) (size : Nat) (vas : List Nat) (datas : List (List Byte)) : List (List Byte) :=
  List.zipWith (fun va d => sigRecord va size rmw release d) vas datas

/-- Lanes whose data is present, for words that skip the others (R240). -/
def skipLanes (skip : Bool) (ty : MemTy) (vals : Vector Nat 32) (part : Vector (Option Nat) 32) : Vector (Option Nat) 32 :=
  Vector.ofFn fun l => if skip && ty.fmt.isAbsent vals[l] then none else part[l]

/-- A store of the lanes that take part (R241, R244, R246): the highest lane's bytes remain. -/
def State.storeWord (s : State) (ty : MemTy) (skip : Bool) (d : BitVec 7) (part : Vector (Option Nat) 32) (ext : Option MemExt)
    (c : WCtx) : WaveRes := do
  let vals := s.vData c.w ty.regs d.toNat ty.fill
  let live := skipLanes skip ty vals part
  let accs ← s.access [.write] (mustOf ext) ty.bytes live
  let ps := performedOf live accs
  s.room c (entriesOf live ps)
  let release := isRel (orderOf ext)
  let datas := s.injected c (ps.map fun p => toBytes ty.bytes (ty.store vals[p.1]).1)
  let recs := recordsOf false release ty.bytes (ps.map fun p => p.2.1) datas
  let ws := List.zip (ps.map fun p => p.2.2) datas
  let done (s : State) : Done :=
    { s := s.wroteAs c ext ty.bytes ps, writes := resWrites c ext (accTrits accs), flags := ps.foldl (fun f p => f ||| (ty.store vals[p.1]).2) Flags.none,
      cat := some .load }
  if release && widerThanGang (scopeOf 0 ext) then s.atPoint c kindStore recs (some .load) fun s => .ok (done ((s.begins c live).wrAllBy .w c.actor ws))
  else do
    let s ← (s.begins c live).storeGate c recs ws
    return done s

def execSt (z : Bool) (t : BitVec 4) (d a b : BitVec 7) (x f : Bool) (ext : Option MemExt) (s : State) :=
  s.waveWord (.st z t d a b x f ext) z (wordsOf ext) fun c =>
    s.storeWord (ldTy t.toNat) false d (partAddrs c ext (ldTy t.toNat).bytes (s.addrs c a b x f ext)) ext c

def execStSk (z : Bool) (t : BitVec 4) (d a b : BitVec 7) (x f : Bool) (ext : Option MemExt) (s : State) :=
  s.waveWord (.stSk z t d a b x f ext) z (wordsOf ext) fun c =>
    s.storeWord (skTy t.toNat) true d (partAddrs c ext (skTy t.toNat).bytes (s.addrs c a b x f ext)) ext c

/-- SCAT stores .b32 by element index (R259). -/
def execScat (z : Bool) (d a b : BitVec 7) (ext : Option MemExt) (s : State) :=
  s.waveWord (.scat z d a b ext) z (wordsOf ext) fun c =>
    s.storeWord (ldTy 2) false d (partAddrs c ext 4 (s.elemAddrs c a b ext)) ext c

/-! ### Non-temporal stores (R37, R267, log 19) -/

/-- The bytes of a write. -/
def ntBytes (pa : Nat) (bs : List Byte) : List NtByte := bs.mapIdx fun i b => (pa + i, b)

/-- The bytes of each lane that no higher lane of the word writes (R246). -/
def topBytes : List (List NtByte) → List (List NtByte)
  | [] => []
  | b :: bs => b.filter (fun x => !bs.any fun c => c.any fun y => y.1 == x.1) :: topBytes bs

/-- The bytes of one lane's non-temporal store: visible at once, or kept until a drain; a choice of the machine. -/
def State.ntStore (s : State) (c : WCtx) (place : Nat) (bs : List NtByte) : State :=
  if s.pick place 2 = 0 then
    (s.wrAllBy .w c.actor (bs.map fun b => (b.1, [b.2]))).modWave c.key fun w =>
      { w with nt := w.nt.filter fun b => !bs.any fun x => x.1 == b.1 }
  else s.modWave c.key fun w => { w with nt := w.nt ++ bs }

/-- STNT (R37, R244). A pair's buffer takes it as any store (R392). -/
def State.stntWord (s : State) (ty : MemTy) (d : BitVec 7) (part : Vector (Option Nat) 32) (ext : Option MemExt) (c : WCtx) :
    WaveRes :=
  if c.gang.pair.isSome then s.storeWord ty false d part ext c
  else do
    let vals := s.vData c.w ty.regs d.toNat ty.fill
    let accs ← s.access [.write] (mustOf ext) ty.bytes part
    let ps := performedOf part accs
    s.room c (entriesOf part ps)
    let bs := topBytes (ps.map fun p => ntBytes p.2.2 (toBytes ty.bytes vals[p.1]))
    let t := bs.zipIdx.foldl (fun s b => s.ntStore c (16384 + b.2) b.1) (s.begins c part)
    return { s := t.spend, writes := resWrites c ext (accTrits accs), cat := some .load }

def execStnt (z : Bool) (t : BitVec 3) (d a b : BitVec 7) (x f : Bool) (ext : Option MemExt) (s : State) :=
  s.waveWord (.stnt z t d a b x f ext) z (wordsOf ext) fun c =>
    s.stntWord (ldTy t.toNat) d (partAddrs c ext (ldTy t.toNat).bytes (s.addrs c a b x f ext)) ext c

/-- NTDRAIN gathers at its scope what the wave keeps, in its order, and what it has gathered at a narrower one: the parties of the
scope see it from now on, the others in finite time (R37, R267). -/
def State.drainNt (s : State) (c : WCtx) (scope : Nat) : State :=
  let s : State := { s with late := s.late.map fun (r : Late) =>
    if r.path == Path.w && r.knows (.wave c.key (BitVec.allOnes 32)) && !r.seen.contains Path.w then
      { r with shown := (Path.w, scope, c.actor, s.clusterOf (crewOf c.key)) :: r.shown }
    else r }
  match s.wave c.key with
  | none => s
  | some w => (w.nt.foldl (fun s b => s.wrAs .w c.actor (some scope) b.1 [b.2]) s).modWave c.key fun w => { w with nt := [] }

/-- A fence's place as a compare point: a release wider than gang (R391). -/
def State.fenceGate (s : State) (c : WCtx) (kind : Nat) (e : MemExt) (perform : State → State) : WaveRes :=
  if isRel e.order.toNat && widerThanGang e.scope then s.atPoint c kind [] none fun s => .ok { s := perform s }
  else .ok { s := perform s }

def execNtdrain (z : Bool) (ext : MemExt) (s : State) :=
  s.waveWord (.ntdrain z ext) z 2 fun c => s.fenceGate c kindNtdrain ext fun s => s.drainNt c ext.scope.toNat

/-- FENCE makes no access, and one path shows its writes in their order already (log 4); what it orders shows on other paths (R32,
R266). -/
def execFence (z : Bool) (ext : MemExt) (s : State) :=
  s.waveWord (.fence z ext) z 2 fun c => s.fenceGate c kindFence ext fun s =>
    (s.together265 c.actor).fenceBy c.actor ext.scope.toNat ext.order.toNat

/-- XFENCE (R33): the writes of one path that happen before it show on the other. -/
def execXfence (z : Bool) (d a : BitVec 7) (ext : MemExt) (s : State) :=
  s.waveWord (.xfence z d a ext) z 2 fun c =>
    .ok { s := (s.together265 c.actor).xfenceBy c.actor (Path.ofCode d.toNat) (Path.ofCode a.toNat) ext.scope.toNat }

/-! ### TOUCH (R243) -/

/-- What TOUCH meets at an address: an element failure other than non-residency, or a page, resident or not. -/
def State.touchAt (s : State) (va : Nat) : Tr :=
  if va ≥ 2 ^ 57 then .bad
  else match pageAt s.pages va with
    | none => .bad
    | some p => if !s.reachable (p.pa + (va - p.base)) then .bad else if p.resident then .ok p.pa else .away va

/-- TOUCH (R243): the pages are asked for, and a residency predicate waits for them. -/
def State.touchWord (s : State) (part : Vector (Option Nat) 32) (ext : Option MemExt) (c : WCtx) : WaveRes :=
  match (if mustOf ext then laneFault .elementAccess 0 part fun a => s.touchAt a == .bad else none) with
  | some f => .error (.fault f)
  | none =>
    let trits : Vector Trit 32 := part.map fun a => match a with
      | none => .u
      | some va => if s.touchAt va == .bad then .f else .t
    let away := (part.toList.filterMap id).filter fun va => match s.touchAt va with
      | .away _ => true
      | _ => false
    let ws := resWrites c ext trits
    .ok { s := { s with touched := away.foldl (fun t a => if t.contains a then t else t ++ [a]) s.touched }, writes := ws,
          cat := some .load, needs := if ws.isEmpty then [] else away }

def execTouch (z : Bool) (a b : BitVec 7) (x f : Bool) (ext : Option MemExt) (s : State) :=
  s.waveWord (.touch z a b x f ext) z (wordsOf ext) fun c => s.touchWord (partAddrs c ext 1 (s.addrs c a b x f ext)) ext c

/-! ### POST (R22, R268) -/

/-- POST: the pair of the lowest lane goes into the crew's return queue; an exited lead context discards it (R144). -/
def State.postWord (s : State) (d : BitVec 7) (c : WCtx) : WaveRes :=
  let v := (s.v64 c.w d.toNat (2 ^ 64 - 1))[lowestLane c.sp.lanes]
  if s.leadExited (crewOf c.key) then .ok { s }
  else if c.crew.rq.length < 64 ∧ c.crew.rqDue = [] then
    .ok { s := (s.release c.actor (.posted (crewOf c.key) c.crew.rq.length)).modCrew (crewOf c.key) fun k =>
            { k with rq := k.rq ++ [BitVec.ofNat 64 v] } }
  else .error (.wait s .post)

def execPost (z : Bool) (d : BitVec 7) (s : State) := s.waveWord (.post z d) z 1 fun c => s.postWord d c

/-! ### Barrier objects (R28, R29, R258) -/

/-- Fields of a barrier object (R28). -/
def objPhase (o : Nat) : Nat := fieldNat o 0 32
def objRemaining (o : Nat) : Nat := fieldNat o 32 32
def objExpected (o : Nat) : Nat := fieldNat o 64 32

/-- A reserved field that is not zero, or an expected count of zero (R29). -/
def objBad (o : Nat) : Bool := fieldNat o 96 32 != 0 || objExpected o == 0

/-- BWAIT (R258): every lane's phase must differ from v_d; a lane without a part keeps v_d (log 24). -/
def State.bwaitWord (s : State) (d : BitVec 7) (part : Vector (Option Nat) 32) (ext : Option MemExt) (c : WCtx) : WaveRes := do
  let accs ← s.accessWait 16 part
  let ps := performedOf part accs
  s.perhapsForwarded c (c.gang.pair.isSome && widerThanGang (scopeOf 8 ext)) (some .load) fun s => do
    s.noPoison 16 ps
    let s := (s.begins c part).hear .w
    let objs : Vector Nat 32 := accs.map fun a => match a with
      | .ok pa => ofBytes ((s.onW c).rdOwn c.gang pa 16)
      | _ => 0
    let bad := laneSet fun l => accs[l] != .out && objBad objs[l]
    if bad ≠ 0 then .error (.fault (Raised.lanes .illegalInstruction 64 (lowestAddr part bad) bad))
    else
      let old := s.v32 c.w d.toNat 0xFFFF_FFFF
      if ps.all fun p => objPhase objs[p.1] != old[p.1] then
        return { s := s.acquireAt c.actor (scopeOf 8 ext).toNat (spotsAt 16 ps),
                 writes := vWritesN 1 d.toNat (laneSet fun l => accs[l] != .out) (objs.map objPhase), cat := some .load }
      else .error (.wait s .bwait)

def execBwait (z : Bool) (d a b : BitVec 7) (x f : Bool) (ext : Option MemExt) (s : State) :=
  s.waveWord (.bwait z d a b x f ext) z (wordsOf ext) fun c =>
    onAddress (s.bwaitWord d (partAddrs c ext 16 (s.addrs c a b x f ext)) ext c)

/-! ### Waiters (R146, R256, R257) -/

/-- The waiter-list key of an address. -/
def waitKey (pa : Nat) : Nat := pa / 8 * 8

/-- Select up to `n` waiters that satisfy a test, in the order in which they joined; they leave every list. -/
def wakeUp (n : Nat) (sel : Waiter → Bool) : List Waiter → Nat × List Waiter
  | [] => (0, [])
  | w :: ws =>
    if n ≠ 0 ∧ sel w = true then
      let (m, rest) := wakeUp (n - 1) sel ws
      (m + 1, rest)
    else
      let (m, rest) := wakeUp n sel ws
      (m, w :: rest)

/-- WAKE of up to `n` of the waiters on an address that satisfy a test. -/
def State.wakeAt (s : State) (n pa : Nat) (sel : Waiter → Bool) : Nat × State :=
  let (m, ws) := wakeUp n (fun w => w.keys.contains (waitKey pa) && sel w) s.waiters
  (m, { s with waiters := ws })

/-- WAKE (R257). -/
def State.wakeWord (s : State) (d : BitVec 7) (part : Vector (Option Nat) 32) (c : WCtx) : WaveRes := do
  let accs ← s.accessWait 1 part
  s.forwarded c (some .load) fun s =>
    let ns := s.v32 c.w d.toNat 0xFFFF_FFFF
    let r := (performedOf part accs).foldl (fun (acc : Vector Nat 32 × State) p =>
      let (m, s) := acc.2.wakeAt (if ns[p.1] = 0xFFFF_FFFF then acc.2.waiters.length else ns[p.1]) p.2.2 fun _ => true
      (acc.1.set p.1 m, s)) (Vector.replicate 32 0, s)
    .ok { s := r.2, writes := vWritesN 1 d.toNat c.sp.lanes r.1, cat := some .load }

def execWake (z : Bool) (d a b : BitVec 7) (x f : Bool) (ext : Option MemExt) (s : State) :=
  s.waveWord (.wake z d a b x f ext) z (wordsOf ext) fun c => s.wakeWord d (partAddrs c ext 1 (s.addrs c a b x f ext)) c

/-- The final read of WAITA, an acquire at its scope (R256). -/
def State.waitaRead (s : State) (a : Actor) (g : Gang) (wide : Bool) (d scope : Nat) (lanes : LaneSet) (ps : List (Lane × Nat)) :
    State × List RegWrite :=
  let n := if wide then 8 else 4
  let fill := 2 ^ (8 * n) - 1
  let s := s.hear .w
  let vals := ps.foldl (fun (v : Vector Nat 32) p => v.set p.1 (ofBytes ((s.on .w a).rdOwn g p.2 n))) (Vector.replicate 32 fill)
  (s.acquireAt a scope (ps.flatMap fun p => memSpots p.2 n), vWritesN (n / 4) d lanes vals)

/-- WAITA (R256): complete at once where a value differs or no lane takes part; else the split parks. -/
def State.waitaWord (s : State) (z w : Bool) (d : BitVec 7) (part : Vector (Option Nat) 32) (ext : Option MemExt) (c : WCtx) :
    WaveRes := do
  let n := if w then 8 else 4
  let accs ← s.accessWait n part
  let ps := performedOf part accs
  let once := c.gang.pair.isSome && widerThanGang (scopeOf 8 ext)
  s.perhapsForwarded c once (some .load) fun s => do
    s.noPoison n ps
    let old := s.vReg c.w w d.toNat (2 ^ (8 * n) - 1)
    let lanes := ps.map fun p => (p.1, p.2.2)
    let scope := (scopeOf 8 ext).toNat
    let s := (s.begins c part).hear .w
    if ps.isEmpty || ps.any fun p => ofBytes ((s.onW c).rdOwn c.gang p.2.2 n) != old[p.1] then
      let (t, ws) := s.waitaRead c.actor c.gang w d.toNat scope c.sp.lanes lanes
      return { s := t, writes := ws, cat := some .load }
    else
      let keys := lanes.foldl (fun ks p => if ks.contains (waitKey p.2) then ks else ks ++ [waitKey p.2]) []
      let wait : AddrWait := { lanes, wide := w, d := d.toNat, since := s.ticksOf (s.clusterOf (crewOf c.key)), words := wordsOf ext, z, scope,
                               fwd := once }
      .error (.wait { s with waiters := s.waiters ++ [{ who := .split c.key c.slot, keys, watch := lanes.map fun p => (p.2, n) }] } (.waita wait))

def execWaita (z w : Bool) (d a b : BitVec 7) (x f : Bool) (ext : Option MemExt) (s : State) :=
  s.waveWord (.waita z w d a b x f ext) z (wordsOf ext) fun c =>
    onAddress (s.waitaWord z w d (partAddrs c ext (if w then 8 else 4) (s.addrs c a b x f ext)) ext c)

/-! ### Atomics (R252 to R255) -/

/-- Atomic operations. -/
inductive AtomOp where
  | add
  | min
  | max
  | and
  | or
  | xor
  | xchg
  deriving DecidableEq, Repr, Inhabited

/-- The new value of an atomic and its flags (R252). -/
def AtomOp.new (op : AtomOp) (fmt : Fmt) (old v : Nat) : Nat × Flags :=
  match op, fmt with
  | .add, .int k n => intOp k n [old, v] fun xs => xs.foldl (· + ·) 0
  | .add, .flt _ => ((fAdd .rne old v).1, Flags.none)
  | .min, .int k n => intOp k n [old, v] fun xs => xs.foldl Min.min (xs.headD 0)
  | .min, .flt _ => (old, Flags.none)
  | .max, .int k n => intOp k n [old, v] fun xs => xs.foldl Max.max (xs.headD 0)
  | .max, .flt _ => (old, Flags.none)
  | .and, _ => (old &&& v, Flags.none)
  | .or, _ => (old ||| v, Flags.none)
  | .xor, _ => (old ^^^ v, Flags.none)
  | .xchg, _ => (v, Flags.none)

/-- The types of ATOM add (R84). -/
def addFmt (t : Nat) : Fmt :=
  match t with
  | 0 => .int .signed 32
  | 1 => .int .unsigned 32
  | 2 => .int .raw 32
  | 3 => .flt .f32
  | 4 => .int .signed 64
  | 5 => .int .unsigned 64
  | _ => .int .raw 64

/-- The types of ATOM min and max (R84). -/
def minFmt (t : Nat) : Fmt :=
  match t with
  | 0 => .int .signed 32
  | 1 => .int .unsigned 32
  | 2 => .int .signed 64
  | _ => .int .unsigned 64

def rawFmt (w : Bool) : Fmt := .int .raw (bitsOf w)

/-- One read-modify-write per lane, in ascending order, each seeing the one before (R254). -/
def State.rmwLanes (s : State) (a : Actor) (n : Nat) (new : Nat → Nat → Nat × Flags) :
    List (Lane × Nat × Nat) → List Nat → Vector Nat 32 → Flags → State × Vector Nat 32 × Flags
  | p :: ps, v :: vs, olds, f =>
    let s := s.meetRmw .w p.2.2 n
    let old := (s.on .w a).rdNat p.2.2 n
    let (r, g) := new old v
    (s.wrRmw .w a p.2.2 n r).rmwLanes a n new ps vs (olds.set p.1 old) (f ||| g)
  | _, _, olds, f => (s, olds, f)

/-- An atomic of the lanes that take part: `size` bytes of data per lane and `n` bytes in memory. -/
def State.rmwWord (s : State) (kind n size fill : Nat) (datas : Vector Nat 32) (new : Nat → Nat → Nat × Flags) (d : BitVec 7)
    (part : Vector (Option Nat) 32) (ext : Option MemExt) (c : WCtx) : WaveRes := do
  let accs ← s.access rdWr (mustOf ext) n part
  let ps := performedOf part accs
  let data := s.injected c (ps.map fun p => toBytes size datas[p.1])
  let recs := recordsOf true (isRel (orderOf ext)) n (ps.map fun p => p.2.1) data
  s.atPoint c kind recs (some .load) fun s => do
    s.room c (entriesOf part ps)
    s.noPoison n ps
    let s := ((s.begins c part).hear .w).readAs c ext n ps
    let (t, olds, f) := s.rmwLanes c.actor n new ps (data.map ofBytes) (Vector.replicate 32 fill) Flags.none
    return { s := t.wroteAs c ext n ps, writes := vWritesN (n / 4) d.toNat c.sp.lanes olds ++ resWrites c ext (accTrits accs),
             flags := f, cat := some .load, entries := entriesOf part ps }

/-- ATOM (R252). -/
def State.atomWord (s : State) (op : AtomOp) (fmt : Fmt) (d : BitVec 7) (part : Vector (Option Nat) 32) (ext : Option MemExt)
    (c : WCtx) : WaveRes :=
  let n := fmt.width / 8
  s.rmwWord kindAtom n n fmt.absent (s.vReg c.w (n == 8) d.toNat fmt.absent) (op.new fmt) d part ext c

/-- The addresses of an atomic of a format. -/
def State.atomAt (s : State) (fmt : Fmt) (a b : BitVec 7) (x f : Bool) (ext : Option MemExt) (c : WCtx) : Vector (Option Nat) 32 :=
  partAddrs c ext (fmt.width / 8) (s.addrs c a b x f ext)

def execAtomAdd (z : Bool) (t : BitVec 3) (d a b : BitVec 7) (x f : Bool) (ext : Option MemExt) (s : State) :=
  s.waveWord (.atomAdd z t d a b x f ext) z (wordsOf ext) fun c =>
    s.atomWord .add (addFmt t.toNat) d (s.atomAt (addFmt t.toNat) a b x f ext c) ext c
def execAtomMin (z : Bool) (t : BitVec 2) (d a b : BitVec 7) (x f : Bool) (ext : Option MemExt) (s : State) :=
  s.waveWord (.atomMin z t d a b x f ext) z (wordsOf ext) fun c =>
    s.atomWord .min (minFmt t.toNat) d (s.atomAt (minFmt t.toNat) a b x f ext c) ext c
def execAtomMax (z : Bool) (t : BitVec 2) (d a b : BitVec 7) (x f : Bool) (ext : Option MemExt) (s : State) :=
  s.waveWord (.atomMax z t d a b x f ext) z (wordsOf ext) fun c =>
    s.atomWord .max (minFmt t.toNat) d (s.atomAt (minFmt t.toNat) a b x f ext c) ext c
def execAtomAnd (z w : Bool) (d a b : BitVec 7) (x f : Bool) (ext : Option MemExt) (s : State) :=
  s.waveWord (.atomAnd z w d a b x f ext) z (wordsOf ext) fun c => s.atomWord .and (rawFmt w) d (s.atomAt (rawFmt w) a b x f ext c) ext c
def execAtomOr (z w : Bool) (d a b : BitVec 7) (x f : Bool) (ext : Option MemExt) (s : State) :=
  s.waveWord (.atomOr z w d a b x f ext) z (wordsOf ext) fun c => s.atomWord .or (rawFmt w) d (s.atomAt (rawFmt w) a b x f ext c) ext c
def execAtomXor (z w : Bool) (d a b : BitVec 7) (x f : Bool) (ext : Option MemExt) (s : State) :=
  s.waveWord (.atomXor z w d a b x f ext) z (wordsOf ext) fun c => s.atomWord .xor (rawFmt w) d (s.atomAt (rawFmt w) a b x f ext c) ext c
def execAtomXchg (z w : Bool) (d a b : BitVec 7) (x f : Bool) (ext : Option MemExt) (s : State) :=
  s.waveWord (.atomXchg z w d a b x f ext) z (wordsOf ext) fun c => s.atomWord .xchg (rawFmt w) d (s.atomAt (rawFmt w) a b x f ext c) ext c

/-- The new value of a compare-and-swap of `n` bits; the data holds the compare value below the new one (R253). -/
def casNew (n old data : Nat) : Nat × Flags := (if old = data % 2 ^ n then data / 2 ^ n % 2 ^ n else old, Flags.none)

/-- CAS (R253). -/
def State.casWord (s : State) (w : Bool) (d : BitVec 7) (part : Vector (Option Nat) 32) (ext : Option MemExt) (c : WCtx) : WaveRes :=
  let bits := bitsOf w
  let fill := 2 ^ bits - 1
  let cmp := s.vReg c.w w d.toNat fill
  let new := s.vReg c.w w (d.toNat + bits / 32) fill
  s.rmwWord kindCas (bits / 8) (bits / 4) fill (Vector.ofFn fun l => cmp[l] + 2 ^ bits * new[l]) (casNew bits) d part ext c

def execCas (z w : Bool) (d a b : BitVec 7) (x f : Bool) (ext : Option MemExt) (s : State) :=
  s.waveWord (.cas z w d a b x f ext) z (wordsOf ext) fun c =>
    s.casWord w d (partAddrs c ext (bitsOf w / 8) (s.addrs c a b x f ext)) ext c

/-! ### CONFD and SCADD (R260 to R262) -/

/-- The lowest lane of a set whose index equals that of a lane. -/
def firstWith (lanes : LaneSet) (ix : Vector Nat 32) (l : Lane) : Lane :=
  ((lanesOf lanes).find? fun m => ix[m] == ix[l]).getD l

/-- CONFD (R260). -/
def State.confdWord (s : State) (d a : BitVec 7) (c : WCtx) : WaveRes :=
  let ix := s.v32 c.w a.toNat 0x8000_0000
  .ok { s, writes := vWritesN 1 d.toNat c.sp.lanes (Vector.ofFn fun l =>
          if ix[l] = 0x8000_0000 then 0xFFFF_FFFF else (firstWith c.sp.lanes ix l).val), cat := some .load }

def execConfd (z : Bool) (d a : BitVec 7) (s : State) := s.waveWord (.confd z d a) z 1 fun c => s.confdWord d a c

/-- A group of a scatter-add: lanes with present data, virtual and physical address, combined sum (R261). -/
structure Group where
  lanes : LaneSet
  va : Nat
  pa : Nat
  sum : Nat
  deriving DecidableEq, Repr

/-- The sum of a group's present data in ascending lane order (R261). -/
def groupSum (vals : List Nat) : Nat :=
  match vals with
  | [] => FFmt.f32.absent
  | v :: vs => vs.foldl (fun s v => (fAdd .rne s v).1) v

/-- The groups that are performed, in the order of their lowest lanes; a lane that takes part leads its group whether or not
its data is present. -/
def groupsOf (lanes : LaneSet) (ix vals : Vector Nat 32) (part : Vector (Option Nat) 32) (accs : Vector LaneAcc 32) : List Group :=
  let heads := (lanesOf lanes).filter fun l => part[l].isSome && (firstWith (laneSet fun m => part[m].isSome) ix l == l)
  heads.filterMap fun h =>
    let mem := laneSet fun m => ix[m] == ix[h] && match accs[m] with
      | .ok _ => true
      | _ => false
    match (lanesOf mem).head? with
    | some m =>
      match part[m], accs[m] with
      | some va, .ok pa => some { lanes := mem, va, pa, sum := groupSum ((lanesOf mem).map fun l => vals[l]) }
      | _, _ => none
    | none => none

/-- The home's add of a group (R261): absent memory stays absent. -/
def scaddNew (old sum : Nat) : Nat × Flags := ((fAdd .rne old sum).1, Flags.none)

/-- SCADD (R261, R262): under .must the groups without a failure are performed before the fault. -/
def State.scaddWord (s : State) (d a b : BitVec 7) (ext : Option MemExt) (c : WCtx) : WaveRes := do
  let part := partAddrs c ext 4 (s.elemAddrs c a b ext)
  let ix := s.v32 c.w a.toNat 0x8000_0000
  let vals := s.v32 c.w d.toNat FFmt.f32.absent
  let live := skipLanes true { bytes := 4, regs := 1, fmt := .flt .f32 } vals part
  let accs ← s.access rdWr false 4 live
  let groups := groupsOf c.sp.lanes ix vals part accs
  let data := s.injected c (groups.map fun g => toBytes 4 g.sum)
  let recs := recordsOf true (isRel (orderOf ext)) 4 (groups.map Group.va) data
  let done ← s.atPoint c kindScadd recs (some .load) fun s => do
    s.room c groups.length
    let ps := groups.map fun g => (lowestLane g.lanes, g.va, g.pa)
    s.noPoison 4 ps
    let s := (s.begins c live).hear .w
    let (t, _, _) := s.rmwLanes c.actor 4 scaddNew ps (data.map ofBytes) (Vector.replicate 32 0) Flags.none
    return { s := t.wroteAs c ext 4 ps, writes := resWrites c ext (accTrits accs), cat := some .load }
  let ls := laneSet fun l => accs[l] == .failed
  if mustOf ext && ls != 0 then .error (.after done.s (Raised.lanes .elementAccess 0 (lowestAddr part ls) ls)) else return done

def execScadd (z : Bool) (d a b : BitVec 7) (ext : Option MemExt) (s : State) :=
  s.waveWord (.scadd z d a b ext) z (wordsOf ext) fun c => s.scaddWord d a b ext c

end Sys2Proof.Machine
end

