-- ==== Sys2Proof/Machine/WaveTile.lean ====
section
/-!
DEFINITION. Class 5: loads from tiles and stores into them by handle (R249, R250). Tile accesses are untranslated.
-/

namespace Sys2Proof.Machine

/-- The offset of every lane, none where absent (R249). -/
def State.tileOffs (s : State) (c : WCtx) (a : BitVec 7) (ext : Option MemExt) : Vector (Option Int) 32 :=
  let va := s.v32 c.w a.toNat 0x8000_0000
  Vector.ofFn fun l => if va[l] = 0x8000_0000 then none else some (toSigned 32 va[l] + extOff ext)

/-- The offsets of the lanes that make an access: not negative, within the limit and within the tile (R249). -/
def tilePart (c : WCtx) (t : Tile) (ext : Option MemExt) (n : Nat) (offs : Vector (Option Int) 32) : Vector (Option Nat) 32 :=
  let lim := limitOf c ext
  Vector.ofFn fun l =>
    match offs[l] with
    | some i =>
      if c.sp.lanes.getLsbD l.val && decide (0 ≤ i) && inLimit lim i.toNat n && decide (i.toNat + n ≤ t.size) then some i.toNat
      else none
    | none => none

/-- The address of a fault of the handle: the tile offset of the lowest lane with an offset (R269, log 21). -/
def handleAddr (c : WCtx) (offs : Vector (Option Int) 32) : Nat :=
  (((lanesOf c.sp.lanes).findSome? fun l => offs[l]).map (ofInt 64)).getD 0

/-- The tile of a handle: TLD of an Accord raises tile_handle, a store into one accord_write (R250). -/
def tileOf (c : WCtx) (h : Nat) (store : Bool) (offs : Vector (Option Int) 32) : Except (Stop SplitWait) Tile :=
  match tabGet c.gang.handles h with
  | some (.tile t) => .ok t
  | some (.accord _ _) => .error (.fault (Raised.at (if store then .accordWrite else .tileHandle) (handleAddr c offs)))
  | none => .error (.fault (Raised.at .tileHandle (handleAddr c offs)))

/-- The first sub-block that an access of `n` bytes at an offset must fill (R250, R288). -/
def Tile.unfilledAt (t : Tile) (n off : Nat) : Option Nat :=
  (upFrom (off / t.area) ((off + n - 1) / t.area - off / t.area + 1)).find? t.needsFill

/-- Whether the fill of a sub-block meets a page that is unmapped or forbids reads (R288). -/
def State.fillFails (s : State) (t : Tile) (sb : Nat) : Bool :=
  match s.fillSub t (t.bound.getD 0) sb with
  | .ok _ => false
  | .error (.away _) => false
  | .error _ => true

/-- A tile access waits while a sub-block that it reaches is filled (R250); a fill that cannot be made is the word's fault, with
the tile offset as its address (R269, R288). -/
def State.filledFor (s : State) (h : Nat) (t : Tile) (n : Nat) (part : Vector (Option Nat) 32) : Except (Stop SplitWait) Unit :=
  match laneFault .elementAccess 0 part fun off => ((t.unfilledAt n off).map (s.fillFails t)).getD false with
  | some f => .error (.fault f)
  | none =>
    match (part.toList.filterMap id).findSome? (t.unfilledAt n) with
    | some sb => .error (.wait s (.fill h sb))
    | none => .ok ()

/-- A misaligned tile offset (R249, R250). -/
def tileAligned (n : Nat) (part : Vector (Option Nat) 32) : Except (Stop SplitWait) Unit :=
  match misalignedAt n part with
  | some f => .error (.fault f)
  | none => .ok ()

/-- A byte that TLD reads: past the layout of an area it is zero (R283). -/
def Tile.rdByte (t : Tile) (off : Nat) : Byte := if off % t.area < t.used (off / t.area) then t.rd off else 0

/-- A split as it finds its gang's tiles on path W (R249). -/
def State.tilesOn (s : State) (c : WCtx) : WCtx :=
  if s.late.isEmpty then c else { c with gang := ((s.onW c).gang c.key.gang).getD c.gang }

/-- Reading a poisoned word of a tile consumes it (R383). -/
def Tile.noPoison (t : Tile) (n : Nat) (part : Vector (Option Nat) 32) : Except (Stop SplitWait) Unit :=
  if part.toList.any fun o => (o.map fun off => t.poisoned off n).getD false then .error .poison else .ok ()

/-- TLD (R249). -/
def State.tldWord (s : State) (n : Nat) (d a : BitVec 7) (h : BitVec 8) (ext : Option MemExt) (c : WCtx) : WaveRes := do
  let ty := rawTy n
  let offs := s.tileOffs c a ext
  let s := (s.together265 c.actor).hear .w
  let t ← tileOf (s.tilesOn c) h.toNat false offs
  let part := tilePart c t ext n offs
  tileAligned n part
  s.filledFor h.toNat t n part
  s.room c (countPart part)
  t.noPoison n part
  let vals : Vector Nat 32 := part.map fun o => match o with
    | some off => ofBytes ((upFrom off n).map t.rdByte)
    | none => ty.fill
  return { s, writes := vWritesN ty.regs d.toNat c.sp.lanes vals, cat := some .tile, entries := countPart part }

/-- A store into a tile: bytes past the plain layout of a block area are dropped (R283), and the flags of every sub-block
written are not known (R285). -/
def Tile.store (t : Tile) (off : Nat) (bs : List Byte) : Tile :=
  let room := match blockOf t.fmt with
    | some b => if t.packed then t.area else plainSize b 32
    | none => t.area
  t.wr off (bs.take (room - off % t.area))

/-- TST and TST.SK (R249, R250): lanes in ascending order, so that the highest lane's bytes remain (R246). What path W still finds
behind a handle that has changed since is written in vain (R33, R328). -/
def State.tstWord (s : State) (ty : MemTy) (skip : Bool) (d a : BitVec 7) (h : BitVec 8) (ext : Option MemExt) (c : WCtx) :
    WaveRes := do
  let n := ty.bytes
  let offs := s.tileOffs c a ext
  let s := (s.together265 c.actor).hear .w
  let t ← tileOf (s.tilesOn c) h.toNat true offs
  let vals := s.vData c.w ty.regs d.toNat ty.fill
  let part := skipLanes skip ty vals (tilePart c t ext n offs)
  tileAligned n part
  s.filledFor h.toNat t n part
  s.room c (countPart part)
  let put (t : Tile) : Tile := (List.finRange 32).foldl (fun t l =>
    match part[l] with
    | some off => t.store off (toBytes n vals[l])
    | none => t) t
  if s.staleHandle .w c.actor c.key.gang h.toNat then return { s, cat := some .tile }
  let t ← tileOf c h.toNat true offs
  let s := s.modGang c.key.gang fun g => { g with handles := tabSet g.handles h.toNat (.tile (put t)) }
  return { s := s.noteTile .w c.actor c.key.gang h.toNat t ((part.toList.filterMap id).map fun off => (off, n)), cat := some .tile }

/-- The types of TST.SK (R85). -/
def tskTy (t : Nat) : MemTy :=
  match t with
  | 0 => { bytes := 4, regs := 1, fmt := .int .signed 32 }
  | 1 => { bytes := 4, regs := 1, fmt := .int .unsigned 32 }
  | _ => { bytes := 4, regs := 1, fmt := .flt .f32 }

def execTld (z : Bool) (t : BitVec 2) (d a : BitVec 7) (h : BitVec 8) (ext : Option MemExt) (s : State) :=
  s.waveWord (.tld z t d a h ext) z (wordsOf ext) fun c => s.tldWord (4 * 2 ^ t.toNat) d a h ext c
def execTst (z : Bool) (t : BitVec 2) (d a : BitVec 7) (h : BitVec 8) (ext : Option MemExt) (s : State) :=
  s.waveWord (.tst z t d a h ext) z (wordsOf ext) fun c => s.tstWord (rawTy (4 * 2 ^ t.toNat)) false d a h ext c
def execTstSk (z : Bool) (t : BitVec 2) (d a : BitVec 7) (h : BitVec 8) (ext : Option MemExt) (s : State) :=
  s.waveWord (.tstSk z t d a h ext) z (wordsOf ext) fun c => s.tstWord (tskTy t.toNat) true d a h ext c

end Sys2Proof.Machine
end

