-- ==== Sys2Proof/Machine/WaveControl.lean ====
section
/-!
DEFINITION. Class 6: branches, joins, calls, jumps, exit, barriers, LIVE, save points, traps, the status register and the
return from a fault (R178 to R201).
-/

namespace Sys2Proof.Machine

/-! ### Branches (R185) -/

/-- Where the lanes of a branch go. -/
structure Sides where
  taken : LaneSet
  fall : LaneSet
  park : LaneSet
  bad : LaneSet
  deriving DecidableEq, Repr

/-- The sides of a branch on a trit vector with an unknown policy: 0 .uf, 1 .ut, 2 .up, 3 .ux (R86, R185). -/
def sidesOf (want : Trit) (policy : Nat) (lanes : LaneSet) (k : Vector Trit 32) : Sides :=
  let unknown (l : Lane) : Bool := k[l] == .u
  let u := lanes &&& laneSet unknown
  let yes := lanes &&& laneSet fun l => k[l] == want
  let no := lanes &&& ~~~(u ||| yes)
  { taken := if policy = 1 then yes ||| u else yes, fall := if policy = 0 then no ||| u else no,
    park := if policy = 2 then u else 0, bad := if policy = 3 then u else 0 }

/-- An address some words from a word (R62). -/
def wordAt (pc : DWord) (offset : Int) : DWord := pc + BitVec.ofInt 64 (4 * offset)

/-- A new split goes to the other slot if that is free, else onto the stack (R185, R191). -/
def Wave.spill (w : Wave) (slot : Fin 2) (p : Split) : Wave :=
  match w.slot (other slot) with
  | none => w.setSlot (other slot) (some p)
  | some _ => w.push (.pending p)

/-- split_overflow where the stack has no room (R184). -/
def Wave.checkFits (w : Wave) (n : Nat) : Except (Stop SplitWait) Unit :=
  if n = 0 ∨ w.fits n then .ok () else .error (.fault (Raised.of .splitOverflow 0))

/-- Move the sides of a branch (R185). -/
def WCtx.branch (c : WCtx) (target join : DWord) (hasJoin : Bool) (b : Sides) : Except (Stop SplitWait) Wave := do
  if b.bad ≠ 0 then .error (.fault (Raised.lanes .unknownCondition 0 0 b.bad))
  let w := c.w
  let divides := b.taken != 0 && b.fall != 0
  let rec_ := hasJoin && (divides || b.park != 0)
  let busy := (w.slot (other c.slot)).isSome
  w.checkFits ((if rec_ then 1 else 0) + (if divides && busy then 1 else 0))
  let ix := w.depth
  let w := if rec_ then w.push (.join { pc := join, lanes := c.sp.lanes, arrived := 0, parked := b.park, link := c.sp.link }) else w
  let link := if rec_ then some ix else c.sp.link
  let next := pastWord c.sp.pc 1
  let w :=
    if divides then (w.setSlot c.slot (some (Split.ready target b.taken link))).spill c.slot (Split.ready next b.fall link)
    else if b.taken ≠ 0 then w.setSlot c.slot (some (Split.ready target b.taken link))
    else if b.fall ≠ 0 then w.setSlot c.slot (some (Split.ready next b.fall link))
    else w.setSlot c.slot none
  return if rec_ then w.complete c.slot ix 65 else w

/-- BR and BRC (R185). Predicate 63 moves every lane. -/
def State.brWord (s : State) (want : Trit) (p : BitVec 6) (u : BitVec 2) (o j : BitVec 8) (c : WCtx) :
    Except (Stop SplitWait) State := do
  let b : Sides := if p.toNat = 63 then { taken := c.sp.lanes, fall := 0, park := 0, bad := 0 }
    else sidesOf want u.toNat c.sp.lanes (s.kReg c.w p.toNat)
  let w ← c.branch (wordAt c.sp.pc (toSigned 8 o.toNat)) (wordAt c.sp.pc j.toNat) (j != 0) b
  return s.setWave c.key w

def execBr (z : Bool) (p : BitVec 6) (u : BitVec 2) (o j : BitVec 8) (s : State) :=
  s.waveControl (.br z p u o j) z (s.brWord .t p u o j)
def execBrc (z : Bool) (p : BitVec 6) (u : BitVec 2) (o j : BitVec 8) (s : State) :=
  s.waveControl (.brc z p u o j) z (s.brWord .f p u o j)

/-- The issuing split goes to an address. -/
def WCtx.goto (c : WCtx) (pc : DWord) (w : Wave) : Wave :=
  w.setSlot c.slot (some { c.sp with pc, rep := 0, reps := none, wait := .none })

/-- BRQ: the split moves as one on an entry that is neither zero nor all ones (R187). -/
def State.brqWord (s : State) (q : BitVec 2) (o : BitVec 8) (c : WCtx) : Except (Stop SplitWait) State :=
  match s.frontOf c q.toNat with
  | none => .error (.wait s (.queue q.toNat))
  | some (e, pop) =>
    let dest := if e ≠ 0 ∧ e ≠ BitVec.allOnes 64 then wordAt c.sp.pc (toSigned 8 o.toNat) else pastWord c.sp.pc 1
    .ok (((s.popAcquire c pop).setWave c.key ((c.goto dest c.w).popQueue pop)).retireQueues (crewOf c.key))

def execBrq (z : Bool) (q : BitVec 2) (o : BitVec 8) (s : State) := s.waveControl (.brq z q o) z (s.brqWord q o)

/-- JOIN: early arrival at the split's record; nothing where it has none (R188). -/
def State.joinWord (s : State) (c : WCtx) : Except (Stop SplitWait) State :=
  match c.sp.link with
  | none => .ok (s.setWave c.key (c.goto (pastWord c.sp.pc 1) c.w))
  | some i => .ok (s.setWave c.key (c.w.arrive c.slot i))

def execJoin (z : Bool) (s : State) := s.waveControl (.join z) z s.joinWord

/-! ### Calls and jumps (R189 to R191) -/

/-- The header map of the wave stream. -/
def State.waveHeaders (s : State) (g : Gang) : List Nat := ((s.codeOf g).map fun c => c.wave.headers).getD []

/-- CALL and CALLX must be last in their clause (R189). -/
def State.checkLast (s : State) (c : WCtx) : Except (Stop SplitWait) Unit :=
  if s.lastInClause (s.waveHeaders c.gang) c.sp.pc.toNat then .ok () else .error (.fault (illegal 64))

/-- The writes of the link pair: the next clause header in v126 and v127 (R189). -/
def WCtx.linkWrites (c : WCtx) : List RegWrite :=
  vWrites true 126 c.sp.lanes (Vector.replicate 32 (pastWord c.sp.pc 1).toNat)

def State.callWord (s : State) (o : BitVec 8) (c : WCtx) : Except (Stop SplitWait) State := do
  s.checkLast c
  return s.setWave c.key (c.goto (wordAt c.sp.pc (toSigned 8 o.toNat)) (c.w.putNow c.linkWrites))

def execCall (z : Bool) (o : BitVec 8) (s : State) := s.waveControl (.call z o) z (s.callWord o)

/-- The first check of R190 that a target fails; none where it passes. `tag` is the tag that a landing pad must carry; RET
makes the first four checks only. -/
def State.jumpReason (s : State) (headers : List Nat) (tag : Option Nat) (t : Nat) : Option Nat :=
  if t ≥ 2 ^ 57 then some 1
  else match pageAt s.pages t with
    | none => some 1
    | some p =>
      if !p.x then some 2
      else if t % 4 ≠ 0 then some 3
      else if !headers.contains t then some 4
      else match tag with
        | none => none
        | some g =>
          match s.codeWord t with
          | .ok h => if !bitNat h.toNat 23 then some 5 else if fieldNat h.toNat 17 6 ≠ g then some 6 else none
          | .error _ => none

/-- The code of a reason (R190). -/
def jumpCode (reason : Nat) : FaultCode := if reason ≤ 4 then .jumpTarget else .landingMismatch

/-- A pad that stands on a page that is away: the jump waits for the page, as any fetch. -/
def State.padAway (s : State) (tag : Option Nat) (t : Nat) : Bool :=
  tag.isSome && match s.codeWord t with
    | .error (.away _) => true
    | _ => false

/-- Insert a number into a rising list without repeats. -/
def insertRising (n : Nat) : List Nat → List Nat
  | [] => [n]
  | m :: ms => if n < m then n :: m :: ms else if n = m then m :: ms else m :: insertRising n ms

/-- Divide the split over the targets of its lanes (R191). -/
def WCtx.scatter (c : WCtx) (w : Wave) (targets : Vector Nat 32) : Except (Stop SplitWait) Wave :=
  let ts := (lanesOf c.sp.lanes).foldl (fun ts l => insertRising targets[l] ts) []
  let at_ (t : Nat) : Split := Split.ready (BitVec.ofNat 64 t) (c.sp.lanes &&& laneSet fun l => targets[l] == t) c.sp.link
  let free := (w.slot (other c.slot)).isNone
  match ts with
  | [] => .ok w
  | t :: ts => do
    w.checkFits (ts.length - if free then 1 else 0)
    let w := w.setSlot c.slot (some (at_ t))
    match ts with
    | [] => return w
    | u :: us =>
      if free then return us.reverse.foldl (fun w t => w.push (.pending (at_ t))) (w.setSlot (other c.slot) (some (at_ u)))
      else return (u :: us).reverse.foldl (fun w t => w.push (.pending (at_ t))) w

/-- An indirect jump to each lane's target; a call writes the link pair first (R189, R190). -/
def State.jumpWord (s : State) (r : Nat) (tag : Option Nat) (call : Bool) (c : WCtx) : Except (Stop SplitWait) State := do
  if call then s.checkLast c
  let headers := s.waveHeaders c.gang
  let targets := s.v64 c.w r (2 ^ 64 - 1)
  let why : Vector (Option Nat) 32 := targets.map (s.jumpReason headers tag)
  let failing := c.sp.lanes &&& laneSet fun l => why[l].isSome
  if failing ≠ 0 then
    let l := lowestLane failing
    let reason := why[l].getD 0
    .error (.fault { Raised.lanes (jumpCode reason) reason targets[l] failing with issuePc := 0 })
  else
    match (lanesOf c.sp.lanes).find? fun l => s.padAway tag targets[l] with
    | some l => .error (.wait s (.page targets[l]))
    | none =>
      let w ← c.scatter (if call then c.w.putNow c.linkWrites else c.w) targets
      return s.setWave c.key w

def execRet (z : Bool) (s : State) := s.waveControl (.ret z) z (s.jumpWord 126 none false)
def execJmpx (z : Bool) (a : BitVec 7) (g : BitVec 6) (s : State) :=
  s.waveControl (.jmpx z a g) z (s.jumpWord a.toNat (some g.toNat) false)
def execCallx (z : Bool) (a : BitVec 7) (g : BitVec 6) (s : State) :=
  s.waveControl (.callx z a g) z (s.jumpWord a.toNat (some g.toNat) true)

/-! ### Exit, barriers, LIVE -/

/-- In a pair an exit is a synchronising compare point that both gangs pass (R391). -/
def State.exitPoint (s : State) (c : WCtx) : Except (Stop SplitWait) State :=
  match c.gang.pair with
  | none => .ok s
  | some p =>
    if c.matched then .ok s
    else .error (.wait (s.modParty c.key.gang c.party fun t => t.point kindExit []) (.point (p.party c.party).next))

/-- EXIT (R183). -/
def State.exitWord (s : State) (c : WCtx) : Except (Stop SplitWait) State := do
  let s ← s.exitPoint c
  return s.setWave c.key (c.w.exitLanes c.slot c.sp.lanes)

def execExit (z : Bool) (s : State) := s.waveControl (.exit z) z s.exitWord

/-- BAR: the split waits at the barrier; its wave arrives when every live split does (R192). -/
def State.barWord (s : State) (z : Bool) (i : BitVec 4) (a : BitVec 7) (l : Bool) (c : WCtx) : Except (Stop SplitWait) State :=
  if i.toNat ≥ c.gang.barriers then .error (.fault (illegal 17))
  else .ok (s.setWave c.key (c.w.setSlot c.slot (some { c.sp with
    state := .barrier, wait := .bar { id := i.toNat, members := c.crew.cQuad a.toNat, lead := l, z } })))

def execBar (z : Bool) (i : BitVec 4) (a : BitVec 7) (l : Bool) (s : State) := s.waveControl (.bar z i a l) z (s.barWord z i a l)

/-- Registers outside a set become dead (R178). -/
def Wave.kill (w : Wave) (live : BitVec 128) : Wave :=
  { w with unset := Vector.ofFn fun r : Fin 128 => if live.getLsbD r.val then w.unset[r] else BitVec.allOnes 32 }

/-- LIVE: first the wave parks as a switch bit would park it (R178). -/
def State.liveWord (s : State) (a : BitVec 7) (c : WCtx) : Except (Stop SplitWait) State :=
  if c.w.outstanding.isEmpty then .ok (s.setWave c.key (c.goto (pastWord c.sp.pc 1) { c.w.kill (c.crew.cQuad a.toNat) with past := [] }))
  else .ok (s.setWave c.key { c.w with parked := true })

def execLive (z : Bool) (a : BitVec 7) (s : State) := s.waveControl (.live z a) z (s.liveWord a)

/-! ### Save points, traps, status, return -/

/-- Whether the live-range table holds a save point (R374). -/
def State.hasSavePoint (s : State) (g : Gang) (lead : Bool) (ix : Nat) : Bool :=
  ((s.codeOf g).map fun c => c.savepoints.any fun p => p.lead == lead && p.index.toNat == ix).getD false

/-- SAVEPT: the split parks while a save of its gang is pending (R199). -/
def State.saveptWord (s : State) (i : BitVec 8) (c : WCtx) : Except (Stop SplitWait) State :=
  if !s.hasSavePoint c.gang false i.toNat then .error (.fault (illegal 64))
  else if c.gang.state = .saving then .error (.wait s (.savept i.toNat))
  else .ok (s.setWave c.key (c.goto (pastWord c.sp.pc 1) c.w))

def execSavept (z : Bool) (i : BitVec 8) (s : State) := s.waveControl (.savept z i) z (s.saveptWord i)

def execTrap (z : Bool) (i : BitVec 8) (s : State) :=
  s.waveControl (.trap z i) z fun _ => .error (.fault (Raised.of .trap i.toNat))

/-- The status register into a pair, in every lane of the split (R198). -/
def execRdstat (z : Bool) (d : BitVec 7) (s : State) :=
  s.waveWord (.rdstat z d) z 1 fun c =>
    .ok { s, writes := vWrites true d.toNat c.sp.lanes (Vector.replicate 32 c.w.status.toNat) }

/-- The flags that the last word of the other split sets after a WRSTAT: those of a word that issues in the same cycle; whether the two
words did is a free choice (R206). -/
def State.flagsAfter (s : State) (c : WCtx) : Flags :=
  match c.w.just with
  | some (i, f) => if i ≠ c.slot ∧ s.pick 12288 2 = 0 then f else Flags.none
  | none => Flags.none

/-- Bits [7:0] of v_a in the lowest lane into the low byte of the status register (R198). -/
def State.wrstatWord (s : State) (a : BitVec 7) (c : WCtx) : Except (Stop SplitWait) State :=
  let v := (s.v32 c.w a.toNat 0xFFFF_FFFF)[lowestLane c.sp.lanes]
  let status := raiseFlags (writeStatusByte c.w.status (BitVec.ofNat 8 v)) (s.flagsAfter c)
  .ok (s.spend.setWave c.key (c.goto (pastWord c.sp.pc 1) { c.w with status }))

def execWrstat (z : Bool) (a : BitVec 7) (s : State) := s.waveControl (.wrstat z a) z (s.wrstatWord a)

/-- Join records at or above a depth. -/
def Wave.recordsFrom (w : Wave) (depth : Nat) : Bool :=
  (w.stack.drop depth).any fun e => match e with
    | .join _ => true
    | _ => false

/-- RTF: the handler's lanes must be those of the fault record, and no join record pushed since may remain (R201). -/
def State.rtfWord (s : State) (r : Bool) (c : WCtx) : Except (Stop SplitWait) State :=
  match c.w.handling with
  | none => .error (.fault (illegal 64))
  | some h =>
    if h.lanes ≠ c.sp.lanes ∨ c.w.recordsFrom h.depth then .error (.fault (illegal 64))
    else .ok (s.setWave c.key (c.w.returnFault c.slot h r))

def execRtf (z r : Bool) (s : State) := s.waveControl (.rtf z r) z (s.rtfWord r)

/-- YIELD gives up its turn, which is timing only (R197). -/
def execYield (z : Bool) (s : State) :=
  s.waveControl (.yield z) z fun c => .ok (s.setWave c.key (c.goto (pastWord c.sp.pc 1) c.w))

end Sys2Proof.Machine
end

