-- ==== Sys2Proof/Machine/LeadInt.lean ====
section
/-!
DEFINITION. Class 8: lead scalar arithmetic, compares, constants and lead memory (R133 to R140).
-/

namespace Sys2Proof.Machine

/-! ### Arithmetic -/

/-- The second source of a lead word: a b field with its b-space, or an immediate (R54, R133). -/
inductive LSrc where
  | field (b : BitVec 6) (y : BitVec 2) (c32 : Bool)
  | imm (i : BitVec 8)
  deriving DecidableEq, Repr

/-- The value of a second source. -/
def State.lsrc (s : State) (c : LCtx) (k : Kind) : LSrc → Nat
  | .field b y c32 => s.leadSrc c k b y c32
  | .imm i => immCode k 64 i

/-- An x register as a number. -/
def State.xNat (s : State) (c : LCtx) (r : BitVec 6) : Nat := (s.xReg c.l r.toNat).toNat

/-- A word of a type on two sources, narrowed by R134. -/
def State.leadTwo (s : State) (k : Kind) (d a : BitVec 6) (b : LSrc) (f : Int → Int → Int) (c : LCtx) : LeadRes :=
  let (v, fl) := intOp k 64 [s.xNat c a, s.lsrc c k b] fun xs => f (xs.getD 0 0) (xs.getD 1 0)
  .ok (leadDone s d v fl)

/-- A raw-bits word on two sources. -/
def State.leadBits (s : State) (d a : BitVec 6) (b : LSrc) (f : Nat → Nat → Nat) (c : LCtx) : LeadRes :=
  .ok (leadDone s d (f (s.xNat c a) (s.lsrc c .raw b)) Flags.none)

def execLeadAdd (z : Bool) (d a b : BitVec 6) (y : BitVec 2) (c32 : Bool) (t : BitVec 2) (s : State) :=
  s.leadWord (.leadAdd z d a b y c32 t) z 1 (s.leadTwo (Kind.ofCode t) d a (.field b y c32) (· + ·))
def execLeadAddImm (z : Bool) (d a : BitVec 6) (i : BitVec 8) (t : BitVec 2) (s : State) :=
  s.leadWord (.leadAddImm z d a i t) z 1 (s.leadTwo (Kind.ofCode t) d a (.imm i) (· + ·))
def execLeadSub (z : Bool) (d a b : BitVec 6) (y : BitVec 2) (c32 : Bool) (t : BitVec 2) (s : State) :=
  s.leadWord (.leadSub z d a b y c32 t) z 1 (s.leadTwo (Kind.ofCode t) d a (.field b y c32) (· - ·))
def execLeadSubImm (z : Bool) (d a : BitVec 6) (i : BitVec 8) (t : BitVec 2) (s : State) :=
  s.leadWord (.leadSubImm z d a i t) z 1 (s.leadTwo (Kind.ofCode t) d a (.imm i) (· - ·))
def execLeadMul (z : Bool) (d a b : BitVec 6) (y : BitVec 2) (c32 : Bool) (t : BitVec 2) (s : State) :=
  s.leadWord (.leadMul z d a b y c32 t) z 1 (s.leadTwo (Kind.ofCode t) d a (.field b y c32) (· * ·))
def execLeadMulImm (z : Bool) (d a : BitVec 6) (i : BitVec 8) (t : BitVec 2) (s : State) :=
  s.leadWord (.leadMulImm z d a i t) z 1 (s.leadTwo (Kind.ofCode t) d a (.imm i) (· * ·))

/-- A word of a value type whose result needs no narrowing: absent operands give absent (R134, R135). -/
def State.leadValue (s : State) (k : Kind) (d a : BitVec 6) (b : LSrc) (f : Int → Int → Nat × Flags) (c : LCtx) : LeadRes :=
  let va := s.xNat c a
  let vb := s.lsrc c k b
  let (v, fl) := if isAbsentCode k 64 va || isAbsentCode k 64 vb then (absentCode k 64, Flags.none)
    else f (intOf k 64 va) (intOf k 64 vb)
  .ok (leadDone s d v fl)

def execLeadMulh (z : Bool) (d a b : BitVec 6) (y : BitVec 2) (c32 : Bool) (t : BitVec 2) (s : State) :=
  s.leadWord (.leadMulh z d a b y c32 t) z 1
    (s.leadValue (Kind.ofCode t) d a (.field b y c32) fun i j => (ofInt 64 (mulHigh 64 i j), Flags.none))

/-- Division by zero gives absent: DZ where the dividend is not zero, NV where it is (R135). -/
def divOr (k : Kind) (f : Int → Int → Int) (i j : Int) : Nat × Flags :=
  if j = 0 then (absentCode k 64, if i = 0 then Flags.nv else Flags.dz) else (ofInt 64 (f i j), Flags.none)

def execDiv (z : Bool) (d a b : BitVec 6) (y : BitVec 2) (c32 : Bool) (t : BitVec 2) (s : State) :=
  s.leadWord (.div z d a b y c32 t) z 1 (s.leadValue (Kind.ofCode t) d a (.field b y c32) (divOr (Kind.ofCode t) Int.tdiv))
def execRem (z : Bool) (d a b : BitVec 6) (y : BitVec 2) (c32 : Bool) (t : BitVec 2) (s : State) :=
  s.leadWord (.rem z d a b y c32 t) z 1 (s.leadValue (Kind.ofCode t) d a (.field b y c32) (divOr (Kind.ofCode t) Int.tmod))

def execLeadAnd (z : Bool) (d a b : BitVec 6) (y : BitVec 2) (c32 : Bool) (s : State) :=
  s.leadWord (.leadAnd z d a b y c32) z 1 (s.leadBits d a (.field b y c32) fun m n => m &&& n)
def execLeadAndImm (z : Bool) (d a : BitVec 6) (i : BitVec 8) (s : State) :=
  s.leadWord (.leadAndImm z d a i) z 1 (s.leadBits d a (.imm i) fun m n => m &&& n)
def execLeadOr (z : Bool) (d a b : BitVec 6) (y : BitVec 2) (c32 : Bool) (s : State) :=
  s.leadWord (.leadOr z d a b y c32) z 1 (s.leadBits d a (.field b y c32) fun m n => m ||| n)
def execLeadOrImm (z : Bool) (d a : BitVec 6) (i : BitVec 8) (s : State) :=
  s.leadWord (.leadOrImm z d a i) z 1 (s.leadBits d a (.imm i) fun m n => m ||| n)
def execLeadXor (z : Bool) (d a b : BitVec 6) (y : BitVec 2) (c32 : Bool) (s : State) :=
  s.leadWord (.leadXor z d a b y c32) z 1 (s.leadBits d a (.field b y c32) fun m n => m ^^^ n)
def execLeadXorImm (z : Bool) (d a : BitVec 6) (i : BitVec 8) (s : State) :=
  s.leadWord (.leadXorImm z d a i) z 1 (s.leadBits d a (.imm i) fun m n => m ^^^ n)
def execLeadShl (z : Bool) (d a b : BitVec 6) (y : BitVec 2) (c32 : Bool) (s : State) :=
  s.leadWord (.leadShl z d a b y c32) z 1 (s.leadBits d a (.field b y c32) (shlBits true))
def execLeadShlImm (z : Bool) (d a : BitVec 6) (i : BitVec 8) (s : State) :=
  s.leadWord (.leadShlImm z d a i) z 1 (s.leadBits d a (.imm i) (shlBits true))
def execLeadShr (z : Bool) (d a b : BitVec 6) (y : BitVec 2) (c32 : Bool) (s : State) :=
  s.leadWord (.leadShr z d a b y c32) z 1 (s.leadBits d a (.field b y c32) (shrBits true))
def execLeadShrImm (z : Bool) (d a : BitVec 6) (i : BitVec 8) (s : State) :=
  s.leadWord (.leadShrImm z d a i) z 1 (s.leadBits d a (.imm i) (shrBits true))
def execLeadSar (z : Bool) (d a b : BitVec 6) (y : BitVec 2) (c32 : Bool) (s : State) :=
  s.leadWord (.leadSar z d a b y c32) z 1 (s.leadBits d a (.field b y c32) (sarBits true))
def execLeadSarImm (z : Bool) (d a : BitVec 6) (i : BitVec 8) (s : State) :=
  s.leadWord (.leadSarImm z d a i) z 1 (s.leadBits d a (.imm i) (sarBits true))

def execLeadMin (z : Bool) (d a b : BitVec 6) (y : BitVec 2) (c32 : Bool) (t : BitVec 2) (s : State) :=
  s.leadWord (.leadMin z d a b y c32 t) z 1
    (s.leadTwo (Kind.ofCode t) d a (.field b y c32) fun i j => if i ≤ j then i else j)
def execLeadMax (z : Bool) (d a b : BitVec 6) (y : BitVec 2) (c32 : Bool) (t : BitVec 2) (s : State) :=
  s.leadWord (.leadMax z d a b y c32 t) z 1
    (s.leadTwo (Kind.ofCode t) d a (.field b y c32) fun i j => if i ≤ j then j else i)

/-! ### Compares, select, constants (R136, R137) -/

/-- CMP into a j register (R110, R136). -/
def State.leadCmp (s : State) (cond : Cond) (k : Kind) (d a : BitVec 6) (b : LSrc) (c : LCtx) : LeadRes :=
  .ok { s, writes := [], j := some (d.toNat, cmpInt cond k 64 (s.xNat c a) (s.lsrc c k b)) }

def execLeadCmp (z : Bool) (c : BitVec 3) (d a b : BitVec 6) (y : BitVec 2) (c32 : Bool) (t : BitVec 2) (s : State) :=
  s.leadWord (.leadCmp z c d a b y c32 t) z 1 (s.leadCmp (Cond.ofCode c.toNat) (Kind.ofCode t) d a (.field b y c32))
def execLeadCmpImm (z : Bool) (c : BitVec 3) (d a : BitVec 6) (i : BitVec 8) (t : BitVec 2) (s : State) :=
  s.leadWord (.leadCmpImm z c d a i t) z 1 (s.leadCmp (Cond.ofCode c.toNat) (Kind.ofCode t) d a (.imm i))

/-- SEL: T takes the source, F keeps x_d, U gives absent, or keeps it for .b64 (R136). -/
def State.leadSel (s : State) (k : Kind) (d a : BitVec 6) (b : LSrc) (c : LCtx) : LeadRes :=
  match c.l.jReg a.toNat with
  | .t => .ok (leadDone s d (s.lsrc c k b) Flags.none)
  | .f => .ok { s }
  | .u => .ok (if k.isValue then leadDone s d (absentCode k 64) Flags.none else { s })

def execLeadSel (z : Bool) (d a b : BitVec 6) (y : BitVec 2) (c32 : Bool) (t : BitVec 2) (s : State) :=
  s.leadWord (.leadSel z d a b y c32 t) z 1 (s.leadSel (Kind.ofCode t) d a (.field b y c32))

def execMovi (z : Bool) (d : BitVec 6) (i : BitVec 8) (t : BitVec 2) (s : State) :=
  s.leadWord (.movi z d i t) z 1 fun _ => .ok (leadDone s d (immCode (Kind.ofCode t) 64 i) Flags.none)

/-- Write a uniform register of a crew. -/
def Crew.setC (c : Crew) (n : Nat) (v : Word) : Crew := if h : n < 64 then { c with c := c.c.set n v h } else c

/-- MOVC: bits [31:0] into c_d, or the whole into a pair (R137). -/
def State.movcWord (s : State) (d a : BitVec 6) (w : Bool) (c : LCtx) : LeadRes :=
  let v := s.xNat c a
  .ok { s := s.modCrew c.key fun k =>
    let k := k.setC d.toNat (BitVec.ofNat 32 v)
    if w then k.setC (d.toNat + 1) (BitVec.ofNat 32 (v / 2 ^ 32)) else k }

def execMovc (z : Bool) (d a : BitVec 6) (w : Bool) (s : State) := s.leadWord (.movc z d a w) z 1 (s.movcWord d a w)

/-! ### Lead memory (R138 to R140) -/

/-- The checks of a lead access, in their order (R138), apart from what it reads. -/
def State.leadReach (s : State) (ks : List AccKind) (align va : Nat) : Except (Stop LeadWait) Nat :=
  match s.translateAll va ks with
  | .bad => .error (.fault (Raised.at .elementAccess va))
  | t =>
    if va % align ≠ 0 then .error (.fault (Raised.at .misaligned va))
    else match t with
      | .ok pa => .ok pa
      | _ => .error (.wait s (.page va))

/-- A lead access of `n` bytes: its checks, then poison where it reads (R138, R383). -/
def State.leadAccess (s : State) (ks : List AccKind) (n align va : Nat) : Except (Stop LeadWait) Nat := do
  let pa ← s.leadReach ks align va
  if ks.contains .read && s.poisoned pa n then .error .poison else .ok pa

/-- The party that a lead context is. -/
def LCtx.actor (c : LCtx) : Actor := .lead c.key

/-- The machine as a lead context reads memory: on path L (R16). -/
def State.onL (s : State) (c : LCtx) : State := s.on .l c.actor

/-- A memory word of a lead context: in a pair its page is noted (R395); late writes may show on L by now (R34). -/
def State.beginsLead (s : State) (c : LCtx) (va : Nat) : State := (s.notePages c.gang [va]).hear .l

/-- The address of LDX and STX: x_a plus the sign-extended immediate (R139). -/
def State.leadAddr (s : State) (c : LCtx) (a : BitVec 6) (i : BitVec 8) : Nat :=
  ofInt 64 (s.xNat c a + toSigned 8 i.toNat)

/-- LDX: before an acquire fence wider than gang, a pair's leading gang loads for both (R139, R394). -/
def State.ldxWord (s : State) (t : BitVec 2) (d a : BitVec 6) (i : BitVec 8) (c : LCtx) : LeadRes :=
  let n := 2 ^ t.toNat
  let load (s : State) : LeadRes := do
    let pa ← s.leadAccess [.read] n n (s.leadAddr c a i)
    let s := s.beginsLead c (s.leadAddr c a i)
    return { s := s.hearAt c.actor (memSpots pa n),
             writes := [.x d.toNat (BitVec.ofNat 64 (ofBytes ((s.onL c).rdOwn c.gang pa n)))], cat := some .leadMem }
  let last := match c.l.reps with
    | some r => decide (r.n ≤ c.l.rep + 1)
    | none => true
  if c.gang.pair.isSome && last && c.thenFence s 1 then s.forwardedLead c (some .leadMem) load else load s

def execLdx (z : Bool) (t : BitVec 2) (d a : BitVec 6) (i : BitVec 8) (s : State) :=
  s.leadWord (.ldx z t d a i) z 1 (s.ldxWord t d a i)

/-- STX: the low bytes of x_d (R139). -/
def State.stxWord (s : State) (t : BitVec 2) (d a : BitVec 6) (i : BitVec 8) (c : LCtx) : LeadRes := do
  let n := 2 ^ t.toNat
  let va := s.leadAddr c a i
  let pa ← s.leadAccess [.write] n n va
  let bs := toBytes n (s.xNat c d)
  let s ← (s.notePages c.gang [va]).storeGateLead c [sigRecord va n false false bs] [(pa, bs)]
  return { s }

def execStx (z : Bool) (t : BitVec 2) (d a : BitVec 6) (i : BitVec 8) (s : State) :=
  s.leadWord (.stx z t d a i) z 1 (s.stxWord t d a i)

/-- ATOMX: one 8-byte read-modify-write (R140); `data` is the operand as the signature records it. -/
def State.atomxWord (s : State) (new : Nat → Nat → Nat × Flags) (size data : Nat) (d a : BitVec 6) (p : BitVec 4) (o : BitVec 2)
    (c : LCtx) : LeadRes := do
  let va := s.xNat c a
  if !c.matched then let _ ← s.leadAccess rdWr 8 8 va
  s.atPointLead c kindAtomx [] [sigRecord va 8 true (isRel o.toNat) (toBytes size data)] (some .leadMem) fun s => do
    let pa ← s.leadAccess rdWr 8 8 va
    let s := (s.beginsLead c va).meetRmw .l pa 8
    let s := if isAcq o.toNat then s.acquireAt c.actor p.toNat (memSpots pa 8) else s.hearAt c.actor (memSpots pa 8)
    let old := (s.onL c).rdNat pa 8
    let (r, f) := new old data
    let s := s.wrRmw .l c.actor pa 8 r
    return { s := if isRel o.toNat then s.releaseAt c.actor p.toNat (memSpots pa 8) else s, writes := [.x d.toNat (BitVec.ofNat 64 old)], flags := f, cat := some .leadMem }

/-- ATOMX of an operation and a type. -/
def State.atomxOp (s : State) (op : AtomOp) (k : Kind) (d a b : BitVec 6) (p : BitVec 4) (o : BitVec 2) (c : LCtx) : LeadRes :=
  s.atomxWord (op.new (.int k 64)) 8 (s.xNat c b) d a p o c

def execAtomxAdd (z : Bool) (t : BitVec 2) (d a b : BitVec 6) (p : BitVec 4) (o : BitVec 2) (s : State) :=
  s.leadRelease (.atomxAdd z t d a b p o) z 1 fun s => s.atomxOp .add (Kind.ofCode t) d a b p o
def execAtomxMinI64 (z : Bool) (d a b : BitVec 6) (p : BitVec 4) (o : BitVec 2) (s : State) :=
  s.leadRelease (.atomxMinI64 z d a b p o) z 1 fun s => s.atomxOp .min .signed d a b p o
def execAtomxMinN64 (z : Bool) (d a b : BitVec 6) (p : BitVec 4) (o : BitVec 2) (s : State) :=
  s.leadRelease (.atomxMinN64 z d a b p o) z 1 fun s => s.atomxOp .min .unsigned d a b p o
def execAtomxMaxI64 (z : Bool) (d a b : BitVec 6) (p : BitVec 4) (o : BitVec 2) (s : State) :=
  s.leadRelease (.atomxMaxI64 z d a b p o) z 1 fun s => s.atomxOp .max .signed d a b p o
def execAtomxMaxN64 (z : Bool) (d a b : BitVec 6) (p : BitVec 4) (o : BitVec 2) (s : State) :=
  s.leadRelease (.atomxMaxN64 z d a b p o) z 1 fun s => s.atomxOp .max .unsigned d a b p o
def execAtomxAnd (z : Bool) (d a b : BitVec 6) (p : BitVec 4) (o : BitVec 2) (s : State) :=
  s.leadRelease (.atomxAnd z d a b p o) z 1 fun s => s.atomxOp .and .raw d a b p o
def execAtomxOr (z : Bool) (d a b : BitVec 6) (p : BitVec 4) (o : BitVec 2) (s : State) :=
  s.leadRelease (.atomxOr z d a b p o) z 1 fun s => s.atomxOp .or .raw d a b p o
def execAtomxXor (z : Bool) (d a b : BitVec 6) (p : BitVec 4) (o : BitVec 2) (s : State) :=
  s.leadRelease (.atomxXor z d a b p o) z 1 fun s => s.atomxOp .xor .raw d a b p o
def execAtomxXchg (z : Bool) (d a b : BitVec 6) (p : BitVec 4) (o : BitVec 2) (s : State) :=
  s.leadRelease (.atomxXchg z d a b p o) z 1 fun s => s.atomxOp .xchg .raw d a b p o

/-- CAS compares with x_d and writes x_b; the record holds the compare value, then the new value (R140, R390). -/
def execAtomxCas (z : Bool) (d a b : BitVec 6) (p : BitVec 4) (o : BitVec 2) (s : State) :=
  s.leadRelease (.atomxCas z d a b p o) z 1 fun s c =>
    s.atomxWord (casNew 64) 16 (s.xNat c d + 2 ^ 64 * s.xNat c b) d a p o c

end Sys2Proof.Machine
end

