-- ==== Sys2Proof/Machine/LeadControl.lean ====
section
/-!
DEFINITION. Class 9: lead branches, calls, decision and return queues, fences, waits on an address and hardware work queues
(R141 to R149).
-/

namespace Sys2Proof.Machine

/-! ### Control flow (R141, R142) -/

/-- The context goes to an address. -/
def Lead.goto (l : Lead) (pc : DWord) : Lead := { l with pc, rep := 0, reps := none, wait := .none }

/-- The header map of the lead stream. -/
def State.leadHeaders (s : State) (g : Gang) : List Nat := ((s.codeOf g).map fun c => c.lead.headers).getD []

/-- Whether a branch is taken: predicate 63 always, a U trit by the policy (R141). -/
def LCtx.taken (c : LCtx) (want : Trit) (p : BitVec 6) (u : BitVec 2) : Except (Stop LeadWait) Bool :=
  if p.toNat = 63 then .ok true
  else match c.l.jReg p.toNat with
    | .u => if u.toNat = 3 then .error (.fault (Raised.of .unknownCondition 0)) else .ok (u.toNat == 1)
    | t => .ok (t == want)

def State.leadBranch (s : State) (want : Trit) (p : BitVec 6) (u : BitVec 2) (o : BitVec 8) (c : LCtx) :
    Except (Stop LeadWait) State := do
  let taken ← c.taken want p u
  let dest := if taken then wordAt c.l.pc (toSigned 8 o.toNat) else pastWord c.l.pc 1
  return s.setLead c.key (c.l.goto dest)

def execLeadBr (z : Bool) (p : BitVec 6) (u : BitVec 2) (o : BitVec 8) (s : State) :=
  s.leadControl (.leadBr z p u o) z (s.leadBranch .t p u o)
def execLeadBrc (z : Bool) (p : BitVec 6) (u : BitVec 2) (o : BitVec 8) (s : State) :=
  s.leadControl (.leadBrc z p u o) z (s.leadBranch .f p u o)

/-- CALL: last in its clause; where taken, x63 holds the next clause's header (R141, R142). -/
def State.leadCallWord (s : State) (p : BitVec 6) (u : BitVec 2) (o : BitVec 8) (c : LCtx) : Except (Stop LeadWait) State := do
  if !s.lastInClause (s.leadHeaders c.gang) c.l.pc.toNat then .error (.fault (illegal 64))
  let next := pastWord c.l.pc 1
  let taken ← c.taken .t p u
  let l := if taken then (c.l.putNow [.x 63 next]).goto (wordAt c.l.pc (toSigned 8 o.toNat)) else c.l.goto next
  return s.setLead c.key l

def execLeadCall (z : Bool) (p : BitVec 6) (u : BitVec 2) (o : BitVec 8) (s : State) :=
  s.leadControl (.leadCall z p u o) z (s.leadCallWord p u o)

/-- RET to the address in x63 (R141). -/
def State.leadRetWord (s : State) (c : LCtx) : Except (Stop LeadWait) State :=
  let t := (s.xReg c.l 63).toNat
  match s.jumpReason (s.leadHeaders c.gang) none t with
  | some _ => .error (.fault (Raised.of .jumpTarget 0))
  | none => .ok (s.setLead c.key (c.l.goto (BitVec.ofNat 64 t)))

def execLeadRet (z : Bool) (s : State) := s.leadControl (.leadRet z) z s.leadRetWord

/-! ### Queues (R18 to R22, R143) -/

/-- Entries of a decision queue (R18) and of a return queue (R22). -/
def queueSize : Nat := 64

/-- Push an entry; `op` is the CHASE that pushes it, if one does. -/
def Crew.pushDQ (c : Crew) (q : Nat) (v : DWord) (op : Option Nat) : Crew :=
  if h : q < 4 then { c with dq := c.dq.set q { c.dq[q] with entries := c.dq[q].entries ++ [(v, op)] } h } else c

/-- Unretired entries of a decision queue. -/
def Crew.dqLength (c : Crew) (q : Nat) : Nat := if h : q < 4 then c.dq[q].entries.length else 0

/-- A push is a release at crew scope (R21): into the entry that it makes. -/
def State.pushRelease (s : State) (k : CrewKey) (q : Nat) (a : Actor) : State :=
  s.release a (.pushed k q (((s.crew k).map fun c => ((c.dq.toList[q]?).map fun d => d.retired + d.entries.length).getD 0).getD 0))

/-- DQPUSH: a crew without running waves discards the entry (R20). -/
def State.dqpushWord (s : State) (d a : BitVec 6) (c : LCtx) : LeadRes :=
  if (s.liveWaves c.key).isEmpty then .ok { s }
  else if c.crew.dqLength d.toNat ≥ queueSize then .error (.wait s (.dqFull d.toNat))
  else .ok { s := (s.pushRelease c.key d.toNat c.actor).modCrew c.key fun k => k.pushDQ d.toNat (s.xReg c.l a.toNat) none }

def execDqpush (z : Bool) (d a : BitVec 6) (s : State) :=
  s.leadRelease (.dqpush z d a) z 1 fun s => s.dqpushWord d a

/-- The barrier that an entry of the return queue announces (R192). -/
def barrierEntry (v : DWord) : Option Nat :=
  if 0xFFFF_FFFF_FFFF_FF00 ≤ v.toNat ∧ v.toNat < 0xFFFF_FFFF_FFFF_FF10 then some (v.toNat - 0xFFFF_FFFF_FFFF_FF00) else none

/-- A crew has popped its entry of a phase. -/
def Phase.pop (p : Phase) (crew : Nat) : Phase :=
  if p.posted.contains crew && !p.popped.contains crew then { p with popped := p.popped ++ [crew] } else p

/-- The pop of a barrier entry counts for its phase (R192). -/
def State.barPopped (s : State) (k : CrewKey) (id : Nat) : State :=
  (s.modGang k.gang fun g => { g with phases := tabMod g.phases id fun p => p.pop k.crew }).barStep k.gang id

/-- RQPOP (R22, R143). -/
def State.rqpopWord (s : State) (d : BitVec 6) (c : LCtx) : LeadRes :=
  match c.crew.rq with
  | [] => .error (.wait s .rqEmpty)
  | v :: rest =>
    let t := (s.takePosted c.key c.actor).modCrew c.key fun k => { k with rq := rest }.letIn
    let t := match barrierEntry v with
      | some id => t.barPopped c.key id
      | none => t
    .ok { s := t, writes := [.x d.toNat v], cat := some .leadQueue }

def execRqpop (z : Bool) (d : BitVec 6) (s : State) := s.leadWord (.rqpop z d) z 1 (s.rqpopWord d)

/-! ### Fences -/

/-- FENCE makes no access, and one path shows its writes in their order already (log 4); what it orders shows on other paths (R32,
R143, R266). -/
def execLeadFence (z : Bool) (p : BitVec 4) (o : BitVec 2) (s : State) :=
  s.leadWord (.leadFence z p o) z 1 fun c =>
    let go (s : State) : LeadRes := .ok { s := s.fenceBy c.actor p.toNat o.toNat }
    if isRel o.toNat && widerThanGang p then s.atPointLead c kindFence [] [] none go else go s

/-- XFENCE (R33): the writes of one path that happen before it show on the other. -/
def execLeadXfence (z : Bool) (d a : BitVec 6) (p : BitVec 4) (s : State) :=
  s.leadWord (.leadXfence z d a p) z 1 fun c => .ok { s := s.xfenceBy c.actor (Path.ofCode d.toNat) (Path.ofCode a.toNat) p.toNat }

/-! ### Waiting on an address (R145, R146) -/

/-- WAITA: complete at once where the value differs; else the context parks. -/
def State.leadWaitaWord (s : State) (z : Bool) (d a b : BitVec 6) (p : BitVec 4) (w : BitVec 2) (c : LCtx) : LeadRes :=
  let wide := w.toNat == 1
  let n := if wide then 8 else 4
  let once := c.gang.pair.isSome && widerThanGang p
  let go (s : State) : LeadRes := do
    let pa ← s.leadAccess [.read] n n (s.xNat c a)
    let s := s.beginsLead c (s.xNat c a)
    let v := ofBytes ((s.onL c).rdOwn c.gang pa n)
    if v ≠ s.xNat c b % 2 ^ (8 * n) then return { s := s.acquireAt c.actor p.toNat (memSpots pa n), writes := [.x d.toNat (BitVec.ofNat 64 v)] }
    else .error (.wait { s with waiters := s.waiters ++ [{ who := .lead c.key, keys := [waitKey pa], watch := [(pa, n)] }] }
      (.waita pa wide d.toNat (s.ticksOf (s.clusterOf c.key)) v p.toNat z once))
  if once then onAddressLead (s.forwardedLead c none go) else go s

def execLeadWaita (z : Bool) (d a b : BitVec 6) (p : BitVec 4) (w : BitVec 2) (s : State) :=
  s.leadWord (.leadWaita z d a b p w) z 1 (s.leadWaitaWord z d a b p w)

/-- The crew that a context belongs to. -/
def Ctx.crewKey : Ctx → Option CrewKey
  | .none => none
  | .lead k => some k
  | .split k _ => some (crewOf k)

/-- Whether one instance of a scope holds both a lead context and another party (R10, R31, R420). -/
def State.sameScope (s : State) (scope : Nat) (me : CrewKey) (who : Ctx) : Bool :=
  match Ctx.crewKey who with
  | none => false
  | some k => s.crewsShare scope me (s.clusterOf me) k

/-- WAKE: up to x_b waiters on the address, within the scope, in the order in which they joined; it reads nothing (R146, R383). -/
def State.leadWakeWord (s : State) (d a b : BitVec 6) (p : BitVec 4) (c : LCtx) : LeadRes :=
  s.forwardedLead c none fun s => do
    let pa ← s.leadReach [.read] 1 (s.xNat c a)
    let (m, t) := s.wakeAt (s.xNat c b) pa fun w => s.sameScope p.toNat c.key w.who
    return leadDone t d m Flags.none

def execLeadWake (z : Bool) (d a b : BitVec 6) (p : BitVec 4) (s : State) :=
  s.leadWord (.leadWake z d a b p) z 1 (s.leadWakeWord d a b p)

/-! ### Hardware work queues (R147 to R149) -/

/-- The bytes of a work-queue descriptor as one number. -/
def wqBase (q : Nat) : Nat := fieldNat q 0 64
def wqCap (q : Nat) : Nat := fieldNat q 128 8
def wqTotal (q : Nat) : Nat := fieldNat q 160 32
def wqPop (q lv : Nat) : Nat := fieldNat q (64 * lv + 512) 32
def wqPush (q lv : Nat) : Nat := fieldNat q (64 * lv + 544) 32
/-- Entries that a level holds. -/
def wqHeld (q lv : Nat) : Nat := (wqPush q lv + 2 ^ 32 - wqPop q lv) % 2 ^ 32

/-- A capacity outside 4 to 16, a base not aligned to 64 bytes, or a reserved field that is not zero (R148). -/
def wqBad (q : Nat) : Bool :=
  decide (wqCap q < 4) || decide (wqCap q > 16) || wqBase q % 64 != 0 || fieldNat q 64 64 != 0 || fieldNat q 136 8 != 0 ||
  fieldNat q 192 320 != 0 || fieldNat q 1536 512 != 0

/-- A work-queue descriptor: where it stands and what it holds. A queue goes on from the bytes of its descriptor and rings, whoever
wrote them (R149, log 32). -/
def State.workQueue (s : State) (a : Actor) (va : Nat) : Except (Stop LeadWait) (Nat × Nat) := do
  let pa ← s.leadAccess rdWr 256 256 va
  if !isLocal pa then .error (.fault (Raised.at .elementAccess va))
  let q := (s.on .l a).rdNat pa 256
  if wqBad q then .error (.fault (illegal 64)) else return (pa, q)

/-- An entry of a ring. -/
def State.wqSlot (s : State) (q lv n : Nat) (acc : AccKind) : Except (Stop LeadWait) Nat := do
  let va := ofInt 64 (wqBase q + lv * 2 ^ wqCap q * 8 + n % 2 ^ wqCap q * 8)
  let pa ← s.leadAccess [acc] 8 8 va
  if isLocal pa then return pa else .error (.fault (Raised.at .elementAccess va))

/-- The bit of a level in the nonempty field. -/
def wqMark (q lv : Nat) (full : Bool) : Nat :=
  let m := fieldNat q 144 16
  if bitNat m lv == full then m else if full then m + 2 ^ lv else m - 2 ^ lv

/-- QPUSH (R148): an absent value pushes nothing; the write of total wakes every waiter on it. -/
def State.qpushWord (s : State) (d a b : BitVec 6) (p : BitVec 4) (c : LCtx) : LeadRes :=
  let v := s.xNat c b
  let lv := s.xNat c d % 16
  s.atPointLead c kindQpush [s.xNat c a, v, lv] [] none fun s => do
    if v = 2 ^ 64 - 1 then return { s }
    let s := s.beginsLead c (s.xNat c a)
    let (pa, q) ← s.workQueue c.actor (s.xNat c a)
    if wqHeld q lv = 2 ^ wqCap q then .error (.fault (Raised.at .queueOverflow (s.xNat c a)))
    let slot ← s.wqSlot q lv (wqPush q lv) .write
    let s := (s.wrNatBy .l c.actor slot 8 v).releaseAt c.actor p.toNat (memSpots slot 8)
    let s := s.wrNatBy .l c.actor (pa + 68 + 8 * lv) 4 (wqPush q lv + 1)
    let s := s.wrNatBy .l c.actor (pa + 20) 4 (wqTotal q + 1)
    let s := s.wrNatBy .l c.actor (pa + 18) 2 (wqMark q lv true)
    return { s := (s.wakeAt s.waiters.length (pa + 20) fun _ => true).2 }

def execQpush (z : Bool) (d a b : BitVec 6) (p : BitVec 4) (s : State) :=
  s.leadRelease (.qpush z d a b p) z 1 fun s => s.qpushWord d a b p

/-- QPOP (R148): the highest nonempty level; an empty queue reads absent. -/
def State.qpopWord (s : State) (d a : BitVec 6) (p : BitVec 4) (c : LCtx) : LeadRes :=
  s.atPointLead c kindQpop [s.xNat c a] [] (some .leadQueue) fun s => do
    let s := s.beginsLead c (s.xNat c a)
    let (pa, q) ← s.workQueue c.actor (s.xNat c a)
    match (List.range 16).reverse.find? fun lv => wqHeld q lv != 0 with
    | none => return { s, writes := [.x d.toNat (BitVec.allOnes 64)], cat := some .leadQueue }
    | some lv =>
      let slot ← s.wqSlot q lv (wqPop q lv) .read
      let v := (s.onL c).rdNat slot 8
      let s := s.acquireAt c.actor p.toNat (memSpots slot 8)
      let s := s.wrNatBy .l c.actor (pa + 64 + 8 * lv) 4 (wqPop q lv + 1)
      let s := s.wrNatBy .l c.actor (pa + 20) 4 (wqTotal q + 2 ^ 32 - 1)
      let s := s.wrNatBy .l c.actor (pa + 18) 2 (wqMark q lv (wqHeld q lv != 1))
      return { s, writes := [.x d.toNat (BitVec.ofNat 64 v)], cat := some .leadQueue }

def execQpop (z : Bool) (d a : BitVec 6) (p : BitVec 4) (s : State) := s.leadWord (.qpop z d a p) z 1 (s.qpopWord d a p)

end Sys2Proof.Machine
end

