-- ==== Sys2Proof/Machine/Copy.lean ====
section
/-!
DEFINITION. The copy engine: the request record (R330, R331), copy order and addressing (R332, R333), conversion (R334), content
and chunks (R336, R337), barrier-object count-down (R29), and the delivery of one chunk (R338).
-/

namespace Sys2Proof.Machine

/-! ### The request record (R330, R331) -/

abbrev Copy := BitVec 512

def Copy.field (r : Copy) (lo n : Nat) : Nat := (r.toNat >>> lo) % 2 ^ n

def Copy.scope (r : Copy) : Nat := Copy.field r 502 4
def Copy.crc (r : Copy) : Bool := Copy.field r 501 1 == 1
def Copy.pack (r : Copy) : Nat := Copy.field r 499 2
def Copy.dfmt (r : Copy) : Nat := Copy.field r 494 5
def Copy.sfmt (r : Copy) : Nat := Copy.field r 489 5
def Copy.bkind (r : Copy) : Nat := Copy.field r 487 2
def Copy.b0 (r : Copy) : Bool := Copy.field r 482 1 == 1
/-- The count of dimension `i`. -/
def Copy.count (r : Copy) (i : Nat) : Nat := Copy.field r (274 + 16 * i) 16
/-- The source stride of dimension 1 to 3. -/
def Copy.sstr (r : Copy) (i : Nat) : Int := toSigned 24 (Copy.field r (338 + 24 * (i - 1)) 24)
def Copy.dstr (r : Copy) (i : Nat) : Int := toSigned 24 (Copy.field r (410 + 24 * (i - 1)) 24)
/-- The address of the CRC table. -/
def Copy.crcp (r : Copy) : Nat := 8 * Copy.field r 220 54
def Copy.barp (r : Copy) : Nat := Copy.field r 167 53
/-- Elements of the copy (R332). -/
def Copy.total (r : Copy) : Nat := Copy.count r 0 * Copy.count r 1 * Copy.count r 2 * Copy.count r 3

/-- The kinds of a side; code 3 is reserved. -/
inductive SideKind where
  | mem
  | tile
  | pod
  deriving DecidableEq, Repr, Inhabited

/-- A side of a copy (R331). -/
structure Side where
  kind : SideKind
  fmt : Nat
  base : Nat
  packed : Bool
  deriving DecidableEq, Repr, Inhabited

def SideKind.ofCode (c : Nat) : SideKind :=
  match c with
  | 0 => .mem
  | 1 => .tile
  | _ => .pod

def Copy.src (r : Copy) : Side :=
  { kind := SideKind.ofCode (Copy.field r 483 2), fmt := Copy.sfmt r, base := Copy.field r 0 64, packed := Copy.pack r == 2 }
def Copy.dst (r : Copy) : Side :=
  { kind := SideKind.ofCode (Copy.field r 485 2), fmt := Copy.dfmt r, base := Copy.field r 64 64, packed := Copy.pack r == 1 }

def Side.handle (s : Side) : Nat := fieldNat s.base 56 8
def Side.row0 (s : Side) : Nat := fieldNat s.base 32 13
def Side.col0 (s : Side) : Nat := fieldNat s.base 0 13
def Side.block (s : Side) : Option BFmt := blockOf s.fmt

/-- Bits of an element format's element. -/
def fmtBits (c : Nat) : Nat := ((Fmt.ofCode c).map Fmt.width).getD 8

/-! ### What makes a record malformed (R333, R334, R340) -/

/-- Reserved bits within a side's field (R331). -/
def Side.reserved (s : Side) : Bool :=
  match s.kind with
  | .mem => false
  | .tile => fieldNat s.base 45 11 != 0 || fieldNat s.base 13 19 != 0
  | .pod => fieldNat s.base 52 12 != 0

def fmtRaw (c : Nat) : Bool := decide (8 ≤ c) && decide (c ≤ 11)
def fmtWide (c : Nat) : Bool := c == 3 || c == 7 || c == 11

/-- The pairing of the two formats (R334). -/
def pairingBad (s d : Nat) : Bool :=
  (fmtRaw s && ((blockOf d).isSome || (!fmtRaw d && fmtBits s != fmtBits d))) ||
  (fmtRaw d && ((blockOf s).isSome || (!fmtRaw s && fmtBits s != fmtBits d)))

/-- The block-format rules of one side (R333). -/
def blockSideBad (sd : Side) (b0 : Bool) (strides : List Int) : Bool :=
  match sd.block with
  | none => false
  | some _ =>
    match sd.kind with
    | .tile => sd.col0 % 32 != 0 || b0 || strides.any fun i => i % 32 != 0
    | _ => b0 || strides.any (· != 0)

/-- A malformed record (R340). -/
def Copy.malformed (r : Copy) : Bool :=
  let s := Copy.src r
  let d := Copy.dst r
  Copy.field r 506 6 != 0 || Copy.field r 128 39 != 0 || Copy.pack r == 3 || Copy.bkind r == 3 ||
  Copy.field r 485 2 == 3 || Copy.field r 483 2 == 3 || s.reserved || d.reserved || decide (s.fmt > 21) || decide (d.fmt > 21) ||
  (List.range 4).any (fun i => Copy.count r i == 0) || Copy.scope r == 0 || decide (Copy.scope r > 10) ||
  (!Copy.crc r && Copy.crcp r != 0) || (Copy.bkind r == 0 && Copy.barp r != 0) ||
  (Copy.bkind r == 2 && fieldNat (Copy.barp r) 19 26 != 0) ||
  ((s.block.isSome || d.block.isSome) && Copy.count r 0 % 32 != 0) ||
  blockSideBad s (Copy.b0 r) [Copy.sstr r 1, Copy.sstr r 2, Copy.sstr r 3] ||
  blockSideBad d false [Copy.dstr r 1, Copy.dstr r 2, Copy.dstr r 3] ||
  (Copy.pack r == 1 && (d.kind == .tile || d.block.isNone)) || (Copy.pack r == 2 && (s.kind == .tile || s.block.isNone)) ||
  pairingBad s.fmt d.fmt || (s.kind == .tile && fmtWide s.fmt) || (d.kind == .tile && fmtWide d.fmt)

/-- The alignment of a memory or pod side's base (R340). -/
def Side.align (s : Side) : Nat :=
  match s.kind with
  | .tile => 1
  | _ => match s.block with
    | some _ => 4
    | none => max 1 (fmtBits s.fmt / 8)

/-! ### Content and chunks (R336, R337) -/

def chunkSize : Nat := 65536

/-- Content bytes of one block. -/
def recSize (b : BFmt) : Nat := 2 + b.bytes

/-- Content bytes of a copy. -/
def Copy.size (r : Copy) : Nat :=
  match (Copy.src r).block with
  | some b => Copy.total r / 32 * recSize b
  | none => ceilDiv (Copy.total r * fmtBits (Copy.sfmt r)) 8

def Copy.chunks (r : Copy) : Nat := ceilDiv (Copy.size r) chunkSize

/-- Content bytes of chunk `n`. -/
def Copy.chunkBytes (r : Copy) (n : Nat) : Nat := min chunkSize (Copy.size r - n * chunkSize)

/-- Source items of a copy: blocks of a block format, else elements. -/
def Copy.items (r : Copy) : Nat := if (Copy.src r).block.isSome then Copy.total r / 32 else Copy.total r

/-- The first item that begins in chunk `n` or after it; an item belongs to the chunk that its content begins in (log 25). -/
def Copy.firstItem (r : Copy) (n : Nat) : Nat :=
  min (Copy.items r) (match (Copy.src r).block with
    | some b => ceilDiv (n * chunkSize) (recSize b)
    | none => n * chunkSize * 8 / fmtBits (Copy.sfmt r))

/-- The first item whose content reaches into chunk `n`. -/
def Copy.firstRead (r : Copy) (n : Nat) : Nat :=
  match (Copy.src r).block with
  | some b => min (Copy.items r) (n * chunkSize / recSize b)
  | none => Copy.firstItem r n

/-- A source item as read. -/
inductive Item where
  | code (c : Nat)
  | block (b : Block)
  deriving DecidableEq, Repr, Inhabited

/-- Content of a block record (R336). -/
def blockContent (b : BFmt) (k : Block) : List Byte :=
  toBytes 2 k.e ++
    (if k.e = 0 then List.replicate b.bytes 0
     else if k.e ≥ 0xFFF then packEls b (List.replicate 32 (absentCode .signed b.bits))
     else packEls b k.els)

/-- Content of items in copy order (R336). -/
def contentOf (fmt : Nat) : List Item → List Byte
  | [] => []
  | .block k :: xs => (match blockOf fmt with
    | some b => blockContent b k
    | none => []) ++ contentOf fmt xs
  | .code a :: .code b :: xs =>
    if fmtBits fmt = 4 then BitVec.ofNat 8 (a % 16 + 16 * (b % 16)) :: contentOf fmt xs
    else toBytes (fmtBits fmt / 8) a ++ toBytes (fmtBits fmt / 8) b ++ contentOf fmt xs
  | .code a :: xs => (if fmtBits fmt = 4 then [BitVec.ofNat 8 (a % 16)] else toBytes (fmtBits fmt / 8) a) ++ contentOf fmt xs

/-! ### Copy order (R332) -/

/-- The indices of element `t`. -/
def Copy.index (r : Copy) (t : Nat) : Nat × Nat × Nat × Nat :=
  let n0 := Copy.count r 0
  let n1 := Copy.count r 1
  let n2 := Copy.count r 2
  (t % n0, t / n0 % n1, t / (n0 * n1) % n2, t / (n0 * n1 * n2))

def Copy.srcOff (r : Copy) (t : Nat) : Int :=
  let (i0, i1, i2, i3) := Copy.index r t
  (if Copy.b0 r then 0 else i0) + i1 * Copy.sstr r 1 + i2 * Copy.sstr r 2 + i3 * Copy.sstr r 3

def Copy.dstOff (r : Copy) (t : Nat) : Int :=
  let (i0, i1, i2, i3) := Copy.index r t
  i0 + i1 * Copy.dstr r 1 + i2 * Copy.dstr r 2 + i3 * Copy.dstr r 3

/-- The address of an element at an offset of a memory or pod side. -/
def Side.addr (s : Side) (o : Int) : Nat :=
  if fmtBits s.fmt = 4 then ofInt 64 (s.base + o / 2) else ofInt 64 (s.base + o * (fmtBits s.fmt / 8 : Nat))

/-- The row and column at an offset of a tile side; none outside the tile. -/
def Side.cell (s : Side) (t : Tile) (o : Int) : Option (Nat × Nat) :=
  let p : Int := (s.row0 * t.cols + s.col0 : Nat) + o
  if s.row0 ≥ t.rows ∨ s.col0 ≥ t.cols ∨ p < 0 ∨ p ≥ (t.rows * t.cols : Nat) then none
  else some (p.toNat / t.cols, p.toNat % t.cols)

/-! ### Reaching bytes -/

/-- How the delivery of a chunk, or an operation, does not go through: it waits, it fails, or it consumes poison (R383). -/
inductive Halt where
  | away
  | fail (f : Raised)
  | poison
  deriving DecidableEq, Repr

/-- Whether a pod address can be reached: the own chip's local memory, which no window bounds (R412, log 28), or routed and
exported (R413). -/
def State.podReach (s : State) (a : Nat) : Bool :=
  decide (a < 2 ^ 52) &&
    if fieldNat a 44 8 = s.regs.chip.toNat then isLocal (fieldNat a 0 44) else s.reachable (s.podKey a)

/-- The physical address of a byte of a memory or pod side. -/
def State.sideKey (s : State) (sd : Side) (acc : AccKind) (a : Nat) : Except Halt Nat :=
  match sd.kind with
  | .pod => if s.podReach a then .ok (s.podKey a) else .error (.fail (Raised.at .elementAccess a))
  | _ =>
    match s.translate acc a with
    | .ok pa => .ok pa
    | .away _ => .error .away
    | .bad => .error (.fail (Raised.at .elementAccess a))

/-- One byte that a chunk reads. -/
def State.sideByte (s : State) (sd : Side) (a : Nat) : Except Halt Byte := do
  let k ← s.sideKey sd .read a
  if s.poisoned k 1 then .error .poison else return s.rd k

/-- Bytes that a chunk reads. -/
def State.sideBytes (s : State) (sd : Side) (a n : Nat) : Except Halt (List Byte) :=
  (upFrom a n).mapM (s.sideByte sd)

/-- Whether a readable virtual range holds poison. -/
def State.poisonedVirt (s : State) (va n : Nat) : Bool :=
  !s.poison.isEmpty && match s.pieces .read (n + 1) va n with
    | .ok ps => ps.any fun p => s.poisoned p.1 p.2
    | .error _ => false

/-- Change the tile of a handle. -/
def State.modTile (s : State) (g h : Nat) (f : Tile → Tile) : State :=
  s.modGang g fun gg => { gg with handles := tabMod gg.handles h fun x => match x with
    | .tile t => .tile (f t)
    | x => x }

/-- The tile of a handle, if it is one. -/
def Gang.tile? (g : Gang) (h : Nat) : Option Tile :=
  match tabGet g.handles h with
  | some (.tile t) => some t
  | _ => none

/-- Fill the sub-blocks of a tile that an access reaches and that are not filled (R288). -/
def State.fillAll (s : State) (t : Tile) : List Nat → Except Halt Tile
  | [] => .ok t
  | i :: is =>
    if t.needsFill i then
      match s.fillSub t (t.bound.getD 0) i with
      | .ok t => if s.poisonedVirt (t.bound.getD 0 + i * t.area) (t.used i) then .error .poison else s.fillAll t is
      | .error (.away _) => .error .away
      | .error _ => .error (.fail (Raised.at .elementAccess (s.badAt .read (t.bound.getD 0 + i * t.area) t.area)))
    else s.fillAll t is

/-- Fill the sub-blocks of a handle's tile that a party's access reaches: reads on M (R14, R288). There is nothing to fill where the
tile has gone (R302). -/
def State.fillHandle (s : State) (a : Actor) (g h : Nat) (subs : Tile → List Nat) : Except Halt State :=
  match s.gang g with
  | none => .ok s
  | some gg =>
    match gg.tile? h with
    | none => .ok s
    | some t => do
      let u ← ((s.on .m a).seenBy gg).fillAll t (subs t)
      let s := (subs t).foldl (fun s i => t.bound.elim s fun b => s.noteRange gg (b + i * t.area) t.area) s
      return s.modTile g h fun _ => u

/-- The machine as a gang's party reads it on a path: under the gang's own buffered stores (R33, R392). -/
def State.seenOn (s : State) (q : Path) (a : Actor) (g : Gang) : State := (s.on q a).seenBy g

/-- A gang as a party finds its tiles on a path (R33). -/
def State.gangOn (s : State) (q : Path) (a : Actor) (k : Nat) (g : Gang) : Gang := ((s.on q a).gang k).getD g

/-! ### Reading the source (R332, R333) -/

/-- Block `j` of a dense block side in memory (R333). -/
def State.denseBlock (s : State) (sd : Side) (b : BFmt) (nb j : Nat) : Except Halt Block := do
  let rd (k : Nat) : Byte := ((s.sideByte sd (ofInt 64 (sd.base + k))).toOption).getD 0
  if sd.packed then
    let map := roundUp (ceilDiv nb 4) 4
    let _ ← s.sideBytes sd sd.base (ceilDiv nb 4)
    if occAt rd j = 1 then
      let i := occCount rd j
      let p := occCount rd nb
      let _ ← s.sideBytes sd (sd.base + map + 3 * (i / 2)) 3
      let _ ← s.sideBytes sd (sd.base + map + scaleBytes p + b.bytes * i) b.bytes
    return packedBlock b nb rd j
  else
    let _ ← s.sideBytes sd (sd.base + 3 * (j / 2)) 3
    let _ ← s.sideBytes sd (sd.base + scaleBytes nb + b.bytes * j) b.bytes
    return plainBlock b nb rd j

/-- Bytes of a dense block side of `nb` blocks in memory. -/
def State.denseSize (s : State) (sd : Side) (b : BFmt) (nb : Nat) : Nat :=
  if sd.packed then packedSize b nb fun k => ((s.sideByte sd (ofInt 64 (sd.base + k))).toOption).getD 0
  else plainSize b nb

/-- A free item: what a copy reads from a tile that has been freed meanwhile (R302, log 9). -/
def State.freeItem (s : State) (sd : Side) (i : Nat) : Item :=
  match sd.block with
  | some b => .block ⟨Config.freeNat (s.free + 64 * i) % 4096, (upFrom 1 32).map fun k => Config.freeNat (s.free + 64 * i + k) % 2 ^ b.bits⟩
  | none => .code (Config.freeNat (s.free + 64 * i) % 2 ^ fmtBits sd.fmt)

/-- One source item (R332, R336): outside a tile it is absent, all ones in raw bits. -/
def State.readItem (s : State) (r : Copy) (t : Option Tile) (i : Nat) : Except Halt Item :=
  let sd := Copy.src r
  if sd.kind = .tile ∧ t.isNone then .ok (s.freeItem sd i)
  else
  match t, sd.block with
  | some t, some b =>
    match sd.cell t (Copy.srcOff r (32 * i)) with
    | some (row, col) => .ok (.block (t.block b row col))
    | none => .ok (.block ⟨0xFFF, List.replicate 32 (absentCode .signed b.bits)⟩)
  | some t, none =>
    match sd.cell t (Copy.srcOff r i) with
    | some (row, col) => .ok (.code (t.code row col))
    | none => .ok (.code (((Fmt.ofCode sd.fmt).map Fmt.absent).getD 0))
  | none, some b => do
    let k ← s.denseBlock sd b (Copy.items r) i
    return .block k
  | none, none => do
    let o := Copy.srcOff r i
    let bs ← s.sideBytes sd (sd.addr o) (max 1 (fmtBits sd.fmt / 8))
    let v := ofBytes bs
    return .code (if fmtBits sd.fmt = 4 then v / (if o % 2 = 0 then 1 else 16) % 16 else v)

/-- Source items in copy order. -/
def State.readItems (s : State) (r : Copy) (t : Option Tile) (from_ n : Nat) : Except Halt (List Item) :=
  (upFrom from_ n).mapM (s.readItem r t)

/-- The sub-blocks of a tile side that elements reach. -/
def Side.subs (sd : Side) (t : Tile) (offs : List Int) : List Nat :=
  (offs.filterMap fun o => (sd.cell t o).map fun c => t.subOf c.1 c.2).eraseDups

/-! ### Conversion (R334) -/

/-- A list cut into groups of `n`. -/
def inGroups {α : Type} (n : Nat) (xs : List α) : List (List α) :=
  (List.range (ceilDiv xs.length n)).map fun i => (xs.drop (n * i)).take n

/-- The value of element `k` of an item. -/
def Item.value (sfmt : Nat) (x : Item) (k : Nat) : FV :=
  match x with
  | .block b => match blockOf sfmt with
    | some f => b.value f k
    | none => .absent
  | .code c => match Fmt.ofCode sfmt with
    | some f => f.toFV c
    | none => .absent

/-- An element converted for an element destination (R127, R128, R334). -/
def Item.convert (sfmt dfmt : Nat) (x : Item) (k : Nat) : Nat :=
  match x, Fmt.ofCode sfmt, Fmt.ofCode dfmt with
  | .code c, some sf, some df => if sfmt = dfmt then c else (Machine.convert sf df .rne c).1
  | x, _, some df => fvTo df (x.value sfmt k)
  | _, _, none => 0

/-- The value that a quantisation takes: converted to .f32 first (R334). -/
def viaF32 (v : FV) : FV := FFmt.f32.decode (fvTo (.flt .f32) v)

/-- The code of an element converted to .f32, for a quantisation. -/
def Item.f32 (sfmt : Nat) (x : Item) (k : Nat) : FV :=
  match x with
  | .code _ => FFmt.f32.decode (x.convert sfmt 12 k)
  | .block _ => viaF32 (x.value sfmt k)

/-- The block of a block destination from the items of 32 elements (R334). -/
def blockFrom (sfmt dfmt : Nat) (b : BFmt) (xs : List Item) : Block :=
  match xs with
  | .block k :: _ => if sfmt = dfmt then k else quantise b ((List.range 32).map ((Item.block k).f32 sfmt))
  | xs => quantise b (xs.map fun x => x.f32 sfmt 0)

/-! ### The destination's writes -/

/-- Where a byte is written: a physical address, or an offset of the destination tile. -/
inductive Place where
  | mem (key : Nat)
  | tile (off : Nat)
  deriving DecidableEq, Repr, Inhabited

/-- A write of some bits of a byte. -/
structure MaskWrite where
  place : Place
  mask : Byte
  val : Byte
  deriving DecidableEq, Repr, Inhabited

/-- The code of the nibble of an offset, as mask and byte. -/
def nibbleWrite (p : Place) (o : Nat) (c : Nat) : MaskWrite :=
  if o % 2 = 0 then { place := p, mask := 0x0F, val := BitVec.ofNat 8 (c % 16) }
  else { place := p, mask := 0xF0, val := BitVec.ofNat 8 (16 * (c % 16)) }

/-- Whole bytes at places. -/
def wholeWrites (at_ : Nat → Place) (bs : List Byte) : List MaskWrite := bs.mapIdx fun i b => { place := at_ i, mask := 0xFF, val := b }

/-- Writes of memory at addresses, each translated. -/
def State.memWritesOf (s : State) (sd : Side) (a : Nat) (ws : List (Byte × Byte)) : Except Halt (List MaskWrite) :=
  (ws.mapIdx fun i w => (i, w)).mapM fun e => do
    let k ← s.sideKey sd .write (ofInt 64 (a + e.1))
    return { place := .mem k, mask := e.2.1, val := e.2.2 }

/-- The byte offset of an element within a tile of an element format (R283), and for 4-bit elements its place in the byte. -/
def Tile.elemOff (t : Tile) (r c : Nat) : Nat :=
  let e := r % 32 * 32 + c % 32
  t.subOf r c * t.area + (if fmtBits t.fmt = 4 then e / 2 else e * (fmtBits t.fmt / 8))

/-- The writes of one destination element of an element format. -/
def State.elemWrites (s : State) (r : Copy) (t : Option Tile) (e code : Nat) : Except Halt (List MaskWrite) :=
  let sd := Copy.dst r
  let o := Copy.dstOff r e
  if sd.kind = .tile ∧ t.isNone then .ok []
  else
  match t with
  | some t =>
    match sd.cell t o with
    | none => .ok []
    | some (row, col) =>
      let off := t.elemOff row col
      if fmtBits sd.fmt = 4 then .ok [nibbleWrite (.tile off) (row % 32 * 32 + col % 32) code]
      else .ok (wholeWrites (fun i => .tile (off + i)) (toBytes (fmtBits sd.fmt / 8) code))
  | none =>
    if fmtBits sd.fmt = 4 then do
      let k ← s.sideKey sd .write (sd.addr o)
      return [nibbleWrite (.mem k) (o % 2).toNat code]
    else s.memWritesOf sd (sd.addr o) ((toBytes (fmtBits sd.fmt / 8) code).map fun b => (0xFF#8, b))

/-- The scale of block `g` of `n` as masked bytes of its group of three (R104): a lone last scale fills the group. -/
def scaleMasks (g n e : Nat) : List (Byte × Byte) :=
  let v := if g % 2 = 0 then e % 4096 else e % 4096 * 4096
  let m := if g % 2 = 0 then (if g + 1 = n then 0xFFFFFF else 0xFFF) else 0xFFF000
  (toBytes 3 m).zip (toBytes 3 v)

/-- The writes of one destination block in plain layout: in memory, or as one tile row of a sub-block (R105, R283). -/
def State.blockWrites (s : State) (r : Copy) (t : Option Tile) (b : BFmt) (g : Nat) (k : Block) : Except Halt (List MaskWrite) :=
  let sd := Copy.dst r
  let els := (packEls b k.els).map fun x => (0xFF#8, x)
  if sd.kind = .tile ∧ t.isNone then .ok []
  else
  match t with
  | some t =>
    match sd.cell t (Copy.dstOff r (32 * g)) with
    | none => .ok []
    | some (row, col) =>
      let base := t.subOf row col * t.area
      let put (o : Nat) (ws : List (Byte × Byte)) : List MaskWrite :=
        ws.mapIdx fun i w => { place := .tile (o + i), mask := w.1, val := w.2 }
      .ok (put (base + 3 * (row % 32 / 2)) (scaleMasks (row % 32) 32 k.e) ++
           put (base + scaleBytes 32 + b.bytes * (row % 32)) els)
  | none => do
    let n := Copy.total r / 32
    let a ← s.memWritesOf sd (sd.base + 3 * (g / 2)) (scaleMasks g n k.e)
    let c ← s.memWritesOf sd (sd.base + scaleBytes n + b.bytes * g) els
    let used := 3 * ceilDiv n 2
    let p ← if g + 1 = n then s.memWritesOf sd (sd.base + used) (List.replicate (scaleBytes n - used) (0xFF#8, 0#8)) else .ok []
    return a ++ c ++ p

/-- The destination writes of source items that begin at item `i0`. -/
def State.planWrites (s : State) (r : Copy) (t : Option Tile) (i0 : Nat) (xs : List Item) : Except Halt (List MaskWrite) := do
  let sf := Copy.sfmt r
  let df := Copy.dfmt r
  let per := if (Copy.src r).block.isSome then 32 else 1
  match (Copy.dst r).block with
  | none =>
    let ws ← (xs.mapIdx fun i x => (i0 + i, x)).mapM fun e =>
      (List.range per).mapM fun k => s.elemWrites r t (e.1 * per + k) (e.2.convert sf df k)
    return ws.flatten.flatten
  | some b =>
    let groups := if per = 32 then xs.map fun x => [x] else inGroups 32 xs
    let g0 := i0 * per / 32
    let ws ← (groups.mapIdx fun i g => (g0 + i, g)).mapM fun e => s.blockWrites r t b e.1 (blockFrom sf df b e.2)
    return ws.flatten

/-! ### Performing writes -/

/-- Some bits of a byte replaced. -/
def maskByte (old mask val : Byte) : Byte := (old &&& ~~~mask) ||| (val &&& mask)

/-- The bits of a write that no later write in copy order has covered (R335). -/
def MaskWrite.without (w : MaskWrite) (later : List MaskWrite) : MaskWrite :=
  { w with mask := later.foldl (fun m l => if l.place = w.place then m &&& ~~~l.mask else m) w.mask }

/-- Join writes of neighbouring addresses, in their order. -/
def joinRuns : List (Nat × Byte) → List (Nat × List Byte)
  | [] => []
  | (a, b) :: ws =>
    match joinRuns ws with
    | (c, bs) :: rest => if a + 1 = c then (a, b :: bs) :: rest else (a, [b]) :: (c, bs) :: rest
    | [] => [(a, [b])]

/-- The bytes that masked writes leave in memory, in order. -/
def State.resolve (s : State) : List MaskWrite → List (Nat × Byte) → List (Nat × Byte)
  | [], _ => []
  | w :: ws, done =>
    match w.place with
    | .mem k =>
      let old := ((done.find? fun e => e.1 == k).map Prod.snd).getD (s.rd k)
      let b := maskByte old w.mask w.val
      if w.mask = 0 then s.resolve ws done else (k, b) :: s.resolve ws ((k, b) :: done)
    | .tile _ => s.resolve ws done

/-- Memory writes of a plan. -/
def State.memPlan (s : State) (ws : List MaskWrite) : List (Nat × List Byte) := joinRuns (s.resolve ws [])

/-- Tile writes of a plan. -/
def Tile.apply (t : Tile) (ws : List MaskWrite) : Tile :=
  ws.foldl (fun t w => match w.place with
    | .tile off => if w.mask = 0 then t else t.wr off [maskByte (t.rd off) w.mask w.val]
    | .mem _ => t) t

/-- Replace one block of a sub-block of a packed tile: the sub-block is packed again (R106, R283). -/
def Tile.setPacked (t : Tile) (b : BFmt) (row col : Nat) (k : Block) : Tile :=
  let i := t.subOf row col
  let blocks := (List.range 32).map fun j => if j = row % 32 then k else t.block b j col
  t.wr (i * t.area) (packedBytes b blocks)

/-! ### Barrier objects (R28, R29, R345) -/

/-- A count-down of n bytes (R29), as the object's phase, remaining and expected. -/
def countDown (phase remaining expected n : Nat) : Nat × Nat :=
  if n < remaining then (phase, remaining - n)
  else ((phase + 1 + (n - remaining) / expected) % 2 ^ 32, expected - (n - remaining) % expected)

/-- The bytes of an object. -/
def objBytes (phase remaining expected : Nat) : List Byte := toBytes 4 phase ++ toBytes 4 remaining ++ toBytes 4 expected ++ toBytes 4 0

/-- The object after a count-down. An expected count of zero or a nonzero reserved field leaves its fields unspecified: free
bytes (R345, log 9). -/
def State.downBytes (s : State) (o n : Nat) : List Byte :=
  if objBad o then (List.range 16).map fun i => Config.freeByte s.free i
  else
    let (p, r) := countDown (objPhase o) (objRemaining o) (objExpected o) n
    objBytes p r (objExpected o)

/-- Whether a count-down of n bytes completes a phase. -/
def objEnds (o n : Nat) : Bool := !objBad o && decide (objRemaining o ≤ n)

/-- The update of an object in memory, which every party observes at once (R345). -/
def State.putObject (s : State) (pa : Nat) (bs : List Byte) : State := s.wr pa bs

/-- The same for an object in a tile. -/
def State.putTileObject (s : State) (g h off : Nat) (bs : List Byte) : State :=
  { (s.modTile g h fun t => t.wr off bs) with late := s.late.map (Late.underTile g h off bs.length) }

/-- The count-down of a copy on its barrier object, a release on C at the record's scope: a memory object is counted once for a pair,
by the leading gang (R338, R394, log 26). A page of the object that is away holds its chunk back, and so does one that is no longer
mapped or no longer allows writes (log 32). -/
def State.copyDown (s : State) (a : Actor) (g : Nat) (r : Copy) (n : Nat) : Except Halt State :=
  match Copy.bkind r, s.gang g with
  | 1, some gg =>
    if (gg.pair.map PairState.leading).getD true then
      match s.translate .write (16 * Copy.barp r) with
      | .ok pa =>
        let o := s.rdNat pa 16
        .ok ((s.putObject pa (s.downBytes o n)).countAt a (Copy.scope r) (.mem (pa / 4)) (objEnds o n)).spend
      | _ => .error .away
    else .ok s
  | 2, some gg =>
    let h := fieldNat (Copy.barp r) 45 8
    let off := 16 * fieldNat (Copy.barp r) 0 19
    match gg.tile? h with
    | some t =>
      let o := ofBytes (memReads t.data off 16)
      .ok ((s.putTileObject g h off (s.downBytes o n)).countAt a (Copy.scope r) (.tile g h (off / 4)) (objEnds o n)).spend
    | none => .ok s
  | _, _ => .ok s

/-! ### One chunk (R338) -/

/-- A chunk that has been read: its content, and the items that begin in it. -/
structure Chunk where
  content : List Byte
  items : List Item
  deriving DecidableEq, Repr

/-- The tile of a side, by handle; a tile of another format is another tile. -/
def Side.tile (sd : Side) (g : Gang) : Option Tile :=
  if sd.kind = .tile then
    match g.tile? sd.handle with
    | some t => if t.fmt = sd.fmt then some t else none
    | none => none
  else none

/-- The elements of items. -/
def Copy.elems (r : Copy) (i0 n : Nat) : List Nat :=
  let per := if (Copy.src r).block.isSome then 32 else 1
  upFrom (i0 * per) (n * per)

/-- The check of a chunk against the CRC table (R337). -/
def State.checkCrc (s : State) (r : Copy) (n : Nat) (content : List Byte) : Except Halt Unit :=
  if !Copy.crc r then .ok ()
  else do
    let bs ← s.sideBytes { kind := .mem, fmt := 0, base := 0, packed := false } (Copy.crcp r + 8 * n) 8
    if ofBytes bs = (crc64 content).toNat then .ok () else .error (.fail (Raised.of .chunkCheck n))

/-- The source items that chunk `n` reads: the first, and past the last. -/
def Copy.reads (r : Copy) (n : Nat) : Nat × Nat := (Copy.firstRead r n, Copy.firstItem r (n + 1))

/-- The sub-blocks of the source that chunk `n` reads. -/
def Copy.srcSubs (r : Copy) (n : Nat) (t : Tile) : List Nat :=
  let (i0, i1) := Copy.reads r n
  (Copy.src r).subs t ((Copy.elems r i0 (i1 - i0)).map (Copy.srcOff r))

/-- The sub-blocks of the destination that chunk `n` writes. -/
def Copy.dstSubs (r : Copy) (n : Nat) (t : Tile) : List Nat :=
  let i0 := Copy.firstItem r n
  (Copy.dst r).subs t ((Copy.elems r i0 (Copy.firstItem r (n + 1) - i0)).map (Copy.dstOff r))

/-- The physical places of one source element or block. -/
def State.itemPlaces (s : State) (r : Copy) (t : Option Tile) (i : Nat) : List Place :=
  let sd := Copy.src r
  match t, sd.block with
  | some t, some b =>
    match sd.cell t (Copy.srcOff r (32 * i)) with
    | some (row, col) =>
      let base := t.subOf row col * t.area
      if t.packed then (upFrom base t.area).map Place.tile
      else (upFrom (base + 3 * (row % 32 / 2)) 3 ++ upFrom (base + scaleBytes 32 + b.bytes * (row % 32)) b.bytes).map Place.tile
    | none => []
  | some t, none =>
    match sd.cell t (Copy.srcOff r i) with
    | some (row, col) => (upFrom (t.elemOff row col) (max 1 (fmtBits sd.fmt / 8))).map Place.tile
    | none => []
  | none, b =>
    let (a, n) := match b with
      | some b => if i = 0 then (sd.base, s.denseSize sd b (Copy.items r)) else (sd.base, 0)
      | none => (sd.addr (Copy.srcOff r i), max 1 (fmtBits sd.fmt / 8))
    (upFrom a n).filterMap fun a => ((s.sideKey sd .read a).toOption).map Place.mem

/-- Whether the tile that items are read from holds poison where they lie (R383). -/
def State.itemsPoisoned (s : State) (r : Copy) (t : Option Tile) (i0 i1 : Nat) : Bool :=
  match t with
  | none => false
  | some u => !u.bad.isEmpty && (upFrom i0 (i1 - i0)).any fun i => (s.itemPlaces r t i).any fun p => match p with
    | .tile off => u.poisoned off 1
    | .mem _ => false

/-- Read and check chunk `n` (R338, steps 1 and 2). -/
def State.readChunk (s : State) (g : Gang) (r : Copy) (n : Nat) : Except Halt Chunk := do
  let (i0, i1) := Copy.reads r n
  let src := (Copy.src r).tile g
  if s.itemsPoisoned r src i0 i1 then .error .poison
  let xs ← s.readItems r src i0 (i1 - i0)
  let skip := match (Copy.src r).block with
    | some b => n * chunkSize - i0 * recSize b
    | none => 0
  let content := ((contentOf (Copy.sfmt r) xs).drop skip).take (Copy.chunkBytes r n)
  s.checkCrc r n content
  return { content, items := xs.drop (Copy.firstItem r n - i0) }

/-- Dummy items, for the places that a chunk writes. -/
def Copy.dummy (r : Copy) (n : Nat) : List Item :=
  List.replicate (Copy.firstItem r (n + 1) - Copy.firstItem r n)
    (if (Copy.src r).block.isSome then .block ⟨0, List.replicate 32 0⟩ else .code 0)

/-- The places that the delivered chunks after `n` in copy order have written (R335). -/
def State.laterPlaces (s : State) (g : Gang) (r : Copy) (done : List Nat) (n : Nat) : List MaskWrite :=
  (done.filter fun m => decide (n < m)).flatMap fun m =>
    ((s.planWrites r ((Copy.dst r).tile g) (Copy.firstItem r m) (Copy.dummy r m)).toOption).getD []

/-- Whether source and destination of a copy can overlap: both in memory, or in one tile (R335). -/
def Copy.mayOverlap (r : Copy) : Bool :=
  let s := Copy.src r
  let d := Copy.dst r
  if s.kind = .tile then d.kind == .tile && s.handle == d.handle else d.kind != .tile

/-- The places that a copy reads and may also write (R335). -/
def State.overlapPlaces (s : State) (g : Gang) (r : Copy) : List Place :=
  if Copy.mayOverlap r then (List.range (Copy.items r)).flatMap (s.itemPlaces r ((Copy.src r).tile g)) else []

/-- Destination bytes that the copy also reads have unspecified contents (R335): free bytes (log 9). -/
def State.freeOverlap (s : State) (g : Gang) (r : Copy) (ws : List MaskWrite) : List MaskWrite :=
  let read := s.overlapPlaces g r
  if read.isEmpty then ws
  else ws.mapIdx fun i w => if read.contains w.place then { w with val := Config.freeByte s.free i } else w

/-- Whether a copy's destination is packed block data, delivered as one unit (R338). -/
def Copy.oneUnit (g : Gang) (r : Copy) : Bool :=
  (Copy.dst r).packed || ((((Copy.dst r).tile g).map Tile.packed).getD false)

/-- A party writes into a tile on a path: lost where the path still finds another behind the handle (R33, R328); `rs` are the ranges
that it writes. -/
def State.putTile (s : State) (q : Path) (a : Actor) (g h : Nat) (rs : List (Nat × Nat)) (f : Tile → Tile) : State :=
  match (s.gang g).bind fun gg => gg.tile? h with
  | some t => if s.staleHandle q a g h then s else (s.modTile g h f).noteTile q a g h t rs
  | none => s

/-- The tile offsets of masked writes. -/
def tileRanges (ws : List MaskWrite) : List (Nat × Nat) :=
  ws.filterMap fun w => match w.place with
    | .tile off => if w.mask = 0 then none else some (off, 1)
    | .mem _ => none

/-- The writes of a chunk into its destination tile, on C. -/
def State.putChunk (s : State) (a : Actor) (g : Nat) (r : Copy) (ws : List MaskWrite) : State :=
  if (tileRanges ws).isEmpty then s else s.putTile .c a g (Copy.dst r).handle (tileRanges ws) fun t => t.apply ws

end Sys2Proof.Machine
end

