-- ==== Sys2Proof/Machine/LeadMatrix.lean ====
section
/-!
DEFINITION. Class 10 at issue: matrix, tile-management and Accord words start an operation and make their token pending (R23, R24,
R294). The operation itself runs in Machine/MatrixUnit.lean.
-/

namespace Sys2Proof.Machine

/-- A register becomes a token: an outstanding result to it no longer writes it, for the token's write comes later in program order
(R23, R57). -/
def Lead.putToken (l : Lead) (d : Nat) (k : Token) : Lead :=
  { l with tokens := tabSet l.tokens d k, outstanding := underAll [.x d 0] l.outstanding }

/-- Start an asynchronous operation: its token becomes pending (R23), and it comes after what its lead context has done (R32). -/
def State.startOp (s : State) (c : LCtx) (d : BitVec 6) (kind : OpKind) : Done :=
  let (n, s) := s.fresh
  let op : Op := { crew := c.key, token := d.toNat, issuePc := c.l.pc, kind, units := 0 }
  let s := (s.spent (.token c.key d.toNat)).release c.actor (.actor (.op n c.key))
  { s := { s with ops := s.ops ++ [(n, op)] }.modLead c.key fun l => l.putToken d.toNat (.pending n) }

/-- An operation that starts nothing: its token is marked faulted at once (R26). -/
def State.failOp (s : State) (c : LCtx) (d : BitVec 6) (f : Raised) : Done :=
  let (n, s) := s.fresh
  { s := s.modLead c.key fun l => l.putToken d.toNat (.faulted n { f with issuePc := c.l.pc }) }

/-- Unfinished operations of a crew that satisfy a test. -/
def State.opsOf (s : State) (k : CrewKey) (p : OpKind → Bool) : List (Nat × Op) :=
  s.ops.filter fun e => e.2.crew == k && p e.2.kind

/-- Whether an operation runs on unit `u`. -/
def OpKind.onUnit (u : Nat) : OpKind → Bool
  | .unit v _ _ _ _ _ => v == u
  | _ => false

/-- A word for a unit: at most eight unfinished operations of a crew (R279). -/
def State.unitWord (s : State) (d : BitVec 6) (u : BitVec 2) (w : UnitWord) (c : LCtx) : LeadRes :=
  if (s.opsOf c.key (OpKind.onUnit u.toNat)).length ≥ 8 then .error (.wait s .room)
  else .ok (s.startOp c d (.unit u.toNat w 0 [] [] []))

/-- An accumulator at or above the crew's grant (R277). -/
def LCtx.granted (c : LCtx) (acc pos : Nat) : Except (Stop LeadWait) Unit :=
  if acc ≥ c.crew.acc then .error (.fault (illegal pos)) else .ok ()

/-- The accumulator field stands at bits [28:25] of the extension word. -/
def accPos : Nat := 32 + 25

def execMzero (z : Bool) (d : BitVec 6) (unit : BitVec 2) (acc : BitVec 4) (ty : Bool) (s : State) :=
  s.leadRelease (.mzero z d unit acc ty) z 2 fun s c => do
    c.granted acc.toNat accPos
    s.unitWord d unit (.mzero acc.toNat ty) c

def execMma (z : Bool) (d a b : BitVec 6) (unit : BitVec 2) (acc : BitVec 4) (k : BitVec 8) (strict : Bool) (s : State) :=
  s.leadRelease (.mma z d a b unit acc k strict) z 2 fun s c => do
    c.granted acc.toNat accPos
    s.unitWord d unit (.mma acc.toNat (k.toNat + 1) strict (s.xReg c.l a.toNat) (s.xReg c.l b.toNat)) c

def execMmc (z : Bool) (d b : BitVec 6) (unit : BitVec 2) (acc src : BitVec 4) (fmt : BitVec 5) (strict : Bool) (s : State) :=
  s.leadRelease (.mmc z d b unit acc src fmt strict) z 2 fun s c => do
    c.granted src.toNat 53
    c.granted acc.toNat accPos
    s.unitWord d unit (.mmc acc.toNat src.toNat fmt.toNat strict (s.xReg c.l b.toNat)) c

def execMmw (z : Bool) (d a : BitVec 6) (unit : BitVec 2) (acc : BitVec 4) (h : BitVec 8) (strict : Bool) (s : State) :=
  s.leadRelease (.mmw z d a unit acc h strict) z 2 fun s c => do
    c.granted acc.toNat accPos
    s.unitWord d unit (.mmw acc.toNat h.toNat strict (s.xReg c.l a.toNat)) c

/-- The count descriptor is none where the b field is zero (R295). -/
def execMdrain (z : Bool) (d a b : BitVec 6) (unit : BitVec 2) (acc : BitVec 4) (s : State) :=
  s.leadRelease (.mdrain z d a b unit acc) z 2 fun s c => do
    c.granted acc.toNat accPos
    s.unitWord d unit (.mdrain acc.toNat (s.xReg c.l a.toNat) (if b = 0 then none else some (s.xReg c.l b.toNat))) c

def execMload (z : Bool) (d a : BitVec 6) (unit : BitVec 2) (acc : BitVec 4) (ty : Bool) (s : State) :=
  s.leadRelease (.mload z d a unit acc ty) z 2 fun s c => do
    c.granted acc.toNat accPos
    s.unitWord d unit (.mload acc.toNat ty (s.xReg c.l a.toNat)) c

def execTalloc (z : Bool) (d a b : BitVec 6) (h : BitVec 8) (fmt : BitVec 5) (slice packed : Bool) (s : State) :=
  s.leadRelease (.talloc z d a b h fmt slice packed) z 2 fun s c =>
    .ok (s.startOp c d (.tile (.talloc h.toNat fmt.toNat slice packed (s.xReg c.l a.toNat) (s.xReg c.l b.toNat))))
def execTfree (z : Bool) (d : BitVec 6) (h : BitVec 8) (s : State) :=
  s.leadRelease (.tfree z d h) z 2 fun s c => .ok (s.startOp c d (.tile (.tfree h.toNat)))
def execTbind (z : Bool) (d a : BitVec 6) (h : BitVec 8) (s : State) :=
  s.leadRelease (.tbind z d a h) z 2 fun s c => .ok (s.startOp c d (.tile (.tbind h.toNat (s.xReg c.l a.toNat))))
def execTdry (z : Bool) (d : BitVec 6) (h : BitVec 8) (s : State) :=
  s.leadRelease (.tdry z d h) z 2 fun s c => .ok (s.startOp c d (.tile (.tdry h.toNat)))
def execTstat (z : Bool) (d a : BitVec 6) (h : BitVec 8) (s : State) :=
  s.leadRelease (.tstat z d a h) z 2 fun s c => .ok (s.startOp c d (.tile (.tstat h.toNat (s.xReg c.l a.toNat))))
def execAbind (z : Bool) (d a : BitVec 6) (h : BitVec 8) (slice : Bool) (s : State) :=
  s.leadRelease (.abind z d a h slice) z 2 fun s c => .ok (s.startOp c d (.tile (.abind h.toNat slice (s.xReg c.l a.toNat))))

def execSeek (z : Bool) (d a b : BitVec 6) (unit : BitVec 2) (ka mc : BitVec 3) (n : BitVec 8) (s : State) :=
  s.leadRelease (.seek z d a b unit ka mc n) z 2
    fun s c => s.unitWord d unit (.seek ka.toNat mc.toNat n.toNat (s.xReg c.l a.toNat) (s.xReg c.l b.toNat)) c

def execProj (z : Bool) (d a b : BitVec 6) (unit : BitVec 2) (s : State) :=
  s.leadRelease (.proj z d a b unit) z 2 fun s c => s.unitWord d unit (.proj (s.xReg c.l a.toNat) (s.xReg c.l b.toNat)) c

end Sys2Proof.Machine
end

