-- ==== Sys2Proof/Machine/LeadCopy.lean ====
section
/-!
DEFINITION. Class 11 of the copy engine: COPY, PCOPY at issue and the barrier-object words (R339, R340, R344, R346).
-/

namespace Sys2Proof.Machine

/-! ### Objects in a tile -/

/-- A halt of a fill as a lead word meets it. -/
def Halt.stopLead (s : State) : Halt → Stop LeadWait
  | .away => .wait s (.page 0)
  | .fail f => .fault f
  | .poison => .poison

/-- The bytes of an object in a tile that a lead word reads or writes: alignment, handle, size (R340, R344), the fill of the
sub-blocks it reaches (R288), poison (R383). `past` is the fault of one that reaches past the tile. -/
def State.tileObject (s : State) (c : LCtx) (h off n align : Nat) (past : Raised) : Except (Stop LeadWait) (State × List Byte) :=
  if off % align ≠ 0 then .error (.fault (Raised.at .misaligned off))
  else
    let find (s : State) : Option Tile := (s.gangOn .l c.actor c.key.gang c.gang).tile? h
    match find s with
    | none => .error (.fault (Raised.of .tileHandle 0))
    | some t =>
      if off + n > t.size then .error (.fault past)
      else
        match s.fillHandle c.actor c.key.gang h fun _ => ((upFrom off n).map (· / t.area)).eraseDups with
        | .error e => .error (e.stopLead s)
        | .ok s =>
          let t := (find s).getD t
          if t.poisoned off n then .error .poison else .ok (s, memReads t.data off n)

/-! ### COPY (R339, R340) -/

/-- Whether an operation counts towards the limit of unfinished copies (R342). -/
def OpKind.isCopy : OpKind → Bool
  | .copy _ _ _ => true
  | .pcopy _ _ _ _ => true
  | _ => false

/-- Unfinished copies that a crew may hold (R342). -/
def copyLimit : Nat := 16

/-- The seventeenth copy of a crew stalls (R342). -/
def State.copyRoom (s : State) (c : LCtx) : Except (Stop LeadWait) Unit :=
  if (s.opsOf c.key OpKind.isCopy).length ≥ copyLimit then .error (.wait s .room) else .ok ()

/-- The record of a COPY, read at issue on L (R340). -/
def State.copyRecord (s : State) (c : LCtx) (a : Nat) (tile : Bool) (h : Nat) : Except (Stop LeadWait) (State × Copy) :=
  let s := s.hear .l
  if tile then do
    let (s, bs) ← s.tileObject c h a 64 64 (Raised.of .tileShape 0)
    return (s, BitVec.ofNat 512 (ofBytes bs))
  else do
    let pa ← s.leadAccess [.read] 64 64 a
    let s := s.notePages c.gang [a]
    return (s.hearAt c.actor (memSpots pa 64), BitVec.ofNat 512 (ofBytes ((s.onL c).rdOwn c.gang pa 64)))

/-- The tile of a side (R340): unallocated, an Accord, or of another format. -/
def LCtx.copySide (c : LCtx) (sd : Side) (dst : Bool) : Except (Stop LeadWait) Unit :=
  if sd.kind ≠ .tile then .ok ()
  else
    match tabGet c.gang.handles sd.handle with
    | none => .error (.fault (Raised.of .tileHandle 0))
    | some (.accord _ _) => .error (.fault (Raised.of (if dst then .accordWrite else .tileHandle) 0))
    | some (.tile _) => .ok ()

/-- A tile side's format equals its tile's (R340). -/
def LCtx.copyShape (c : LCtx) (sd : Side) : Except (Stop LeadWait) Unit :=
  if sd.kind = .tile ∧ (sd.tile c.gang).isNone then .error (.fault (Raised.of .tileShape 0)) else .ok ()

/-- The base of a memory or pod side (R340). -/
def Side.copyAlign (sd : Side) : Except (Stop LeadWait) Unit :=
  if sd.kind ≠ .tile ∧ sd.base % sd.align ≠ 0 then .error (.fault (Raised.at .misaligned sd.base)) else .ok ()

/-- What every word that meets a barrier object checks: its fields (R29, R345, R347; log 32). -/
def objChecked (o : Nat) : Except (Stop LeadWait) Nat := if objBad o then .error (.fault (illegal 64)) else .ok o

/-- A barrier object that reaches past its tile (log 25). -/
def pastTile (off : Nat) : Raised := Raised.at .elementAccess off

/-- A barrier object as a lead word meets it, in memory or in a tile: the state after a fill, its units, its number. -/
def State.objectOf (s : State) (c : LCtx) (ks : List AccKind) (a : Nat) (tile : Bool) (h : Nat) :
    Except (Stop LeadWait) (State × Nat × Spot × Nat) :=
  if tile then do
    let (s, bs) ← s.tileObject c h a 16 16 (pastTile a)
    let o ← objChecked (ofBytes bs)
    return (s, a, .tile c.key.gang h (a / 4), o)
  else do
    let pa ← s.leadAccess ks 16 16 a
    let o ← objChecked (ofBytes (s.rdOwn c.gang pa 16))
    return (s.beginsLead c a, pa, .mem (pa / 4), o)

/-- The barrier object of a copy at issue (R29, R340). -/
def State.copyObject (s : State) (c : LCtx) (r : Copy) : Except (Stop LeadWait) State :=
  match Copy.bkind r with
  | 1 => (s.objectOf c rdWr (16 * Copy.barp r) false 0).map Prod.fst
  | 2 => (s.objectOf c rdWr (16 * fieldNat (Copy.barp r) 0 19) true (fieldNat (Copy.barp r) 45 8)).map Prod.fst
  | _ => .ok s

/-- The checks of a record, in the order of R340. -/
def State.copyChecks (s : State) (c : LCtx) (r : Copy) : Except (Stop LeadWait) State := do
  if Copy.malformed r then .error (.fault (illegal 64))
  c.copySide (Copy.src r) false
  c.copySide (Copy.dst r) true
  c.copyShape (Copy.src r)
  c.copyShape (Copy.dst r)
  (Copy.src r).copyAlign
  (Copy.dst r).copyAlign
  s.copyObject c r

/-- An operation whose checks fail starts nothing: the fault goes to its token (R26, R340). -/
def State.orFail {α : Type} (s : State) (c : LCtx) (d : BitVec 6) (r : Except (Stop LeadWait) α) (go : α → LeadRes) : LeadRes :=
  match r with
  | .error (.fault f) => .ok (s.failOp c d f)
  | .error e => .error e
  | .ok a => go a

/-- A synchronising compare point after which each gang of a pair acts for itself (R391, R393). -/
def State.syncLead (s : State) (c : LCtx) (kind : Nat) (op : List Nat) (perform : State → LeadRes) : LeadRes :=
  match c.gang.pair with
  | none => perform s
  | some p =>
    if c.matched then stayAt true c.l.wait (perform s)
    else .error (.wait (s.modParty c.key.gang c.party fun t => t.sync kind (c.op s :: op) []) (.point (p.party c.party).next))

/-- Whether a record's destination is memory or a pod address (R391). -/
def Copy.leaves (r : Copy) : Bool := Copy.field r 485 2 == 0 || Copy.field r 485 2 == 2

/-- COPY: the record, then its checks and the start of the operation; towards memory or a pod it is a compare point whether or not
the checks hold (R391). -/
def State.copyWord (s : State) (d a : BitVec 6) (tile : Bool) (h : BitVec 8) (c : LCtx) : LeadRes := do
  s.copyRoom c
  s.orFail c d (s.copyRecord c (s.xNat c a) tile h.toNat) fun (s, r) =>
    let go (s : State) : LeadRes := s.orFail c d (s.copyChecks c r) fun s => .ok (s.startOp c d (.copy r [] []))
    if Copy.leaves r then s.syncLead c kindCopy [r.toNat] go else go s

def execCopy (z : Bool) (d a : BitVec 6) (tile : Bool) (h : BitVec 8) (s : State) :=
  s.leadRelease (.copy z d a tile h) z 2 fun s => s.copyWord d a tile h

/-- PCOPY (R346): the operation reads the header when it runs; its destination is memory, so it is a compare point (R391). -/
def State.pcopyWord (s : State) (d a b : BitVec 6) (scope : BitVec 4) (n : BitVec 16) (c : LCtx) : LeadRes := do
  s.copyRoom c
  s.syncLead c kindPcopy [s.xNat c a, s.xNat c b, scope.toNat, n.toNat] fun s =>
    .ok (s.startOp c d (.pcopy (s.xReg c.l a.toNat) (s.xReg c.l b.toNat) scope.toNat n.toNat))

def execPcopy (z : Bool) (d a b : BitVec 6) (scope : BitVec 4) (n : BitVec 16) (s : State) :=
  s.leadRelease (.pcopy z d a b scope n) z 2 fun s => s.pcopyWord d a b scope n

/-! ### Barrier-object words (R344, R345) -/

/-- Write an object back: every party observes it at once (R345). -/
def State.putBack (s : State) (c : LCtx) (tile : Bool) (h at_ : Nat) (bs : List Byte) : State :=
  if tile then s.putTileObject c.key.gang h at_ bs else s.putObject at_ bs

/-- A memory object is the pair's, accessed once; a tile object is each gang's own (R391, R394). -/
def State.objectGate (s : State) (c : LCtx) (kind : Nat) (tile : Bool) (op : List Nat) (perform : State → LeadRes) : LeadRes :=
  if tile then perform s else s.atPointLead c kind op [] none perform

/-- BINIT: expected and remaining take the operand, phase 0, a release at the scope (R344). The object that it meets must be sound, as R29 and
R345 say, though R344 names BARR and BWAIT alone (log 32). -/
def State.binitWord (s : State) (a b : BitVec 6) (tile : Bool) (h : BitVec 8) (scope : BitVec 4) (c : LCtx) : LeadRes :=
  let n := s.xNat c b % 2 ^ 32
  if n = 0 then .error (.fault (illegal 64))
  else s.objectGate c kindBinit tile [s.xNat c a, n] fun s => do
    let (s, at_, p, _) ← s.objectOf c rdWr (s.xNat c a) tile h.toNat
    return { s := (s.putBack c tile h.toNat at_ (objBytes 0 n n)).releaseAt c.actor scope.toNat [p] }

def execBinit (z : Bool) (a b : BitVec 6) (tile : Bool) (h : BitVec 8) (scope : BitVec 4) (s : State) :=
  s.leadRelease (.binit z a b tile h scope) z 2 fun s => s.binitWord a b tile h scope

/-- BARR: one count-down, a release at the scope, and the phase it leaves (R29, R344). -/
def State.barrWord (s : State) (d a b : BitVec 6) (tile : Bool) (h : BitVec 8) (scope : BitVec 4) (c : LCtx) : LeadRes :=
  let n := s.xNat c b % 2 ^ 32
  if n = 0 then .error (.fault (illegal 64))
  else s.objectGate c kindBarr tile [s.xNat c a, n] fun s => do
    let (s, at_, q, o) ← s.objectOf c rdWr (s.xNat c a) tile h.toNat
    let (p, r) := countDown (objPhase o) (objRemaining o) (objExpected o) n
    return { s := (s.putBack c tile h.toNat at_ (objBytes p r (objExpected o))).countAt c.actor scope.toNat q (objEnds o n),
             writes := [.x d.toNat (BitVec.ofNat 64 p)] }

def execBarr (z : Bool) (d a b : BitVec 6) (tile : Bool) (h : BitVec 8) (scope : BitVec 4) (s : State) :=
  s.leadRelease (.barr z d a b tile h scope) z 2 fun s => s.barrWord d a b tile h scope

/-- BWAIT: parks until the phase differs, then acquires at the scope (R29, R344); on memory a pair observes it once where the scope is
wider than gang (R394). -/
def State.leadBwaitWord (s : State) (d a b : BitVec 6) (tile : Bool) (h : BitVec 8) (scope : BitVec 4) (c : LCtx) : LeadRes :=
  let go (s : State) : LeadRes := do
    let (t, _, q, o) ← s.objectOf c [.read] (s.xNat c a) tile h.toNat
    if objPhase o = s.xNat c b % 2 ^ 32 then .error (.wait t .bwait)
    return { s := t.acquireAt c.actor scope.toNat [q], writes := [.x d.toNat (BitVec.ofNat 64 (objPhase o))] }
  if !tile && c.gang.pair.isSome && widerThanGang scope then onAddressLead (s.forwardedLead c none go) else go s

def execLeadBwait (z : Bool) (d a b : BitVec 6) (tile : Bool) (h : BitVec 8) (scope : BitVec 4) (s : State) :=
  s.leadWord (.leadBwait z d a b tile h scope) z 2 (s.leadBwaitWord d a b tile h scope)

end Sys2Proof.Machine
end

