-- ==== Sys2Proof/Machine/Sequences.lean ====
section
/-!
DEFINITION. Sequence memory (R158 to R165): page headers, sequence descriptors, the walk, the column maps, SMAP and the issue of
CHASE. An operation that cannot be carried out is refused: it writes absent and changes nothing (R162).
-/

namespace Sys2Proof.Machine

/-! ### Headers and descriptors (R158, R159) -/

def pageNext (p : Nat) : Nat := fieldNat p 0 64
def pageRefs (p : Nat) : Nat := fieldNat p 128 32
def pageCount (p : Nat) : Nat := fieldNat p 160 8
def pageDemoted (p : Nat) : Bool := bitNat p 171
def pageSlot (p : Nat) : Nat := fieldNat p 176 16
def pageBody (p : Nat) : Nat := fieldNat p 256 64

/-- A sequence descriptor as read. -/
structure SeqDesc where
  va : Nat
  pa : Nat
  bits : Nat
  deriving DecidableEq, Repr

def SeqDesc.head (q : SeqDesc) : Nat := fieldNat q.bits 0 64
def SeqDesc.tail (q : SeqDesc) : Nat := fieldNat q.bits 64 64
def SeqDesc.length (q : SeqDesc) : Nat := fieldNat q.bits 128 64
def SeqDesc.capCode (q : SeqDesc) : Nat := fieldNat q.bits 320 2
/-- Tokens of a page. -/
def SeqDesc.cap (q : SeqDesc) : Nat := 16 * 2 ^ q.capCode
def SeqDesc.nsplice (q : SeqDesc) : Nat := fieldNat q.bits 328 8
def SeqDesc.slot (q : SeqDesc) : Nat := fieldNat q.bits 336 16
def SeqDesc.freeq (q : SeqDesc) : Nat := fieldNat q.bits 384 64
def SeqDesc.spill (q : SeqDesc) : Nat := fieldNat q.bits 448 64
/-- The splice entries in use: position and page. -/
def SeqDesc.splice (q : SeqDesc) : List (Nat × Nat) :=
  (List.range q.nsplice).map fun n => (fieldNat q.bits (128 * n + 512) 64, fieldNat q.bits (128 * n + 576) 64)
/-- Pages that a walk passes before the length. -/
def SeqDesc.pages (q : SeqDesc) : Nat := ceilDiv q.length q.cap

/-- A malformed descriptor: a reserved field or code, or more than eight splice entries (R79, R159). -/
def SeqDesc.bad (q : SeqDesc) : Bool :=
  fieldNat q.bits 192 128 != 0 || fieldNat q.bits 322 6 != 0 || fieldNat q.bits 352 32 != 0 || fieldNat q.bits 1536 512 != 0 ||
  q.capCode == 3 || decide (q.nsplice > 8)

/-- Why an operation on a sequence does not go through: refused (R162), or a fault, a stall or poison. -/
inductive SeqStop where
  | refused
  | stop (e : Stop LeadWait)
  deriving DecidableEq, Repr

abbrev SeqRes (α : Type) := Except SeqStop α

def seqLift {α : Type} (r : Except (Stop LeadWait) α) : SeqRes α :=
  match r with
  | .ok a => .ok a
  | .error e => .error (.stop e)

/-- Read a descriptor (R159). -/
def State.seqDesc (s : State) (ks : List AccKind) (va : Nat) : SeqRes SeqDesc := do
  let pa ← seqLift (s.leadAccess ks 256 256 va)
  let q : SeqDesc := { va, pa, bits := s.rdNat pa 256 }
  if q.bad then .error (.stop (.fault (illegal 64))) else return q

/-- A page of a walk: its header address, physical address, first position and header. -/
structure SeqPage where
  va : Nat
  pa : Nat
  first : Nat
  bits : Nat
  deriving DecidableEq, Repr

/-- Read a page header. A nonzero reserved field, capacity code 11 or another capacity than the descriptor's has no effect, and a slot
size of 0 is taken as it stands (R158 forbids them and gives no effect; log 31). -/
def State.seqPage (s : State) (va first : Nat) : SeqRes SeqPage := do
  let pa ← seqLift (s.leadAccess [.read] 64 64 va)
  return { va, pa, first, bits := s.rdNat pa 64 }

/-- Pages that an operation writes allow it (R138). -/
def State.mayWrite (s : State) : List SeqPage → SeqRes Unit
  | [] => .ok ()
  | p :: ps => do
    let _ ← seqLift (s.leadAccess [.write] 64 64 p.va)
    s.mayWrite ps

/-! ### The walk and the column maps (R160, R161) -/

/-- The page after a page: a splice entry at its end position, else its next field (R160). -/
def SeqDesc.after (q : SeqDesc) (p : SeqPage) : Nat :=
  match q.splice.find? fun e => e.1 == p.first + q.cap with
  | some e => e.2
  | none => pageNext p.bits

/-- The walk from a page: up to `n` pages. -/
def State.walkFrom (s : State) (q : SeqDesc) (va first : Nat) : Nat → SeqRes (List SeqPage)
  | 0 => .ok []
  | n + 1 =>
    if va = 0 then .error .refused
    else do
      let p ← s.seqPage va first
      let rest ← s.walkFrom q (q.after p) (first + q.cap) n
      return p :: rest

/-- The column of a crew: four clusters (R420). -/
def State.columnOf (s : State) (k : CrewKey) : Nat := s.clusterOf k / 4

/-- The pages that a column's map holds for a sequence. -/
def State.resident (s : State) (va : Nat) : Option (List Nat) :=
  s.seqMaps.findSome? fun e => tabGet e.2 va

/-- Pages of the longest resident sequence, and entries of a column's map (R161). -/
def residentMax : Nat := 16384
def mapEntries : Nat := 65536

/-- Page headers at known addresses. -/
def State.seqPagesAt (s : State) (cap : Nat) : List Nat → Nat → SeqRes (List SeqPage)
  | [], _ => .ok []
  | va :: vas, first => do
    let p ← s.seqPage va first
    let rest ← s.seqPagesAt cap vas (first + cap)
    return p :: rest

/-- The addresses that a spill table holds. -/
def State.spillRead (s : State) (va : Nat) (n : Nat) : SeqRes (List Nat) :=
  (List.range n).mapM fun i => do
    let pa ← seqLift (s.leadAccess [.read] 8 8 (ofInt 64 (va + 8 * i : Nat)))
    return s.rdNat pa 8

/-- The pages before the length: from the map that holds the sequence; else refilled, from the spill table if there is one and
otherwise by a walk (R160, R161); the table is taken as it stands (log 29). -/
def State.seqPages (s : State) (q : SeqDesc) : SeqRes (List SeqPage) :=
  if q.pages > residentMax then s.walkFrom q q.head 0 q.pages
  else
    match s.resident q.va with
    | some vas => if vas.length = q.pages then s.seqPagesAt q.cap vas 0 else s.walkFrom q q.head 0 q.pages
    | none =>
      if q.spill = 0 then s.walkFrom q q.head 0 q.pages
      else do
        let vas ← s.spillRead q.spill q.pages
        s.seqPagesAt q.cap vas 0

/-- The pages linked after the last walked one, to the tail: an appended page is linked before the length reaches it. -/
def State.linkedAfter (s : State) (q : SeqDesc) (va first : Nat) : Nat → SeqRes (List SeqPage)
  | 0 => .error .refused
  | n + 1 =>
    if va = 0 then .ok []
    else do
      let p ← s.seqPage va first
      if va = q.tail then return [p]
      let rest ← s.linkedAfter q (q.after p) (first + q.cap) n
      return p :: rest

/-- Every linked page of a sequence, from head to tail. -/
def State.seqLinked (s : State) (q : SeqDesc) : SeqRes (List SeqPage) := do
  let ps ← s.seqPages q
  match ps.getLast? with
  | none => s.linkedAfter q q.head 0 mapEntries
  | some p =>
    if p.va = q.tail then return ps
    let more ← s.linkedAfter q (q.after p) (p.first + q.cap) mapEntries
    return ps ++ more

/-- Write a sequence's page addresses to its spill table, if it has one (R161). -/
def State.spillOut (s : State) (p : Actor) (va : Nat) (pages : List Nat) : State :=
  match s.translate .read va with
  | .ok pa =>
    let spill := (s.on .l p).rdNat (pa + 56) 8
    if spill = 0 then s
    else (pages.mapIdx fun i x => (i, x)).foldl (fun s e =>
      match s.translate .write (ofInt 64 (spill + 8 * e.1)) with
      | .ok at_ => s.wrNatBy .l p at_ 8 e.2
      | _ => s) s
  | _ => s

/-- Remove a sequence from every map. -/
def State.unmapSeq (s : State) (va : Nat) : State := { s with seqMaps := s.seqMaps.map fun e => (e.1, tabDel e.2 va) }

/-- Evict least recently used sequences of a column until its entries fit (R161); the last of the list is the oldest. -/
def State.shrinkMap (s : State) (p : Actor) (col : Nat) : Nat → State
  | 0 => s
  | n + 1 =>
    let m := (tabGet s.seqMaps col).getD []
    if m.foldl (fun a e => a + e.2.length) 0 ≤ mapEntries then s
    else
      match m.getLast? with
      | none => s
      | some (va, pages) => ({ s with seqMaps := tabSet s.seqMaps col m.dropLast }.spillOut p va pages).shrinkMap p col n

/-- A sequence becomes the most recently used of a column's map (R161). -/
def State.makeResident (s : State) (p : Actor) (col va : Nat) (pages : List Nat) : State :=
  let s := s.unmapSeq va
  if pages.length > residentMax then s
  else
    let m := (tabGet s.seqMaps col).getD []
    { s with seqMaps := tabSet s.seqMaps col ((va, pages) :: m) }.shrinkMap p col (m.length + 1)

/-- An SMAP meets its sequence: it is refilled, or moves to the column of the word, whatever becomes of the operation (R161). -/
def State.meetSeq (s : State) (p : Actor) (col va : Nat) : State :=
  let v := s.on .l p
  match (do v.seqPages (← v.seqDesc [.read] va) : SeqRes (List SeqPage)) with
  | .ok ps => s.makeResident p col va (ps.map SeqPage.va)
  | .error _ => s

/-- After an operation: the sequence's walk of its new length is what the map holds. -/
def State.refreshMap (s : State) (p : Actor) (col va : Nat) : State :=
  let v := s.on .l p
  match s.translate .read va with
  | .ok pa =>
    let q : SeqDesc := { va, pa, bits := v.rdNat pa 256 }
    if q.pages > residentMax then s.unmapSeq va
    else
      match v.walkFrom q q.head 0 q.pages with
      | .ok ps => s.makeResident p col va (ps.map SeqPage.va)
      | .error _ => s.unmapSeq va
  | _ => s

/-! ### The operations (R162 to R164), on L by the party of the word -/

/-- What an operation gives: the state and x_d. -/
abbrev SeqDone := State × Nat

/-- The field of a descriptor or a header, written on L. -/
def State.put (s : State) (p : Actor) (pa n v : Nat) : State := s.wrNatBy .l p pa n v

/-- SMAP.look: the address of a slot (R162). -/
def State.smapLook (s : State) (p : Actor) (a pos : Nat) : SeqRes SeqDone := do
  let v := s.on .l p
  let q ← v.seqDesc [.read] a
  if pos ≥ q.length then return (s, 2 ^ 64 - 1)
  let ps ← v.seqPages q
  match ps[pos / q.cap]? with
  | none => .error .refused
  | some g =>
    let base := if pageDemoted g.bits then pageBody g.bits else g.va + 64
    return (s, ofInt 64 (base + pos % q.cap * 64 * pageSlot g.bits))

/-- Write the splice entries of a descriptor. -/
def State.putSplice (s : State) (p : Actor) (pa : Nat) (es : List (Nat × Nat)) : State :=
  let s := (es.mapIdx fun i e => (i, e)).foldl (fun s e => (s.put p (pa + 64 + 16 * e.1) 8 e.2.1).put p (pa + 72 + 16 * e.1) 8 e.2.2) s
  s.put p (pa + 41) 1 es.length

/-- The header of a fresh page (R162). -/
def freshPage (q : SeqDesc) : Nat :=
  q.va * 2 ^ 64 + 1 * 2 ^ 128 + q.capCode * 2 ^ 168 + q.slot * 2 ^ 176 + q.length * 2 ^ 192

/-- SMAP.append (R160, R162). -/
def State.smapAppend (s : State) (p : Actor) (a new : Nat) : SeqRes SeqDone := do
  let v := s.on .l p
  let q ← v.seqDesc rdWr a
  let ps ← v.seqLinked q
  if q.length % q.cap ≠ 0 ∨ q.length ≠ ps.length * q.cap then .error .refused
  let page ← v.seqPage new q.length
  v.mayWrite [page]
  let s ← match ps.getLast? with
    | none => .ok (s.put p q.pa 8 new)
    | some t =>
      if pageRefs t.bits > 1 then
        if q.nsplice ≥ 8 then .error .refused else .ok (s.putSplice p q.pa (q.splice ++ [(q.length, new)]))
      else do
        v.mayWrite [t]
        pure (s.put p t.pa 8 new)
  return ((s.put p page.pa 64 (freshPage q)).put p (q.pa + 8) 8 new, 0)

/-- Change the refs count of pages. -/
def State.bumpRefs (s : State) (p : Actor) (ps : List SeqPage) (f : Nat → Nat) : State :=
  ps.foldl (fun s g => s.put p (g.pa + 16) 4 (f (pageRefs g.bits))) s

/-- SMAP.share (R164). -/
def State.smapShare (s : State) (p : Actor) (a dst : Nat) : SeqRes SeqDone := do
  let v := s.on .l p
  let q ← v.seqDesc rdWr a
  let t ← v.seqDesc rdWr dst
  let n := t.length
  if n > q.length ∨ q.nsplice ≥ 8 then .error .refused
  let ps ← v.seqPages q
  let f := n / q.cap * q.cap
  let keep := ps.filter fun g => decide (g.first < f)
  if keep.any fun g => decide (pageRefs g.bits + 1 > 2 ^ 32 - 2) then .error .refused
  v.mayWrite keep
  let s := s.bumpRefs p keep (· + 1)
  let s := s.put p t.pa 8 ((keep.head?.map SeqPage.va).getD 0)
  let s := s.put p (t.pa + 8) 8 ((keep.getLast?.map SeqPage.va).getD 0)
  let s := s.put p (t.pa + 16) 8 f
  let s := s.put p (t.pa + 40) 1 q.capCode
  let s := s.putSplice p t.pa (q.splice.filter fun e => decide (e.1 < f))
  return (s, if n > f then ((ps[f / q.cap]?).map SeqPage.va).getD 0 else 0)

/-- Push freed pages onto a work queue at level 0, which must have room for all (R163). -/
def State.freePages (s : State) (p : Actor) (freeq : Nat) (vas : List Nat) : SeqRes State := do
  if vas.isEmpty then return s
  let (pa, q) ← seqLift (s.workQueue p freeq)
  if wqHeld q 0 + vas.length > 2 ^ wqCap q then .error (.stop (.fault (Raised.at .queueOverflow freeq)))
  let slots ← (vas.mapIdx fun i va => (i, va)).mapM fun e => do
    let at_ ← seqLift (s.wqSlot q 0 (wqPush q 0 + e.1) .write)
    return (at_, e.2)
  let s := slots.foldl (fun s e => s.put p e.1 8 e.2) s
  let s := s.put p (pa + 68) 4 (wqPush q 0 + vas.length)
  let s := s.put p (pa + 20) 4 (wqTotal q + vas.length)
  let s := s.put p (pa + 18) 2 (wqMark q 0 true)
  return (s.wakeAt s.waiters.length (pa + 20) fun _ => true).2

/-- SMAP.len where the sequence grows (R163); x_d is 0, which the rule does not say (log 31). -/
def State.smapGrow (s : State) (p : Actor) (q : SeqDesc) (n : Nat) : SeqRes SeqDone := do
  let v := s.on .l p
  let ps ← v.seqLinked q
  let fill := ps.filter fun g => decide (g.first < n) && decide (g.first + q.cap > q.length)
  if n > ps.length * q.cap ∨ (fill.any fun g => pageRefs g.bits != 1) then .error .refused
  v.mayWrite fill
  let s := fill.foldl (fun s g => s.put p (g.pa + 20) 1 (min q.cap (n - g.first))) s
  return (s.put p (q.pa + 16) 8 n, 0)

/-- Abandon pages: refs fall by 1, and pages that reach 0 are freed in ascending position order (R163). -/
def State.abandon (s : State) (p : Actor) (q : SeqDesc) (gone : List SeqPage) : SeqRes State := do
  s.mayWrite gone
  let s ← s.freePages p q.freeq ((gone.filter fun g => pageRefs g.bits == 1).map SeqPage.va)
  return s.bumpRefs p gone (· - 1)

/-- SMAP.len where the sequence does not grow (R163). Where the page p that holds the last position is abandoned, a splice entry that
names p, at its first position, goes with it (log 31). -/
def State.smapCut (s : State) (p : Actor) (q : SeqDesc) (n : Nat) : SeqRes SeqDone := do
  let v := s.on .l p
  let ps ← v.seqLinked q
  if n = 0 then
    let s ← s.abandon p q ps
    return ((((s.put p q.pa 8 0).put p (q.pa + 8) 8 0).put p (q.pa + 16) 8 0).putSplice p q.pa [], 0)
  else
    match ps[(n - 1) / q.cap]? with
    | none => .error .refused
    | some g =>
      if pageRefs g.bits = 1 ∨ n = g.first + q.cap then
        v.mayWrite [g]
        let s ← s.abandon p q (ps.filter fun x => decide (x.first > g.first))
        let s := s.put p (g.pa + 20) 1 (n - g.first)
        let s := if pageRefs g.bits = 1 then s.put p g.pa 8 0 else s
        let s := (s.put p (q.pa + 8) 8 g.va).put p (q.pa + 16) 8 n
        return (s.putSplice p q.pa (q.splice.filter fun e => decide (e.1 < n)), 0)
      else
        let s ← s.abandon p q (ps.filter fun x => decide (x.first ≥ g.first))
        let before := if g.first = 0 then none else ps[g.first / q.cap - 1]?
        let s := if g.first = 0 then s.put p q.pa 8 0 else s
        let s := (s.put p (q.pa + 8) 8 ((before.map SeqPage.va).getD 0)).put p (q.pa + 16) 8 g.first
        return (s.putSplice p q.pa (q.splice.filter fun e => decide (e.1 < g.first)), g.va)

/-- SMAP.len (R163). -/
def State.smapLen (s : State) (p : Actor) (a n : Nat) : SeqRes SeqDone := do
  let q ← (s.on .l p).seqDesc rdWr a
  if n > q.length then s.smapGrow p q n else s.smapCut p q n

/-- SMAP.evict (R161, R162). -/
def State.smapEvict (s : State) (p : Actor) (a : Nat) : SeqRes SeqDone := do
  let _ ← (s.on .l p).seqDesc rdWr a
  match s.resident a with
  | some vas => return ((s.unmapSeq a).spillOut p a vas, 0)
  | none => return (s, 0)

/-- An operation as the word performs it: the result in the lead-queue category; refused gives absent (R162). -/
def smapDone (s : State) (d : BitVec 6) (after : State → State) (r : SeqRes SeqDone) : LeadRes :=
  match r with
  | .ok (t, v) => .ok { s := after t, writes := [.x d.toNat (BitVec.ofNat 64 v)], cat := some .leadQueue }
  | .error .refused => .ok { s, writes := [.x d.toNat (BitVec.allOnes 64)], cat := some .leadQueue }
  | .error (.stop e) => .error e

/-- Pages that an SMAP accesses: its descriptors, and the pages of the sequence (R395). -/
def State.smapPages (s : State) (c : LCtx) (vas : List Nat) : State :=
  s.notePages c.gang (vas ++ (s.resident (vas.headD 0)).getD [])

/-- An SMAP that changes the sequence: a compare point of a pair, then the operation once (R391, R394). -/
def State.smapWord (s : State) (op : Nat) (d a b : BitVec 6) (run : State → Actor → Nat → Nat → SeqRes SeqDone) (seqs : List Nat)
    (c : LCtx) : LeadRes :=
  s.atPointLead c kindSmap [op, s.xNat c a, s.xNat c b] [] (some .leadQueue) fun s =>
    let s := s.hear .l
    let s := if seqs.isEmpty then s else s.meetSeq c.actor (s.columnOf c.key) (s.xNat c a)
    let s := s.smapPages c (s.xNat c a :: seqs)
    smapDone s d (fun t => seqs.foldl (fun t va => t.refreshMap c.actor (t.columnOf c.key) va) t)
      (run s c.actor (s.xNat c a) (s.xNat c b))

/-- SMAP.look as a word: no compare point, performed once for a pair (R391, R394). -/
def State.smapLookWord (s : State) (d a b : BitVec 6) (c : LCtx) : LeadRes :=
  s.forwardedLead c (some .leadQueue) fun s =>
    let s := (s.hear .l).meetSeq c.actor (s.columnOf c.key) (s.xNat c a)
    smapDone (s.smapPages c [s.xNat c a]) d id ((s.smapPages c [s.xNat c a]).smapLook c.actor (s.xNat c a) (s.xNat c b))

def execSmapLook (z : Bool) (d a b : BitVec 6) (s : State) :=
  s.leadWord (.smapLook z d a b) z 2 (s.smapLookWord d a b)

def execSmapAppend (z : Bool) (d a b : BitVec 6) (s : State) :=
  s.leadWord (.smapAppend z d a b) z 2 fun c => s.smapWord 1 d a b State.smapAppend [s.xNat c a] c

def execSmapShare (z : Bool) (d a b : BitVec 6) (s : State) :=
  s.leadWord (.smapShare z d a b) z 2 fun c => s.smapWord 2 d a b State.smapShare [s.xNat c a, s.xNat c b] c

def execSmapLen (z : Bool) (d a b : BitVec 6) (s : State) :=
  s.leadWord (.smapLen z d a b) z 2 fun c => s.smapWord 3 d a b State.smapLen [s.xNat c a] c

def execSmapEvict (z : Bool) (d a b : BitVec 6) (s : State) :=
  s.leadWord (.smapEvict z d a b) z 2 fun c => s.smapWord 4 d a b (fun s p a _ => s.smapEvict p a) [] c

/-! ### CHASE (R165) -/

def execChase (z : Bool) (d a b : BitVec 6) (q : BitVec 2) (lim : BitVec 16) (s : State) :=
  s.leadRelease (.chase z d a b q lim) z 2 fun s c =>
    .ok (s.startOp c d (.chase (s.xReg c.l a.toNat) (s.xReg c.l b.toNat) q.toNat lim.toNat 0))

end Sys2Proof.Machine
end

