-- ==== Sys2Proof/Machine/LeadSystem.lean ====
section
/-!
DEFINITION. Class 12: launches, region checkpoints, traps, the status register, save points and exit of a lead context (R150 to
R157, R166 to R170).
-/

namespace Sys2Proof.Machine

/-! ### LAUNCH (R153, R155) -/

/-- Physical addresses of the four 64-byte parts of a launch record; the first is checked in R138's order (R153). -/
def State.recordParts (s : State) (va : Nat) : Except (Stop LeadWait) (List Nat) :=
  (List.range 4).mapM fun i => s.leadAccess [.read] 64 64 (ofInt 64 (va + 64 * i : Nat))

/-- LAUNCH is a release at its scope, and an XFENCE from every path to every path for what happens before it (R155). -/
def State.launchRelease (s : State) (c : LCtx) (scope n : Nat) : State := (s.xfenceAll c.actor scope).release c.actor (.sub n)

/-- Hand a record to the control plane: the submission and its token's operation (R153). -/
def State.submit (s : State) (c : LCtx) (d : BitVec 6) (scope : BitVec 4) (parts : List Nat) : Nat × Done :=
  let (n, s) := s.fresh
  let record := BitVec.ofNat 2048 (ofBytes (parts.flatMap fun pa => (s.onL c).rdBytes pa 64))
  let sub : Submission := { crew := c.key, addr := parts.getD 1 0 + 48, record, scope := scope.toNat }
  let s := s.launchRelease c scope.toNat n
  (n, State.startOp { s with subs := s.subs ++ [(n, sub)] } c d (.launch n))

/-- LAUNCH: a compare point of a pair; the leading gang submits, and both gangs hold a token of the submission (R391, R394). The
forwarded value is the model's number of the submission. -/
def State.launchWord (s : State) (d a : BitVec 6) (p : BitVec 4) (c : LCtx) : LeadRes :=
  s.syncLead c kindLaunch [s.xNat c a] fun s =>
    let s := s.beginsLead c (s.xNat c a)
    s.orFail c d (s.recordParts (s.xNat c a)) fun parts =>
      match c.gang.pair with
      | none => .ok (s.submit c d p parts).2
      | some q =>
        let k := c.taker s
        if q.leading then
          let (n, done) := s.submit c d p parts
          let f : Forward := { lanes := k.lanes, op := k.op, writes := [.x 0 (BitVec.ofNat 64 n)], flags := Flags.none, fault := none }
          .ok { done with s := done.s.forward q c.party f }
        else
          match s.takeForward c.key.gang q c.party k with
          | none => .error (.wait s .forward)
          | some (f, t) =>
            if f.op ≠ k.op then .error .diverge
            else
              match f.writes with
              | .x _ n :: _ => .ok (t.startOp c d (.launch n.toNat))
              | _ => .error .diverge

def execLaunch (z : Bool) (d a : BitVec 6) (p : BitVec 4) (s : State) :=
  s.leadRelease (.launch z d a p) z 1 fun s => s.launchWord d a p

/-! ### Region checkpoints (R166, R167, R399) -/

/-- Whether a virtual range is mapped to the device's local memory throughout, page by page. -/
def State.localRange (s : State) (fuel va n : Nat) : Bool :=
  match fuel with
  | 0 => n == 0
  | fuel + 1 =>
    if n = 0 then true
    else if va ≥ 2 ^ 57 then false
    else
      match pageAt s.pages va with
      | none => false
      | some p =>
        let k := min n (p.base + p.size - va)
        isLocal (p.pa + (va - p.base)) && isLocal (p.pa + (va - p.base) + (k - 1)) && s.localRange fuel (va + k) (n - k)

/-- The total size of the marked regions (R166). -/
def regionTotal (rs : List (Nat × (Nat × Nat))) : Nat := rs.foldl (fun n r => n + r.2.2) 0

/-- MARK, its causes in the order of R166. -/
def State.markAt (s : State) (g r base size : Nat) : LeadRes :=
  match s.gang g with
  | none => .ok { s }
  | some gg =>
    let regions := if size = 0 then tabDel gg.regions r else tabSet gg.regions r (base, size)
    if gg.ckpt.isSome ∨ regionTotal regions > 2 ^ 30 then .error (.fault (illegal 64))
    else if size ≠ 0 ∧ !s.localRange (s.pages.length + 1) base size then .error (.fault (Raised.at .elementAccess base))
    else if size ≠ 0 ∧ (base % 128 ≠ 0 ∨ size % 128 ≠ 0) then .error (.fault (Raised.at .misaligned base))
    else .ok { s := s.setGang g { gg with regions } }

def execMark (z : Bool) (d a b : BitVec 6) (s : State) :=
  s.leadWord (.mark z d a b) z 1 fun c =>
    s.atPointLead c kindMark [d.toNat, s.xNat c a, s.xNat c b] [] none fun s =>
      s.markAt c.key.gang d.toNat (s.xNat c a) (s.xNat c b)

/-- The gangs whose lead contexts act together: a gang, with its counterpart in a pair (R399). -/
def State.together (s : State) (g : Nat) : List Nat :=
  match s.peerOf g with
  | some h => [g, h]
  | none => [g]

/-- The gang of a pair that makes the visible writes. -/
def State.leadingOf (s : State) (g : Nat) : Nat :=
  match s.gang g with
  | some gg => match gg.pair with
    | some p => if p.leading then g else p.peer
    | none => g
  | none => g

/-- Lead contexts of a gang, or of a pair, that have not exited. -/
def State.liveLeads (s : State) (g : Nat) : List (CrewKey × Lead) :=
  s.leads.filter fun e => (s.together g).contains e.1.gang && !e.2.exited

/-- The collective word at which a lead context stalls. -/
def Lead.atCollective (l : Lead) : Option (Collective × Bool) :=
  match l.wait with
  | .collective c z => some (c, z)
  | _ => none

/-- Whether every page of a range is resident. -/
def State.residentRange (s : State) (base size : Nat) : Bool :=
  s.pages.all fun p => p.resident || decide (p.base + p.size ≤ base) || decide (base + size ≤ p.base)

/-- Local memory that no page maps and that no undo log holds, for the log of a checkpoint of a gang (R167, log 36). -/
def State.logRoom (s : State) (g : Nat) : Nat :=
  let mapped := s.pages.foldl (fun n p => if isLocal p.pa then n + p.size else n) 0
  let logs := s.gangs.foldl (fun n e => if e.1 ≠ g ∧ e.2.ckpt.isSome then n + regionTotal e.2.regions else n) 0
  localSize - mapped - logs

/-- Whether every interval that parties of a gang have ended has matched and been committed (R399). -/
def State.pointsClear (s : State) (g : Nat) : Bool :=
  (s.together g).all fun h => match (s.gang h).bind Gang.pair with
    | some p => p.parties.all fun e => e.2.points.isEmpty
    | none => true

/-- The lead contexts at a SNAP or a ROLLBK: each is a release and an acquire at gang scope, and an XFENCE from every path to every
path (R167). -/
def State.syncLeads (s : State) (ks : List CrewKey) : State :=
  let s := s.learn fun r => if ks.any fun k => r.knows (.lead k) then ks.map fun k => .actor (.lead k) else []
  ks.foldl (fun s k => s.xfenceAll (.lead k) 4) s

/-- The effect of a collective word on the gang that holds the checkpoint: none where it must wait, a fault where it has none
(R167, R398). -/
def State.collectiveEffect (s : State) (g : Nat) (c : Collective) : Option (Except Raised State) :=
  match s.gang g with
  | none => none
  | some gg =>
    match c with
    | .commit => some (.ok (s.setGang g { gg with ckpt := none }))
    | .rollbk =>
      match gg.ckpt with
      | none => some (.error (illegal 64))
      | some log =>
        let s := (s.setGang g { gg with ckpt := none }).rollback log
        some (.ok { s.modGang g fun x => { x with ckpt := some [] } with
          counters := { s.counters with rollbacks := s.counters.rollbacks + 1 } })
    | .snap =>
      if (gg.regions.all fun r => s.residentRange r.2.1 r.2.2) && decide (regionTotal gg.regions ≤ s.logRoom g) && s.pointsClear g then
        some (.ok { s.setGang g { gg with ckpt := some [] } with counters := { s.counters with snaps := s.counters.snaps + 1 } })
      else none

/-- A fault at a lead context that stalls: taken, or held for its counterpart in a pair (R397). -/
def State.faultLead (s : State) (k : CrewKey) (f : Raised) : State :=
  match s.lead k, s.gang k.gang with
  | some l, some g =>
    if g.pair.isSome then s.modLead k fun l => { l with wait := .pairFault f (pastWord l.pc 1) } else s.takeLeadFault k f (pastWord l.pc 1)
  | _, _ => s

/-- A lead context goes past a word at which it stalled. -/
def Lead.passWord (z : Bool) (l : Lead) : Lead :=
  let (l, last) := l.step 1
  l.parkIf (z && last)

/-- The collective word takes effect once every lead context that has not exited stalls at one (R167). -/
def State.collect (s : State) (g : Nat) : State :=
  let ls := s.liveLeads g
  let cs := ls.filterMap fun e => e.2.atCollective
  match cs with
  | [] => s
  | (c, _) :: rest =>
    if cs.length ≠ ls.length then s
    else if rest.any fun d => d.1 != c then ls.foldl (fun s e => s.faultLead e.1 (Raised.of .barrierMismatch 0)) s
    else
      match s.collectiveEffect (s.leadingOf g) c with
      | none => s
      | some (.error f) => ls.foldl (fun s e => s.faultLead e.1 f) s
      | some (.ok s) => (if c = .commit then s else s.syncLeads (ls.map Prod.fst)) |> fun s => ls.foldl (fun s e => s.modLead e.1 fun l =>
          match l.atCollective with
          | some (_, z) => l.passWord z
          | none => l) s

/-- Every collective word that can take effect by now does: one that waited for memory, for pages or for intervals (R167, R398, R399). -/
def State.collectAll (s : State) : State := (tabKeys s.gangs).foldl State.collect s

/-- A context reaches a collective word (R167); in a pair, past its compare point (R399). -/
def State.collectiveWord (s : State) (kind : Nat) (col : Collective) (z : Bool) (c : LCtx) : Except (Stop LeadWait) State :=
  let go : Except (Stop LeadWait) State := .ok ((s.modLead c.key fun l => { l with wait := .collective col z }).collect c.key.gang)
  match c.gang.pair with
  | none => go
  | some p =>
    if c.matched then go
    else .error (.wait (s.modParty c.key.gang c.party fun t => t.point kind []) (.point (p.party c.party).next))

def execSnap (z : Bool) (s : State) := s.leadControl (.snap z) false (s.collectiveWord kindSnap .snap z)
def execRollbk (z : Bool) (s : State) := s.leadControl (.rollbk z) false (s.collectiveWord kindRollbk .rollbk z)
def execCommit (z : Bool) (s : State) := s.leadControl (.commit z) false (s.collectiveWord kindCommit .commit z)

/-! ### Traps, status, return, save points (R168 to R170) -/

def execLeadTrap (z : Bool) (b : BitVec 6) (s : State) :=
  s.leadWord (.leadTrap z b) z 1 fun _ => .error (.fault (Raised.of .trap b.toNat))

def execLeadRdstat (z : Bool) (d : BitVec 6) (s : State) :=
  s.leadWord (.leadRdstat z d) z 1 fun c => .ok { s, writes := [.x d.toNat c.l.status] }

def execLeadWrstat (z : Bool) (a : BitVec 6) (s : State) :=
  s.leadWord (.leadWrstat z a) z 1 fun c =>
    .ok { s := s.modLead c.key fun l => { l with status := writeStatusByte l.status (BitVec.ofNat 8 (s.xNat c a)) } }

/-- RTF with the flag clear raises illegal_instruction (R170). -/
def State.leadRtfWord (s : State) (r : Bool) (c : LCtx) : Except (Stop LeadWait) State :=
  match c.l.handling with
  | none => .error (.fault (illegal 64))
  | some h => .ok (s.setLead c.key (c.l.returnFault h r))

def execLeadRtf (z r : Bool) (s : State) := s.leadControl (.leadRtf z r) z (s.leadRtfWord r)

/-- SAVEPT: save point m[1:0] * 64 + b (R169). -/
def State.leadSaveptWord (s : State) (i : BitVec 6) (h : BitVec 2) (c : LCtx) : LeadRes :=
  let ix := h.toNat * 64 + i.toNat
  if !s.hasSavePoint c.gang true ix then .error (.fault (illegal 64))
  else if c.gang.state = .saving then .error (.wait s (.savept ix))
  else .ok { s }

def execLeadSavept (z : Bool) (i : BitVec 6) (h : BitVec 2) (s : State) :=
  s.leadWord (.leadSavept z i h) z 1 (s.leadSaveptWord i h)

/-! ### EXIT (R26, R157, R169) -/

/-- Every token register of a context. -/
def Lead.tokenRegs (l : Lead) : List Nat := tabKeys l.tokens

/-- The end of a lead context: its crew's queues (R144), barriers, collective words and its gang (R377). -/
def State.endLead (s : State) (k : CrewKey) : State :=
  let s := s.modLead k fun l => { l.flush with exited := true, parked := false, wait := .none }
  ((s.barAll k.gang).collect k.gang).endIfDone k.gang

/-- Tokens faulted and unread end the gang with the fault issued first (R26), in a pair once the counterpart meets the same (R397);
else the context ends. -/
def State.exitWith (s : State) (c : LCtx) : State :=
  match firstFaulted (c.l.faultedIn c.l.tokenRegs) with
  | some (_, _, f) => if c.gang.pair.isSome then s.stallLead c (.exitFault f) else s.endByFault c.key.gang f.code
  | none => s.endLead c.key

/-- EXIT waits for pending tokens; tokens faulted and unread end the gang with the fault issued first (R26, R157). -/
def State.leadExitWord (s : State) (c : LCtx) : Except (Stop LeadWait) State :=
  match c.l.pendingIn c.l.tokenRegs with
  | some _ => .error (.wait s .ops)
  | none =>
    match c.gang.pair with
    | some p =>
      if c.matched then .ok (s.exitWith c)
      else .error (.wait (s.modParty c.key.gang c.party fun t => t.point kindExit []) (.point (p.party c.party).next))
    | none => .ok (s.exitWith c)

def execLeadExit (z : Bool) (s : State) := s.leadControl (.leadExit z) z s.leadExitWord

end Sys2Proof.Machine
end

