-- ==== Sys2Proof/Machine/Clauses.lean ====
section
/-!
DEFINITION. The clause header (R44 to R47, R182), the REP prefix (R59, R60) and a word whose opcode its class does not list (R79).
-/

namespace Sys2Proof.Machine

/-! ### REP (R59, R60) -/

/-- A REP target with its stepped fields increased (R59). -/
def stepWord (cls : Nat) (w : Word) (r : RepCtl) (i : Nat) : Word :=
  let k := i * r.stride
  let (d, a, b) := if cls < 8 then (17, 10, 3) else (18, 12, 6)
  BitVec.ofNat 32 (w.toNat + (if r.stepD then k * 2 ^ d else 0) + (if r.stepA then k * 2 ^ a else 0) + (if r.stepB then k * 2 ^ b else 0))

/-- Opcodes of a class whose b field holds an immediate or a handle: the VI, KI, LI and T formats (R49, R80 to R88). -/
def immOpcode (cls op : Nat) : Bool :=
  match cls with
  | 0 => [1, 3, 5, 0xB, 0xD, 0xF, 0x11, 0x13, 0x16, 0x18, 0x1A, 0x1C].contains (op % 64)
  | 1 => [1, 3, 5, 8, 0xA].contains op
  | 2 => (decide (8 ≤ op % 16) && decide (op % 16 ≤ 0xD)) && decide (op < 0x30)
  | 3 => op == 0x11 || op == 0x12
  | 5 => true
  | 8 => [1, 3, 5, 0xA, 0xC, 0xE, 0x10, 0x12, 0x14].contains op || (decide (0x1F ≤ op) && decide (op ≤ 0x25)) ||
         (decide (0x28 ≤ op) && decide (op ≤ 0x2F))
  | _ => false

/-- A stepped field of a target: its slot, its value, its width and its place in the word. -/
def slotField (cls : Nat) (w : Word) (s : Slot) : Nat × Nat × Nat :=
  let (width, d, a, b) := if cls < 8 then (7, 17, 10, 3) else (6, 18, 12, 6)
  match s with
  | .d => (fieldNat w.toNat d width, width, d)
  | .a => (fieldNat w.toNat a width, width, a)
  | .b => (fieldNat w.toNat b width, width, b)

/-- Whether REP must not step a field of a target (R60). A field that names no register must still hold a value that the word
allows at the last repeat. `us` are the registers that the word, or a word of its opcode with valid modifiers, names. -/
def stepBad (cls : Nat) (w : Word) (ext : Option Word) (r : RepCtl) (us : List Use) (s : Slot) : Bool :=
  let more := (r.n - 1) * r.stride
  let (v, width, pos) := slotField cls w s
  let us := us.filter fun u => u.slot == some s
  if s = .b ∧ immOpcode cls (fieldNat w.toNat 24 7) = true then true
  else if decide (v + more ≥ 2 ^ width) then true
  else if us.isEmpty then
    match decodeWord cls (stepWord cls w { r with stepD := s == .d, stepA := s == .a, stepB := s == .b } (r.n - 1)) ext with
    | .ok j _ => (fieldFaults j).contains pos
    | .bad p => p == pos
  else us.any fun u => decide (u.first + more + (u.count - 1) > u.kind.last) || (u.count == 2 && r.stride == 1)

/-- Words of the same opcode and registers with other modifiers, for a word that does not decode as it stands: its lowest bits
and its extension word cleared. -/
def plainForms (cls : Nat) (w : Word) (ext : Option Word) : List (Word × Option Word) :=
  let m := if cls < 8 then 3 else 6
  let plain : Word := BitVec.ofNat 32 (w.toNat / 2 ^ m * 2 ^ m)
  let e := ext.map fun _ => (0 : Word)
  [(w, ext), (w, e), (plain, ext), (plain, e)]

/-- The registers that a word names, read from its nearest form that decodes. -/
def formUses (cls : Nat) (w : Word) (ext : Option Word) : List Use :=
  ((plainForms cls w ext).findSome? fun f => match decodeWord cls f.1 f.2 with
    | .ok i _ => some (uses i)
    | .bad _ => none).getD []

/-- Classes that REP may not repeat (R60). -/
def repClassBad (cls : Nat) : Bool := cls == 6 || cls == 9 || cls == 12 || cls == 13

/-- The checks of a REP on its target (R60). -/
def repBad (cls : Nat) (w : Word) (ext : Option Word) (r : RepCtl) : Bool :=
  let us := formUses cls w ext
  repClassBad cls || (r.stepD && stepBad cls w ext r us .d) || (r.stepA && stepBad cls w ext r us .a) ||
    (r.stepB && stepBad cls w ext r us .b)

/-- The control that a REP word sets up: its count is one more than its field, bit 14 gives a stride of two (R59). -/
def repCtl (n : BitVec 6) (k : BitVec 3) (t : Bool) : RepCtl :=
  { n := n.toNat + 1, stepD := bitNat k.toNat 2, stepA := bitNat k.toNat 1, stepB := bitNat k.toNat 0, stride := if t then 2 else 1 }

/-- What REP finds after it: a target that it may repeat, one that it may not, or a page to wait for. -/
inductive RepTarget where
  | good
  | bad
  | away
  deriving DecidableEq, Repr

/-- The first word of the clause after a REP (R59). A place that no clause begins at is left to its own fetch. -/
def State.repTarget (s : State) (headers : List Nat) (pc : Nat) (r : RepCtl) : RepTarget :=
  if !headers.contains pc then .good
  else
    match s.codeWord pc, s.codeWord (pc + 4) with
    | .error (.away _), _ => .away
    | _, .error (.away _) => .away
    | .ok h, .ok w =>
      let cls := fieldNat h.toNat 28 4
      let ext := if needsExt cls w then (s.codeWord (pc + 8)).toOption else none
      if repBad cls w ext r then .bad else .good
    | _, _ => .good

/-- REP in a wave. -/
def State.repWave (s : State) (r : RepCtl) (c : WCtx) : Except (Stop SplitWait) State :=
  let next := pastWord c.sp.pc 1
  match s.repTarget (s.waveHeaders c.gang) next.toNat r with
  | .bad => .error (.fault (illegal 64))
  | .away => .error (.wait s (.page next.toNat))
  | .good => .ok (s.setWave c.key (c.w.setSlot c.slot (some { c.sp with pc := next, rep := 0, reps := some r, wait := .none })))

/-- REP in a lead context. -/
def State.repLead (s : State) (r : RepCtl) (c : LCtx) : Except (Stop LeadWait) State :=
  let next := pastWord c.l.pc 1
  match s.repTarget (s.leadHeaders c.gang) next.toNat r with
  | .bad => .error (.fault (illegal 64))
  | .away => .error (.wait s (.page next.toNat))
  | .good => .ok (s.setLead c.key { c.l with pc := next, rep := 0, reps := some r, wait := .none })

def execRep (n : BitVec 6) (k : BitVec 3) (t : Bool) (s : State) : Host.Outcome State Fault Refusal :=
  match s.cur with
  | .lead _ => s.leadControl (.rep n k t) false (s.repLead (repCtl n k t))
  | _ => s.waveControl (.rep n k t) false (s.repWave (repCtl n k t))

/-! ### An unlisted opcode (R79) -/

/-- The words that an unlisted opcode takes up: with an extension word where its class has one, or where bit 0 of a word of class
4 or 5 says so (R49, R84, R85, R90; log 33). -/
def State.wordsAt (s : State) (headers : List Nat) (pc : Nat) (w : Word) : Nat :=
  match clauseBack headers pc with
  | none => 1
  | some k =>
    match s.codeWord (pc - 4 * k) with
    | .ok h => if needsExt (fieldNat h.toNat 28 4) w then 2 else 1
    | .error _ => 1

/-- A word whose opcode its class does not list raises illegal_instruction with aux 24. -/
def execUnlistedOpcode (w : BitVec 32) (s : State) : Host.Outcome State Fault Refusal :=
  match s.cur with
  | .lead _ =>
    let n := match s.lctx with
      | some c => s.wordsAt (s.leadHeaders c.gang) c.l.pc.toNat w
      | none => 1
    s.leadWord (.unlistedOpcode w) false n fun _ => .error (.fault (illegal 24))
  | _ =>
    let n := match s.wctx with
      | some c => s.wordsAt (s.waveHeaders c.gang) c.sp.pc.toNat w
      | none => 1
    s.waveWord (.unlistedOpcode w) false n fun _ => .error (.fault (illegal 24))

/-! ### The clause header (R44 to R47) -/

def hdrClass (h : Word) : Nat := fieldNat h.toNat 28 4
def hdrCount (h : Word) : Nat := fieldNat h.toNat 24 4
def hdrWait (h : Word) : Nat := fieldNat h.toNat 9 8

/-- Classes that a stream may hold (R45). -/
def streamClass (lead : Bool) (cls : Nat) : Bool :=
  if lead then decide (8 ≤ cls) && decide (cls ≤ 13) else decide (cls ≤ 7) || cls == 13

/-- Wait bits that a stream may set (R47). -/
def waitMask (lead : Bool) : Nat := if lead then 0x18 else 0x07

/-- The categories that a wait field marks (R47). -/
def waitCats (bits : Nat) : List Cat :=
  (if bitNat bits 0 then [Cat.load] else []) ++ (if bitNat bits 1 then [Cat.tile] else []) ++ (if bitNat bits 2 then [Cat.cross] else []) ++
  (if bitNat bits 3 then [Cat.leadMem] else []) ++ (if bitNat bits 4 then [Cat.leadQueue] else [])

/-- Whether the last word of a clause needs an extension word (R46): `n` words from `pc`; none where a word stands on a page that
is not resident. A word that no page maps executable needs none: its own fetch is the fault (R64). -/
def State.endsOpen (s : State) (cls pc : Nat) : Nat → Option Bool
  | 0 => some false
  | 1 => match s.codeWord pc with
    | .ok w => some (needsExt cls w)
    | .error (.away _) => none
    | .error _ => some false
  | n + 2 =>
    match s.codeWord pc with
    | .ok w => if needsExt cls w then s.endsOpen cls (pc + 8) n else s.endsOpen cls (pc + 4) (n + 1)
    | .error (.away _) => none
    | .error _ => s.endsOpen cls (pc + 4) (n + 1)

/-- The checks of R46 on the header word itself. -/
def headerWordBad (lead : Bool) (h : Word) : Bool :=
  let cls := hdrClass h
  let n := hdrCount h
  !streamClass lead cls || n == 0 || (cls == 13 && n != 1) || (!bitNat h.toNat 23 && fieldNat h.toNat 17 6 != 0) ||
  (hdrWait h &&& waitMask lead != hdrWait h) || fieldNat h.toNat 0 9 != 0

/-- The header checks of R46; none while the clause's words cannot be read because a page is away. -/
def State.headerBad (s : State) (lead : Bool) (pc : Nat) (h : Word) : Option Bool :=
  if headerWordBad lead h then some true else s.endsOpen (hdrClass h) (pc + 4) (hdrCount h)

/-- What a fetch at a place meets. -/
inductive Header where
  | none (reason : Nat)
  | away
  | poison
  | bad (h : Word)
  | ok (h : Word)
  deriving DecidableEq, Repr

/-- Fetch a clause header (R46, R63, R64): a place that is not mapped executable, or where no clause begins, is no target. -/
def State.fetchHeader (s : State) (lead : Bool) (headers : List Nat) (pc : Nat) : Header :=
  match s.jumpReason headers Option.none pc with
  | some r => .none r
  | Option.none =>
    match s.codeWord pc with
    | .error (.away _) => .away
    | .error _ => .none 2
    | .ok h =>
      if s.codePoisoned pc then .poison
      else
        match s.headerBad lead pc h with
        | Option.none => .away
        | some true => .bad h
        | some false => .ok h

/-- The address past a clause (R46). -/
def pastClause (pc : DWord) (h : Word) : DWord := pastWord pc (hdrCount h + 1)

/-- The pages of a clause are accessed (R395). -/
def State.noteClause (s : State) (g : Gang) (pc : DWord) (h : Word) : State := s.notePages g [pc.toNat, pc.toNat + 4 * hdrCount h]

/-- A split begins a clause: its wave drains what the wait field marks (R47, R196). -/
def State.beginWave (s : State) (c : WCtx) : State :=
  match s.fetchHeader false (s.waveHeaders c.gang) c.sp.pc.toNat with
  | .none r => s.stopWave c 1 (.fault { Raised.at .jumpTarget c.sp.pc.toNat with aux := r })
  | .away => s
  | .poison => s.stopWave c 1 .poison
  | .bad h => s.stopWave c (hdrCount h + 1) (.fault (Raised.of .illegalClause 0))
  | .ok h =>
    let (cats, past) := (waitCats (hdrWait h)).partition fun k => c.w.outstanding.any fun p => p.cat == k
    (s.noteClause c.gang c.sp.pc h).setWave c.key ({ c.w with drain := cats, past := waitedOn past c.w.past }.setSlot c.slot (some { c.sp with pc := pastWord c.sp.pc 1, wait := .none }))

/-- A split fetches a header: it arrives at its join (R182), or begins the clause. -/
def State.clauseWave (s : State) (c : WCtx) : State :=
  match c.sp.link with
  | Option.none => s.beginWave c
  | some i =>
    match c.w.record? i with
    | Option.none => s.beginWave c
    | some r => if r.pc = c.sp.pc then (s.setWave c.key (c.w.arrive c.slot i)).tidyWave c.key else s.beginWave c

/-- A lead context fetches a header; it begins the clause once nothing that the wait field marks is outstanding (R47). -/
def State.clauseLead (s : State) (c : LCtx) : State :=
  match s.fetchHeader true (s.leadHeaders c.gang) c.l.pc.toNat with
  | .none _ => s.stopLead c 1 (.fault (Raised.of .jumpTarget 0))
  | .away => s
  | .poison => s.stopLead c 1 .poison
  | .bad h => s.stopLead c (hdrCount h + 1) (.fault (Raised.of .illegalClause 0))
  | .ok h =>
    if (waitCats (hdrWait h)).any fun k => c.l.outstanding.any fun p => p.cat == k then s
    else (s.noteClause c.gang c.l.pc h).setLead c.key { c.l with pc := pastWord c.l.pc 1, wait := .none, past := waitedOn (waitCats (hdrWait h)) c.l.past }

def execClauseFetch (s : State) : Host.Outcome State Fault Refusal :=
  match s.cur with
  | .lead _ =>
    match s.lctx with
    | Option.none => .fault .noLead
    | some c => .next (s.clauseLead c)
  | _ =>
    match s.wctx with
    | Option.none => .fault .noSplit
    | some c => .next (s.clauseWave c)

end Sys2Proof.Machine
end

