-- ==== Sys2Proof/Machine/MatrixSums.lean ====
section
/-!
DEFINITION. The arithmetic of the matrix units: group sums (R123 to R125), accumulator elements (R121, R122, R298), the
down-converter (R299), operand descriptors (R291 to R293), and the basis and records of Accords (R308 to R312).
-/

namespace Sys2Proof.Machine

/-! ### Operand descriptors (R291) -/

/-- An operand descriptor. -/
structure Desc where
  handle : Nat
  reserved : Bool
  row0 : Nat
  col0 : Nat
  rstr : Nat
  cstr : Nat
  tr : Bool
  deriving DecidableEq, Repr, Inhabited

def Desc.of (x : DWord) : Desc :=
  let f := fieldNat x.toNat
  { handle := f 56 8, reserved := f 52 4 != 0 || f 0 19 != 0, row0 := f 39 13, col0 := f 26 13, rstr := f 23 3, cstr := f 20 3,
    tr := f 19 1 == 1 }

/-- The tile element that X(u, w) names. -/
def Desc.cell (d : Desc) (u w : Nat) : Nat × Nat :=
  if d.tr then (d.row0 + w * d.rstr, d.col0 + u * d.cstr) else (d.row0 + u * d.rstr, d.col0 + w * d.cstr)

/-- The sub-blocks that X(u, w) reaches for `us` and `ws`; elements outside the shape reach none (R292). -/
def Desc.subs (d : Desc) (us ws : List Nat) (t : Tile) : List Nat :=
  let along (x0 str n : Nat) (is : List Nat) : List Nat :=
    ((is.map fun i => x0 + i * str).filter fun x => decide (x < n)).map (· / 32) |>.eraseDups
  let rs := along d.row0 d.rstr t.rows (if d.tr then ws else us)
  let cs := along d.col0 d.cstr t.cols (if d.tr then us else ws)
  rs.flatMap fun r => cs.map fun c => r * (t.cols / 32) + c

/-- A descriptor that breaks R291's reserved field or R293; `tr` is what a block format asks for. -/
def Desc.bad (d : Desc) (t : Tile) (tr : Bool) : Bool :=
  d.reserved || ((blockOf t.fmt).isSome && (d.tr != tr || d.cstr != 1 || d.col0 % 32 != 0))

/-- A descriptor of a drain that does not write whole sub-blocks (R300). -/
def Desc.badDrain (d : Desc) : Bool := d.reserved || d.rstr != 1 || d.cstr != 1 || d.row0 % 32 != 0 || d.col0 % 32 != 0

/-! ### Group sums -/

/-- A subnormal f32 result becomes zero of its sign (R101). -/
def flushF32 (c : Nat) : Nat := if fieldNat c 23 8 = 0 then c / 2 ^ 31 % 2 * 2 ^ 31 else c

/-- One RNE rounding to f32 with R101's flush. -/
def toF32 (v : FV) : Nat := flushF32 (FFmt.f32.narrow .rne v).1

/-- One addition of the matrix engine. -/
def addF32 (a b : Nat) : Nat := toF32 (FV.sum .rne [FFmt.f32.decode a, FFmt.f32.decode b]).1

/-- A number below the least normal exponent of f32 and bf16 becomes zero of its sign (R101). -/
def FV.flush : FV → FV
  | .num s m e => if m ≠ 0 ∧ e + m.log2 < -126 then .num s 0 0 else .num s m e
  | v => v

/-- The sum of a group of integer or block products (R123): exact, one rounding, an integer zero being +0 (R119). -/
def intGroup (ts : List (FV × FV)) : Nat :=
  let (n, q) := exactSum (FV.nums (ts.map fun t => (FV.mul t.1 t.2).1))
  if n = 0 then 0 else toF32 (.num (decide (n < 0)) n.natAbs q)

/-- The exact integer sum of a group (R123). -/
def intSum (ts : List (FV × FV)) : Int := (exactSum (FV.nums (ts.map fun t => (FV.mul t.1 t.2).1))).1

/-- A product's mantissa truncated below 2^q. -/
def truncAt (q : Int) (x : Bool × Nat × Int) : Bool × Nat × Int :=
  if q ≤ x.2.2 then x else (x.1, x.2.1 / 2 ^ (q - x.2.2).toNat, q)

/-- The sum of a group of exact products in the window of R124. The exponent of a product is read as that of the exact product, the floor of
its binary logarithm, and not as the sum of its operands' exponents (log 34). -/
def winSum (ps : List FV) : FV :=
  let ns := FV.nums ps
  let big := ns.filter fun x => x.2.1 != 0
  if ns.length < ps.length then (FV.sum .rne ps).1
  else
    match big with
    | [] => .num (!ps.isEmpty && ns.all fun x => x.1) 0 0
    | x :: xs =>
      let top (x : Bool × Nat × Int) : Int := x.2.2 + x.2.1.log2
      let q := xs.foldl (fun a y => max a (top y)) (top x) - 48
      let (n, e) := exactSum (big.map (truncAt q))
      .num (decide (n < 0)) n.natAbs e

/-- A group of bf16 products (R124): subnormal operands are flushed first. -/
def winGroup (ts : List (FV × FV)) : Nat := toF32 (winSum (ts.map fun t => (FV.mul t.1.flush t.2.flush).1))

/-- A value cut to bf16 toward zero (R125). -/
def cutBf16 (v : FV) : FV := FFmt.bf16.decode (FFmt.bf16.narrow .rz v).1

/-- The hi, mid and lo slices of an f32 operand (R125). -/
def slices (x : FV) : List FV :=
  match x with
  | .num _ _ _ =>
    let hi := cutBf16 x
    let r := (FV.sum .rz [x, hi.neg]).1
    let mid := cutBf16 r
    [hi, mid, cutBf16 (FV.sum .rz [r, mid.neg]).1]
  | .nan _ => [.nan false, FV.zero, FV.zero]
  | .inf s => [.inf s, FV.zero, FV.zero]
  | .absent => [.absent, .absent, .absent]

/-- The six passes, slice of A first: 0 hi, 1 mid, 2 lo (R125). -/
def passes : List (Nat × Nat) := [(2, 0), (0, 2), (1, 1), (1, 0), (0, 1), (0, 0)]

/-- How the groups of an operation are summed (R297). -/
inductive SumMode where
  | int
  | sat
  | win
  | six
  deriving DecidableEq, Repr, Inhabited

def intFmt (c : Nat) : Bool := c == 0 || c == 18 || c == 20 || c == 21

/-- The pairings of R297. -/
def sumMode (fa fb : Nat) (i32 : Bool) : Option SumMode :=
  if i32 then if (fa == 0 || fa == 18) && (fb == 0 || fb == 18) then some .sat else none
  else if intFmt fa && intFmt fb then some .int
  else if fa == 14 && fb == 14 then some .win
  else if fa == 12 && fb == 12 then some .six
  else none

/-- Add the kept terms of a group into a value (R123 to R125). -/
def SumMode.add (m : SumMode) (v : Nat) (ts : List (FV × FV)) : Nat :=
  match m with
  | .int => addF32 v (intGroup ts)
  | .sat => (narrow .signed 32 (toSigned 32 v + intSum ts)).1
  | .win => addF32 v (winGroup ts)
  | .six =>
    let cut := ts.map fun t => (slices t.1, slices t.2)
    passes.foldl (fun a p => addF32 a (winGroup (cut.map fun t => (t.1.getD p.1 .absent, t.2.getD p.2 .absent)))) v

/-! ### Accumulators (R121, R122, R276) -/

/-- An accumulator at crew start (R278). -/
def Acc.empty (i32 : Bool) : Acc := { i32, elems := [], bad := [] }

/-- The accumulator of a unit. -/
def Crew.accAt (c : Crew) (unit acc : Nat) : Acc := (tabGet c.accs (unit, acc)).getD (Acc.empty false)

/-- Change every element: none is empty. -/
def accMap (f : Nat → Nat → Option AccElem → Option AccElem) (es : List (Nat × AccElem)) : List (Nat × AccElem) :=
  (List.range 4096).filterMap fun n => (f (n / 64) (n % 64) (tabGet es n)).map fun x => (n, x)

/-- Whether both operands of a term are present. -/
def keptTerm (t : FV × FV) : Bool := !t.1.isAbsent && !t.2.isAbsent

/-- Whether a kept term counts: an operand is nonzero as stored (R122, R126). -/
def countedTerm (t : FV × FV) : Bool := !t.1.isZero || !t.2.isZero

/-- One group of terms into an element (R121, R298). -/
def groupStep (strict : Bool) (m : SumMode) (ts : List (FV × FV)) (old : Option AccElem) : Option AccElem :=
  let kept := ts.filter keptTerm
  let go (v : Word) (n : Nat) : Option AccElem :=
    if strict && decide (kept.length < ts.length) then some .absent
    else if kept.isEmpty then old
    else some (.present (BitVec.ofNat 32 (m.add v.toNat kept)) (min 254 (n + (kept.filter countedTerm).length)))
  match old with
  | some .absent => old
  | some (.present v n) => go v n
  | none => go 0 0

/-- A K step over rows of A and columns of B (R298). -/
def matrixStep (strict : Bool) (m : SumMode) (as bs : List (List FV)) (es : List (Nat × AccElem)) : List (Nat × AccElem) :=
  accMap (fun i j => groupStep strict m ((as.getD i []).zip (bs.getD j []))) es

/-- The value of an element: empty and absent read as absent (R299, R300). -/
def Acc.value (a : Acc) (n : Nat) : FV :=
  match tabGet a.elems n with
  | some (.present v _) => if a.i32 then (Fmt.int .signed 32).toFV v.toNat else FFmt.f32.decode v.toNat
  | _ => .absent

/-- A row segment of a source accumulator through the down-converter (R299). -/
def Acc.down (a : Acc) (fmt i s : Nat) : List FV :=
  let xs := (List.range 32).map fun k => a.value (64 * i + 32 * s + k)
  match blockOf fmt with
  | some b =>
    let blk := quantise b (xs.map viaF32)
    (List.range 32).map (blk.value b)
  | none =>
    match Fmt.ofCode fmt with
    | some f => xs.map fun v => f.toFV (fvTo f (match f with
      | .flt _ => viaF32 v
      | .int _ _ => v))
    | none => []

/-! ### Accords (R308 to R312) -/

/-- The sequence of a seed: `n` bits (R308). -/
def seedBits : Nat → DWord → List Bool
  | 0, _ => []
  | n + 1, x =>
    let new := x.getLsbD 0 != (x.getLsbD 1 != (x.getLsbD 3 != x.getLsbD 4))
    x.getLsbD 0 :: seedBits n ((x >>> 1) ||| (if new then 1#64 <<< 63 else 0#64))

/-- The basis by columns, true for -1 (R308). -/
def basis (seed : DWord) (ka m : Nat) : List (List Bool) := inGroups ka (seedBits (ka * m) seed)

/-- A sign as an operand. -/
def signFV (b : Bool) : FV := .num b 1 0

def hdrSeed (h : Nat) : DWord := BitVec.ofNat 64 (h % 2 ^ 64)
/-- Ka (R310). -/
def hdrKa (h : Nat) : Nat := 32 * 2 ^ fieldNat h 64 3
def hdrM (h : Nat) : Nat := 2 * 2 ^ fieldNat h 72 3
def hdrSb8 (h : Nat) : Bool := bitNat h 80

/-- A header that R312 rejects. -/
def hdrBad (h : Nat) : Bool :=
  fieldNat h 81 431 != 0 || fieldNat h 75 5 != 0 || fieldNat h 67 5 != 0 || hdrSeed h == 0 || decide (fieldNat h 64 3 > 3) ||
    decide (fieldNat h 72 3 > 4)

/-- Coefficient bytes (R311). -/
def coefBytes (h : Nat) : Nat := if hdrSb8 h then roundUp (3 * hdrM h) 4 + 64 * hdrM h else 128 * hdrM h

/-- Coefficient C[r][col] of a record (R311); an .sb8 one carries its block's scale (R317). -/
def coefAt (h : Nat) (rd : Nat → Byte) (r col : Nat) : FV :=
  if hdrSb8 h then (plainBlock .sb8 (2 * hdrM h) (fun k => rd (64 + k)) (2 * r + col / 32)).value .sb8 (col % 32)
  else FFmt.bf16.decode (ofBytes [rd (64 + 128 * r + 2 * col), rd (64 + 128 * r + 2 * col + 1)])

/-- Whether a coefficient is absent (R312). -/
def coefAbsent (h : Nat) (rd : Nat → Byte) : Bool :=
  (List.range (hdrM h)).any fun r => (List.range 64).any fun c => (coefAt h rd r c).isAbsent

/-! ### MMW (R317) -/

/-- One K step of pass 1 over the rows of X. -/
def mmwStep (strict : Bool) (m : SumMode) (xs : List (List FV)) (cols : List (List Bool)) (es : List (Nat × AccElem)) :
    List (Nat × AccElem) :=
  accMap (fun i r old => if r < cols.length then groupStep strict m ((xs.getD i []).zip ((cols.getD r []).map signFV)) old else none) es

/-- The counts of pass 1, by row. -/
def mmwCounts (xs : List (List FV)) (cs : List (Nat × Nat)) : List (Nat × Nat) :=
  (List.range 64).map fun i =>
    (i, (tabGet cs i).getD 0 + ((xs.getD i []).filter fun v => !v.isAbsent && !v.isZero).length)

/-- The products of a row of P with a column of C: bf16 coefficients and products are flushed (R317). -/
def mmwProducts (ps : List Word) (cs : List FV) : List FV :=
  (ps.zip cs).map fun t => (FV.mul (FFmt.f32.decode t.1.toNat) t.2).1.flush

/-- Pass 2 into one element: the row of P, the column of C, the row's count. -/
def mmwLast (ps : List (Option AccElem)) (cs : List FV) (count : Nat) (old : Option AccElem) : Option AccElem :=
  let here := ps.filterMap fun p => match p with
    | some (.present v _) => some v
    | _ => none
  if old = some .absent then old
  else if ps.any (· == some .absent) then some .absent
  else if here.isEmpty then old
  else
    let (v, n) := match old with
      | some (.present v n) => (v, n)
      | _ => (0, 0)
    some (.present (BitVec.ofNat 32 (addF32 v.toNat (toF32 (winSum (mmwProducts here cs))))) (min 254 (n + count)))

/-- Pass 2 (R317). -/
def mmwFinish (h : Nat) (rd : Nat → Byte) (temp : List (Nat × AccElem)) (counts : List (Nat × Nat)) (es : List (Nat × AccElem)) :
    List (Nat × AccElem) :=
  let m := hdrM h
  let cols := (List.range 64).map fun c => (List.range m).map fun r =>
    let v := coefAt h rd r c
    if hdrSb8 h then v else v.flush
  accMap (fun i j => mmwLast ((List.range m).map fun r => tabGet temp (64 * i + r)) (cols.getD j []) ((tabGet counts i).getD 0)) es

/-! ### SEEK and PROJ (R321, R322) -/

/-- An element of T: absent counts as zero, subnormals are flushed. -/
def targetElem (v : FV) : FV := if v.isAbsent then FV.zero else v.flush

/-- A finite integer as an Int. -/
def FV.int? : FV → Option Int
  | .num s m e =>
    if 0 ≤ e then some (signedMant s (m * 2 ^ e.toNat))
    else if m % 2 ^ (-e).toNat = 0 then some (signedMant s (m / 2 ^ (-e).toNat)) else none
  | _ => none

/-- A signed sum in integers. -/
def signedSum (bs : List Bool) (xs : List Int) : Int := (bs.zip xs).foldl (fun a p => if p.1 then a - p.2 else a + p.2) 0

/-- The exact score of a basis: columns of T as integers. -/
def scoreInt (cols : List (List Bool)) (t : List (List Int)) : Int :=
  cols.foldl (fun a b => t.foldl (fun a x => a + signedSum b x * signedSum b x) a) 0

/-- An inner sum in f32, each addition rounded. -/
def signedSumF (bs : List Bool) (xs : List FV) : Nat :=
  (bs.zip xs).foldl (fun a p => addF32 a (FFmt.f32.narrow .rne (if p.1 then p.2.neg else p.2)).1) 0

/-- The score in f32. -/
def scoreF32 (cols : List (List Bool)) (t : List (List FV)) : Nat :=
  cols.foldl (fun a b => t.foldl (fun a x =>
    let y := FFmt.f32.decode (signedSumF b x)
    addF32 a (toF32 (FV.mul y y).1)) a) 0

/-- Whether an f32 score beats another: a NaN ranks below every other. -/
def beatsF32 (a b : Nat) : Bool :=
  let x := FFmt.f32.decode a
  let y := FFmt.f32.decode b
  if x.isNan then false else if y.isNan then true else FV.compareNum x y == .gt

/-- The first best of candidates. -/
def bestOf {α : Type} (beats : α → α → Bool) : List (Nat × α) → Option (Nat × α)
  | [] => none
  | x :: xs => some (xs.foldl (fun a y => if beats y.2 a.2 then y else a) x)

/-- The candidates of a SEEK with their basis; a zero seed is not scored. -/
def candidates (seed : DWord) (n : Nat) : List (Nat × DWord) :=
  ((List.range n).map fun j => (j, seed + BitVec.ofNat 64 j)).filter fun c => c.2 != 0

/-- The token of a SEEK over the columns of T (R321). -/
def seekToken (ka m n : Nat) (seed : DWord) (t : List (List FV)) : DWord :=
  let cs := candidates seed n
  let ints := t.map fun c => c.filterMap FV.int?
  let integral := (t.zip ints).all fun p => p.1.length == p.2.length
  let best : Option (Nat × Nat) :=
    if integral then
      (bestOf (fun a b => decide (a > b)) (cs.map fun c => (c.1, scoreInt (basis c.2 ka m) ints))).map fun b =>
        (b.1, (FFmt.f32.narrow .rne (.num false b.2.natAbs 0)).1)
    else bestOf beatsF32 (cs.map fun c => (c.1, scoreF32 (basis c.2 ka m) t))
  match best with
  | none => BitVec.allOnes 64
  | some (j, code) => BitVec.ofNat 64 (code * 2 ^ 32 + j)

/-- The exact coefficient of PROJ. -/
def projValue (ka : Nat) (b : List Bool) (x : List FV) : FV :=
  match (FV.sum .rne ((b.zip x).map fun p => if p.1 then p.2.neg else p.2)).1 with
  | .num s m e => .num s m (e - ka.log2)
  | v => v

/-- The coefficient section that PROJ writes (R322). -/
def projBytes (h : Nat) (t : List (List FV)) : List Byte :=
  let ka := hdrKa h
  let rows := (basis (hdrSeed h) ka (hdrM h)).map fun b => t.map (projValue ka b)
  if hdrSb8 h then plainBytes .sb8 (rows.flatMap fun r => [quantise .sb8 (r.take 32), quantise .sb8 (r.drop 32)])
  else rows.flatMap fun r => r.flatMap fun v => toBytes 2 (FFmt.bf16.narrow .rne v).1

end Sys2Proof.Machine
end

