-- ==== Sys2Proof/Machine/MatrixUnit.lean ====
section
/-!
DEFINITION. The operations of the matrix units as they run: order (R279), checks (R307, R324), fills (R288), K steps (R298, R306,
R317), completion (R295), and the tile-management and Accord words (R301 to R305, R313, R321, R322).
-/

namespace Sys2Proof.Machine

/-! ### Order (R279) -/

/-- The handles that a matrix or tile-management operation names. -/
def OpKind.handles : OpKind → List Nat
  | .unit _ (.mma _ _ _ a b) _ _ _ _ => [(Desc.of a).handle, (Desc.of b).handle]
  | .unit _ (.mmc _ _ _ _ b) _ _ _ _ => [(Desc.of b).handle]
  | .unit _ (.mmw _ h _ a) _ _ _ _ => [(Desc.of a).handle, h]
  | .unit _ (.mdrain _ a b) _ _ _ _ => (Desc.of a).handle :: (b.map fun x => (Desc.of x).handle).toList
  | .unit _ (.mload _ _ a) _ _ _ _ => [(Desc.of a).handle]
  | .unit _ (.seek _ _ _ a _) _ _ _ _ => [(Desc.of a).handle]
  | .unit _ (.proj a _) _ _ _ _ => [(Desc.of a).handle]
  | .tile (.talloc h _ _ _ _ _) => [h]
  | .tile (.tfree h) => [h]
  | .tile (.tbind h _) => [h]
  | .tile (.tdry h) => [h]
  | .tile (.tstat h _) => [h]
  | .tile (.abind h _ _) => [h]
  | _ => []

def OpKind.unit? : OpKind → Option Nat
  | .unit u _ _ _ _ _ => some u
  | _ => none

def OpKind.isTile : OpKind → Bool
  | .tile _ => true
  | _ => false

/-- Whether an earlier operation of one lead context holds a later one back. -/
def OpKind.before (a b : OpKind) : Bool :=
  (a.unit?.isSome && a.unit? == b.unit?) || ((a.isTile || b.isTile) && a.handles.any b.handles.contains)

/-- Whether no earlier unfinished operation holds operation `n` back. -/
def State.opReady (s : State) (n : Nat) (o : Op) : Bool :=
  s.ops.all fun e => !(decide (e.1 < n) && e.2.crew == o.crew && e.2.kind.before o.kind)

/-! ### Handles, descriptors, fills -/

def failWith (c : FaultCode) : Except Halt Unit := .error (.fail (Raised.of c 0))

/-- Raise where a check fails. -/
def checkThat (ok : Bool) (c : FaultCode) : Except Halt Unit := if ok then .ok () else failWith c

/-- The tile of a handle that an operation reads, or writes where `dst` (R294, R307, R314). -/
def Gang.opTile (g : Gang) (h : Nat) (dst : Bool) : Except Halt Tile :=
  match tabGet g.handles h with
  | some (.tile t) => .ok t
  | some (.accord _ _) => .error (.fail (Raised.of (if dst then .accordWrite else .tileHandle) 0))
  | none => .error (.fail (Raised.of .tileHandle 0))

/-- The party that an operation is. -/
def Op.actor (o : Op) (n : Nat) : Actor := .op n o.crew

/-- An operation begins a step on M: late writes may show there by now (R34), and what its unit has done before it comes before it
(R279). -/
def State.beginsOp (s : State) (n : Nat) (o : Op) : State :=
  match o.kind with
  | .unit u _ _ _ _ _ => (s.hear .m).acquire (.unit o.crew u) (o.actor n)
  | _ => s.hear .m

/-- An element of a tile that has been freed meanwhile: unspecified values of its format (R302, log 9). -/
def freeElem (free fmt place : Nat) : FV :=
  match blockOf fmt with
  | some b =>
    (Block.mk (Config.freeNat (free + 40000 + place / 32) % 4096) ((upFrom (32 * (place / 32)) 32).map fun k =>
      Config.freeNat (free + k) % 2 ^ b.bits)).value b (place % 32)
  | none =>
    match Fmt.ofCode fmt with
    | some f => f.toFV (Config.freeNat (free + place) % 2 ^ f.width)
    | none => .absent

/-- X(u, w) of an operand as an operation reads it: the tile by its handle, of the format found at its first step. -/
def State.operand (s : State) (g : Nat) (d : Desc) (fmt base u w : Nat) : FV :=
  match (s.gang g).bind fun gg => gg.tile? d.handle with
  | some t =>
    if t.fmt = fmt then
      let (r, c) := d.cell u w
      t.value r c
    else freeElem s.free fmt (base + 32 * u + w % 32)
  | none => freeElem s.free fmt (base + 32 * u + w % 32)

/-- Whether an element of a tile lies in a word that holds poison (R383). -/
def Tile.cellPoisoned (t : Tile) (r c : Nat) : Bool :=
  decide (r < t.rows) && decide (c < t.cols) &&
    match blockOf t.fmt with
    | some b =>
      let base := t.subOf r c * t.area
      if t.packed then t.poisoned base t.area
      else t.poisoned (base + 3 * (r % 32 / 2)) 3 || t.poisoned (base + scaleBytes 32 + b.bytes * (r % 32)) b.bytes
    | none => t.poisoned (t.elemOff r c) (max 1 (fmtBits t.fmt / 8))

/-- An operand that lies in a poisoned word is consumed (R383). -/
def State.operandSound (s : State) (g : Nat) (d : Desc) (us ws : List Nat) : Except Halt Unit :=
  match (s.gang g).bind fun gg => gg.tile? d.handle with
  | some t => if !t.bad.isEmpty && us.any fun u => ws.any fun w => t.cellPoisoned (d.cell u w).1 (d.cell u w).2 then .error .poison else .ok ()
  | none => .ok ()

/-- So is an accumulator that is read. -/
def Acc.sound (a : Acc) : Except Halt Unit := if a.bad.isEmpty then .ok () else .error .poison

/-- The 64 rows of A for a K step. -/
def State.rowsOf (s : State) (g : Nat) (d : Desc) (fmt k : Nat) : List (List FV) :=
  (List.range 64).map fun i => (upFrom (32 * k) 32).map fun w => s.operand g d fmt 0 i w

/-- The 64 columns of B for a K step; the free places of B lie past those of A. -/
def State.colsOf (s : State) (g : Nat) (d : Desc) (fmt k : Nat) : List (List FV) :=
  (List.range 64).map fun j => (upFrom (32 * k) 32).map fun u =>
    match (s.gang g).bind fun gg => gg.tile? d.handle with
    | some t =>
      if t.fmt = fmt then
        let (r, c) := d.cell u j
        t.value r c
      else freeElem s.free fmt (4096 + 32 * j + u % 32)
    | none => freeElem s.free fmt (4096 + 32 * j + u % 32)

/-- Change an accumulator of a crew. -/
def State.modAcc (s : State) (k : CrewKey) (u acc : Nat) (f : Acc → Acc) : State :=
  s.modCrew k fun c => { c with accs := tabSet c.accs (u, acc) (f (c.accAt u acc)) }

/-- The unit of work of an operation of a crew in a pair: PROJ, or a chunk of a copy (R393). -/
def unitKey (o : Op) (chunk : Nat) : List Nat := [1, o.crew.crew, o.token, chunk]

/-- What a pair compares of work that failed: the fault stands in for the CRC, and there is no chunk to deliver (R396). -/
def failUnit (o : Op) (chunk : Nat) (f : Raised) : PairUnit :=
  { key := unitKey o chunk, op := none, crew := o.crew.crew, sig := BitVec.ofNat 64 f.code.num, writes := [], bad := [], chunk := none }

/-- Leave a unit of work for comparison, where the gang is one of a pair. -/
def State.addUnit (s : State) (g : Nat) (u : PairUnit) : State :=
  s.modGang g fun gg => { gg with pair := gg.pair.map fun p => { p with units := p.units ++ [u] } }

/-- Whether an operation is a unit of work that a pair compares whole. -/
def OpKind.isUnit : OpKind → Bool
  | .unit _ (.proj _ _) _ _ _ _ => true
  | .pcopy _ _ _ _ => true
  | _ => false

/-- How an operation's step ends: it waits, it fails by R26, it consumes poison (R383), or the state goes on. -/
def State.endStep (s : State) (n : Nat) (o : Op) (r : Except Halt State) : State :=
  match r with
  | .ok t => t
  | .error .away => s
  | .error (.fail f) => (if o.kind.isUnit then s.addUnit o.crew.gang (failUnit o 0 f) else s).faultToken n f
  | .error .poison => s.uncorrectable o.crew.gang

/-! ### K steps (R298, R299, R317) -/

/-- What a word checks before its first step, and the formats of its operands (R307, R324). -/
def stepChecks (gg : Gang) (cr : Crew) (u : Nat) : UnitWord → Except Halt (List Nat)
  | .mma acc _ _ a b => do
    let ta ← gg.opTile (Desc.of a).handle false
    let tb ← gg.opTile (Desc.of b).handle false
    checkThat (!(Desc.of a).bad ta false) .tileShape
    checkThat (!(Desc.of b).bad tb true) .tileShape
    checkThat (sumMode ta.fmt tb.fmt (cr.accAt u acc).i32).isSome .tileShape
    return [ta.fmt, tb.fmt]
  | .mmc acc _ fmt _ b => do
    let tb ← gg.opTile (Desc.of b).handle false
    checkThat (!(Desc.of b).bad tb true) .tileShape
    checkThat (sumMode fmt tb.fmt (cr.accAt u acc).i32).isSome .tileShape
    return [fmt, tb.fmt]
  | .mmw acc h _ a => do
    let ta ← gg.opTile (Desc.of a).handle false
    checkThat (!(Desc.of a).bad ta false) .tileShape
    checkThat (intFmt ta.fmt || ta.fmt == 14) .tileShape
    match tabGet gg.handles h with
    | some (.accord _ bs) =>
      checkThat (!(cr.accAt u acc).i32) .tileShape
      return [ta.fmt, hdrKa (ofBytes (bs.take 64))]
    | _ => .error (.fail (Raised.of .tileHandle 0))
  | _ => .ok []

/-- The fills of K steps `k` to `k + n - 1`, A before B (R288). -/
def State.stepFills (s : State) (p : Actor) (g : Nat) (w : UnitWord) (k n : Nat) : Except Halt State := do
  let ks := upFrom (32 * k) (32 * n)
  let all := List.range 64
  match w with
  | .mma _ _ _ a b =>
    let s ← s.fillHandle p g (Desc.of a).handle ((Desc.of a).subs all ks)
    s.fillHandle p g (Desc.of b).handle ((Desc.of b).subs ks all)
  | .mmc _ _ _ _ b => s.fillHandle p g (Desc.of b).handle ((Desc.of b).subs ks all)
  | .mmw _ _ _ a => s.fillHandle p g (Desc.of a).handle ((Desc.of a).subs all ks)
  | _ => .ok s

/-- What K step `k` reads holds no poison (R383). -/
def State.stepSound (s : State) (g : Nat) (cr : Crew) (u : Nat) (w : UnitWord) (k : Nat) : Except Halt Unit := do
  let ks := upFrom (32 * k) 32
  let all := List.range 64
  match w with
  | .mma acc _ _ a b =>
    s.operandSound g (Desc.of a) all ks
    s.operandSound g (Desc.of b) ks all
    (cr.accAt u acc).sound
  | .mmc acc src _ _ b =>
    s.operandSound g (Desc.of b) ks all
    (cr.accAt u src).sound
    (cr.accAt u acc).sound
  | .mmw _ _ _ a => s.operandSound g (Desc.of a) all ks
  | _ => .ok ()

/-- The Accord of a handle as bytes; a freed one reads as free bytes (R302, log 9). -/
def State.accordByte (s : State) (gg : Gang) (h k : Nat) : Byte :=
  match tabGet gg.handles h with
  | some (.accord _ bs) => bs.getD k 0
  | _ => Config.freeByte s.free k

/-- The header of an operation's Accord. -/
def State.accordHdr (s : State) (gg : Gang) (h : Nat) : Nat := ofBytes ((List.range 64).map (s.accordByte gg h))

/-- One K step of an operation that has been checked and filled: its effect on accumulators, and on P of MMW. -/
def State.kCompute (s : State) (n : Nat) (o : Op) (gg : Gang) (cr : Crew) (u : Nat) (w : UnitWord) (k : Nat)
    (temp : List (Nat × AccElem)) (counts : List (Nat × Nat)) (fmts : List Nat) : State :=
  let g := o.crew.gang
  let fa := fmts.getD 0 0
  let fb := fmts.getD 1 0
  let v := s.on .m (o.actor n)
  let next (s : State) (temp : List (Nat × AccElem)) (counts : List (Nat × Nat)) : State :=
    (s.setOp n { o with kind := .unit u w (k + 1) temp counts fmts }).spend
  match w with
  | .mma acc _ strict a b =>
    let m := (sumMode fa fb (cr.accAt u acc).i32).getD .int
    let as := v.rowsOf g (Desc.of a) fa k
    let bs := v.colsOf g (Desc.of b) fb k
    next (s.modAcc o.crew u acc fun x => { x with elems := matrixStep strict m as bs x.elems }) temp counts
  | .mmc acc src fmt strict b =>
    let m := (sumMode fa fb (cr.accAt u acc).i32).getD .int
    let as := (List.range 64).map fun i => (cr.accAt u src).down fmt i k
    let bs := v.colsOf g (Desc.of b) fb k
    next (s.modAcc o.crew u acc fun x => { x with elems := matrixStep strict m as bs x.elems }) temp counts
  | .mmw _ h strict a =>
    let xs := v.rowsOf g (Desc.of a) fa k
    let hd := s.accordHdr gg h
    let cols := (basis (hdrSeed hd) (hdrKa hd) (hdrM hd)).map fun c => (c.drop (32 * k)).take 32
    next s (mmwStep strict (if fa = 14 then .win else .int) xs cols temp) (mmwCounts xs counts)
  | _ => s

/-- Whether a word runs in K steps. -/
def UnitWord.stepped : UnitWord → Bool
  | .mma _ _ _ _ _ => true
  | .mmc _ _ _ _ _ => true
  | .mmw _ _ _ _ => true
  | _ => false

/-- K steps in all: of MMW, the K that its checks found. -/
def UnitWord.steps (w : UnitWord) (fmts : List Nat) : Nat :=
  match w with
  | .mma _ steps _ _ _ => steps
  | .mmc _ _ _ _ _ => 2
  | .mmw _ _ _ _ => fmts.getD 1 0 / 32
  | _ => 0

/-- One K step: the checks and every fill before the first, then the group (R288, R298, R306). -/
def State.kStep (s : State) (n : Nat) (o : Op) (gg : Gang) (cr : Crew) : Except Halt State :=
  match o.kind with
  | .unit u w k temp counts fmts =>
    if !w.stepped then .ok s
    else do
      let fmts ← if k = 0 then stepChecks gg cr u w else pure fmts
      if k ≥ w.steps fmts then return s
      let t ← s.stepFills (o.actor n) o.crew.gang w k (if k = 0 then w.steps fmts else 1)
      (t.on .m (o.actor n)).stepSound o.crew.gang cr u w k
      return t.kCompute n o ((t.gang o.crew.gang).getD gg) cr u w k temp counts fmts
  | _ => .ok s

/-- MATRIX_K_STEP: of a running gang only, for a save stops an operation between its K steps (R306). -/
def execMatrixKStep (op : Nat) (s : State) : Host.Outcome State Fault Refusal :=
  match tabGet s.ops op with
  | none => .next s
  | some o =>
    match s.gang o.crew.gang, s.crew o.crew with
    | some gg, some cr => if gg.state = .running ∧ s.opReady op o then .next (s.endStep op o ((s.beginsOp op o).kStep op o gg cr)) else .next s
    | _, _ => .next s

/-! ### MLOAD, MDRAIN (R296, R300) -/

/-- Formats of MLOAD and MDRAIN. -/
def moveFmt (c : Nat) : Bool := c == 12 || c == 2 || c == 14 || c == 13 || c == 0 || c == 20 || c == 21

/-- A loaded element (R296). -/
def loadElem (i32 : Bool) (v : FV) : AccElem :=
  if v.isAbsent then .absent
  else if i32 then
    let c := (fvToInt .signed 32 .rne v).1
    if isAbsentCode .signed 32 c then .absent else .present (BitVec.ofNat 32 c) 0
  else .present (BitVec.ofNat 32 (FFmt.f32.narrow .rne v).1) 0

def State.mload (s : State) (p : Actor) (k : CrewKey) (u acc : Nat) (i32 : Bool) (a : DWord) (gg : Gang) : Except Halt State := do
  let d := Desc.of a
  let t ← gg.opTile d.handle false
  checkThat (!d.bad t false) .tileShape
  checkThat (moveFmt t.fmt) .tileShape
  let s ← s.fillHandle p k.gang d.handle (d.subs (List.range 64) (List.range 64))
  let v := s.on .m p
  v.operandSound k.gang d (List.range 64) (List.range 64)
  let fmt := t.fmt
  let es := (List.range 4096).map fun n => (n, loadElem i32 (v.operand k.gang d fmt 0 (n / 64) (n % 64)))
  return s.modAcc k u acc fun _ => { i32, elems := es, bad := [] }

/-- The code of a drained element (R300). -/
def drainCode (fmt : Nat) (v : FV) : Nat :=
  match Fmt.ofCode fmt with
  | some f => fvTo f v
  | none => 0

/-- The bytes of a sub-block from its rows of values (R283, R300). -/
def Tile.subBytes (t : Tile) (rows : List (List FV)) : List Byte :=
  match blockOf t.fmt with
  | some b =>
    let blks := rows.map fun r => quantise b (r.map viaF32)
    if t.packed then packedBytes b blks else plainBytes b blks
  | none => rows.flatMap fun r => r.flatMap fun v => toBytes (fmtBits t.fmt / 8) (drainCode t.fmt v)

/-- A whole sub-block written: filled, dirty where bound, its flags recomputed (R285, R288). -/
def Tile.putSub (t : Tile) (i : Nat) (bs : List Byte) : Tile :=
  let t := t.wr (i * t.area) bs
  (t.setSub i { t.sub i with filled := true }).recompute i

/-- The ranges of a tile that a drain writes (R292, R300). -/
def Tile.drainRanges (t : Tile) (d : Desc) : List (Nat × Nat) :=
  (d.subs [0, 32] [0, 32] t).map fun i => (i * t.area, t.area)

/-- A drain of 64 × 64 values into a tile: sub-blocks outside the tile are not written (R292, R300). -/
def Tile.drain (t : Tile) (d : Desc) (x : Nat → Nat → FV) : Tile :=
  [(0, 0), (0, 1), (1, 0), (1, 1)].foldl (fun t b =>
    let r0 := d.row0 + 32 * b.1
    let c0 := d.col0 + 32 * b.2
    if r0 < t.rows ∧ c0 < t.cols then
      t.putSub (t.subOf r0 c0) (t.subBytes ((List.range 32).map fun r => (List.range 32).map fun c =>
        if d.tr then x (32 * b.2 + c) (32 * b.1 + r) else x (32 * b.1 + r) (32 * b.2 + c)))
    else t) t

/-- The value of a count plane (R122, R300). -/
def Acc.countValue (a : Acc) (n : Nat) : FV :=
  match tabGet a.elems n with
  | some (.present _ c) => .num false c 0
  | _ => .absent

def State.mdrain (s : State) (p : Actor) (k : CrewKey) (x : Acc) (a : DWord) (b : Option DWord) (gg : Gang) : Except Halt State := do
  let d := Desc.of a
  let t ← gg.opTile d.handle true
  match b with
  | none =>
    checkThat (!d.badDrain) .tileShape
    checkThat (moveFmt t.fmt) .tileShape
    x.sound
    return s.putTile .m p k.gang d.handle (t.drainRanges d) fun t => t.drain d fun i j => x.value (64 * i + j)
  | some b =>
    let e := Desc.of b
    let tn ← gg.opTile e.handle true
    checkThat (!d.badDrain) .tileShape
    checkThat (!e.badDrain) .tileShape
    checkThat (moveFmt t.fmt && tn.fmt == 4) .tileShape
    x.sound
    let s := s.putTile .m p k.gang d.handle (t.drainRanges d) fun t => t.drain d fun i j => x.value (64 * i + j)
    return s.putTile .m p k.gang e.handle (tn.drainRanges e) fun t => t.drain e fun i j => x.countValue (64 * i + j)

/-! ### Reaching memory -/

/-- An access of an operation to a virtual range, in address order: what fails first, or the physical pieces. -/
def State.opPieces (s : State) (acc : AccKind) (va n : Nat) : Except Halt (List (Nat × Nat)) :=
  match s.pieces acc (n + 1) va n with
  | .ok ps => .ok ps
  | .error (.away _) => .error .away
  | .error _ => .error (.fail (Raised.at .elementAccess (s.badAt acc va n)))

/-- Bytes that an operation reads on path M. -/
def State.opRead (s : State) (va n : Nat) : Except Halt (List Byte) := do
  let ps ← s.opPieces .read va n
  if ps.any fun p => s.poisoned p.1 p.2 then .error .poison else return s.rdPieces ps

/-- Bytes cut to the lengths of pieces. -/
def cutTo : List (Nat × Nat) → List Byte → List (Nat × List Byte)
  | [], _ => []
  | (pa, n) :: ps, bs => (pa, bs.take n) :: cutTo ps (bs.drop n)

/-! ### SEEK and PROJ (R320 to R322) -/

/-- The checks of T (R320, R324). -/
def Gang.targetTile (g : Gang) (d : Desc) : Except Halt Unit := do
  let t ← g.opTile d.handle false
  checkThat (!d.reserved) .tileShape
  checkThat (t.fmt == 14) .tileShape

/-- The columns of T. -/
def State.target (s : State) (g : Nat) (d : Desc) (ka : Nat) : List (List FV) :=
  (List.range 64).map fun c => (List.range ka).map fun k => targetElem (s.operand g d 14 0 k c)

def State.seekOp (s : State) (p : Actor) (k : CrewKey) (ka m n : Nat) (a seed : DWord) (gg : Gang) : Except Halt (State × DWord) := do
  let d := Desc.of a
  gg.targetTile d
  let s ← s.fillHandle p k.gang d.handle (d.subs (List.range ka) (List.range 64))
  let v := s.on .m p
  v.operandSound k.gang d (List.range ka) (List.range 64)
  return (s, seekToken ka m n seed (v.target k.gang d ka))

/-- PROJ up to its writes: the record's checks, then T's, then the projection (R322, R324). -/
def State.projOp (s : State) (p : Actor) (k : CrewKey) (a addr : DWord) (gg : Gang) : Except Halt (State × List (Nat × List Byte) × List Byte) := do
  let d := Desc.of a
  let at_ := addr.toNat
  if at_ % 64 ≠ 0 then .error (.fail (Raised.at .misaligned at_))
  let hb ← (s.seenOn .m p gg).opRead at_ 64
  let _ ← s.opPieces .write at_ 64
  let h := ofBytes hb
  checkThat (!hdrBad h) .accordRecord
  let _ ← s.opPieces .read (at_ + 64) (coefBytes h)
  let ps ← s.opPieces .write (at_ + 64) (coefBytes h)
  gg.targetTile d
  let s ← s.fillHandle p k.gang d.handle (d.subs (List.range (hdrKa h)) (List.range 64))
  let v := s.on .m p
  v.operandSound k.gang d (List.range (hdrKa h)) (List.range 64)
  let bs := projBytes h (v.target k.gang d (hdrKa h))
  return (s.noteRange gg at_ (64 + coefBytes h), cutTo ps bs, bs)

/-! ### Tile management (R301 to R305, R313) -/

/-- Space that a gang's tiles and Accords of a level use (R301, R313). -/
def Gang.usedSpace (g : Gang) (slice : Bool) : Nat :=
  g.handles.foldl (fun n e => n + match e.2 with
    | .tile t => if t.slice = slice then t.size else 0
    | .accord l bs => if l = slice then roundUp bs.length 1024 else 0) 0

/-- Whether a level's reserve holds `n` more bytes. -/
def Gang.hasRoom (g : Gang) (slice : Bool) (n : Nat) : Bool :=
  decide (g.usedSpace slice + n ≤ if slice then g.resSlice else g.resCluster)

/-- Dry down the dirty sub-blocks of a tile for an operation: performed at once, or in a pair left for comparison (R289, R393).
Answers whether nothing is left to write. -/
def State.dryFor (s : State) (g n crew h : Nat) (t : Tile) : Except Halt (State × Bool) :=
  match t.dirtySubs with
  | [] => .ok (s, true)
  | d :: ds => do
    let subs := d :: ds
    let base := t.bound.getD 0
    let ws ← subs.mapM fun i => do
      let ps ← s.opPieces .write (base + i * t.area) (t.used i)
      return (i, cutTo ps (memReads t.data (i * t.area) (t.used i)))
    let s := (subs.foldl (fun s i => (s.gang g).elim s fun gg => s.noteRange gg (base + i * t.area) t.area) s).modTile g h fun t => t.clean subs
    match (s.gang g).bind Gang.pair with
    | none => return (s.dryDown (.op n { gang := g, crew }) t subs (ws.flatMap Prod.snd), true)
    | some _ =>
      let us := ws.map fun w => s.dryUnit (some n) crew t w.1 w.2
      let s := s.modGang g fun gg => { gg with pair := gg.pair.map fun p => { p with units := p.units ++ us } }
      return ({ s with ops := tabMod s.ops n fun o => { o with units := o.units + us.length } }, false)

/-- Whether every page of a virtual range is mapped and allows reads and writes, resident or not (R303). -/
def State.mappedRw (s : State) : Nat → Nat → Nat → Except Nat Unit
  | 0, _, _ => .ok ()
  | fuel + 1, va, n =>
    if n = 0 then .ok ()
    else if va ≥ 2 ^ 57 then .error va
    else
      match pageAt s.pages va with
      | some p => if p.r && p.w then s.mappedRw fuel (va + (p.base + p.size - va)) (n - (p.base + p.size - va)) else .error va
      | none => .error va

/-- A tile as TBIND leaves it: nothing filled (R303). -/
def Tile.bindTo (t : Tile) (base : Nat) : Tile :=
  { t with bound := some base, data := [],
           subs := (List.range t.subCount).map fun i => (i, { zero := none, absent := none, filled := false, dirty := false }) }

/-- A tile that TBIND unbinds: the contents stay; those of sub-blocks that were not filled are free bytes (R303, log 9). -/
def Tile.unbind (t : Tile) (free : Nat) : Tile :=
  let subs := (tabKeys t.subs).filter fun i => !(t.sub i).filled
  let data := subs.foldl (fun m i => memWrites m (i * t.area) ((List.range t.area).map fun k => Config.freeByte free (i * t.area + k))) t.data
  { t with bound := none, data,
           subs := t.subs.map fun e => (e.1, if e.2.filled then { e.2 with dirty := false }
             else { zero := none, absent := none, filled := true, dirty := false }) }

/-- The token of TSTAT (R305). -/
def Tile.statToken (t : Tile) (i : Nat) : DWord :=
  let ks := t.subKinds i
  let n (k : ElemKind) : Nat := (ks.filter (· == k)).length
  BitVec.ofNat 64 (n .nonzero + 2 ^ 16 * n .zero + 2 ^ 32 * n .absent)

/-- A handle comes to name something, or nothing: a write on M (R328). -/
def State.putHandle (s : State) (p : Actor) (g h : Nat) (x : Option Handle) : State :=
  let old := (s.gang g).bind fun gg => tabGet gg.handles h
  (s.modGang g fun gg => { gg with handles := setHandle gg.handles h x }).noteHandle p g h old

/-- A tile whose storage every path finds as it now is. -/
def State.resetTile (s : State) (g h : Nat) (f : Tile → Tile) (size : Nat) : State :=
  { (s.modTile g h f) with late := s.late.map (Late.underTile g h 0 size) }

def State.tallocOp (s : State) (p : Actor) (g h fmt : Nat) (slice packed : Bool) (rows cols : DWord) (gg : Gang) : Except Halt (State × DWord) := do
  checkThat (tabGet gg.handles h).isNone .tileHandle
  checkThat (shapeOk rows.toNat && shapeOk cols.toNat && isTileFmt fmt && !(packed && (blockOf fmt).isNone)) .tileShape
  let t := Tile.alloc rows.toNat cols.toNat fmt slice packed
  if gg.hasRoom slice t.size then return (s.putHandle p g h (some (.tile t)), 0)
  else return (s, BitVec.allOnes 64)

/-- TBIND's checks and binding; `base` 0 unbinds (R303, R307). -/
def State.tbindOp (s : State) (g n crew h : Nat) (addr : DWord) (gg : Gang) : Except Halt (State × Option DWord) := do
  let t ← gg.opTile h true
  let base := addr.toNat
  if base % 64 ≠ 0 then .error (.fail (Raised.at .misaligned base))
  if base ≠ 0 then
    match s.mappedRw (t.size + 1) base t.size with
    | .error a => .error (.fail (Raised.at .elementAccess a))
    | .ok _ => pure ()
  let (s, done) ← s.dryFor g n crew h t
  if !done then return (s, none)
  else if base ≠ 0 then return (s.resetTile g h (fun t => t.bindTo base) t.size, some 0)
  else if t.bound.isSome then return ((s.modTile g h fun t => t.unbind s.free).spend, some 0)
  else return (s, some 0)

def State.tstatOp (s : State) (p : Actor) (g h : Nat) (x : DWord) (gg : Gang) : Except Halt (State × DWord) := do
  let t ← gg.opTile h false
  let rb := fieldNat x.toNat 0 16
  let cb := fieldNat x.toNat 16 16
  checkThat (fieldNat x.toNat 32 32 == 0 && decide (32 * rb < t.rows) && decide (32 * cb < t.cols)) .tileShape
  let i := rb * (t.cols / 32) + cb
  let s ← s.fillHandle p g h fun _ => [i]
  let t := ((s.gangOn .m p g gg).tile? h).getD t
  if t.poisoned (i * t.area) (t.used i) then .error .poison
  return (s.modTile g h fun t => t.recompute i, t.statToken i)

/-- ABIND in the order of R313. -/
def State.abindOp (s : State) (p : Actor) (g h : Nat) (slice : Bool) (addr : DWord) (gg : Gang) : Except Halt (State × DWord) := do
  let at_ := addr.toNat
  if at_ % 64 ≠ 0 then .error (.fail (Raised.at .misaligned at_))
  let v := s.seenOn .m p gg
  let hb ← v.opRead at_ 64
  let hd := ofBytes hb
  checkThat (!hdrBad hd) .accordRecord
  let cb ← v.opRead (at_ + 64) (coefBytes hd)
  let bs := hb ++ cb
  checkThat (!coefAbsent hd fun k => bs.getD k 0) .accordRecord
  match tabGet gg.handles h with
  | some (.accord _ _) => .error (.fail (Raised.of .accordWrite 0))
  | some (.tile _) => .error (.fail (Raised.of .tileHandle 0))
  | none =>
    if gg.hasRoom slice (roundUp bs.length 1024) then
      return ((s.noteRange gg at_ bs.length).putHandle p g h (some (.accord slice bs)), 0)
    else return (s, BitVec.allOnes 64)

/-- A tile-management word: its effect and its token, none while a pair compares its drydown. -/
def State.tileOp (s : State) (n : Nat) (k : CrewKey) (w : TileWord) (gg : Gang) : Except Halt (State × Option DWord) :=
  let g := k.gang
  let p : Actor := .op n k
  let whole (r : Except Halt (State × DWord)) : Except Halt (State × Option DWord) := r.map fun x => (x.1, some x.2)
  match w with
  | .talloc h fmt slice packed rows cols => whole (s.tallocOp p g h fmt slice packed rows cols gg)
  | .tstat h x => whole (s.tstatOp p g h x gg)
  | .abind h slice addr => whole (s.abindOp p g h slice addr gg)
  | .tbind h addr => s.tbindOp g n k.crew h addr gg
  | .tfree h =>
    match tabGet gg.handles h with
    | none => .error (.fail (Raised.of .tileHandle 0))
    | some (.accord _ _) => .ok (s.putHandle p g h none, some 0)
    | some (.tile t) => do
      let (s, done) ← s.dryFor g n k.crew h t
      if done then return (s.putHandle p g h none, some 0) else return (s, none)
  | .tdry h =>
    match tabGet gg.handles h with
    | none => .error (.fail (Raised.of .tileHandle 0))
    | some (.accord _ _) => .ok (s, some 0)
    | some (.tile t) => do
      let (s, done) ← s.dryFor g n k.crew h t
      return (s, if done then some 0 else none)

/-! ### Completion -/

/-- The unit of a PROJ in a pair (R393). -/
def projUnit (n : Nat) (o : Op) (ws : List (Nat × List Byte)) (bs : List Byte) : PairUnit :=
  { key := unitKey o 0, op := some n, crew := o.crew.crew, sig := crc64 bs, writes := ws, bad := [], chunk := some 0 }

/-- What completes a unit word: its effect and its token, none while it is not done. -/
def State.unitEnd (s : State) (n : Nat) (o : Op) (gg : Gang) (cr : Crew) (u : Nat) (w : UnitWord) (k : Nat)
    (temp : List (Nat × AccElem)) (counts : List (Nat × Nat)) (fmts : List Nat) : Except Halt (State × Option DWord) :=
  match w with
  | .mzero acc i32 => .ok (s.modAcc o.crew u acc fun _ => Acc.empty i32, some 0)
  | .mma _ _ _ _ _ => .ok (s, if 0 < k ∧ k ≥ w.steps fmts then some 0 else none)
  | .mmc _ _ _ _ _ => .ok (s, if 0 < k ∧ k ≥ w.steps fmts then some 0 else none)
  | .mmw acc h _ _ =>
    if 0 < k ∧ k ≥ w.steps fmts then do
      (cr.accAt u acc).sound
      let f := mmwFinish (s.accordHdr gg h) (s.accordByte gg h) temp counts
      return ((s.modAcc o.crew u acc fun x => { x with elems := f x.elems }).spend, some 0)
    else .ok (s, none)
  | .mdrain acc a b => (s.mdrain (o.actor n) o.crew (cr.accAt u acc) a b gg).map fun t => (t, some 0)
  | .mload acc i32 a => (s.mload (o.actor n) o.crew u acc i32 a gg).map fun t => (t, some 0)
  | .seek ka mc cnt a seed => (s.seekOp (o.actor n) o.crew (32 * 2 ^ ka) (2 * 2 ^ mc) (cnt + 1) a seed gg).map fun t => (t.1, some t.2)
  | .proj a addr =>
    if k = 1 then .ok (s, some 0)
    else do
      let (t, ws, bs) ← s.projOp (o.actor n) o.crew a addr gg
      if gg.pair.isNone then return (t.wrAllBy .m (o.actor n) ws, some 0)
      else
        let t := t.setOp n { o with kind := .unit u w 1 temp counts fmts, units := 1 }
        return (t.addUnit o.crew.gang (projUnit n o ws bs), none)

/-- What completes an operation. -/
def State.opEnd (s : State) (n : Nat) (o : Op) (gg : Gang) (cr : Crew) : Except Halt (State × Option DWord) :=
  match o.kind with
  | .unit u w k temp counts fmts => s.unitEnd n o gg cr u w k temp counts fmts
  | .tile w => s.tileOp n o.crew w gg
  | _ => .ok (s, none)

/-- MATRIX_OP_COMPLETE: the rest of an operation, then its token (R23, R295). It waits for the comparisons of R393. -/
def execMatrixOpComplete (op : Nat) (s : State) : Host.Outcome State Fault Refusal :=
  match tabGet s.ops op with
  | none => .next s
  | some o =>
    match s.gang o.crew.gang, s.crew o.crew with
    | some gg, some cr =>
      if (gg.state = .running ∨ gg.state = .saving) ∧ s.opReady op o ∧ o.units = 0 then
        .next (s.endStep op o (((s.beginsOp op o).opEnd op o gg cr).map fun r => match r.2 with
          | some v => r.1.writeToken op v
          | none => r.1))
      else .next s
    | _, _ => .next s

end Sys2Proof.Machine
end

