-- ==== Sys2Proof/Machine/WaveEvents.lean ====
section
/-!
DEFINITION. Steps that no context issues, on the side of the waves and lead contexts: results that return, the register cache,
waits that end, residency, and the fill and eviction of tile sub-blocks. A step that is not due leaves the machine as it is
(log 6).
-/

namespace Sys2Proof.Machine

/-! ### Results (R55 to R57, R230, R243, R263) -/

/-- Whether a page that TOUCH waits for is resident or no longer mapped (R243). -/
def State.touchDone (s : State) (va : Nat) : Bool :=
  match s.touchAt va with
  | .away _ => false
  | _ => true

/-- Splits that wait for registers look again (R55, R177). -/
def wakeRegs (p : Split) : Split :=
  match p.wait with
  | .regs _ => { p with wait := .none }
  | _ => p

def Wave.wakeRegs (w : Wave) : Wave := { w with slot0 := w.slot0.map Machine.wakeRegs, slot1 := w.slot1.map Machine.wakeRegs }

/-- Return result `n` of a wave, where its category allows this step. -/
def State.returnWave (s : State) (k : WaveKey) (n : Nat) (ok : Pending → Bool) : State :=
  match s.wave k with
  | none => s
  | some w =>
    match w.outstanding[n]? with
    | none => s
    | some p =>
      if ok p && p.needs.all s.touchDone then (s.setWave k ((w.return n).unpark.wakeRegs)).endWave k else s

/-- RESULT_RETURN: a result that neither the collector nor the transform pipe returns (R56). -/
def execResultReturn (c : Ctx) (n : Nat) (s : State) : Host.Outcome State Fault Refusal :=
  match c with
  | .none => .next s
  | .lead k => .next (s.modLead k fun l => l.return n)
  | .split k _ => .next (s.returnWave k n fun p => p.entries == 0 && p.cat != .pipe)

/-- XF_REPLY: the transform pipe's reply (R230). -/
def execXfReply (k : WaveKey) (s : State) : Host.Outcome State Fault Refusal :=
  match s.wave k with
  | none => .next s
  | some w => .next (s.returnWave k (w.outstanding.findIdx fun p => p.cat == .pipe) fun p => p.cat == .pipe)

/-- MEMORY_REPLY: the replies of a word's collector entries (R263). -/
def execMemoryReply (k : WaveKey) (n : Nat) (s : State) : Host.Outcome State Fault Refusal :=
  .next (s.returnWave k n fun p => p.entries != 0)

/-! ### The register cache (R177) -/

/-- Lines of one bank of a partition's register cache. -/
def bankLines : Nat := 256

/-- Whether two waves share a partition (R13, R177). -/
def State.samePartition (s : State) (j k : WaveKey) : Bool :=
  match s.crew (crewOf j), s.crew (crewOf k) with
  | some a, some b => a.place.core == b.place.core && j.wave % 4 == k.wave % 4
  | _, _ => false

/-- The lines of the bank of register `r` in the partition of a wave. -/
def State.bankOf (s : State) (k : WaveKey) (r : Nat) : List (WaveKey × Nat) :=
  (s.waves.filter fun e => s.samePartition e.1 k).flatMap fun e =>
    ((List.range 128).filter fun q => q % 4 == r % 4 && e.2.cached.getLsbD q).map fun q => (e.1, q)

/-- How many lines have been used since a line last was (R177). -/
def State.unusedFor (s : State) (l : WaveKey × Nat) : Nat := s.recent.findIdx (· == l)

/-- Whether a line is the one to be replaced: a dead one of its bank where there is one, else the least recently used (R177). -/
def State.isVictim (s : State) (bank : List (WaveKey × Nat)) (dead : WaveKey × Nat → Bool) (l : WaveKey × Nat) : Bool :=
  bank.contains l && (dead l || (!bank.any dead && bank.all fun m => decide (s.unusedFor m ≤ s.unusedFor l)))

/-- Whether a line holds a dead register. -/
def State.lineDead (s : State) (l : WaveKey × Nat) : Bool :=
  match s.wave l.1 with
  | some w => w.dead.getLsbD l.2
  | none => true

/-- Replace a line: a dirty one is written to the frame with its poison, a dead one never (R177, R383). -/
def State.evictLine (s : State) (l : WaveKey × Nat) : State :=
  match s.wave l.1, s.crew (crewOf l.1) with
  | some w, some c =>
    let bit : BitVec 128 := BitVec.ofNat 128 (2 ^ l.2)
    let s := if w.dirty.getLsbD l.2 && !w.dead.getLsbD l.2 then
        match w.v.toList[l.2]? with
        | some v => (s.wr (frameAt c l.1 + 128 * l.2) (lineBytes v)).addPoison (w.poisonedAt c l.1 [l.2])
        | none => s
      else s
    { s.setWave l.1 { w with cached := w.cached &&& ~~~bit, dirty := w.dirty &&& ~~~bit, bad := w.bad.filter fun e => e.1 != l.2 } with
      recent := s.recent.filter (· != l) }
  | _, _ => s

/-- The words of a register whose line in the frame holds poison: the fill brings it with the data (R383). -/
def State.framePoison (s : State) (k : WaveKey) (r : Nat) : List (Nat × Nat) :=
  match s.crew (crewOf k) with
  | some c => ((List.range 16).filter fun p => s.poisoned (frameAt c k + 128 * r + 8 * p) 8).map fun p => (r, p)
  | none => []

/-- REGCACHE_FILL: a missed line is filled from the frame, over a victim of its bank where the bank is full (R177). -/
def execRegcacheFill (k : WaveKey) (r : Nat) (victim : Option (WaveKey × Nat)) (s : State) : Host.Outcome State Fault Refusal :=
  match s.wave k with
  | none => .next s
  | some w =>
    if r ≥ 128 ∨ w.cached.getLsbD r ∨ !s.gangLive k.gang then .next s
    else
      let bank := s.bankOf k r
      let fill (s : State) : State :=
        (s.modWave k fun w =>
          { w with cached := w.cached ||| BitVec.ofNat 128 (2 ^ r), bad := s.framePoison k r ++ w.bad }.wakeRegs).useLines k [r]
      match victim with
      | none => .next (if bank.length < bankLines then fill s else s)
      | some l => .next (if bankLines ≤ bank.length && s.isVictim bank s.lineDead l then fill (s.evictLine l) else s)

/-! ### Stalls that end -/

/-- Change the wait of the context of a step. -/
def State.setWait (s : State) (k : WaveKey) (i : Fin 2) (w : SplitWait) : State :=
  s.modWave k fun v => v.setSlot i ((v.slot i).map fun p => { p with wait := w })

/-- The split of a step. -/
def State.splitAt (s : State) (k : WaveKey) (i : Fin 2) : Option (Wave × Split) :=
  match s.wave k with
  | some w => (w.slot i).map fun p => (w, p)
  | none => none

/-- COLLECTOR_ROOM: a word that waits at the port tries again once the collector has room (R263). -/
def execCollectorRoom (c : Ctx) (s : State) : Host.Outcome State Fault Refusal :=
  match c with
  | .split k i =>
    match s.splitAt k i, s.crew (crewOf k) with
    | some (_, p), some cr =>
      if p.wait = .collector ∧ s.entriesOn cr.place.core < collectorSize then .next (s.setWait k i .none) else .next s
    | _, _ => .next s
  | _ => .next s

/-- Whether a queue no longer holds a wave back (R18, R22, R144). -/
def State.queueFree (s : State) (k : CrewKey) (c : Crew) (w : Wave) : SplitWait → Bool
  | .queue q => if h : q < 4 then decide (w.popped[q] < c.dq[q].retired + c.dq[q].entries.length) || s.leadExited k else false
  | .post => s.leadExited k || (decide (c.rq.length < queueSize) && c.rqDue.isEmpty)
  | _ => false

/-- The same for a lead context (R18, R20, R22). -/
def State.queueFreeLead (s : State) (k : CrewKey) (c : Crew) : LeadWait → Bool
  | .dqFull q => decide (c.dqLength q < queueSize) || (s.liveWaves k).isEmpty
  | .rqEmpty => !c.rq.isEmpty
  | _ => false

/-- QUEUE_STALL_RELEASE (R18, R22). -/
def execQueueStallRelease (c : Ctx) (s : State) : Host.Outcome State Fault Refusal :=
  match c with
  | .none => .next s
  | .split k i =>
    match s.splitAt k i, s.crew (crewOf k) with
    | some (w, p), some cr => .next (if s.queueFree (crewOf k) cr w p.wait then s.setWait k i .none else s)
    | _, _ => .next s
  | .lead k =>
    match s.lead k, s.crew k with
    | some l, some cr => .next (if s.queueFreeLead k cr l.wait then s.setLead k { l with wait := .none } else s)
    | _, _ => .next s

/-! ### Waits on an address (R41, R145, R256) -/

/-- A context leaves every waiter list. -/
def State.leaveLists (s : State) (c : Ctx) : State := { s with waiters := s.waiters.filter fun w => w.who != c }

/-- In a pair the leading gang forwards the final read (R394). -/
def State.forwardWait (s : State) (g : Gang) (q : Party) (k : Taker) (fwd : Bool) (ws : List RegWrite) : State :=
  match g.pair with
  | some p => if fwd && p.leading then s.forward p q { lanes := k.lanes, op := k.op, writes := ws, flags := Flags.none, fault := none } else s
  | none => s

/-- End a wave's wait: the final read, then past the word (R256). -/
def State.endWaitWave (s : State) (k : WaveKey) (i : Fin 2) (p : Split) (a : AddrWait) : State :=
  match s.gang k.gang with
  | none => s
  | some g =>
    if a.lanes.any fun l => s.poisoned l.2 (if a.wide then 8 else 4) then s.uncorrectable k.gang
    else
      let q : Party := .wave k.crew k.wave
      let (s, ws) := s.waitaRead (.wave k p.lanes) g a.wide a.d a.scope p.lanes a.lanes
      let t := (s.leaveLists (.split k i)).modWave k fun w =>
        let w := { w.putNow ws with ran := ranWord g q p.pc p.rep p.lanes w.ran }
        let (p, last) := p.step a.words
        (w.setSlot i (some p)).parkIf (a.z && last)
      t.forwardWait g q (s.takerAt g q p.lanes p.pc.toNat) a.fwd ws

/-- End a lead context's wait (R145). -/
def State.endWaitLead (s : State) (k : CrewKey) (l : Lead) (pa : Nat) (wide : Bool) (d scope : Nat) (z fwd : Bool) : State :=
  match s.gang k.gang with
  | none => s
  | some g =>
    let n := if wide then 8 else 4
    if s.poisoned pa n then s.uncorrectable k.gang
    else
      let q : Party := .lead k.crew
      let s := s.hear .l
      let ws : List RegWrite := [.x d (BitVec.ofNat 64 (ofBytes ((s.on .l (.lead k)).rdOwn g pa n)))]
      let t := ((s.acquireAt (.lead k) scope (memSpots pa n)).leaveLists (.lead k)).modLead k fun l =>
        let (l, last) := ({ l with ran := ranWord g q l.pc l.rep 0 l.ran }.putNow ws).step 1
        l.parkIf (z && last)
      t.forwardWait g q (s.takerAt g q 0 l.pc.toNat) fwd ws

/-- Whether a wait is over: a WAKE has selected the waiter, or a write has changed a value that it waits on; it has left the lists. -/
def State.waitOver (s : State) (c : Ctx) : Bool := !s.waiters.any fun w => w.who == c

/-- WAIT_END (R145, R256): by a WAKE or a change of a value, by eviction or a save, or for want of room in the lists. A lead
context's wait ends early only for a save. -/
def execWaitEnd (c : Ctx) (cause : WaitCause) (s : State) : Host.Outcome State Fault Refusal :=
  match c with
  | .none => .next s
  | .split k i =>
    match s.splitAt k i, s.gang k.gang with
    | some (w, p), some g =>
      match p.wait with
      | .waita a =>
        let old := s.vReg w a.wide a.d (2 ^ (if a.wide then 64 else 32) - 1)
        let changed := s.waitOver c || a.lanes.any fun l => ofBytes (s.rdOwn g l.2 (if a.wide then 8 else 4)) != old[l.1]
        .next (if cause != .changed || changed then s.endWaitWave k i p a else s)
      | _ => .next s
    | _, _ => .next s
  | .lead k =>
    match s.lead k, s.gang k.gang with
    | some l, some g =>
      match l.wait with
      | .waita pa wide d _ old scope z fwd =>
        let due : Bool := match cause with
          | .changed => s.waitOver c || ofBytes (s.rdOwn g pa (if wide then 8 else 4)) != old
          | .evicted => g.state == .saving
          | .noRoom => false
        .next (if due then s.endWaitLead k l pa wide d scope z fwd else s)
      | _ => .next s
    | _, _ => .next s

/-- Cycles after which a wait on an address ends (R41). -/
def waitLimit : Nat := 2 ^ 20

/-- WAIT_TIMEOUT (R41). -/
def execWaitTimeout (c : Ctx) (s : State) : Host.Outcome State Fault Refusal :=
  match c with
  | .none => .next s
  | .split k i =>
    match s.splitAt k i with
    | some (_, p) =>
      match p.wait with
      | .waita a => .next (if s.cyclesPassed (s.clusterOf (crewOf k)) a.since waitLimit then s.endWaitWave k i p a else s)
      | _ => .next s
    | none => .next s
  | .lead k =>
    match s.lead k with
    | some l =>
      match l.wait with
      | .waita pa wide d since _ scope z fwd =>
        .next (if s.cyclesPassed (s.clusterOf k) since waitLimit then s.endWaitLead k l pa wide d scope z fwd else s)
      | _ => .next s
    | none => .next s

/-- BWAIT_RESUME: the word looks at its object again (R258, R344). -/
def execBwaitResume (c : Ctx) (s : State) : Host.Outcome State Fault Refusal :=
  match c with
  | .none => .next s
  | .split k i =>
    match s.splitAt k i with
    | some (_, p) => .next (if p.wait = .bwait then s.setWait k i .none else s)
    | none => .next s
  | .lead k =>
    match s.lead k with
    | some l => .next (if l.wait = .bwait then s.setLead k { l with wait := .none } else s)
    | none => .next s

/-! ### Residency (R138, R243) -/

/-- A context that waits for a page looks again. -/
def wakePage (p : Split) : Split :=
  match p.wait with
  | .page _ => { p with wait := .none }
  | _ => p

def wakePageLead (l : Lead) : Lead :=
  match l.wait with
  | .page _ => { l with wait := .none }
  | _ => l

/-- Every context that waits for a page looks again. -/
def State.wakePages (s : State) : State :=
  { s with waves := s.waves.map fun e => (e.1, { e.2 with slot0 := e.2.slot0.map wakePage, slot1 := e.2.slot1.map wakePage }),
           leads := s.leads.map fun e => (e.1, wakePageLead e.2) }

/-- Change the page that maps an address. -/
def modPage (va : Nat) (f : Page → Page) : List Page → List Page
  | [] => []
  | p :: ps => if p.base ≤ va ∧ va < p.base + p.size then f p :: ps else p :: modPage va f ps

/-- A page has been made resident: no TOUCH waits for it any more, whatever becomes of it later (R243). -/
def Page.dropNeeds (p : Page) (w : Wave) : Wave :=
  { w with outstanding := w.outstanding.map fun o =>
      { o with needs := o.needs.filter fun a => !(decide (p.base ≤ a) && decide (a < p.base + p.size)) } }

/-- Gangs by number. -/
def State.gangKeys (s : State) : List Nat := tabKeys s.gangs

/-- PAGE_RESIDENT: what waited for the page goes on: stalled accesses, collective words, a gang's last drydown (R138, R290,
R398). -/
def execPageResident (va : Nat) (s : State) : Host.Outcome State Fault Refusal :=
  match pageAt s.pages va with
  | none => .next s
  | some p =>
    let s : State :=
      { s with pages := modPage va (fun q => { q with resident := true }) s.pages,
               touched := s.touched.filter (fun a => !(decide (p.base ≤ a) && decide (a < p.base + p.size))),
               waves := s.waves.map fun e => (e.1, p.dropNeeds e.2) }
    let s := s.wakePages
    .next (s.gangKeys.foldl (fun s g => (s.collect g).endIfDone g) s)

/-- Whether a gang of a pair launch that is not complete has accessed a page (R395). -/
def State.heldByPair (s : State) (p : Page) : Bool := s.launches.any fun e => e.2.done.isNone && e.2.pages.contains p.base

/-- PAGE_DEMOTION: a page goes away, or its mapping ends. It waits while an open checkpoint pins the page, and while a pair that has
accessed it runs (R243, R395, R398). -/
def execPageDemotion (va : Nat) (unmap : Bool) (s : State) : Host.Outcome State Fault Refusal :=
  match pageAt s.pages va with
  | none => .next s
  | some p =>
    let pinned := s.gangs.any fun e => e.2.ckpt.isSome && e.2.regions.any fun r =>
      decide (r.2.1 < p.base + p.size) && decide (p.base < r.2.1 + r.2.2)
    if pinned || s.heldByPair p then .next s
    else if unmap then .next ({ s with pages := s.pages.filter fun q => q != p }.wakePages)
    else .next { s with pages := modPage va (fun q => { q with resident := false }) s.pages }

/-! ### Tiles (R250, R288, R289) -/

/-- Splits that wait for the fill of a sub-block look again. -/
def wakeFill (h sb : Nat) (p : Split) : Split := if p.wait = .fill h sb then { p with wait := .none } else p

def State.wakeFills (s : State) (g h sb : Nat) : State :=
  { s with waves := s.waves.map fun e =>
      if e.1.gang = g then (e.1, { e.2 with slot0 := e.2.slot0.map (wakeFill h sb), slot1 := e.2.slot1.map (wakeFill h sb) }) else e }

/-- TILE_FILL: a sub-block of a bound tile is filled; what waits for it looks again, and takes the fault itself where the fill
cannot be made (R250, R288). -/
def execTileFill (g h sb : Nat) (s : State) : Host.Outcome State Fault Refusal :=
  match s.gang g with
  | none => .next s
  | some gg =>
    match gg.tile? h with
    | none => .next (s.wakeFills g h sb)
    | some t =>
      if sb ≥ t.subCount ∨ !t.needsFill sb ∨ !gg.state.live then .next (s.wakeFills g h sb)
      else
        match (s.hear .m).fillHandle (controlOf g) g h fun _ => [sb] with
        | .ok t => .next (t.wakeFills g h sb)
        | .error .away => .next s
        | .error (.fail _) => .next (s.wakeFills g h sb)
        | .error .poison => .next (s.uncorrectable g)

/-- TILE_EVICT: the control plane takes a sub-block back, drying it down first where it is dirty (R289). In a pair the drydown is
compared first, and the sub-block stays until it has been written (R393). -/
def execTileEvict (g h sb : Nat) (s : State) : Host.Outcome State Fault Refusal :=
  match s.gang g with
  | none => .next s
  | some gg =>
    match gg.tile? h with
    | none => .next s
    | some t =>
      let b := t.sub sb
      let at_ := t.bound.getD 0 + sb * t.area
      if t.bound.isNone ∨ !b.filled ∨ sb ≥ t.subCount ∨ !gg.state.live then .next s
      else if b.dirty then
        match s.dryWrites t (t.bound.getD 0) sb with
        | .error (.away _) => .next s
        | .error _ => .next (s.endByFault g .elementAccess)
        | .ok ws =>
          match gg.pair with
          | none => .next ((s.dryDown (controlOf g) t [sb] ws).modTile g h fun t => t.setSub sb { b with filled := false, dirty := false, zero := none, absent := none })
          | some p =>
            let s := s.setGang g { gg with pair := some { p with units := p.units ++ [s.dryUnit none 0 t sb ws] } }
            .next (s.modTile g h fun t => t.clean [sb])
      else if (gg.pair.map fun p => p.units.any fun u => u.key == [0, at_]).getD false then .next s
      else .next (s.modTile g h fun t => t.setSub sb { b with filled := false, zero := none, absent := none })

end Sys2Proof.Machine
end

