-- ==== Sys2Proof/Machine/CopyEvents.lean ====
section
/-!
DEFINITION. The copy engine's steps: delivery of a chunk (R335 to R341), partial-page copies (R346), and the pages of CHASE (R165).
-/

namespace Sys2Proof.Machine

/-! ### Chunks (R338) -/

/-- Fill the sub-block that a copy's barrier object in a tile lies in (R288). -/
def State.fillObject (s : State) (a : Actor) (g : Nat) (r : Copy) : Except Halt State :=
  if Copy.bkind r = 2 then s.fillHandle a g (fieldNat (Copy.barp r) 45 8) fun t => [16 * fieldNat (Copy.barp r) 0 19 / t.area] else .ok s

/-- Fill what a copy reaches of a tile side (R288). -/
def State.fillSide (s : State) (a : Actor) (g : Nat) (sd : Side) (subs : Tile → List Nat) : Except Halt State :=
  if sd.kind = .tile then s.fillHandle a g sd.handle fun t => if t.fmt = sd.fmt then subs t else [] else .ok s

/-- The failed chunk of the lowest number. -/
def firstFailed : List (Nat × Raised) → Option (Nat × Raised)
  | [] => none
  | a :: as =>
    match firstFailed as with
    | some b => if b.1 < a.1 then some b else some a
    | none => some a

/-- A copy completes when every chunk has been delivered or has failed, and every comparison is made (R341). -/
def State.copyDone (s : State) (op : Nat) : State :=
  match tabGet s.ops op with
  | some { kind := .copy r done failed, units := 0, .. } =>
    if done.length + failed.length < Copy.chunks r then s
    else
      match firstFailed failed with
      | none => s.writeToken op (BitVec.ofNat 64 (Copy.size r))
      | some (_, f) => s.faultToken op f
  | _ => s

/-- Mark chunks of a copy delivered or failed; `units` more comparisons are due. -/
def State.markChunk (s : State) (op units : Nat) (del : List Nat) (bad : List (Nat × Raised)) : State :=
  { s with ops := tabMod s.ops op fun o => match o.kind with
    | .copy r done failed => { o with kind := .copy r (done ++ del) (failed ++ bad), units := o.units + units }
    | _ => o }

/-- Whether a pair delivers a copy once: its destination is memory or a pod (R393, R394). -/
def pairOnce (g : Gang) (r : Copy) : Bool := g.pair.isSome && (Copy.dst r).kind != .tile

/-- The virtual addresses of a memory side that chunk `n` reaches, for R395: its items, or the whole of a block side. -/
def Copy.sideVas (r : Copy) (sd : Side) (off : Nat → Int) (n : Nat) : List Nat :=
  if sd.kind ≠ .mem then []
  else if sd.block.isSome then [sd.base, sd.base + Copy.size r]
  else (upFrom (Copy.firstItem r n) (Copy.firstItem r (n + 1) - Copy.firstItem r n)).map fun i => sd.addr (off i)

/-- The pages that a chunk reaches (R395). -/
def State.noteChunk (s : State) (g : Gang) (r : Copy) (n : Nat) : State :=
  if g.pair.isNone then s
  else s.notePages g (Copy.sideVas r (Copy.src r) (Copy.srcOff r) n ++ Copy.sideVas r (Copy.dst r) (Copy.dstOff r) n)

/-- The unit of a chunk in a pair (R393). -/
def chunkUnit (op : Nat) (o : Op) (n : Nat) (content : List Byte) (ws : List (Nat × List Byte)) : PairUnit :=
  { key := unitKey o n, op := some op, crew := o.crew.crew, sig := crc64 content, writes := ws, bad := [], chunk := some n }

/-- Deliver chunk `n` of a copy whose chunks stand alone, on C: fills, reads, check, writes and count-down; in a pair towards memory
the content is left for comparison. -/
def State.deliverChunk (s : State) (op : Nat) (o : Op) (g : Gang) (r : Copy) (done : List Nat) (n : Nat) : Except Halt State := do
  let a := o.actor op
  let k := o.crew.gang
  let s ← (s.hear .c).fillSide a k (Copy.src r) (Copy.srcSubs r n)
  let seen := s.seenOn .c a g
  let c ← seen.readChunk ((seen.gang k).getD g) r n
  let s ← s.fillSide a k (Copy.dst r) (Copy.dstSubs r n)
  let g' := s.gangOn .c a k g
  let ws ← s.planWrites r ((Copy.dst r).tile g') (Copy.firstItem r n) c.items
  let s ← s.fillObject a k r
  let later := s.laterPlaces g' r done n
  let ws := (s.freeOverlap g' r ws).map fun w => w.without later
  let mem := (s.seenBy g).memPlan ws
  let s := (s.noteChunk g r n).putChunk a k r ws
  if pairOnce g r then return (s.addUnit k (chunkUnit op o n c.content mem)).markChunk op 1 [n] []
  else
    let s ← (s.wrAllBy .c a mem).copyDown a k r (Copy.chunkBytes r n)
    return (s.markChunk op 0 [n] []).spend

/-! ### Packed destinations, as one unit (R338) -/

/-- Every chunk read and checked: content and items, or the lowest failure. -/
def State.readAll (s : State) (g : Gang) (r : Copy) : List Nat → Except Halt Chunk
  | [] => .ok { content := [], items := [] }
  | n :: ns =>
    match s.readChunk g r n with
    | .error .away => .error .away
    | .error .poison => .error .poison
    | .error (.fail f) =>
      match s.readAll g r ns with
      | .error .away => .error .away
      | .error .poison => .error .poison
      | _ => .error (.fail f)
    | .ok c => do
      let d ← s.readAll g r ns
      return { content := c.content ++ d.content, items := c.items ++ d.items }

/-- The blocks of a packed destination, in order (R334). -/
def packedBlocks (r : Copy) (xs : List Item) : List Block :=
  match (Copy.dst r).block with
  | none => []
  | some b =>
    let groups := if (Copy.src r).block.isSome then xs.map fun x => [x] else inGroups 32 xs
    groups.map (blockFrom (Copy.sfmt r) (Copy.dfmt r) b)

/-- The masked writes of packed bytes at a memory or pod side. -/
def State.packedWrites (s : State) (sd : Side) (bs : List Byte) : Except Halt (List MaskWrite) :=
  s.memWritesOf sd sd.base (bs.map fun b => (0xFF#8, b))

/-- Blocks into a packed tile, one by one in copy order. -/
def Tile.putBlocks (t : Tile) (r : Copy) (b : BFmt) (ks : List Block) : Tile :=
  (ks.mapIdx fun i k => (i, k)).foldl (fun t e =>
    match (Copy.dst r).cell t (Copy.dstOff r (32 * e.1)) with
    | some (row, col) => t.setPacked b row col e.2
    | none => t) t

/-- The sub-blocks that a packed destination tile has written. -/
def Copy.allSubs (r : Copy) (t : Tile) : List Nat := (Copy.dst r).subs t ((List.range (Copy.total r)).map (Copy.dstOff r))

/-- Bytes of a tile that a copy within it has also read are unspecified (R335, log 9). -/
def Tile.freePlaces (t : Tile) (free : Nat) (written : List Nat) (read : List Place) : Tile :=
  (read.mapIdx fun i p => (i, p)).foldl (fun t e => match e.2 with
    | .tile off => if written.contains (off / t.area) then t.wr off [Config.freeByte free e.1] else t
    | .mem _ => t) t

/-- Count down every chunk, in chunk order (R338). -/
def State.downAll (s : State) (a : Actor) (g : Nat) (r : Copy) : Except Halt State :=
  (List.range (Copy.chunks r)).foldlM (fun s n => s.copyDown a g r (Copy.chunkBytes r n)) s

/-- Deliver a copy whose destination is packed block data. -/
def State.deliverPacked (s : State) (op : Nat) (o : Op) (g : Gang) (r : Copy) : Except Halt State := do
  let a := o.actor op
  let k := o.crew.gang
  let all := List.range (Copy.chunks r)
  let s ← (s.hear .c).fillSide a k (Copy.src r) fun t => (all.flatMap fun n => Copy.srcSubs r n t).eraseDups
  let seen := s.seenOn .c a g
  let c ← seen.readAll ((seen.gang k).getD g) r all
  let s ← s.fillObject a k r
  let ks := packedBlocks r c.items
  let s := all.foldl (fun s n => s.noteChunk g r n) s
  match (Copy.dst r).block, (Copy.dst r).kind with
  | some b, .tile =>
    let s ← s.fillSide a k (Copy.dst r) (Copy.allSubs r)
    let read := s.overlapPlaces g r
    let put (t : Tile) : Tile := if t.fmt = Copy.dfmt r then (t.putBlocks r b ks).freePlaces s.free (Copy.allSubs r t) read else t
    let ranges := match (Copy.dst r).tile (s.gangOn .c a k g) with
      | some t => (Copy.allSubs r t).map fun i => (i * t.area, t.area)
      | none => []
    let s ← (s.putTile .c a k (Copy.dst r).handle ranges put).downAll a k r
    return (s.markChunk op 0 all []).spend
  | some b, _ =>
    let ws ← s.packedWrites (Copy.dst r) (packedBytes b ks)
    let mem := (s.seenBy g).memPlan (s.freeOverlap g r ws)
    if pairOnce g r then return (s.addUnit k (chunkUnit op o 0 c.content mem)).markChunk op 1 all []
    else
      let s ← (s.wrAllBy .c a mem).downAll a k r
      return (s.markChunk op 0 all []).spend
  | none, _ => return s

/-- CHUNK_DELIVER: one chunk is delivered or fails; then the copy completes if it was the last (R338, R341). -/
def execChunkDeliver (op n : Nat) (s : State) : Host.Outcome State Fault Refusal :=
  match tabGet s.ops op with
  | some o =>
    match o.kind, s.gang o.crew.gang with
    | .copy r done failed, some g =>
      if (g.state = .running ∨ g.state = .saving) ∧ n < Copy.chunks r ∧ !done.contains n ∧ (tabGet failed n).isNone then
        let one := Copy.oneUnit g r
        let bad := if one then List.range (Copy.chunks r) else [n]
        if one ∧ n ≠ 0 then .next s
        else
          match if one then s.deliverPacked op o g r else s.deliverChunk op o g r done n with
          | .ok t => .next (t.copyDone op)
          | .error .away => .next s
          | .error .poison => .next (s.uncorrectable o.crew.gang)
          | .error (.fail f) =>
            let t := if pairOnce g r then s.addUnit o.crew.gang (failUnit o n f) else s
            .next ((t.markChunk op 0 [] (bad.map fun k => (k, f))).copyDone op)
      else .next s
    | _, _ => .next s
  | none => .next s

/-! ### Partial-page copies (R346) -/

/-- The writes of a PCOPY: the header of the source, its slots, and the bytes (R346). -/
def State.pcopyPlan (s : State) (seen : State) (src dst n : Nat) : Except Halt (List (Nat × List Byte) × List Byte) := do
  if src % 64 ≠ 0 then .error (.fail (Raised.at .misaligned src))
  if dst % 64 ≠ 0 then .error (.fail (Raised.at .misaligned dst))
  let h := ofBytes (← seen.opRead src 64)
  if n = 0 ∨ n > pageCount h then .error (.fail (illegal 32))
  let at_ := if pageDemoted h then pageBody h else ofInt 64 (src + 64)
  let bs ← seen.opRead at_ (n * pageSlot h * 64)
  let ps ← s.opPieces .write (ofInt 64 (dst + 64)) (n * pageSlot h * 64)
  return (cutTo ps bs, bs)

/-- PCOPY_COMPLETE: the whole copy, then the token; in a pair the bytes are compared first (R346, R393). -/
def execPcopyComplete (op : Nat) (s : State) : Host.Outcome State Fault Refusal :=
  match tabGet s.ops op with
  | some o =>
    match o.kind, s.gang o.crew.gang with
    | .pcopy src dst _ n, some g =>
      if (g.state = .running ∨ g.state = .saving) ∧ o.units = 0 then
        let s := s.hear .c
        .next (s.endStep op o ((s.pcopyPlan (s.seenOn .c (o.actor op) g) src.toNat dst.toNat n).map fun p =>
          let s := (s.noteRange g src.toNat (64 + p.2.length)).noteRange g dst.toNat (64 + p.2.length)
          if g.pair.isSome then (s.addUnit o.crew.gang (chunkUnit op o 0 p.2 p.1)).setOp op { o with units := 1 }
          else (s.wrAllBy .c (o.actor op) p.1).writeToken op (BitVec.ofNat 64 p.2.length)))
      else .next s
    | _, _ => .next s
  | none => .next s

/-! ### CHASE (R165) -/

/-- The pages that a CHASE pushes: from the one that holds the position, up to its limit. A walk that cannot go on ends there. -/
def State.chasePages (s : State) (desc pos limit : Nat) : SeqRes (List Nat) := do
  let q ← s.seqDesc [.read] desc
  if pos ≥ q.length then return []
  match s.seqPages q with
  | .ok ps =>
    let from_ := (ps.map SeqPage.va).drop (pos / q.cap)
    return if limit = 0 then from_ else from_.take limit
  | .error .refused => return []
  | .error e => .error e

/-- Entries of a CHASE that are pushed and not retired (R165). -/
def Crew.chaseHeld (c : Crew) (q op : Nat) : Nat := if h : q < 4 then (c.dq[q].entries.filter fun e => e.2 == some op).length else 0

/-- Entries that a CHASE keeps at most. -/
def chaseLimit : Nat := 4

/-- CHASE_PAGE: one page's header address, or after the last page the final entry and the token (R165). -/
def execChasePage (op : Nat) (s : State) : Host.Outcome State Fault Refusal :=
  match tabGet s.ops op with
  | some o =>
    match o.kind, s.gang o.crew.gang, s.crew o.crew with
    | .chase desc pos q limit pushed, some g, some c =>
      let gone := (s.liveWaves o.crew).isEmpty
      if g.state = .running ∧ (gone ∨ (c.dqLength q < queueSize ∧ c.chaseHeld q op < chaseLimit)) then
        let push (v : DWord) (s : State) : State :=
          if gone then s else (s.pushRelease o.crew q (o.actor op)).modCrew o.crew fun c => c.pushDQ q v (some op)
        let s := s.hear .l
        match (s.seenOn .l (o.actor op) g).chasePages desc.toNat pos.toNat limit with
        | .error .refused => .next s
        | .error (.stop (.fault f)) => .next (s.faultToken op f)
        | .error (.stop .poison) => .next (s.uncorrectable o.crew.gang)
        | .error (.stop _) => .next s
        | .ok ps =>
          let s := s.notePages g (desc.toNat :: ps)
          match ps[pushed]? with
          | some va => .next ((push (BitVec.ofNat 64 va) s).setOp op { o with kind := .chase desc pos q limit (pushed + 1) })
          | none => .next ((push (BitVec.allOnes 64) s).writeToken op (BitVec.ofNat 64 pushed))
      else .next s
    | _, _, _ => .next s
  | none => .next s

end Sys2Proof.Machine
end

