-- ==== Sys2Proof/Machine/PairEvents.lean ====
section
/-!
DEFINITION. The comparisons of a redundant pair as steps of the device: compare points, units of work and faults
(R391 to R397), and what a mismatch does (R396).
-/

namespace Sys2Proof.Machine

/-- The gangs of a pair, leading and trailing, by either of them. -/
def State.pairOf (s : State) (g : Nat) : Option ((Nat × PairState) × (Nat × PairState)) :=
  match s.gang g with
  | none => none
  | some gg =>
    match gg.pair with
    | none => none
    | some p =>
      match (s.gang p.peer).bind Gang.pair with
      | none => none
      | some q => if !(s.gangLive g && s.gangLive p.peer) then none else some (if p.leading then ((g, p), (p.peer, q)) else ((p.peer, q), (g, p)))

/-! ### Compare points (R391, R392) -/

/-- Past a compare point that has matched. -/
def passPoint (n : Nat) (w : SplitWait) : SplitWait := if w = .point n then .matched n else w
def passPointLead (n : Nat) (w : LeadWait) : LeadWait := if w = .point n then .matched n else w

/-- A party goes past a compare point. -/
def State.passParty (s : State) (g : Nat) (q : Party) (n : Nat) : State :=
  match q with
  | .wave crew wave =>
    s.modWave { gang := g, crew, wave } fun w =>
      { w with slot0 := w.slot0.map fun p => { p with wait := passPoint n p.wait },
               slot1 := w.slot1.map fun p => { p with wait := passPoint n p.wait } }
  | .lead crew => s.modLead { gang := g, crew } fun l => { l with wait := passPointLead n l.wait }

/-- Commit an interval of a party: the leading writes are performed in the order of the stores, the trailing entries dropped
(R392). -/
def State.commitInterval (s : State) (lead trail : Nat) (p : PairState) (q : Party) (n : Nat) : State :=
  let mine (e : Party × BufWrite) : Bool := e.1 == q && e.2.interval == n
  let (path, a) : Path × Actor := match q with
    | .wave _ _ => (.w, partyActor lead q (BitVec.allOnes 32))
    | .lead _ => (.l, partyActor lead q 0)
  let s := s.wrAllBy path a ((p.buf.filter mine).map fun e => (e.2.pa, e.2.bytes))
  let drop (s : State) (g : Nat) : State := s.modGang g fun gg => { gg with pair := gg.pair.map fun p =>
    { p with buf := p.buf.filter (fun e => !mine e),
             parties := tabSet p.parties q
               { p.party q with points := (p.party q).points.drop 1, ords := (p.party q).ords.filter fun e => decide (n ≤ e.1) } } }
  drop (drop s lead) trail

/-- Every party of a gang looks at its slack again. -/
def State.wakeSlack (s : State) (g : Nat) : State :=
  let wave (e : WaveKey × Wave) : WaveKey × Wave := if e.1.gang = g then (e.1, { e.2 with
      slot0 := e.2.slot0.map fun p => { p with wait := wakePair true p.wait },
      slot1 := e.2.slot1.map fun p => { p with wait := wakePair true p.wait } }) else e
  let lead (e : CrewKey × Lead) : CrewKey × Lead :=
    if e.1.gang = g then (e.1, { e.2 with wait := wakePairLead true e.2.wait }) else e
  { s with waves := s.waves.map wave, leads := s.leads.map lead }

/-- COMPARE_POINT: the earliest point that both parties have reached (R391, R392, R396). -/
def execComparePoint (g : Nat) (q : Party) (s : State) : Host.Outcome State Fault Refusal :=
  match s.pairOf g with
  | none => .next s
  | some ((l, pl), (t, pt)) =>
    match (pl.party q).points, (pt.party q).points with
    | a :: _, b :: _ =>
      if a = b then
        let s := { s with counters := { s.counters with compares := s.counters.compares + 1 } }
        let s := s.commitInterval l t pl q a.n
        let s := (s.passParty l q a.n).passParty t q a.n
        .next (((s.wakeSlack l).wakeSlack t).collect l)
      else .next (s.mismatch l q a.n)
    | _, _ => .next s

/-! ### Units of work (R393) -/

/-- The first unit that both gangs have done: the leading one and the trailing one. -/
def firstCommon (ls ts : List PairUnit) : Option (PairUnit × PairUnit) :=
  match ls with
  | [] => none
  | u :: us =>
    match ts.find? fun v => v.key == u.key with
    | some v => some (u, v)
    | none => firstCommon us ts

/-- A comparison that an operation waited for is made; a copy counts its chunk down, a PCOPY writes its token, a copy completes
with its last chunk (R338, R341, R346). -/
def State.unitDone (s : State) (g : Nat) (u : PairUnit) : Except Halt State :=
  match u.op with
  | none => .ok s
  | some n =>
    match tabGet s.ops n, s.gang g with
    | some o, some gg =>
      let s := s.setOp n { o with units := o.units - 1 }
      match o.kind, u.chunk with
      | .copy r _ _, some c =>
        (if Copy.oneUnit gg r then s.downAll (o.actor n) g r else s.copyDown (o.actor n) g r (Copy.chunkBytes r c)).map fun s => s.copyDone n
      | .pcopy _ _ _ _, some _ => .ok (s.writeToken n (BitVec.ofNat 64 (u.writes.foldl (fun k w => k + w.2.length) 0)))
      | _, _ => .ok s
    | _, _ => .ok s

/-- The path and the party of a unit's write: a copy's on C, a drydown or a projection on M. -/
def State.unitBy (s : State) (g : Nat) (u : PairUnit) : Path × Actor :=
  match u.op with
  | none => (.m, controlOf g)
  | some n =>
    match tabGet s.ops n with
    | some o => (if o.kind.isCopy then .c else .m, o.actor n)
    | none => (.m, controlOf g)

/-- Remove one unit. -/
def State.dropUnit (s : State) (g : Nat) (u : PairUnit) : State :=
  s.modGang g fun gg => { gg with pair := gg.pair.map fun p => { p with units := p.units.erase u } }

/-- UNIT_COMPARE: one unit of work of both gangs; where they agree, the leading write is made with the poison that it carries (R383,
R393). It waits while the page of a copy's barrier object is away. -/
def execUnitCompare (g : Nat) (s : State) : Host.Outcome State Fault Refusal :=
  match s.pairOf g with
  | none => .next s
  | some ((l, pl), (t, pt)) =>
    match firstCommon pl.units pt.units with
    | none => .next s
    | some (u, v) =>
      if u.sig = v.sig ∧ u.chunk = v.chunk then
        let (q, a) := s.unitBy l u
        let done := ((((s.dropUnit l u).dropUnit t v).wrAllBy q a u.writes).addPoison u.bad).unitDone l u
        match done.bind fun s => s.unitDone t v with
        | .ok s => .next ((s.endIfDone l).endIfDone t)
        | .error _ => .next s
      else .next (s.mismatch l (.lead u.crew) (pl.party (.lead u.crew)).next)

/-! ### Faults (R397) -/

/-- A context of a party that holds a fault: its slot, what it issues, and the fault with the address past its word. -/
structure HeldFault where
  slot : Fin 2
  /-- How often the word had completed in the interval before it faulted. -/
  ran : Nat
  /-- Whether it is the fault of an unread token at EXIT. -/
  exit : Bool
  pc : DWord
  lanes : LaneSet
  rep : Nat
  f : Raised
  nextPc : DWord
  deriving DecidableEq, Repr

/-- The splits of a wave. -/
def Wave.splits (w : Wave) : List (Fin 2 × Split) :=
  (w.slot0.map fun p => ((0 : Fin 2), p)).toList ++ (w.slot1.map fun p => ((1 : Fin 2), p)).toList

/-- How often a party has completed a word in its present interval. -/
def State.ranCount (s : State) (g : Nat) (q : Party) (pc : DWord) (rep : Nat) (lanes : LaneSet) : Nat :=
  let interval := (((s.gang g).bind Gang.pair).map fun p => (p.party q).next).getD 0
  let ran := match q with
    | .wave crew wave => ((s.wave { gang := g, crew, wave }).map Wave.ran).getD []
    | .lead crew => ((s.lead { gang := g, crew }).map Lead.ran).getD []
  (tabGet ran { interval, pc, rep, lanes }).getD 0

/-- The faults that a party of a gang holds. -/
def State.heldFaults (s : State) (g : Nat) (q : Party) : List HeldFault :=
  match q with
  | .wave crew wave =>
    match s.wave { gang := g, crew, wave } with
    | none => []
    | some w => w.splits.filterMap fun e => match e.2.wait with
      | .pairFault f np => some { slot := e.1, ran := s.ranCount g q e.2.pc e.2.rep e.2.lanes, exit := false, pc := e.2.pc,
                                  lanes := e.2.lanes, rep := e.2.rep, f, nextPc := np }
      | _ => none
  | .lead crew =>
    match s.lead { gang := g, crew } with
    | none => []
    | some l =>
      let one (f : Raised) (np : DWord) (exit : Bool) : HeldFault :=
        { slot := 0, ran := s.ranCount g q l.pc l.rep 0, exit, pc := l.pc, lanes := 0, rep := l.rep, f, nextPc := np }
      match l.wait with
      | .pairFault f np => [one f np false]
      | .exitFault f => [one f l.pc true]
      | _ => []

/-- Whether a split holds a fault. -/
def SplitWait.holdsFault : SplitWait → Bool
  | .pairFault _ _ => true
  | _ => false

/-- Whether a split waits at a synchronising compare point: its whole wave then waits (R392). -/
def SplitWait.atPoint : SplitWait → Bool
  | .point _ => true
  | _ => false

/-- Whether a split waits for the other gang. -/
def SplitWait.onPeer : SplitWait → Bool
  | .pairFault _ _ => true
  | .forward => true
  | .forwardAddr => true
  | .slack => true
  | _ => false

def LeadWait.onPeer : LeadWait → Bool
  | .pairFault _ _ => true
  | .exitFault _ => true
  | .forward => true
  | .forwardAddr => true
  | .slack => true
  | _ => false

/-- Whether nothing of a party moves until the other gang does; a party that has ended, and one that holds a fault, is such a
party. -/
def State.heldUp (s : State) (g : Nat) (q : Party) : Bool :=
  match q with
  | .wave crew wave =>
    match s.wave { gang := g, crew, wave } with
    | none => true
    | some w => w.ended || (w.splits.any fun e => e.2.wait.holdsFault) || w.splits.all fun e => e.2.wait.onPeer
  | .lead crew =>
    match s.lead { gang := g, crew } with
    | none => true
    | some l => l.exited || l.wait.onPeer

/-- Take a fault that a party holds. -/
def State.takeHeld (s : State) (g : Nat) (q : Party) (h : HeldFault) : State :=
  match q with
  | .wave crew wave => s.takeWaveFault { gang := g, crew, wave } h.slot h.f h.nextPc
  | .lead crew => if h.exit then s.endByFault g h.f.code else s.takeLeadFault { gang := g, crew } h.f h.nextPc

/-- Whether two faults are one fault of the pair, raised by the same issue of the word. -/
def HeldFault.same (a b : HeldFault) : Bool :=
  a.ran == b.ran && a.exit == b.exit && a.f.code == b.f.code && a.pc == b.pc && a.rep == b.rep && a.f.aux == b.f.aux && a.f.addr == b.f.addr && a.f.failing == b.f.failing

/-- PAIR_FAULT_MATCH: a fault of a party meets its counterpart. The counterpart is the split of the same word and lanes; where it
raises the same fault, both gangs take it. Where it raises another, or the counterpart has completed that issue of the word, or has
reached a later compare point, or neither party can move, the gangs diverge (R397, log 27). -/
def execPairFaultMatch (g : Nat) (q : Party) (s : State) : Host.Outcome State Fault Refusal :=
  match s.gang g with
  | none => .next s
  | some gg =>
    match gg.pair with
    | none => .next s
    | some p =>
      match s.heldFaults g q with
      | [] => .next s
      | hs =>
        let there := s.heldFaults p.peer q
        match hs.findSome? fun h => (there.find? fun k => k.pc == h.pc && k.lanes == h.lanes).map fun k => (h, k) with
        | some (h, k) =>
          if h.same k then .next ((s.takeHeld g q h).takeHeld p.peer q k) else .next (s.mismatch g q (p.party q).next)
        | none =>
          let other := s.peerParty p q
          let pending := !(p.party q).points.isEmpty && !other.points.isEmpty
          let passed := other.next == (p.party q).next && hs.any fun h => decide (s.ranCount p.peer q h.pc h.rep h.lanes > h.ran)
          if other.next > (p.party q).next || passed || (s.heldUp g q && s.heldUp p.peer q && !pending) then
            .next (s.mismatch g q (p.party q).next)
          else .next s

end Sys2Proof.Machine
end

