-- ==== Sys2Proof/Machine/Admission.lean ====
section
/-!
DEFINITION. What acceptance checks in a launch record (R150 to R152, R280, R281, R356), what fits where (R360, R361, R367), the
plans of bounded launches (R362, R363) with the options of a pre-emption (R369, R370), and the order of service (R359).
-/

namespace Sys2Proof.Machine

/-! ### The tile request table (R280, R281) -/

/-- Bits of a 256-bit table line. -/
def lineField (e : BitVec 256) (lo n : Nat) : Nat := fieldNat e.toNat lo n

def tabAcc (h : BitVec 256) : Nat := lineField h 64 8
def tabSlice (h : BitVec 256) : Nat := lineField h 32 32
def tabCluster (h : BitVec 256) : Nat := lineField h 0 32

def entBind (e : BitVec 256) : Nat := lineField e 64 64
def entCols (e : BitVec 256) : Nat := lineField e 48 16
def entRows (e : BitVec 256) : Nat := lineField e 32 16
def entPacked (e : BitVec 256) : Bool := lineField e 25 1 == 1
def entSlice (e : BitVec 256) : Bool := lineField e 24 1 == 1
def entFmt (e : BitVec 256) : Nat := lineField e 16 5
def entHandle (e : BitVec 256) : Nat := lineField e 0 8

/-- The greatest reserve of each level, and the tile store of a cluster and the carve-out of a slice (R10, R280, R284). -/
def reserveMax : Nat := 8 * 2 ^ 20

/-- An entry with a nonzero reserved field or a value outside its range. -/
def entryBad (e : BitVec 256) : Bool :=
  lineField e 128 128 != 0 || lineField e 26 6 != 0 || lineField e 21 3 != 0 || lineField e 8 8 != 0 ||
  !shapeOk (entRows e) || !shapeOk (entCols e) || !isTileFmt (entFmt e) || (entPacked e && (blockOf (entFmt e)).isNone)

/-- Bytes that the entries of a level need. -/
def entriesSize (es : List (BitVec 256)) (slice : Bool) : Nat :=
  es.foldl (fun n e => if entSlice e = slice then n + tileSize (entRows e) (entCols e) (entFmt e) else n) 0

/-- A table that makes its launch malformed (R281). -/
def tableBad : List (BitVec 256) → Bool
  | [] => false
  | h :: es =>
    lineField h 72 184 != 0 || decide (tabAcc h > 16) || decide (tabSlice h > reserveMax) || decide (tabCluster h > reserveMax) ||
    es.any entryBad || decide ((es.map entHandle).eraseDups.length ≠ es.length) ||
    decide (entriesSize es true > tabSlice h) || decide (entriesSize es false > tabCluster h)

/-- The table of a record, none where it names no table (R150). -/
def State.readTable (s : State) (r : BitVec 2048) : Except Tr (List (BitVec 256)) :=
  if recTiles r = 0 then .ok []
  else do
    let bs ← s.rdVirt (recTiles r) (32 + 32 * recNtiles r)
    return (inGroups 32 bs).map fun b => BitVec.ofNat 256 (ofBytes b)

/-! ### The record (R150 to R152) -/

/-- The number of the last launch accepted, and the lowest whose outcome is held (R355). -/
def State.accseq (s : State) : Nat := s.regs.epoch.toNat * 2 ^ 48 + s.regs.accepted
def State.retain (s : State) : Nat := max (s.regs.epoch.toNat * 2 ^ 48 + 1) (s.accseq + 1 - 2 ^ 20)

/-- A reserved field that is not zero, or a reserved code. A LAUNCH ignores the record's scope field (R153). -/
def recReserved (r : BitVec 2048) (host : Bool) : Bool :=
  recField r 1024 1024 != 0 || recField r 432 16 != 0 || recField r 427 5 != 0 || recField r 420 4 != 0 ||
  recField r 412 4 != 0 || recField r 404 4 != 0 || recField r 372 4 != 0 ||
  recRestart r == 3 || decide (recPlacement r > 4) || (host && decide (recScope r > 10))

/-- A count outside its range. -/
def recCounts (r : BitVec 2048) : Bool :=
  recGangs r == 0 || recCrews r == 0 || decide (recCrews r > 4) || recWaves r == 0 || decide (recWaves r > 32) ||
  decide (recBarriers r > 16) || decide (recNtiles r > 255) || decide (recNdep r > 4) || (recNtiles r != 0 && recTiles r == 0)

/-- An injection that the record may not ask for (R151). -/
def injectBad (r : BitVec 2048) (debug : Bool) : Bool :=
  let kind := recField r 1016 8
  let wave := recField r 992 16
  if kind = 0 then false
  else if !debug || decide (kind > 2) then true
  else !recPair r || decide (wave / 32 ≥ recCrews r) || decide (wave % 32 ≥ recWaves r)

/-- A dependence that the scheduler cannot name (R356). -/
def State.depBad (s : State) (d : Nat) : Bool :=
  decide (d / 2 ^ 48 ≠ s.regs.epoch.toNat) || decide (d > s.accseq) || decide (d < s.retain)

/-- An entry point that is no clause header of its stream. -/
def State.entryPointBad (s : State) (r : BitVec 2048) : Bool :=
  match s.codeObjs.find? fun c => c.addr == recCode r with
  | none => true
  | some c => !c.lead.headers.contains (recLeadEntry r) || !c.wave.headers.contains (recWaveEntry r)

/-- Whether a record is malformed (R152). -/
def State.malformed (s : State) (r : BitVec 2048) (host : Bool) (table : List (BitVec 256)) : Bool :=
  recReserved r host || recCounts r || tableBad table || s.entryPointBad r || (recBounded r != decide (recBound r ≠ 0)) ||
  injectBad r s.mgmt.debug || (recDeps r).any s.depBad

/-! ### Room (R367) -/

/-- What each gang of a launch needs. -/
structure Needs where
  crews : Nat
  waves : Nat
  barriers : Nat
  acc : Nat
  cluster : Nat
  slice : Nat
  deriving DecidableEq, Repr, Inhabited

def needsOf (r : BitVec 2048) (table : List (BitVec 256)) : Needs :=
  { crews := recCrews r, waves := recWaves r, barriers := recBarriers r,
    acc := (table.head?.map tabAcc).getD 0, cluster := (table.head?.map tabCluster).getD 0,
    slice := (table.head?.map tabSlice).getD 0 }

/-- What a gang holds of the device, or would hold by a plan. -/
structure Hold where
  cluster : Nat
  cores : List Nat
  waves : Nat
  acc : Nat
  barbase : Nat
  barriers : Nat
  resCluster : Nat
  resSlice : Nat
  deriving DecidableEq, Repr, Inhabited

/-- Whether a gang holds slots: every state but saved. -/
def Gang.holds (g : Gang) : Bool := g.state != .saved

/-- What a bound gang holds. -/
def Gang.hold (g : Gang) : Hold :=
  { cluster := g.place.cluster, cores := g.place.crews.map CrewPlace.core, waves := g.waves, acc := g.acc, barbase := g.place.barbase,
    barriers := g.barriers, resCluster := g.resCluster, resSlice := g.resSlice }

/-- What a gang holds where a plan puts it. -/
def planHold (e : PlanEntry) (n : Needs) : Hold :=
  { cluster := e.cluster, cores := e.cores, waves := n.waves, acc := n.acc, barbase := e.barbase, barriers := n.barriers,
    resCluster := n.cluster, resSlice := n.slice }

/-- The gangs that hold slots. -/
def State.holders (s : State) : List (Nat × Gang) := s.gangs.filter fun e => e.2.holds

/-- What is free: the cores that take binds, the holds in place, and clusters that are kept for another gang (R359). -/
structure Room where
  service : BitVec 128
  holds : List Hold
  closed : List Nat
  deriving DecidableEq, Repr, Inhabited

/-- The device idle with every core in service (R360). -/
def Room.idle : Room := { service := BitVec.allOnes 128, holds := [], closed := [] }

/-- Wave slots of partition `p` that a crew of `waves` waves takes (R367). -/
def slotsOf (waves p : Nat) : Nat := (waves + 3 - p) / 4

/-- How many times `need` goes into what is left of `all`; `all` bounds it where nothing is needed. -/
def timesIn (all used need : Nat) : Nat := if need = 0 then all else (all - used) / need

/-- How many crews of a kind a core takes. -/
def Room.core (m : Room) (n : Needs) (core : Nat) : Nat :=
  if !m.service.getLsbD core || m.closed.contains (core / 4) then 0
  else
    let there : List (Nat × Nat) := m.holds.flatMap fun h => (h.cores.filter (· == core)).map fun _ => (h.waves, h.acc)
    let parts := (List.range 4).map fun p => timesIn 16 (there.foldl (fun k e => k + slotsOf e.1 p) 0) (slotsOf n.waves p)
    let acc := timesIn 16 (there.foldl (fun k e => k + e.2) 0) n.acc
    min (parts.foldl min (4 - there.length)) acc

/-- Runs of free barrier ids, counted as ranges of `n` ids. -/
def runsOf (n : Nat) : List Bool → Nat → Nat
  | [], _ => 0
  | free :: fs, run =>
    if !free then runsOf n fs 0 else if run + 1 = n then runsOf n fs 0 + 1 else runsOf n fs (run + 1)

/-- Whether a barrier id of a cluster is free (R367). -/
def Room.barFree (m : Room) (cl id : Nat) : Bool :=
  !m.holds.any fun h => h.cluster == cl && decide (h.barbase ≤ id) && decide (id < h.barbase + h.barriers)

/-- How many gangs of a kind a cluster takes, its slice's carve-out apart. Each needs its crews on distinct cores. -/
def Room.cluster (m : Room) (n : Needs) (cl : Nat) : Nat :=
  let cores := (upFrom (4 * cl) 4).map (m.core n)
  let bars := if n.barriers = 0 then 64 else runsOf n.barriers ((List.range 64).map (m.barFree cl)) 0
  let used := (m.holds.filter fun h => h.cluster == cl).foldl (fun k h => k + h.resCluster) 0
  let store := if n.cluster = 0 then 64 else (reserveMax - used) / n.cluster
  let ok (k : Nat) : Bool := decide ((cores.foldl (fun a c => a + min c k) 0) ≥ n.crews * k)
  min (min ((upFrom 1 16).foldl (fun best k => if ok k then k else best) 0) bars) store

/-- How many gangs of a kind the carve-out of a slice takes. -/
def Room.carve (m : Room) (n : Needs) (sl : Nat) : Nat :=
  let used := (m.holds.filter fun h => h.cluster / 2 == sl).foldl (fun k h => k + h.resSlice) 0
  if n.slice = 0 then 64 else (reserveMax - used) / n.slice

/-- Whether a cluster takes one more gang. -/
def Room.takes (m : Room) (n : Needs) (cl : Nat) : Bool := decide (m.cluster n cl ≥ 1) && decide (m.carve n (cl / 2) ≥ 1)

def Room.slice (m : Room) (n : Needs) (sl : Nat) : Nat := min (m.cluster n (2 * sl) + m.cluster n (2 * sl + 1)) (m.carve n sl)

/-- Whether a slice takes one gang on each of its clusters (R360). -/
def Room.takesBoth (m : Room) (n : Needs) (sl : Nat) : Bool :=
  decide (m.cluster n (2 * sl) ≥ 1) && decide (m.cluster n (2 * sl + 1) ≥ 1) && decide (m.carve n sl ≥ 2)

def Room.column (m : Room) (n : Needs) (col : Nat) : Nat := m.slice n (2 * col) + m.slice n (2 * col + 1)

/-- The columns of a die (R420). -/
def dieColumns (die : Nat) : List Nat := upFrom (4 * die) 4

def Room.die (m : Room) (n : Needs) (die : Nat) : Nat := (dieColumns die).foldl (fun k c => k + m.column n c) 0

/-- Whether a die takes `k` pairs, each over two of its columns. -/
def Room.diePairs (m : Room) (n : Needs) (die k : Nat) : Bool :=
  decide ((dieColumns die).foldl (fun a c => a + min (m.column n c) k) 0 ≥ 2 * k)

/-- The first two members of a list that lie in different columns. -/
def twoColumns (col : Nat → Nat) (xs : List Nat) : Option (Nat × Nat) :=
  xs.findSome? fun a => (xs.find? fun b => col a != col b).map fun b => (a, b)

/-- Clusters, in order, that together take `k` gangs. -/
def Room.fill (m : Room) (n : Needs) (k : Nat) (cls : List Nat) : List Nat :=
  (cls.foldl (fun (acc : Nat × List Nat) c =>
    let room := m.cluster n c
    if acc.1 ≥ k || room = 0 then acc else (acc.1 + room, acc.2 ++ [c])) (0, [])).2

/-- The clusters of columns and dies. -/
def columnClusters (c : Nat) : List Nat := upFrom (4 * c) 4
def dieClusters (d : Nat) : List Nat := upFrom (16 * d) 16
def sliceClusters (sl : Nat) : List Nat := [2 * sl, 2 * sl + 1]

/-- The clusters on which `k` gangs, or pairs, that bind at once can stand under a placement code; none where they do not fit
(R360, R361). -/
def Room.set (m : Room) (n : Needs) (code : Nat) (pair : Bool) (k : Nat) : Option (List Nat) :=
  let clusters := (List.range 32).filter (m.takes n)
  let slices := (List.range 16).filter (m.takesBoth n)
  let columns := (List.range 8).filter fun c => decide (m.column n c ≥ k)
  let one : Option (List Nat) := if pair then (twoColumns (· / 4) clusters).map fun p => [p.1, p.2] else clusters.head?.map fun c => [c]
  match code with
  | 0 => one
  | 1 =>
    if k = 1 then one
    else if pair then (twoColumns (· / 2) slices).map fun p => sliceClusters p.1 ++ sliceClusters p.2
    else slices.head?.map sliceClusters
  | 2 =>
    if pair then match columns with
      | a :: b :: _ => some (m.fill n k (columnClusters a) ++ m.fill n k (columnClusters b))
      | _ => none
    else columns.head?.map fun c => m.fill n k (columnClusters c)
  | 3 =>
    let d0 := decide (m.die n 0 ≥ k)
    let d1 := decide (m.die n 1 ≥ k)
    if pair then
      if d0 && d1 then some (m.fill n k (dieClusters 0) ++ m.fill n k (dieClusters 1))
      else if m.diePairs n 0 k then some (dieClusters 0)
      else if m.diePairs n 1 k then some (dieClusters 1) else none
    else if d0 then some (m.fill n k (dieClusters 0)) else if d1 then some (m.fill n k (dieClusters 1)) else none
  | _ =>
    let a := (k + 1) / 2
    let b := k / 2
    if pair then if m.diePairs n 0 a && m.diePairs n 1 b then some (dieClusters 0 ++ dieClusters 1) else none
    else if decide (m.die n 0 ≥ a) && decide (m.die n 1 ≥ b) then some (m.fill n a (dieClusters 0) ++ m.fill n b (dieClusters 1)) else none

/-- Whether a launch could ever be placed, every core in service and idle (R360). -/
def placeable (r : BitVec 2048) (table : List (BitVec 256)) : Bool :=
  let n := needsOf r table
  let code := recPlacement r
  let k := if code = 0 then 1 else if code = 1 then min 2 (recGangs r) else recGangs r
  (Room.idle.set n code (recPair r) k).isSome && decide (Room.idle.core n 0 ≥ 1)

/-! ### Placement (R360, R361) -/

/-- A gang's place as placement codes see it: index, role, cluster. -/
structure Seat where
  index : Nat
  trailing : Bool
  cluster : Nat
  deriving DecidableEq, Repr, Inhabited

/-- Whether a place meets a code on its own (R360, R420). -/
def Seat.ok (code : Nat) (a : Seat) : Bool := code != 4 || a.cluster / 16 == a.index % 2

/-- Whether two places of one launch meet its code and the column rule of pairs together (R360, R361, R389). -/
def seatsOk (code : Nat) (a b : Seat) : Bool :=
  if a.trailing = b.trailing then
    match code with
    | 1 => a.index / 2 != b.index / 2 || (a.cluster / 2 == b.cluster / 2 && a.cluster != b.cluster)
    | 2 => a.cluster / 4 == b.cluster / 4
    | 3 => a.cluster / 16 == b.cluster / 16
    | _ => true
  else a.index != b.index || a.cluster / 4 != b.cluster / 4

/-- Where the gangs of a launch stand: those that hold slots, and for a gang that runs again those that are saved (R375, R376). -/
def State.seatsOf (s : State) (q : DWord) (saved : Bool) : List Seat :=
  ((s.gangsOf q).filter fun e => saved || e.2.holds).map fun e =>
    { index := e.2.index, trailing := e.2.trailing, cluster := e.2.place.cluster }

/-- Whether a set of new places meets the placement with those that stand. -/
def setOk (code : Nat) (new old : List Seat) : Bool :=
  new.all fun a => a.ok code && old.all (fun b => seatsOk code a b) && new.all fun b => a == b || seatsOk code a b

/-! ### Plans (R39, R362, R363) -/

/-- Nanoseconds that some cycles take at a clock in MHz. -/
def nsOf (cycles mhz : Nat) : Nat := ceilDiv (cycles * 1000) mhz

/-- Cycles that a gang has run since its start or last re-run (R369). -/
def State.progressOf (s : State) (g : Gang) : Nat :=
  if g.state.live then g.progress + (s.ticksOf g.place.cluster - g.since) / 1000 else g.progress

/-- A hold from a time on, until another where it is known to end. -/
structure Occ where
  hold : Hold
  start : Nat
  stop : Option Nat
  deriving DecidableEq, Repr, Inhabited

/-- Whether a hold is in place at a time. -/
def Occ.at (o : Occ) (t : Nat) : Bool := decide (o.start ≤ t) && match o.stop with
  | none => true
  | some u => decide (t < u)

/-- Whether two ranges of numbers are apart. -/
def apart (a n b m : Nat) : Bool := decide (a + n ≤ b) || decide (b + m ≤ a) || n == 0 || m == 0

/-- Whether barrier ranges of one cluster are apart. -/
def barsApart : List Hold → Bool
  | [] => true
  | h :: hs => (hs.all fun k => k.cluster != h.cluster || apart h.barbase h.barriers k.barbase k.barriers) && barsApart hs

/-- Whether some holds stand together on the clusters of one slice (R367). -/
def holdsOk (sl : Nat) (hs : List Hold) : Bool :=
  let hs := hs.filter fun h => h.cluster / 2 == sl
  (upFrom (8 * sl) 8).all (fun core =>
    let there : List (Nat × Nat) := hs.flatMap fun h => (h.cores.filter (· == core)).map fun _ => (h.waves, h.acc)
    decide (there.length ≤ 4) && (List.range 4).all (fun p => decide (there.foldl (fun k e => k + slotsOf e.1 p) 0 ≤ 16)) &&
      decide (there.foldl (fun k e => k + e.2) (0 : Nat) ≤ 16)) &&
  (sliceClusters sl).all (fun cl => decide ((hs.filter fun h => h.cluster == cl).foldl (fun k h => k + h.resCluster) 0 ≤ reserveMax)) &&
  decide (hs.foldl (fun k h => k + h.resSlice) 0 ≤ reserveMax) && barsApart hs

/-- Whether new holds fit beside others at every time at which one begins. -/
def feasible (new others : List Occ) : Bool :=
  let all := new ++ others
  new.all fun o => (all.filter fun p => o.at p.start || p.start == o.start).all fun p =>
    holdsOk (o.hold.cluster / 2) ((all.filter fun q => q.at p.start).map Occ.hold)

/-- A gang that a plan must provide for: its cycles left to run, when it may start, and what it holds if it runs now. -/
structure Want where
  index : Nat
  trailing : Bool
  run : Nat
  from_ : Nat
  held : Option Hold
  deriving DecidableEq, Repr, Inhabited

/-- The roles of the gangs of one index. -/
def rolesOf (r : BitVec 2048) : List Bool := if recPair r then [false, true] else [false]

/-- The gangs of a launch that have not ended. A gang that holds slots stays where it is; one that is saved has run its progress. -/
def State.wants (s : State) (seq : DWord) (l : Launch) : List Want :=
  (List.range (recGangs l.record)).flatMap fun i => (rolesOf l.record).filterMap fun t =>
    match (s.gangsOf seq).find? fun e => e.2.index == i && e.2.trailing == t with
    | some (_, g) =>
      let left := recCost l.record - s.progressOf g
      some (match g.state with
        | .saved => { index := i, trailing := t, run := left, from_ := s.mtime, held := none }
        | .flushing _ => { index := i, trailing := t, run := recCost l.record, from_ := s.mtime, held := none }
        | _ => { index := i, trailing := t, run := left, from_ := s.mtime, held := some g.hold })
    | none =>
      if i ≥ l.next ∨ l.again.contains i then some { index := i, trailing := t, run := recCost l.record, from_ := s.mtime, held := none }
      else none

/-- The wants of a launch that is not accepted yet. -/
def freshWants (r : BitVec 2048) (now : Nat) : List Want :=
  (List.range (recGangs r)).flatMap fun i => (rolesOf r).map fun t =>
    { index := i, trailing := t, run := recCost r, from_ := now, held := none }

/-- The entry of a plan for a want. -/
def entryFor (plan : List PlanEntry) (w : Want) : Option PlanEntry := plan.find? fun e => e.index == w.index && e.trailing == w.trailing

/-- The holds of a plan. -/
def State.planOccs (s : State) (n : Needs) (ws : List Want) (plan : List PlanEntry) : List Occ :=
  ws.filterMap fun w => (entryFor plan w).map fun e =>
    let start := max e.start w.from_
    match w.held with
    | some h => { hold := h, start := s.mtime, stop := some (s.mtime + nsOf w.run (s.clusterMhz h.cluster)) }
    | none => { hold := planHold e n, start, stop := some (start + nsOf w.run (s.clusterMhz e.cluster)) }

/-- Whether a gang that starts at a time ends 25 us before a bound counted from `a`: t + run / f ≤ a + bound - 25 us (R362). -/
def endsInTime (start run mhz a bound : Nat) : Bool := decide (start * mhz + run * 1000 + 25000 * mhz ≤ (a + bound) * mhz)

/-- Whether one gang of a plan has a cluster with its slots in service, starts in time and ends in time. -/
def State.entryOk (s : State) (r : BitVec 2048) (n : Needs) (a : Nat) (w : Want) (e : PlanEntry) : Bool :=
  match w.held with
  | some h => e.cluster == h.cluster && endsInTime s.mtime w.run (s.clusterMhz h.cluster) a (recBound r)
  | none =>
    decide (e.cluster < 32) && decide (e.cores.length = n.crews) && decide (e.cores.eraseDups.length = n.crews) &&
    (e.cores.all fun c => decide (c / 4 = e.cluster) && s.regs.service.getLsbD c) && decide (e.barbase + n.barriers ≤ 64) &&
    decide (w.from_ ≤ e.start) && endsInTime e.start w.run (s.clusterMhz e.cluster) a (recBound r)

/-- Gangs that a placement code binds at once (R360, R361). -/
def boundAtOnce (code : Nat) (a b : PlanEntry) : Bool :=
  match code with
  | 0 => a.index == b.index
  | 1 => a.index / 2 == b.index / 2
  | _ => true

/-- Whether a plan gives every gang of a launch a cluster and a start time that meet R362, its placement with them. `fresh` says that
no gang of the launch has been bound yet. -/
def State.planShape (s : State) (r : BitVec 2048) (n : Needs) (a : Nat) (fresh : Bool) (ws : List Want) (plan : List PlanEntry) : Bool :=
  decide (plan.length = ws.length) &&
  (ws.all fun w => match entryFor plan w with
    | some e => s.entryOk r n a w e
    | none => false) &&
  setOk (recPlacement r) (plan.map fun e => { index := e.index, trailing := e.trailing, cluster := e.cluster }) [] &&
  (!fresh || plan.all fun e => plan.all fun f => !boundAtOnce (recPlacement r) e f || e.start == f.start)

/-- Whether a launch has a plan that counts. -/
def Launch.planned (l : Launch) : Bool := recBounded l.record && l.done.isNone && l.failed.isNone

/-- What accepted bounded launches have reserved for gangs that do not hold slots, with their launch (R362). -/
def State.reserved (s : State) (but : List DWord) : List (Launch × Occ) :=
  s.launches.flatMap fun (q, l) =>
    if l.planned && !but.contains q then
      (s.planOccs (needsOf l.record l.table) ((s.wants q l).filter fun w => w.held.isNone) l.plan).map fun o => (l, o)
    else []

/-- When a gang that holds slots is to be out of them: as a plan intends, or at the end of a bounded one's run. -/
def State.outAt (s : State) (freeing : List Victim) (g : Nat) (gg : Gang) : Option Nat :=
  match freeing.find? fun v => v.gang == g with
  | some v => some v.free
  | none =>
    match s.launchOf gg with
    | some l => if l.planned then some (s.mtime + nsOf (recCost l.record - s.progressOf gg) (s.clusterMhz gg.place.cluster)) else none
    | none => none

/-- The pre-emptions that accepted launches intend. -/
def State.intended (s : State) : List Victim := s.launches.flatMap fun e => if e.2.planned then e.2.victims else []

/-- Everything in place or reserved, the launches in `but` left out: the slots that R362 counts. -/
def State.occs (s : State) (but : List DWord) (freeing : List Victim) : List Occ :=
  (s.holders.filter fun e => !but.contains e.2.seq).map (fun e =>
    { hold := e.2.hold, start := s.mtime, stop := s.outAt (freeing ++ s.intended) e.1 e.2 }) ++ (s.reserved but).map Prod.snd

/-! ### The three options of a pre-emption (R369, R370) -/

/-- An option with its delay and waste in 64ths of a cycle. -/
structure Choice where
  option : Nat
  delay : Nat
  waste : Nat
  deriving DecidableEq, Repr, Inhabited

def optDrain : Nat := 0
def optSave : Nat := 1
def optFlush : Nat := 2

/-- The wave save points of a gang's code (R374). -/
def State.wavePoints (s : State) (g : Gang) : List SavePoint :=
  match s.codeOf g with
  | some c => c.savepoints.filter fun p => !p.lead
  | none => []

/-- Whether a split stands where its wave can be saved (R199): parked at a save point, or waiting in a way that does not hold back
pre-emption (R41, R269). -/
def SplitWait.atSave : SplitWait → Bool
  | .savept _ => true
  | .bar _ => true
  | .waita _ => true
  | .bwait => true
  | .forwardAddr => true
  | .queue _ => true
  | .post => true
  | .collector => true
  | .page _ => true
  | _ => false

/-- Whether a wave is at its save point (R199). -/
def Wave.atSave (w : Wave) : Bool := w.ended || (!w.splits.isEmpty && w.splits.all fun e => e.2.wait.atSave)

/-- Whether a lead context is at its save point (R372); EXIT that waits for tokens counts as a token stall, a stall for room in the queue
of a unit or of the copy engine does not (log 27). -/
def Lead.atSave (l : Lead) : Bool :=
  l.exited || match l.wait with
    | .savept _ => true
    | .token _ => true
    | .ops => true
    | .dqFull _ => true
    | .rqEmpty => true
    | .collective _ _ => true
    | .waita _ _ _ _ _ _ _ _ => true
    | .bwait => true
    | .forwardAddr => true
    | _ => false

/-- The waves of a gang. -/
def State.wavesOf (s : State) (g : Nat) : List (WaveKey × Wave) := s.waves.filter fun e => e.1.gang == g
def State.leadsOf (s : State) (g : Nat) : List (CrewKey × Lead) := s.leads.filter fun e => e.1.gang == g

/-- The largest interval of some wave save points; the limit of R371 where there are none (R369). -/
def longestInterval (ps : List SavePoint) : Nat :=
  match ps with
  | [] => 150000
  | ps => ps.foldl (fun m p => max m p.interval.toNat) 0

/-- The largest live set of some wave save points; every register where there are none (R369). -/
def mostLive (ps : List SavePoint) : Nat :=
  match ps with
  | [] => 128
  | ps => ps.foldl (fun m p => max m (popCount 128 p.vlive.toNat)) 0

/-- The interval I of R369. -/
def State.saveInterval (s : State) (g : Nat) (gg : Gang) : Nat :=
  if (s.wavesOf g).all fun e => e.2.atSave then 0 else longestInterval (s.wavePoints gg)

/-- The bytes B of R369. -/
def State.saveBytes (s : State) (g : Nat) (gg : Gang) : Nat :=
  let most := mostLive (s.wavePoints gg)
  let waves := (s.wavesOf g).foldl (fun n e => n + 128 * min (popCount 128 e.2.dirty.toNat) most) 0
  waves + gg.usedSpace false + gg.usedSpace true + 20480 * gg.acc * 4 * gg.crews

/-- The bytes Lg of R369. -/
def State.logBytes (gg : Gang) (cls : Nat) : Nat := if cls = 1 then (gg.ckpt.map fun l => 128 * l.length).getD 0 else 0

/-- The options that a victim's class allows, in the order of ties. -/
def State.choices (s : State) (g : Nat) (gg : Gang) (r : BitVec 2048) : List Choice :=
  let progress := s.progressOf gg
  let bytes := s.saveBytes g gg
  [{ option := optDrain, delay := 64 * (recCost r - progress), waste := 0 },
   { option := optSave, delay := 64 * s.saveInterval g gg + bytes, waste := 2 * bytes }] ++
  (if recRestart r = 2 then []
   else [{ option := optFlush, delay := 64 * 1200, waste := 64 * (progress + 1200) + State.logBytes gg (recRestart r) }])

/-- The lowest clock among the clusters of a plan: f_R of R370. -/
def State.planMhz (s : State) (plan : List PlanEntry) : Nat :=
  match plan.map fun e => s.clusterMhz e.cluster with
  | [] => 0
  | f :: fs => fs.foldl min f

/-- Who asks for slots: the record, the time of acceptance and the plan of the requester (R370). -/
structure Asker where
  record : BitVec 2048
  accepted : Nat
  plan : List PlanEntry
  deriving DecidableEq, Repr, Inhabited

def Launch.asker (l : Launch) : Asker := { record := l.record, accepted := l.accepted, plan := l.plan }

/-- Whether an option meets the requester's slack a + bound - 25 us - now - cost / f_R, its delay taken at the victim's clock `f`
(R369, R370). -/
def State.meets (s : State) (r : Asker) (f : Nat) (c : Choice) : Bool :=
  if recBounded r.record then
    let fr := s.planMhz r.plan
    decide ((c.delay : Int) * 1000 * fr ≤
      64 * f * (((r.accepted + recBound r.record : Int) - 25000 - s.mtime) * fr - recCost r.record * 1000))
  else decide (c.delay * 1000 ≤ 64 * 1000000 * f)

/-- The first choice with the least measure. -/
def leastBy (f : Choice → Nat) : List Choice → Option Choice
  | [] => none
  | c :: cs =>
    match leastBy f cs with
    | some d => if f d < f c then some d else some c
    | none => some c

/-- The option for a victim (R370). -/
def State.chooseOption (s : State) (r : Asker) (g : Nat) (gg : Gang) (v : Launch) : Option Choice :=
  let cs := s.choices g gg v.record
  match leastBy Choice.waste (cs.filter (s.meets r (s.clusterMhz gg.place.cluster))) with
  | some c => some c
  | none => leastBy Choice.delay cs

/-- Nanoseconds until a choice has freed the victim's slots. -/
def Choice.ns (c : Choice) (mhz : Nat) : Nat := ceilDiv (c.delay * 1000) (64 * mhz)

/-- Whether a gang may be a victim of a requester: running, of lower priority, and bounded only for a bounded requester (R363,
R368). -/
def State.mayYield (s : State) (r : BitVec 2048) (g : Nat) : Bool :=
  match s.gang g with
  | none => false
  | some gg =>
    match s.launchOf gg with
    | none => false
    | some v => gg.state == .running && decide (recPriority v.record < recPriority r) && (!recBounded v.record || recBounded r)

/-- What a bounded victim's launch wants once a choice is made for the victim's gangs: the remaining run after a drain or a save, the
whole cost after a flush, and no start before the delay has passed (R363). -/
def State.wantsAfter (s : State) (seq : DWord) (v : Launch) (g : Nat) (c : Choice) : List Want :=
  let mine := (s.together g).filterMap s.gang
  (s.wants seq v).map fun w =>
    match mine.find? fun gg => gg.index == w.index && gg.trailing == w.trailing with
    | some gg =>
      let free := s.mtime + c.ns (s.clusterMhz gg.place.cluster)
      if c.option = optDrain then w
      else if c.option = optFlush then { w with run := recCost v.record, from_ := free, held := none }
      else { w with from_ := free, held := none }
    | none => w

/-- The holds of a victim's launch by its new plan, where that is a full plan for it (R363); none where it is not. -/
def State.victimPlan (s : State) (r : Asker) (v : Victim) : Option (List Occ) :=
  match s.gang v.gang with
  | none => none
  | some gg =>
    match s.launchOf gg with
    | none => none
    | some l =>
      match s.chooseOption r v.gang gg l with
      | none => none
      | some c =>
        let ws := s.wantsAfter gg.seq l v.gang c
        let n := needsOf l.record l.table
        if s.planShape l.record n l.accepted false ws v.plan then some (s.planOccs n ws v.plan) else none

/-- The launch of a victim, where it is bounded: its plan is replaced. -/
def State.boundedSeq (s : State) (v : Victim) : Option DWord :=
  match s.gang v.gang with
  | none => none
  | some gg => (s.launchOf gg).bind fun l => if recBounded l.record then some gg.seq else none

/-- Whether a victim can be out of its slots when the plan says. -/
def State.victimOk (s : State) (r : Asker) (v : Victim) : Bool :=
  s.mayYield r.record v.gang &&
  match s.gang v.gang with
  | none => false
  | some gg =>
    match (s.launchOf gg).bind fun l => s.chooseOption r v.gang gg l with
    | none => false
    | some c => decide (s.mtime + c.ns (s.clusterMhz gg.place.cluster) ≤ v.free)

/-- Whether the control plane holds a plan for a bounded launch: every gang ends in time, the intended victims may be taken and are
out in time, each bounded victim has a new plan, and every slot is free when it is wanted, those that earlier launches have reserved
left to them (R362, R363). -/
def State.admits (s : State) (r : BitVec 2048) (n : Needs) (a : Admit) : Bool :=
  let asker : Asker := { record := r, accepted := s.mtime, plan := a.gangs }
  let ws := freshWants r s.mtime
  let replaced := a.victims.filterMap s.boundedSeq
  let victims := a.victims.filter fun v => (s.boundedSeq v).isSome
  decide (a.gangs.length = recTotal r) && s.planShape r n s.mtime true ws a.gangs &&
  (a.victims.all fun v => s.victimOk asker v && (s.together v.gang).all fun g => a.victims.any fun u => u.gang == g) &&
  (victims.all fun v => (s.victimPlan asker v).isSome) && decide (replaced.eraseDups.length = replaced.length) &&
  feasible (s.planOccs n ws a.gangs ++ victims.flatMap fun v => (s.victimPlan asker v).getD []) (s.occs replaced a.victims)

/-- Outcomes of the decision at acceptance (R39, R152). -/
inductive Verdict where
  | malformed
  | refused
  | accepted
  deriving DecidableEq, Repr, Inhabited

/-- The decision on a record. -/
def State.verdict (s : State) (r : BitVec 2048) (host : Bool) (table : List (BitVec 256)) (a : Admit) : Verdict :=
  if s.malformed r host table then .malformed
  else if !placeable r table || (recBounded r && !s.admits r (needsOf r table) a) then .refused
  else .accepted

/-! ### What waits, and in which order (R359) -/

/-- Gangs that bind at once: a launch, whether they are restored from a save, and their indices. -/
structure Unbound where
  seq : DWord
  saved : Bool
  ixs : List Nat
  deriving DecidableEq, Repr, Inhabited

/-- The indices of the gangs that a launch binds next (R360). -/
def freshSet (r : BitVec 2048) (next : Nat) : List Nat :=
  let left := recGangs r - next
  if left = 0 then []
  else if recPlacement r = 0 then [next]
  else if recPlacement r = 1 then upFrom next (min 2 left)
  else upFrom next left

/-- The indices of a launch's saved gangs. -/
def State.savedOf (s : State) (q : DWord) : List Nat :=
  ((s.gangsOf q).filter fun e => e.2.state == .saved && !e.2.trailing).map fun e => e.2.index

/-- What a launch waits to bind. -/
def State.unboundOf (s : State) (q : DWord) (l : Launch) : List Unbound :=
  if l.done.isSome || l.failed.isSome || !s.depsMet l then []
  else
    (s.savedOf q).map (fun i => { seq := q, saved := true, ixs := [i] }) ++
    l.again.map (fun i => { seq := q, saved := false, ixs := [i] }) ++
    (match freshSet l.record l.next with
    | [] => []
    | is => [{ seq := q, saved := false, ixs := is }])

/-- Everything that waits to be bound. -/
def State.unbound (s : State) : List Unbound := s.launches.flatMap fun e => s.unboundOf e.1 e.2

/-- The place in the order of service: priority, saved first, sequence number, gang index. -/
def State.rank (s : State) (u : Unbound) : List Nat :=
  [15 - ((s.launch u.seq).map fun l => recPriority l.record).getD 0, if u.saved then 0 else 1, u.seq.toNat, u.ixs.headD 0]

/-- Lexicographic order of lists of numbers. -/
def lexLt : List Nat → List Nat → Bool
  | a :: as, b :: bs => decide (a < b) || (a == b && lexLt as bs)
  | _, _ => false

/-- What stands first in the order. -/
def State.firstUnbound (s : State) : Option Unbound :=
  s.unbound.foldl (fun best u => match best with
    | none => some u
    | some b => if lexLt (s.rank u) (s.rank b) then some u else best) none

/-- Whether a waiting set is one gang, or pair, that was bound before. -/
def State.wasBound (s : State) (u : Unbound) : Bool :=
  u.saved || ((s.launch u.seq).map fun l => l.again.contains (u.ixs.headD 0)).getD false

/-- The clusters on which a waiting set can be bound in a room; none where it does not fit. A set that was bound before keeps the
placement of the gangs of its launch (R375, R376). -/
def State.fitsIn (s : State) (m : Room) (u : Unbound) : Option (List Nat) :=
  match s.launch u.seq with
  | none => none
  | some l =>
    let n := needsOf l.record l.table
    let code := recPlacement l.record
    if s.wasBound u then
      let i := u.ixs.headD 0
      let old := s.seatsOf u.seq !u.saved
      let able := (List.range 32).filter (m.takes n)
      let seat (t : Bool) (c : Nat) : Seat := { index := i, trailing := t, cluster := c }
      if recPair l.record then
        able.findSome? fun a => (able.find? fun b => setOk code [seat false a, seat true b] old).map fun b => [a, b]
      else (able.find? fun a => setOk code [seat false a] old).map fun a => [a]
    else m.set n code (recPair l.record) u.ixs.length

/-- Nanoseconds after which a waiting gang, bound now on a cluster, would have ended or could be pre-empted for another launch of some
priority: the drain of R369, or, for a higher priority, the least of its options, its state taken at the greatest it can be (log 36). -/
def State.stay (s : State) (u : Unbound) (priority cl : Nat) : Nat :=
  match s.launch u.seq with
  | none => 0
  | some l =>
    let r := l.record
    let n := needsOf r l.table
    let saved := (s.gangsOf u.seq).find? fun e => e.2.state == .saved && u.ixs.contains e.2.index
    let drain := 64 * (recCost r - if u.saved then (saved.map fun e => s.progressOf e.2).getD 0 else 0)
    let points := match s.codeObjs.find? fun c => c.addr == recCode r with
      | some c => c.savepoints.filter fun p => !p.lead
      | none => []
    let save := 64 * longestInterval points + 128 * 128 * n.waves * n.crews + n.cluster + n.slice + 20480 * n.acc * 4 * n.crews
    let least := if recBounded r || priority ≤ recPriority r then drain
      else if recRestart r = 2 then min drain save else min (min drain save) (64 * 1200)
    ceilDiv (least * 1000) (64 * s.clusterMhz cl)

/-- What stands now. -/
def State.roomNow (s : State) : Room := { service := s.regs.service, holds := s.holders.map fun e => e.2.hold, closed := [] }

/-- The intended place while its waiting set is still the first. -/
def State.intentNow (s : State) : Option Intent :=
  s.intent.filter fun t => s.firstUnbound.any fun u => u.seq == t.seq && u.ixs == t.ixs

/-- What is free for a waiting set: the slots that other accepted bounded launches have reserved are not, but for a stay that ends
before (R362), and neither is the place on which the scheduler intends to bind the first (R359). -/
def State.roomFor (s : State) (u : Unbound) : Room :=
  let kept := (s.reserved [u.seq]).filter fun e =>
    decide (s.mtime + s.stay u (recPriority e.1.record) e.2.hold.cluster > e.2.start)
  let closed := match s.intentNow with
    | none => []
    | some t =>
      if t.seq = u.seq && t.ixs == u.ixs then []
      else
        let p := ((s.launch t.seq).map fun l => recPriority l.record).getD 0
        t.clusters.filter fun cl => decide (s.mtime + s.stay u p cl > t.freeAt)
  { service := s.regs.service, holds := s.holders.map (fun e => e.2.hold) ++ kept.map fun e => e.2.hold, closed }

/-- Whether a waiting set can bind now (R359, R360, R367). -/
def State.fitsNow (s : State) (u : Unbound) : Bool := (s.fitsIn (s.roomFor u) u).isSome

/-- Whether nothing that stands earlier in the order and fits now is passed over (R359). -/
def State.inTurn (s : State) (u : Unbound) : Bool := s.unbound.all fun v => !lexLt (s.rank v) (s.rank u) || !s.fitsNow v

/-! ### The intended place (R359) -/

/-- When a gang that holds slots is expected to be out of them: at the end of its cost; where the first waiting launch may pre-empt it,
after the shortest of its options (log 36). -/
def State.expectOut (s : State) (r : BitVec 2048) (g : Nat) (gg : Gang) : Nat :=
  match s.launchOf gg with
  | none => s.mtime
  | some l =>
    let f := s.clusterMhz gg.place.cluster
    let cs := s.choices g gg l.record
    let delay := if s.mayYield r g && !recBounded l.record then ((leastBy Choice.delay cs).map Choice.delay).getD 0
      else 64 * (recCost l.record - s.progressOf gg)
    if gg.state.stopping then s.mtime else s.mtime + ceilDiv (delay * 1000) (64 * f)

/-- The room at a later time, for a waiting set: the gangs that are expected to stand then. -/
def State.roomAt (s : State) (u : Unbound) (r : BitVec 2048) (t : Nat) (only : Option (List Nat)) : Room :=
  { service := s.regs.service,
    holds := (s.holders.filter fun e => decide (s.expectOut r e.1 e.2 > t)).map (fun e => e.2.hold) ++
      ((s.reserved [u.seq]).filter fun e => e.2.at t).map fun e => e.2.hold,
    closed := match only with
      | none => []
      | some cs => (List.range 32).filter fun c => !cs.contains c }

/-- The least of some times at which a set fits, with its clusters. -/
def State.soonest (s : State) (u : Unbound) (r : BitVec 2048) (only : Option (List Nat)) : Option (Nat × List Nat) :=
  let times := s.mtime :: s.holders.map fun e => s.expectOut r e.1 e.2
  times.foldl (fun best t =>
    if (best.map fun b => decide (b.1 ≤ t)).getD false then best
    else
      match s.fitsIn (s.roomAt u r t only) u with
      | some cs => some (t, cs)
      | none => best) none

/-- The intent as a decision of the scheduler finds it: fixed when a set becomes first and does not fit, on the place expected to be
free soonest, and moved only to a place that would be free sooner (R359). -/
def State.aim (s : State) : State :=
  match s.firstUnbound with
  | none => { s with intent := none }
  | some u =>
    match s.launch u.seq with
    | none => { s with intent := none }
    | some l =>
      match s.soonest u l.record none with
      | none => { s with intent := none }
      | some (t, cs) =>
        let fresh : Intent := { seq := u.seq, ixs := u.ixs, clusters := cs, freeAt := t }
        match s.intent with
        | none => { s with intent := some fresh }
        | some old =>
          if old.seq = u.seq && old.ixs == u.ixs then
            match s.soonest u l.record (some old.clusters) with
            | none => { s with intent := some fresh }
            | some (k, _) => { s with intent := some (if t < k then fresh else { old with freeAt := k }) }
          else { s with intent := some fresh }

/-! ### A place (R366, R367) -/

/-- The frames of a crew: addresses with sizes (R176, R373). -/
def frameRanges (waves : Nat) (c : CrewPlace) : List (Nat × Nat) := [(c.lframe.toNat, 1024), (c.wframe.toNat, 32768 * waves)]

/-- The retained records (R350). -/
def State.retainedRanges (s : State) : List (Nat × Nat) :=
  (s.launches.filter fun e => e.2.done.isNone).map fun e => (e.2.retained, 256)

/-- The physical ranges that programs and the control plane use: mapped pages, frames, retained records. -/
def State.usedRanges (s : State) : List (Nat × Nat) :=
  s.pages.map (fun p => (p.pa, p.size)) ++ s.gangs.flatMap (fun e => e.2.place.crews.flatMap (frameRanges e.2.waves)) ++ s.retainedRanges

/-- Whether a record can be retained at an address: in local memory and apart from all that is used (R350, log 36). -/
def State.retainsAt (s : State) (at_ : Nat) : Bool :=
  decide (at_ + 256 ≤ localSize) && s.usedRanges.all fun b => apart at_ 256 b.1 b.2

/-- Whether the frames of a crew are aligned, in local memory, and apart from all that is used. -/
def State.framesFree (s : State) (waves : Nat) (c : CrewPlace) : Bool :=
  c.lframe.toNat % 1024 == 0 && c.wframe.toNat % 32768 == 0 &&
  (frameRanges waves c).all (fun a => decide (a.1 + a.2 ≤ localSize) && s.usedRanges.all fun b => apart a.1 a.2 b.1 b.2) &&
  apart c.lframe.toNat 1024 c.wframe.toNat (32768 * waves)

/-- Whether the frames of the crews of one place are apart from each other. -/
def framesApart (waves : Nat) : List CrewPlace → Bool
  | [] => true
  | c :: cs =>
    (frameRanges waves c).all (fun a => cs.all fun d => (frameRanges waves d).all fun b => apart a.1 a.2 b.1 b.2) &&
    framesApart waves cs

/-- The fault-record areas of a crew, one for each context (R131, R174). -/
def CrewPlace.frecs (c : CrewPlace) : List (BitVec 49) := c.leadFrec :: c.waveFrecs

/-- Whether every context of a place has a fault-record area of its own: 256 bytes that are mapped to be written, no area used twice
(R171, R174, R200, log 14). -/
def State.frecsOk (s : State) (waves : Nat) (p : GangPlace) : Bool :=
  let mine := p.crews.flatMap CrewPlace.frecs
  let others := s.gangs.flatMap fun e => e.2.place.crews.flatMap CrewPlace.frecs
  (p.crews.all fun c => decide (c.waveFrecs.length = waves)) && decide (mine.eraseDups.length = mine.length) &&
  mine.all fun a => !others.contains a && match s.pieces .write 257 (256 * a.toNat) 256 with
    | .ok _ => true
    | .error (.away _) => true
    | .error _ => false

/-- Whether a place is one where a gang of these needs can be bound in a room. -/
def State.placeFits (s : State) (m : Room) (n : Needs) (p : GangPlace) (frames : Bool) : Bool :=
  let positions := s.holders.flatMap fun e => e.2.place.crews.map fun c => (c.core, c.pos)
  decide (p.cluster < 32) && decide (p.crews.length = n.crews) && decide ((p.crews.map CrewPlace.core).eraseDups.length = n.crews) &&
  (p.crews.all fun c => decide (c.core / 4 = p.cluster) && decide (c.pos < 4) && !positions.contains (c.core, c.pos) &&
    decide (m.core n c.core ≥ 1) && (!frames || s.framesFree n.waves c)) &&
  (!frames || (framesApart n.waves p.crews && s.frecsOk n.waves p)) && m.takes n p.cluster &&
  decide (p.barbase + n.barriers ≤ 64) && (upFrom p.barbase n.barriers).all (m.barFree p.cluster)

/-- Whether the needs of a saved gang can still be met by cores in service (R375). -/
def State.meetable (s : State) (g : Gang) : Bool :=
  let able := (List.range 32).filter fun cl =>
    decide (((upFrom (4 * cl) 4).filter fun c => s.regs.service.getLsbD c).length ≥ g.crews)
  if g.pair.isSome then (twoColumns (· / 4) able).isSome else !able.isEmpty

/-- Saved gangs whose needs no cores in service can meet end with restore_capacity (R375). -/
def State.capacityCheck (s : State) : State :=
  (s.gangs.filter fun e => e.2.state == .saved && !s.meetable e.2).foldl (fun s e => s.endByFault e.1 .restoreCapacity) s

/-! ### New plans (R364, R385, R419) -/

/-- A new plan for an accepted bounded launch takes effect if it is one; else the launch keeps what it has and runs on. -/
def State.replan (s : State) (seq : DWord) (plan : List PlanEntry) : State :=
  match s.launch seq with
  | none => s
  | some l =>
    let n := needsOf l.record l.table
    let ws := s.wants seq l
    if l.planned && s.planShape l.record n l.accepted false ws plan && feasible (s.planOccs n ws plan) (s.occs [seq] []) then
      s.setLaunch seq { l with plan }
    else s

end Sys2Proof.Machine
end

