-- ==== Sys2Proof/Machine/SchedEvents.lean ====
section
/-!
DEFINITION. The scheduler's steps on launches: consumption and acceptance (R154, R350, R356), cancelling (R358), binding and
starting (R367, R377), and overrun (R40).
-/

namespace Sys2Proof.Machine

/-! ### Acceptance -/

/-- New plans for the launches of some victims (R363). -/
def State.takePlans (s : State) (vs : List Victim) : State :=
  vs.foldl (fun s v => match s.boundedSeq v with
    | some q => s.modLaunch q fun l => { l with plan := v.plan }
    | none => s) s

/-- Accept a launch: it takes the next number, its record is copied into device memory and retained there (R350, R354), and a bounded
one has its plan from now on, its intended victims theirs (R362, R363). -/
def State.accept (s : State) (r : BitVec 2048) (origin : Origin) (scope : Nat) (table : List (BitVec 256)) (a : Admit) : DWord × State :=
  let seq : DWord := BitVec.ofNat 64 (s.accseq + 1)
  let bounded := recBounded r
  let l : Launch :=
    { record := r, retained := a.retained, origin, scope, accepted := s.mtime, next := 0, again := [], endedOk := 0,
      failed := none, done := none, table, mismatches := [], errors := [], reruns := 0,
      plan := if bounded then a.gangs else [], victims := if bounded then a.victims else [], pages := [] }
  let s := if bounded then s.takePlans a.victims else s
  (seq, (({ s with regs := { s.regs with accepted := s.regs.accepted + 1 } }.setLaunch seq l).wrNat a.retained 256 r.toNat))

/-- Write a sequence number into a record's dseq field and wake whoever waits there (R154). -/
def State.writeDseq (s : State) (at_ : Nat) (seq : DWord) : State :=
  ((s.wrNat at_ 8 seq.toNat).wakeAt s.waiters.length at_ fun _ => true).2

/-- Offset of the dseq field in a record (R150). -/
def dseqOff : Nat := 112

/-- The table of a record as acceptance reads it: none where a page is away; one that cannot be read makes the record malformed
(log 21). -/
def State.tableOf (s : State) (r : BitVec 2048) : Option (List (BitVec 256)) :=
  match s.readTable r with
  | .ok t => some t
  | .error (.away _) => none
  | .error _ => some [BitVec.allOnes 256]

/-- Whether every gang that issued a LAUNCH has an operation for it: both gangs of a pair (R394). -/
def State.launchIssued (s : State) (sub : Nat) (k : CrewKey) : Bool :=
  match s.gang k.gang with
  | none => false
  | some g => decide ((s.launchOps sub).length = if g.pair.isSome then 2 else 1)

/-- LAUNCH_ACCEPT: a LAUNCH is accepted, refused or malformed; on acceptance its number is written into the record's dseq field
and whoever waits there is woken (R152 to R154). -/
def execLaunchAccept (sub : Nat) (a : Admit) (s : State) : Host.Outcome State Fault Refusal :=
  match tabGet s.subs sub with
  | none => .next s
  | some b =>
    match s.tableOf b.record with
    | none => .next s
    | some table =>
      if s.regs.boot ≠ .ready ∨ !s.launchIssued sub b.crew ∨ !s.retainsAt a.retained then .next s
      else
        let v := s.verdict b.record false table a
        let s := { s with subs := tabDel s.subs sub }
        match v with
        | .malformed => .next (s.launchTokens sub (launchToken 0 { kind := 2, fault := 0 }))
        | .refused => .next (s.launchTokens sub (launchToken 0 { kind := 1, fault := 0 }))
        | .accepted =>
          let (seq, s) := s.accept b.record (.lead b.crew sub) b.scope table a
          .next (s.writeDseq b.addr seq).settle

/-! ### Host queues (R350, R351) -/

/-- Records that a queue has consumed and not completed. -/
def State.consumedOf (s : State) (q : Nat) : Nat :=
  (s.launches.filter fun e => e.2.origin == .host q && e.2.done.isNone).length

/-- Whether a record of a queue may be consumed (R351). -/
def State.mayConsume (s : State) (q : Nat) : Bool :=
  match s.queues.toList[q]? with
  | none => false
  | some k => k.enable && k.sqhead != k.sqtail && decide ((k.cqtail - k.cqhead).toNat + s.consumedOf q < 2 ^ k.size.toNat)

/-- The queue that is next in rotating order. -/
def State.nextQueue (s : State) : Option Nat := ((List.range 64).map fun i => (s.regs.turn + i) % 64).find? s.mayConsume

/-- The scope code of device, which a host record's scope field 0 stands for (R52, R150). -/
def deviceScope : Nat := 8

/-- RECORD_CONSUME: one record is copied, decided, and sqhead goes past it (R350 to R353). -/
def execRecordConsume (q : Nat) (a : Admit) (s : State) : Host.Outcome State Fault Refusal :=
  match s.queues.toList[q]? with
  | none => .next s
  | some k =>
    if s.regs.boot ≠ .ready ∨ s.nextQueue ≠ some q ∨ !s.retainsAt a.retained then .next s
    else
      let slot := hostKey (k.sqbase.toNat + 256 * (k.sqhead.toNat % 2 ^ k.size.toNat))
      let r : BitVec 2048 := BitVec.ofNat 2048 (s.rdNat slot 256)
      match s.tableOf r with
      | none => .next s
      | some table =>
        let v := s.verdict r true table a
        let s := s.modQueue q fun k => { k with lasthseq := BitVec.ofNat 64 (recHseq r), sqhead := k.sqhead + 1 }
        let s := { s with regs := { s.regs with turn := (q + 1) % 64 } }
        match v with
        | .malformed => .next (s.completionEntry q 0 (recHseq r) 0 0 2)
        | .refused => .next (s.completionEntry q 0 (recHseq r) 0 0 1)
        | .accepted =>
          let (seq, s) := s.accept r (.host q) (if recScope r = 0 then deviceScope else recScope r) table a
          .next (s.writeDseq (slot + dseqOff) seq).settle

/-! ### Cancelling (R358) -/

/-- Every accepted launch that is not complete ends with kind 6. -/
def State.cancelAll (s : State) : State :=
  let live := (s.launches.filter fun e => e.2.done.isNone).map Prod.fst
  (live.foldl (fun s q => s.failLaunch q { kind := 6, fault := 0 }) s).settle

/-- CANCEL_ALL. -/
def execCancelAll (s : State) : Host.Outcome State Fault Refusal := .next s.cancelAll

/-- CANCEL of a sequence number; all ones names every launch (R355). -/
def execCancel (seq : BitVec 64) (s : State) : Host.Outcome State Fault Refusal :=
  if seq = BitVec.allOnes 64 then .next s.cancelAll else .next (s.failLaunch seq { kind := 6, fault := 0 }).settle

/-- RETIRE: a core takes no new binds; saved gangs that no core can take end (R355, R375, R379). -/
def execRetire (n : BitVec 32) (s : State) : Host.Outcome State Fault Refusal :=
  if n.toNat < 128 ∧ s.regs.boot ≠ .recovery then
    .next { s with regs := { s.regs with service := s.regs.service &&& ~~~(BitVec.ofNat 128 (2 ^ n.toNat)) } }.capacityCheck
  else .next s

/-- When a launch that is not complete is ended by its bound: 25 us before it (R40). -/
def Launch.due (l : Launch) : Option Nat := if l.planned then some (l.accepted + recBound l.record - 25000) else none

/-- BOUND_OVERRUN: 25 us before its bound an incomplete bounded launch ends with kind 4 (R40). -/
def execBoundOverrun (seq : BitVec 64) (s : State) : Host.Outcome State Fault Refusal :=
  match s.launch seq with
  | none => .next s
  | some l =>
    match l.due with
    | none => .next s
    | some t => if t ≤ s.mtime then .next (s.failLaunch seq { kind := 4, fault := 0 }).settle else .next s

/-- The first launch that its bound ends up to a time, with when. -/
def State.firstDue (s : State) (now : Nat) : Option (DWord × Nat) :=
  s.launches.foldl (fun best e => match e.2.due with
    | none => best
    | some t =>
      if now < t || (best.map fun b => decide (b.2 ≤ t)).getD false then best else some (e.1, t)) none

/-- Time passes up to a moment: every bounded launch that is not complete 25 us before its bound ends at that moment, whatever else
is due (R39, R40). `fuel` bounds their number. -/
def State.passTo (s : State) (now fuel : Nat) : State :=
  match fuel with
  | 0 => { s with mtime := now }
  | fuel + 1 =>
    match s.firstDue now with
    | none => { s with mtime := now }
    | some (q, t) => (({ s with mtime := max s.mtime t }.failLaunch q { kind := 4, fault := 0 }).settle).passTo now fuel

/-- Nanoseconds pass; a collective word that waited takes effect where it can by now (R167). -/
def State.passTime (s : State) (dt : Nat) : State := (s.passTo (s.mtime + dt) s.launches.length).collectAll

/-! ### Binding (R367, R377) -/

/-- The bind records of a place, by slot (R365, R366). -/
def bindRecords (seq : DWord) (l : Launch) (n : Needs) (p : GangPlace) (resume : BitVec 64) : List (Nat × BindRec) :=
  p.crews.mapIdx fun i c => (4 * c.core + c.pos,
    { state := 1, resume, acc := n.acc, waves := n.waves, crew := i, barbase := p.barbase, gang := BitVec.ofNat 32 p.index,
      wframe := c.wframe, lframe := c.lframe, record := BitVec.ofNat 64 l.retained, dseq := seq })

/-- Write bind records into the slot table. -/
def setSlots (recs slots : List (Nat × BindRec)) : List (Nat × BindRec) := recs.foldl (fun t e => tabSet t e.1 e.2) slots

/-- The tiles of a table's entries, allocated and bound (R281). -/
def State.startTiles (s : State) : List (BitVec 256) → Except FaultCode (List (Nat × Handle))
  | [] => .ok []
  | e :: es => do
    let t := Tile.alloc (entRows e) (entCols e) (entFmt e) (entSlice e) (entPacked e)
    let t ← if entBind e = 0 then .ok t
      else if entBind e % 64 ≠ 0 then .error .misaligned
      else match s.mappedRw (t.size + 1) (entBind e) t.size with
        | .ok _ => .ok (t.bindTo (entBind e))
        | .error _ => .error .elementAccess
    let rest ← s.startTiles es
    return (entHandle e, .tile t) :: rest

/-- Bind one gang under an allocation number. A tile that cannot be bound ends it before any context starts (R281). -/
def State.bindGang (s : State) (g : Nat) (seq : DWord) (l : Launch) (n : Needs) (p : GangPlace) (pair : Option PairState) : State :=
  let gang : Gang :=
    { seq, index := p.index, trailing := p.trailing, state := .bound, place := p, crews := n.crews, waves := n.waves,
      barriers := n.barriers, phases := [], handles := [], resCluster := n.cluster, resSlice := n.slice, acc := n.acc, regions := [],
      ckpt := none, bindOrder := g, since := s.ticksOf p.cluster, progress := 0, saveSince := 0, pair }
  let s := { s with slots := setSlots (bindRecords seq l n p 0) s.slots }
  match s.startTiles (l.table.drop 1) with
  | .ok hs => s.setGang g { gang with handles := hs }
  | .error f => (s.setGang g gang).endByFault g f

/-- The seats of some places. -/
def seats (ps : List GangPlace) : List Seat := ps.map fun p => { index := p.index, trailing := p.trailing, cluster := p.cluster }

/-- Whether places are given for exactly a set of gangs, both roles of a pair. -/
def placesFor (ixs : List Nat) (pair : Bool) (ps : List GangPlace) : Bool :=
  let want := ixs.flatMap fun i => if pair then [(i, false), (i, true)] else [(i, false)]
  let have_ := ps.map fun p => (p.index, p.trailing)
  decide (have_.length = want.length) && want.all fun w => have_.contains w

/-- Bind places one after another; none where one does not fit. A pair's gangs know each other by the numbers of their places. -/
def State.bindAll (s : State) (u : Unbound) (seq : DWord) (l : Launch) (n : Needs) (all : List (GangPlace × Nat)) :
    List (GangPlace × Nat) → Option State
  | [] => some s
  | (p, g) :: ps =>
    if s.placeFits (s.roomFor u) n p true then
      let pair := if recPair l.record then
          (all.find? fun e => e.1.index == p.index && e.1.trailing != p.trailing).map fun e =>
            ({ peer := e.2, leading := !p.trailing, parties := [], buf := [], units := [] } : PairState)
        else none
      (s.bindGang g seq l n p pair).bindAll u seq l n all ps
    else none

/-- A bounded launch's plan follows its gangs to the places where they are bound. -/
def Launch.boundAt (l : Launch) (now : Nat) (places : List GangPlace) : Launch :=
  { l with plan := l.plan.map fun e =>
      match places.find? fun p => p.index == e.index && p.trailing == e.trailing with
      | some p => { e with cluster := p.cluster, cores := p.crews.map CrewPlace.core, barbase := p.barbase, start := now }
      | none => e }

/-- GANG_BIND: what stands first in the order of service and fits is bound, by bind records with resume 0 (R359 to R361, R367,
R377, R389). -/
def execGangBind (seq : BitVec 64) (places : List GangPlace) (s : State) : Host.Outcome State Fault Refusal :=
  let s := s.aim
  match s.launch seq with
  | none => .next s
  | some l =>
    match (s.unboundOf seq l).find? fun u => !u.saved && placesFor u.ixs (recPair l.record) places with
    | none => .next s
    | some u =>
      if s.regs.boot ≠ .ready ∨ s.regs.bindStop ∨ !s.inTurn u ∨ !setOk (recPlacement l.record) (seats places) (s.seatsOf seq true) then
        .next s
      else
        let all := places.mapIdx fun i p => (p, s.nextId + i)
        let was := l.again.contains (u.ixs.headD 0)
        let l := if was then { l with again := l.again.filter fun i => !u.ixs.contains i } else { l with next := l.next + u.ixs.length }
        let l := l.boundAt s.mtime places
        match ({ s with nextId := s.nextId + places.length }.setLaunch seq l).bindAll u seq l (needsOf l.record l.table) all all with
        | some t => .next t.settle
        | none => .next s

/-! ### Starting (R66, R132, R174, R175) -/

/-- The uniform registers of a crew as it starts: free values where the table cannot be read (R66, log 9); none where a page is
away. -/
def State.uniforms (s : State) (r : BitVec 2048) : Option (Vector Word 64) :=
  match s.rdVirt (recUniform r) 256 with
  | .ok bs => some (Vector.ofFn fun i : Fin 64 => BitVec.ofNat 32 (ofBytes ((bs.drop (4 * i.val)).take 4)))
  | .error (.away _) => none
  | .error _ => some (Vector.ofFn fun i : Fin 64 => BitVec.ofNat 32 (Config.freeNat (s.free + i.val)))

/-- A split that was parked for a save issues its word again. -/
def resumeSplit (p : Split) : Split :=
  match p.wait with
  | .savept _ => { p with wait := .none }
  | _ => p

def resumeLead (l : Lead) : Lead :=
  match l.wait with
  | .savept _ => { l with wait := .none }
  | _ => l

/-- Contexts parked at save points are released (R199, R371). -/
def State.releaseSaved (s : State) (g : Nat) : State :=
  let wave (e : WaveKey × Wave) : WaveKey × Wave :=
    if e.1.gang = g then (e.1, { e.2 with slot0 := e.2.slot0.map resumeSplit, slot1 := e.2.slot1.map resumeSplit }) else e
  let lead (e : CrewKey × Lead) : CrewKey × Lead := if e.1.gang = g then (e.1, resumeLead e.2) else e
  { s with waves := s.waves.map wave, leads := s.leads.map lead }

/-- A gang runs once every crew has started (R377). -/
def State.startGang (s : State) (g : Nat) : State :=
  match s.gang g with
  | none => s
  | some gg =>
    let started := (placeSlots gg.place).all fun n => ((tabGet s.slots n).map fun b => b.state == 2).getD false
    if started then
      ((s.setGang g { gg with state := .running, since := s.ticksOf gg.place.cluster }).releaseSaved g).collect g
    else s

/-- The contexts of a fresh crew. -/
def State.freshCrew (s : State) (k : CrewKey) (gg : Gang) (l : Launch) (c : CrewPlace) (us : Vector Word 64) : State :=
  let s := s.setCrew k (Crew.start c gg.place.cluster gg.waves gg.acc us)
  let s := s.setLead k (Lead.start (BitVec.ofNat 64 (recLeadEntry l.record)) c.leadFrec)
  (List.range gg.waves).foldl (fun s i =>
    s.setWave { gang := k.gang, crew := k.crew, wave := i } (Wave.start (BitVec.ofNat 64 (recWaveEntry l.record)) (c.waveFrecs.getD i 0))) s

/-- The first word of each context of a launch that a LAUNCH submitted starts with an acquire at its scope: of what its parent released
into the submission (R30, R155). -/
def State.acquireSub (s : State) (k : CrewKey) (waves : Nat) (l : Launch) : State :=
  match l.origin with
  | .host _ => s
  | .lead p sub =>
    if s.crewsShare l.scope p (s.clusterOf p) k then
      (List.range waves).foldl (fun s i => s.acquire (.sub sub) (.wave { gang := k.gang, crew := k.crew, wave := i } (BitVec.allOnes 32)))
        (s.acquire (.sub sub) (.lead k))
    else s

/-- CREW_START: the contexts of a bound crew start from its bind record, fresh or as they were saved (R132, R175, R366). -/
def execCrewStart (k : CrewKey) (s : State) : Host.Outcome State Fault Refusal :=
  match s.gang k.gang with
  | none => .next s
  | some gg =>
    match gg.place.crews[k.crew]?, s.launchOf gg with
    | some c, some l =>
      let n := 4 * c.core + c.pos
      match tabGet s.slots n with
      | none => .next s
      | some b =>
        if gg.state ≠ .bound ∨ b.state ≠ 1 then .next s
        else
          let s' := { s with slots := markSlots [n] 2 s.slots }
          if b.resume ≠ 0 then .next (s'.startGang k.gang)
          else
            match s.uniforms l.record with
            | none => .next s
            | some us => .next (((s'.freshCrew k gg l c us).spend.acquireSub k gg.waves l).startGang k.gang)
    | _, _ => .next s

end Sys2Proof.Machine
end

