-- ==== Sys2Proof/Machine/SaveEvents.lean ====
section
/-!
DEFINITION. Pre-emption: choosing drain, save or flush (R368 to R370), saving a gang (R371 to R373), restoring it (R375), and
running a flushed gang again (R376).
-/

namespace Sys2Proof.Machine

/-! ### Pre-emption (R368) -/

/-- Begin to save a gang (R372). -/
def State.startSave (s : State) (g : Nat) : State :=
  match s.gang g with
  | none => s
  | some gg =>
    { s with slots := markSlots (placeSlots gg.place) 3 s.slots }.setGang g { gg with state := .saving, saveSince := s.ticksOf gg.place.cluster }

/-- Pre-empt a victim, a pair with both its gangs. -/
def State.preempt (s : State) (r : Asker) (g : Nat) : State :=
  match s.gang g with
  | none => s
  | some gg =>
    match s.launchOf gg with
    | none => s
    | some v =>
      match s.chooseOption r g gg v with
      | none => s
      | some c =>
        if c.option = optSave then (s.together g).foldl State.startSave s
        else if c.option = optFlush then s.relaunch g (recRestart v.record == 1)
        else s

/-- The order of victims: best-effort first, then the most recently bound (R368). -/
def State.victimRank (s : State) (g : Nat) : List Nat :=
  match s.gang g with
  | none => []
  | some gg => [((s.launchOf gg).map fun l => if recBounded l.record then 1 else 0).getD 0, s.nextId - gg.bindOrder]

/-- Put a gang into its place in the order of victims. -/
def State.putVictim (s : State) (g : Nat) : List Nat → List Nat
  | [] => [g]
  | h :: hs => if lexLt (s.victimRank g) (s.victimRank h) then g :: h :: hs else h :: s.putVictim g hs

/-- Whether a bounded gang has a new plan beside everything that stands, the requester's reservation with it (R363). -/
def State.planKept (s : State) (r : Asker) (plans : List Victim) (g : Nat) : Bool :=
  match plans.find? fun v => v.gang == g with
  | none => false
  | some v =>
    match s.boundedSeq v, s.victimPlan r v with
    | some q, some os => feasible os (s.occs [q] (plans.filter fun u => u.gang != g))
    | _, _ => false

/-- The gangs that a requester may take, in order: of a pair the gang first bound stands for both (R363, R368). -/
def State.candidates (s : State) (r : Asker) (plans : List Victim) : List Nat :=
  let gs := (tabKeys s.gangs).filter fun g => s.mayYield r.record g && !((s.peerOf g).map fun h => decide (h < g)).getD false
  let gs := gs.filter fun g => (((s.gang g).bind s.launchOf).map fun l => !recBounded l.record).getD false || s.planKept r plans g
  gs.foldl (fun acc g => s.putVictim g acc) []

/-- The room once some gangs are out of their slots, and those that are being saved or flushed. -/
def State.roomWithout (s : State) (u : Unbound) (out : List Nat) : Room :=
  { s with gangs := s.gangs.filter fun e => !(out.flatMap s.together).contains e.1 && !e.2.state.stopping }.roomFor u

/-- The victims of a requester: in order, until it would fit; none where it would not fit with all of them taken (R368, log 36). -/
def State.victimsOf (s : State) (u : Unbound) (taken : List Nat) : List Nat → Option (List Nat)
  | [] => if (s.fitsIn (s.roomWithout u taken) u).isSome then some taken else none
  | g :: gs => if (s.fitsIn (s.roomWithout u taken) u).isSome then some taken else s.victimsOf u (taken ++ [g]) gs

/-- PREEMPT_REQUEST: the first waiting gang cannot bind and becomes the requester; each victim is drained, saved or flushed, a bounded
one with its new plan (R363, R368 to R370). -/
def execPreemptRequest (seq : BitVec 64) (plans : List Victim) (s : State) : Host.Outcome State Fault Refusal :=
  match s.launch seq, s.firstUnbound with
  | some l, some u =>
    if u.seq = seq ∧ !s.fitsNow u ∧ s.regs.boot = .ready then
      let r := l.asker
      match s.victimsOf u [] (s.candidates r plans) with
      | none => .next s
      | some gs =>
        let t := s.takePlans (plans.filter fun v => gs.contains v.gang)
        .next (gs.foldl (fun t g => if t.mayYield l.record g then t.preempt r g else t) t)
    else .next s
  | _, _ => .next s

/-! ### Saving (R199, R372) -/

/-- Whether the operations of a gang let it be saved: copies, and the searches, projections, drains and tile words that have
begun, complete first (R27, R306). -/
def State.opsQuiet (s : State) (g : Nat) : Bool :=
  s.ops.all fun e => e.2.crew.gang != g || match e.2.kind with
    | .copy _ _ _ => false
    | .pcopy _ _ _ _ => false
    | .tile _ => !s.opReady e.1 e.2
    | .unit _ (.mdrain _ _ _) _ _ _ _ => !s.opReady e.1 e.2
    | .unit _ (.seek _ _ _ _ _) _ _ _ _ => !s.opReady e.1 e.2
    | .unit _ (.proj _ _) _ _ _ _ => !s.opReady e.1 e.2
    | _ => true

/-- Whether every context of a gang stands where it can be saved. -/
def State.atSave (s : State) (g : Nat) : Bool :=
  (s.wavesOf g).all (fun e => e.2.atSave) && (s.leadsOf g).all fun e => e.2.atSave

/-- The registers that a wave keeps: those live where its splits park; every one where a split waits at a barrier or on an
address (R199). -/
def keptBy (points : List SavePoint) (w : Wave) : BitVec 128 × BitVec 48 :=
  w.splits.foldl (fun acc e =>
    match e.2.wait with
    | .savept ix =>
      match points.find? fun p => p.index.toNat == ix with
      | some p => (acc.1 ||| p.vlive, acc.2 ||| p.klive)
      | none => acc
    | _ => (BitVec.allOnes 128, BitVec.allOnes 48)) (0, 0)

/-- A wave as it is saved: results written, registers outside the kept sets dead or U, no lines in the cache (R58, R177, R199). -/
def Wave.saved (w : Wave) (kept : BitVec 128 × BitVec 48) : Wave :=
  let w := w.flush
  { w with unset := Vector.ofFn fun r : Fin 128 => if kept.1.getLsbD r.val then w.unset[r] else BitVec.allOnes 32,
           k := Vector.ofFn fun r : Fin 48 => if kept.2.getLsbD r.val then w.k[r] else Vector.replicate 32 .u }

/-- A wait on a barrier object is issued again after the restore (R258, R344), and so is a word that stalled (R41, R269). -/
def reissue (p : Split) : Split :=
  match p.wait with
  | .bwait => { p with wait := .none }
  | .queue _ => { p with wait := .none }
  | .post => { p with wait := .none }
  | .collector => { p with wait := .none }
  | .page _ => { p with wait := .none }
  | _ => p

/-- Every wait on an address of a gang completes with its final read (R145, R256, R372). -/
def State.endWaits (s : State) (g : Nat) : State :=
  let s := (s.wavesOf g).foldl (fun s e => e.2.splits.foldl (fun s f =>
    match f.2.wait with
    | .waita a => if s.gangLive g then s.endWaitWave e.1 f.1 f.2 a else s
    | _ => s) s) s
  (s.leadsOf g).foldl (fun s e =>
    match e.2.wait with
    | .waita pa wide d _ _ scope z fwd => if s.gangLive g then s.endWaitLead e.1 e.2 pa wide d scope z fwd else s
    | _ => s) s

/-- A saved tile: a bound one has no sub-block filled (R289). -/
def Handle.saved : Handle → Handle
  | .tile t => if t.bound.isSome then .tile { t with data := [], subs := t.subs.map fun e =>
      (e.1, { zero := none, absent := none, filled := false, dirty := false }) } else .tile t
  | h => h

/-- Write the state of a gang that is at its save points, its tiles dry, and free its slots (R372, R373). -/
def State.saveGang (s : State) (g : Nat) : State :=
  match s.gang g with
  | none => s
  | some gg =>
    let points := s.wavePoints gg
    let kept := (s.wavesOf g).map fun e => (e.1, keptBy points e.2)
    let s := s.endWaits g
    if !s.gangLive g then s
    else
      let s := kept.foldl (fun s e => s.modWave e.1 fun w => if w.ended then w else w.saved e.2) s
      let s := (s.leadsOf g).foldl (fun s e => s.modLead e.1 fun l => if l.exited then l else l.flush) s
      let s := (s.wavesOf g).foldl (fun s e => s.writeFrame e.1) s
      let s := (s.leadsOf g).foldl (fun s e => s.writeLeadFrame e.1) s
      let s := kept.foldl (fun s e => s.modWave e.1 fun w =>
        { w with cached := 0, dirty := 0, slot0 := w.slot0.map reissue, slot1 := w.slot1.map reissue }) s
      let s := (s.leadsOf g).foldl (fun s e => s.modLead e.1 fun l => if l.wait = .bwait then { l with wait := .none } else l) s
      let s := (s.freeSlots gg).modGang g fun x =>
        { x with state := .saved, progress := s.progressOf gg, since := 0, handles := x.handles.map fun e => (e.1, e.2.saved) }
      { s with waiters := s.waiters.filter fun w => !ctxOfGang g w.who }

/-- What a pair still has to compare before it is saved: its dirty sub-blocks become units of work (R393). -/
def State.saveUnits (s : State) (g : Nat) : Except Tr State :=
  match s.gang g with
  | none => .ok s
  | some gg =>
    match gg.pair with
    | none => s.dryGang (controlOf g) gg.dirtyTiles |>.map fun t => t.modGang g fun x =>
        { x with handles := x.handles.map fun e => match e.2 with
          | .tile t => (e.1, .tile (t.clean t.dirtySubs))
          | _ => e }
    | some _ =>
      gg.dirtyTiles.foldlM (fun s e => e.2.dirtySubs.foldlM (fun s i => do
        let ws ← s.dryWrites e.2 (e.2.bound.getD 0) i
        return (s.addUnit g (s.dryUnit none 0 e.2 i ws)).modTile g e.1 fun t => t.clean [i]) s) s

/-- Whether a gang of a pair has nothing left to compare. -/
def State.noUnits (s : State) (g : Nat) : Bool := (((s.gang g).bind Gang.pair).map fun p => p.units.isEmpty).getD true

/-- A save is abandoned: the gang runs on (R371). -/
def State.drainSaving (s : State) (g : Nat) : State :=
  match s.gang g with
  | none => s
  | some gg => ({ s with slots := markSlots (placeSlots gg.place) 2 s.slots }.setGang g { gg with state := .running }).releaseSaved g

/-- SAVE_COMPLETE: every context is at its save point and the state is written; a pair's gangs are saved together. A drydown that
a page forbids ends the gang (R289, R372, R389). -/
def execSaveComplete (g : Nat) (s : State) : Host.Outcome State Fault Refusal :=
  let gs := match s.together g with
    | [a, b] => if s.leadingOf g = a then [a, b] else [b, a]
    | gs => gs
  if gs.all fun h => (s.gang h).any (fun x => x.state == .saving) && s.atSave h && s.opsQuiet h then
    match gs.foldlM State.saveUnits s with
    | .error (.away _) => .next s
    | .error _ => .next ((gs.foldl State.drainSaving s).endByFault g .elementAccess)
    | .ok t =>
      if gs.all t.noUnits then .next ((gs.foldl State.saveGang t).settle.capacityCheck) else .next t
  else .next s

/-- Cycles that a save may take (R371). -/
def saveLimit : Nat := 150000

/-- SAVE_TIMEOUT: a save that takes too long ends in a flush where the class allows, else in a drain (R371). -/
def execSaveTimeout (g : Nat) (s : State) : Host.Outcome State Fault Refusal :=
  match s.gang g with
  | none => .next s
  | some gg =>
    match s.launchOf gg with
    | none => .next s
    | some l =>
      let gs := s.together g
      if gg.state = .saving ∧ s.cyclesPassed gg.place.cluster gg.saveSince saveLimit ∧ !(gs.all fun h => s.atSave h && s.opsQuiet h) then
        if recRestart l.record = 2 then .next (gs.foldl State.drainSaving s).settle
        else .next (s.relaunch g (recRestart l.record == 1))
      else .next s

/-! ### Restoring (R375) -/

/-- The crews of a gang at their new place. -/
def moveCrews (g : Nat) (p : GangPlace) (crews : List (CrewKey × Crew)) : List (CrewKey × Crew) :=
  crews.map fun (k, c) =>
    if k.gang = g then (k, { c with place := (p.crews[k.crew]?).getD c.place, cluster := p.cluster }) else (k, c)

/-- Move a saved gang to its place: frames keep their addresses; the bind records name the save area, a free address (log 9). -/
def State.moveGang (s : State) (g : Nat) (gg : Gang) (l : Launch) (n : Needs) (p : GangPlace) : State :=
  let resume : BitVec 64 := BitVec.ofNat 64 (1 + Config.freeNat (s.free + g) % (2 ^ 64 - 1))
  let s := { s with slots := setSlots (bindRecords gg.seq l n p resume) s.slots,
                    crews := moveCrews g p s.crews }
  s.setGang g { gg with state := .bound, place := p, bindOrder := s.nextId }

/-- Whether a place keeps the frames and fault records of the old one. -/
def sameFrames (a b : GangPlace) : Bool :=
  a.index == b.index && a.trailing == b.trailing &&
  a.crews.map (fun c => (c.lframe, c.wframe, c.leadFrec, c.waveFrecs)) == b.crews.map fun c => (c.lframe, c.wframe, c.leadFrec, c.waveFrecs)

/-- Restore gangs one after another; none where one does not fit. -/
def State.restoreAll (s : State) (u : Unbound) (l : Launch) : List (Nat × GangPlace) → Option State
  | [] => some s
  | (g, p) :: ps =>
    match s.gang g with
    | none => none
    | some gg =>
      let n := needsOf l.record l.table
      if gg.state == .saved && sameFrames p gg.place && s.placeFits (s.roomFor u) n p false then
        ({ s with nextId := s.nextId + 1 }.moveGang g gg l n p).restoreAll u l ps
      else none

/-- GANG_RESTORE: a saved gang, or pair, that stands first and fits is bound again (R359, R375, R377, R389). -/
def execGangRestore (g : Nat) (places : List GangPlace) (s : State) : Host.Outcome State Fault Refusal :=
  let s := s.aim
  match s.gang g with
  | none => .next s
  | some gg =>
    match s.launchOf gg with
    | none => .next s
    | some l =>
      match (s.unboundOf gg.seq l).find? fun u => u.saved && u.ixs == [gg.index] with
      | none => .next s
      | some u =>
        let gs := s.together g
        if s.regs.boot ≠ .ready ∨ gs.length ≠ places.length ∨ !s.inTurn u ∨
            !setOk (recPlacement l.record) (seats places) (s.seatsOf gg.seq false) then .next s
        else
          match s.restoreAll u l (gs.zip places) with
          | some t => .next (t.modLaunch gg.seq fun l => l.boundAt t.mtime places).spend
          | none => .next s

/-! ### Running again (R376, R400) -/

/-- GANG_RELAUNCH: the flush ends: the checkpoint is rolled back where its class asks, the slots are free, and the gang waits to
run from its retained record; where its launch has failed meanwhile it just ends (R376, R379, R400). -/
def execGangRelaunch (g : Nat) (s : State) : Host.Outcome State Fault Refusal :=
  match s.gang g with
  | none => .next s
  | some gg =>
    match gg.state with
    | .flushing roll =>
      let gs := s.together g
      let log := gs.findSome? fun h => (s.gang h).bind Gang.ckpt
      let s := match log with
        | some log =>
          if roll then { s.rollback log with counters := { s.counters with rollbacks := s.counters.rollbacks + 1 } } else s
        | none => s
      let s := gs.foldl State.dropGang s
      .next (s.modLaunch gg.seq fun l =>
        if l.failed.isSome ∨ l.again.contains gg.index then l else { l with again := l.again ++ [gg.index] }).settle
    | _ => .next s

end Sys2Proof.Machine
end

