-- ==== Sys2Proof/Machine/ReliEvents.lean ====
section
/-!
DEFINITION. Reliability and power as steps of the device: uncorrectable errors, scrubbing, ageing, the voted control machines and
the power controller (R382 to R388, R402, R403, R419).
-/

namespace Sys2Proof.Machine

/-! ### Errors of storage (R382, R383, R402, R403) -/

/-- Take cores out of service; saved gangs that no core can take end (R375, R403). -/
def State.outOfService (s : State) (cores : List Nat) : State :=
  { s with regs := { s.regs with service := cores.foldl (fun b c => b &&& ~~~(BitVec.ofNat 128 (2 ^ c))) s.regs.service } }.capacityCheck

/-- Note an error of a core: the second within 2^40 cycles of its cluster takes it out of service (R7, R403). -/
def State.coreError (s : State) (core : Nat) : State :=
  let now := s.ticksOf (core / 4)
  let again := s.coreErrors.any fun e => e.1 == core && decide (now ≤ e.2 + 2 ^ 40 * 1000)
  let s := { s with coreErrors := s.coreErrors ++ [(core, now)] }
  if again then s.outOfService [core] else s

/-- One more uncorrectable error detected (R404). -/
def State.countUe (s : State) : State := { s with counters := { s.counters with ue := s.counters.ue + 1 } }

/-- UNCORRECTABLE_ERROR: an error of a queue entry, a collector entry, a slot or a register is detected, and the gang that owns it
consumes it at once (R383, R402, R404); `core` is the core that reports it, where one does. -/
def execUncorrectableError (g : Nat) (core : Option Nat) (s : State) : Host.Outcome State Fault Refusal :=
  match s.gang g with
  | none => .next s
  | some gg =>
    if !gg.state.live then .next s
    else
      let s := s.countUe.uncorrectable g
      match core with
      | none => .next s
      | some c => .next (if gg.place.crews.any fun p => p.core == c then s.coreError c else s)

/-- Poison a pair of lanes of a register in a register cache, an error of its core (R383, R403). A register that is not there, or is
poisoned already, stays. -/
def State.poisonRegister (s : State) (k : WaveKey) (r pair : Nat) : State :=
  match s.wave k, s.crew (crewOf k) with
  | some w, some c =>
    if r < 128 ∧ pair < 16 ∧ w.cached.getLsbD r ∧ !w.bad.contains (r, pair) then
      (s.countUe.setWave k { w with bad := (r, pair) :: w.bad }).coreError c.place.core
    else s
  | _, _ => s

/-- Poison two elements of an accumulator (R383). -/
def State.poisonAcc (s : State) (k : CrewKey) (unit acc word : Nat) : State :=
  match (s.crew k).bind fun c => tabGet c.accs (unit, acc) with
  | some a =>
    if word < 2048 ∧ !a.bad.contains word then s.countUe.modAcc k unit acc fun a => { a with bad := word :: a.bad } else s
  | none => s

/-- Poison a word of a tile (R383). -/
def State.poisonTile (s : State) (g h word : Nat) : State :=
  match (s.gang g).bind fun gg => gg.tile? h with
  | some t =>
    if 8 * word < t.size ∧ !t.bad.contains word then s.countUe.modTile g h fun t => { t with bad := word :: t.bad } else s
  | none => s

/-- An error in an entry of a Sillage buffer is a mismatch of the interval that holds it (R383, R396). -/
def State.poisonBuffer (s : State) (g n : Nat) : State :=
  match (s.gang g).bind fun gg => gg.pair.bind fun p => p.buf[n]? with
  | some (q, w) => s.countUe.mismatch g q w.interval
  | none => s

/-- Poison a line of local memory (R383). -/
def State.poisonLine (s : State) (pa : Nat) : State :=
  if isLocal pa && !s.poison.contains (pa / 64) then { s.countUe with poison := s.poison ++ [pa / 64] } else s

/-- Whether a unit is a line of HBM or L2. -/
def Storage.isLine : Storage → Bool
  | .line _ => true
  | _ => false

/-- SCRUB: storage is read and rewritten: an error is corrected, or poisons its unit (R382, R383). -/
def execScrub (unit : Storage) (found : Finding) (s : State) : Host.Outcome State Fault Refusal :=
  let k := s.counters
  match found with
  | .clean => .next s
  | .corrected =>
    .next { s with counters := if Storage.isLine unit then { k with cehbm := k.cehbm + 1 } else { k with cesram := k.cesram + 1 } }
  | .uncorrectable =>
    match unit with
    | .sram => .next s.countUe
    | .register k r pair => .next (s.poisonRegister k r pair)
    | .accumulator k unit acc word => .next (s.poisonAcc k unit acc word)
    | .tile g h word => .next (s.poisonTile g h word)
    | .buffer g n => .next (s.poisonBuffer g n)
    | .line pa => .next (s.poisonLine pa)

/-! ### Ageing (R384, R385) -/

/-- Element of a vector of 32, 0 past its end. -/
def at32 {α : Type} [Inhabited α] (v : Vector α 32) (i : Nat) : α := if h : i < 32 then v[i] else default

/-- Set an element of a vector of 32. -/
def set32 {α : Type} (v : Vector α 32) (i : Nat) (a : α) : Vector α 32 := if h : i < 32 then v.set i a h else v

/-- A cluster's maximum clock for a birth frequency and a measured one (R385). -/
def ageLimit (birth freq : Nat) : Nat :=
  let lost := birth - freq
  if lost * 100 ≤ 3 * birth then 1500
  else max 1200 (1500 - 25 * ceilDiv (200 * lost - 6 * birth) birth)

/-- Whether drift has passed 9%. -/
def tooOld (birth freq : Nat) : Bool := decide ((birth - freq) * 100 > 9 * birth)

/-- The four cores of a cluster (R420). -/
def clusterCores (cl : Nat) : List Nat := upFrom (4 * cl) 4

/-- Take a measurement of a cluster: drift never decreases, and past 9% the cluster leaves service (R384, R385). -/
def State.measure (s : State) (cl freq : Nat) : State :=
  let f := match s.drift.toList.getD cl none with
    | none => freq
    | some old => min old freq
  let s := { s with drift := set32 s.drift cl (some f) }
  if tooOld (at32 s.birth cl) f then s.outOfService (clusterCores cl) else s

/-- AGEING_MEASURE. -/
def execAgeingMeasure (cl freq : Nat) (s : State) : Host.Outcome State Fault Refusal :=
  if cl < 32 ∧ s.regs.boot = .ready then .next (s.measure cl freq) else .next s

/-- New plans one after another (R364). -/
def State.replanAll (s : State) (rs : List (DWord × List PlanEntry)) : State := rs.foldl (fun s r => s.replan r.1 r.2) s

/-- CLOCK_LIMIT_APPLY: a lowered maximum takes effect and is never raised again before the next start (R385). The cycles run so far
stand (R7), and admission re-plans; no accepted launch is withdrawn (R364). -/
def execClockLimitApply (cl : ClockDrop) (s : State) : Host.Outcome State Fault Refusal :=
  match s.drift.toList.getD cl.cluster none with
  | none => .next s
  | some f =>
    let s := s.bankClocks
    let new := min (at32 s.regs.clock cl.cluster).toNat (ageLimit (at32 s.birth cl.cluster) f)
    .next ({ s with regs := { s.regs with clock := set32 s.regs.clock cl.cluster (BitVec.ofNat 16 new) } }.replanAll cl.replans)

/-! ### The voted machines (R386 to R388) -/

/-- The control plane is uncontained (R388): consumption stops, every gang ends without drydown, every accepted launch not complete
completes with control_uncontained, and the alert is raised. -/
def State.uncontain (s : State) : State :=
  let s := { s with regs := { s.regs with boot := .uncontained, uncontained := true } }
  let s := (tabKeys s.gangs).foldl State.dropGang { s with ops := [], subs := [] }
  let open_ := (s.launches.filter fun e => e.2.done.isNone).map Prod.fst
  (open_.foldl (fun s q => s.completeLaunch q { kind := 3, fault := FaultCode.controlUncontained.num }) s).hostAlert

/-- The window of R387 in nanoseconds: 2^30 cycles of 2/3 ns (R7). -/
def dissentWindow : Nat := 2 ^ 31 / 3

/-- A copy dissents: fenced, or at its 8th dissent within the window retired (R387). -/
def State.dissent (s : State) (m copy : Nat) : State :=
  if h : m < 6 then
    let k := s.machines[m]
    if hc : copy < 3 then
      let times := k.times ++ [(copy, s.mtime)]
      let recent := (times.filter fun e => e.1 == copy && decide (s.mtime ≤ e.2 + dissentWindow)).length
      let retire := decide (recent ≥ 8)
      let k := { k with copies := k.copies.set copy (if retire then .retired else .fenced) hc, times, dissents := k.dissents + 1 }
      let s := { s with machines := s.machines.set m k h }
      if retire then
        { s with regs := { s.regs with degraded := s.regs.degraded ||| BitVec.ofNat 6 (2 ^ m) } }.hostAlert
      else s
    else s
  else s

/-- The copies of a machine that are in step. -/
def CtlMachine.voting (k : CtlMachine) : List Nat := (List.finRange 3).filterMap fun c => if k.copies[c] = .inStep then some c.val else none

/-- MACHINE_DISSENT: one of three voting copies that differs is fenced; three that all differ, or two voting copies that differ,
leave the control plane uncontained (R387, R388), which it can be from state 5 alone (R415). `differ` names the copies that differ. -/
def execMachineDissent (m : Nat) (differ : List Nat) (s : State) : Host.Outcome State Fault Refusal :=
  if h : m < 6 then
    let voting := s.machines[m].voting
    let bad := voting.filter differ.contains
    if s.regs.boot ≠ .ready ∨ bad.isEmpty then .next s
    else if voting.length = 3 then
      match bad with
      | [c] => .next (s.dissent m c)
      | _ => .next s.uncontain
    else if voting.length = 2 then .next s.uncontain
    else .next s
  else .next s

/-- MACHINE_RESYNC: a fenced copy is in step again (R387). -/
def execMachineResync (m copy : Nat) (s : State) : Host.Outcome State Fault Refusal :=
  if h : m < 6 then
    let k := s.machines[m]
    if hc : copy < 3 then
      if k.copies[copy] = .fenced then
        .next { s with machines := s.machines.set m { k with copies := k.copies.set copy .inStep hc, resyncs := k.resyncs + 1 } h }
      else .next s
    else .next s
  else .next s

/-! ### Power (R418, R419) -/

/-- POWER_CONTROL: a reading of the draw; the clock ceiling moves by one step, and at the floor binding stops until the draw falls
below the cap (R419). The cycles run so far stand (R7), and admission re-plans (R364). -/
def execPowerControl (draw : PowerReading) (s : State) : Host.Outcome State Fault Refusal :=
  let s := s.bankClocks
  let r := { s.regs with draw := draw.watts }
  let above := decide (draw.watts.toNat > r.cap.toNat)
  let below := decide (draw.watts.toNat < r.cap.toNat)
  let p := r.pclock.toNat
  .next ({ s with regs := { r with
    pclock := BitVec.ofNat 16 (if above then max 1200 (p - 25) else if below then min 1500 (p + 25) else p),
    bindStop := (above && decide (p ≤ 1200)) || (r.bindStop && !below) } }.replanAll draw.replans)

end Sys2Proof.Machine
end

