-- ==== Sys2Proof/Machine/HostEvents.lean ====
section
/-!
DEFINITION. The device as its host and its pod see it: register blocks of BAR0 (R4, R348, R355, R366, R404, R410, R413, R418), host
queues (R348 to R350), accesses to device memory (R409, R411, R412), links and routes (R413, R414).
-/

namespace Sys2Proof.Machine

/-! ### Queue control (R349, R350) -/

/-- Whether a host sees more than the device block: not in the recovery state (R415). -/
def State.hostOn (s : State) : Bool := s.regs.boot != .recovery

/-- SQ_DOORBELL: the host writes sqtail; one too far ahead disables the queue (R350). -/
def execSqDoorbell (q : Nat) (v : BitVec 32) (s : State) : Host.Outcome State Fault Refusal :=
  if !s.hostOn then .next s
  else
    .next (s.modQueue q fun k =>
      let k := { k with sqtail := v }
      if (v - k.sqhead).toNat > 2 ^ k.size.toNat then { k with enable := false, err := true } else k)

/-- Whether a queue's size and bases are within their limits (R348, R349). -/
def HostQueue.valid (k : HostQueue) : Bool :=
  decide (4 ≤ k.size.toNat) && decide (k.size.toNat ≤ 12) && k.sqbase.toNat % 4096 == 0 && k.cqbase.toNat % 4096 == 0

/-- The start-up states before 5 (R415). -/
def Boot.early : Boot → Bool
  | .rom => true
  | .check => true
  | .dies => true
  | .memory => true
  | .scheduler => true
  | _ => false

/-- QUEUE_ENABLE: enable from 0 to 1 (R349, R415). -/
def execQueueEnable (q : Nat) (s : State) : Host.Outcome State Fault Refusal :=
  if !s.hostOn then .next s
  else
    .next (s.modQueue q fun k =>
      if k.enable then k
      else if s.regs.boot.early || !k.valid then { k with err := true }
      else { k with enable := true, err := false, sqhead := 0, sqtail := 0, cqhead := 0, cqtail := 0, phase := true })

/-- QUEUE_DISABLE: consumption stops at once (R349). -/
def execQueueDisable (q : Nat) (s : State) : Host.Outcome State Fault Refusal :=
  if !s.hostOn then .next s else .next (s.modQueue q fun k => { k with enable := false })

/-! ### Register blocks as they read -/

/-- Whether a queue is idle: disabled, with every consumed record completed (R348). -/
def State.queueIdle (s : State) (q : Nat) : Bool :=
  match s.queues.toList[q]? with
  | none => true
  | some k => !k.enable && s.consumedOf q == 0

/-- The largest d such that every launch numbered d or lower has completed (R355). -/
def State.doneseq (s : State) : Nat :=
  let base := s.regs.epoch.toNat * 2 ^ 48
  base + ((List.range s.regs.accepted).takeWhile fun i =>
    match s.launch (BitVec.ofNat 64 (base + i + 1)) with
    | some l => l.done.isSome
    | none => false).length

/-- A start-up state's number (R415). -/
def Boot.code : Boot → Nat
  | .rom => 0
  | .check => 1
  | .dies => 2
  | .memory => 3
  | .scheduler => 4
  | .ready => 5
  | .recovery => 6
  | .uncontained => 7

/-- The device block (R410). -/
def State.deviceBlock (s : State) : Nat :=
  let r := s.regs
  r.boot.code + r.reason.toNat * 2 ^ 8 + r.fwver.toNat * 2 ^ 64 + r.svn.toNat * 2 ^ 128 + r.chip.toNat * 2 ^ 168 +
  r.epoch.toNat * 2 ^ 176 + r.winbase.toNat * 2 ^ 256

/-- The scheduler block; cancel and retire are write only (R355). -/
def State.schedBlock (s : State) : Nat :=
  s.accseq + s.doneseq * 2 ^ 64 + s.retain * 2 ^ 128 + s.mtime % 2 ^ 64 * 2 ^ 192

/-- A host queue's block; sqtail is write only (R348). -/
def State.queueBlock (s : State) (q : Nat) : Nat :=
  match s.queues.toList[q]? with
  | none => 0
  | some k =>
    k.sqbase.toNat + k.cqbase.toNat * 2 ^ 64 + k.size.toNat * 2 ^ 256 + k.enable.toNat * 2 ^ 262 + (s.queueIdle q).toNat * 2 ^ 263 +
    k.err.toNat * 2 ^ 264 + k.sqhead.toNat * 2 ^ 320 + k.cqtail.toNat * 2 ^ 384 + k.cqhead.toNat * 2 ^ 416 +
    k.lasthseq.toNat * 2 ^ 448

/-- A bind record (R366). -/
def BindRec.bits (b : BindRec) : Nat :=
  b.state % 16 + b.resume.toNat * 2 ^ 64 + b.acc % 32 * 2 ^ 163 + b.waves % 256 * 2 ^ 168 + b.crew % 4 * 2 ^ 176 +
  b.barbase % 64 * 2 ^ 186 + b.gang.toNat * 2 ^ 224 + b.wframe.toNat * 2 ^ 256 + b.lframe.toNat * 2 ^ 320 +
  b.record.toNat * 2 ^ 384 + b.dseq.toNat * 2 ^ 448

/-- A slot of the slot table: zero where it is free (R365, R366). -/
def State.slotBlock (s : State) (n : Nat) : Nat := ((tabGet s.slots n).map BindRec.bits).getD 0

/-- The reliability block as bytes (R404). -/
def State.reliabilityBytes (s : State) : List Byte :=
  let r := s.regs
  let k := s.counters
  toBytes 16 (r.uncontained.toNat + 2 * r.alert.toNat + r.degraded.toNat * 2 ^ 8) ++
  (s.machines.toList.flatMap fun m => toBytes 8 m.dissents.toNat ++ toBytes 8 m.resyncs.toNat) ++
  ([k.compares, k.mismatches, k.retries, k.pairfail, k.snaps, k.rollbacks, k.cesram, k.cehbm, k.ue, k.kills, k.relaunch].flatMap
    fun v => toBytes 8 v.toNat) ++
  toBytes 8 0 ++ toBytes 16 r.service.toNat ++ (r.clock.toList.flatMap fun c => toBytes 2 c.toNat)

/-- The power block (R418). -/
def State.powerBlock (s : State) : Nat := s.regs.cap.toNat + s.regs.pclock.toNat * 2 ^ 32 + s.regs.draw.toNat * 2 ^ 64

/-- An entry of the fabric block, or its header (R413). -/
def State.fabricHeader (s : State) : Nat := s.regs.expbase.toNat + s.regs.expsize.toNat * 2 ^ 64
def RouteEntry.bits (e : RouteEntry) : Nat := e.links.toNat + e.valid.toNat * 2 ^ 63

/-- Byte `i` of a block. -/
def blockByte (v i : Nat) : Byte := BitVec.ofNat 8 (v / 2 ^ (8 * i))

/-- A byte of BAR0 as a host reads it (R409); in the recovery state only the device block responds (R415). -/
def State.bar0 (s : State) (off : Nat) : Byte :=
  if off < 0x40 then blockByte s.deviceBlock off
  else if !s.hostOn then 0
  else if 0x2000 ≤ off ∧ off < 0x2410 then memRead s.regs.msixTable (off - 0x2000)
  else if 0x3000 ≤ off ∧ off < 0x3010 then blockByte s.regs.msixPending.toNat (off - 0x3000)
  else if 0x10000 ≤ off ∧ off < 0x10040 then blockByte s.schedBlock (off - 0x10000)
  else if 0x11000 ≤ off ∧ off < 0x12000 then blockByte (s.queueBlock ((off - 0x11000) / 64)) (off % 64)
  else if 0x20000 ≤ off ∧ off < 0x28000 then blockByte (s.slotBlock ((off - 0x20000) / 64)) (off % 64)
  else if 0x30000 ≤ off ∧ off < 0x30200 then s.reliabilityBytes.getD (off - 0x30000) 0
  else if 0x40000 ≤ off ∧ off < 0x40040 then blockByte s.powerBlock (off - 0x40000)
  else if 0x50000 ≤ off ∧ off < 0x50040 then blockByte s.fabricHeader (off - 0x50000)
  else if 0x50040 ≤ off ∧ off < 0x50840 then
    blockByte (((s.regs.routes.toList[(off - 0x50040) / 8]?).map RouteEntry.bits).getD 0) ((off - 0x50040) % 8)
  else 0

/-! ### Writes of register fields (R4) -/

/-- The bytes of a field after a write of `bs` at `off` reaches it at `at_`. -/
def mergeBytes (at_ n old off : Nat) (bs : List Byte) : Nat :=
  ofBytes ((toBytes n old).mapIdx fun i b => if off ≤ at_ + i then (bs[at_ + i - off]?).getD b else b)

/-- Whether a write reaches a field. -/
def touches (at_ n off : Nat) (bs : List Byte) : Bool := decide (off < at_ + n) && decide (at_ < off + bs.length)

/-- winbase takes multiples of 64 GiB below 768 GiB (R410). -/
def winbaseOk (v : Nat) : Bool := v % (64 * 2 ^ 30) == 0 && decide (v < localSize)

/-- cap takes 1,200 to 2,400 W (R418). -/
def capOk (v : Nat) : Bool := decide (1200 ≤ v) && decide (v ≤ 2400)

/-- Writes of a queue's own fields; bases and size only while it is disabled and idle (R348, R349). -/
def HostQueue.write (k : HostQueue) (idle : Bool) (base off : Nat) (bs : List Byte) : HostQueue :=
  let k := if idle then
      { k with sqbase := BitVec.ofNat 64 (mergeBytes base 8 k.sqbase.toNat off bs),
               cqbase := BitVec.ofNat 64 (mergeBytes (base + 8) 8 k.cqbase.toNat off bs),
               size := BitVec.ofNat 6 (mergeBytes (base + 32) 1 k.size.toNat off bs) }
    else k
  { k with cqhead := BitVec.ofNat 32 (mergeBytes (base + 52) 4 k.cqhead.toNat off bs) }

/-- Signal vectors that are pending and no longer masked (R409, log 16). -/
def State.msixUnmask (s : State) : State :=
  (List.range 65).foldl (fun s n =>
    if s.regs.msixPending.getLsbD n && (memRead s.regs.msixTable (16 * n + 12)).toNat % 2 == 0 then
      { s with regs := { s.regs with msixPending := s.regs.msixPending &&& ~~~(BitVec.ofNat 128 (2 ^ n)) }, outbox := s.outbox ++ [.msix n] }
    else s) s

/-- A write of the power block's cap. -/
def State.writeCap (s : State) (v : Nat) : State :=
  if capOk v then { s with regs := { s.regs with cap := BitVec.ofNat 16 v } } else s

/-- A write into the MSI-X table (R409). -/
def State.writeMsix (s : State) (off : Nat) (bs : List Byte) : State :=
  let kept := (bs.mapIdx fun i b => ((off + i, b) : Nat × Byte)).filter fun (a, _) => decide (0x2000 ≤ a) && decide (a < 0x2410)
  let table := kept.foldl (fun m (a, b) => memWrite m (a - 0x2000) b) s.regs.msixTable
  { s with regs := { s.regs with msixTable := table } }.msixUnmask

/-- REGISTER_WRITE of 1 to 8 bytes at a BAR0 offset: each writable field that it reaches; read-only and reserved fields ignore it,
and fields with steps of their own are left to those (R4, R5, R409). The rules give no widths of a write: that it reaches its fields byte by
byte, and that one of no byte or of more than eight does nothing, is the model's choice (log 33). -/
def execRegisterWrite (off size : Nat) (v : BitVec 64) (s : State) : Host.Outcome State Fault Refusal :=
  if size > 8 then .next s
  else
    let bs := toBytes size v.toNat
    let s :=
      let w := mergeBytes 32 8 s.regs.winbase.toNat off bs
      if touches 32 8 off bs && winbaseOk w then { s with regs := { s.regs with winbase := BitVec.ofNat 64 w } } else s
    if !s.hostOn then .next s
    else
      let s := if touches 0x2000 0x410 off bs then s.writeMsix off bs else s
      let s := if touches 0x11000 0x1000 off bs then
          (List.range 64).foldl (fun s q => s.modQueue q fun k => k.write (s.queueIdle q) (0x11000 + 64 * q) off bs) s
        else s
      let s := if touches 0x30000 1 off bs && bitNat (mergeBytes 0x30000 1 0 off bs) 1 then
          { s with regs := { s.regs with alert := false } }
        else s
      .next (if touches 0x40000 2 off bs then s.writeCap (mergeBytes 0x40000 2 s.regs.cap.toNat off bs) else s)

/-! ### Device memory from outside (R409, R411, R412) -/

/-- Bytes of the BAR2 window. -/
def bar2Size : Nat := 64 * 2 ^ 30

/-- The local address that a host access reaches, if the whole access lies in its window. -/
def State.hostAddr (s : State) (bar2 : Bool) (addr n : Nat) : Option Nat :=
  if bar2 then (if addr + n ≤ bar2Size then some (s.regs.winbase.toNat + addr) else none)
  else if addr + n ≤ localSize then some addr
  else none

/-- HOST_MEMORY_ACCESS: at system scope, through CXL.mem or BAR2; a read of a poisoned line says so (R383, R409, R411). Atomics are a
pod peer's only. -/
def execHostMemoryAccess (acc : OuterAccess) (s : State) : Host.Outcome State Fault Refusal :=
  if !s.hostOn then .next s
  else
    match acc with
    | .write bar2 addr bs =>
      match s.hostAddr bar2 addr bs.length with
      | some a => .next (s.wr a bs)
      | none => .next s
    | .read bar2 addr n =>
      match s.hostAddr bar2 addr n with
      | some a => .next { s with outbox := s.outbox ++ [.hostRead (s.rdBytes a n) (s.poisoned a n)] }
      | none => .next s
    | .atomic _ _ _ _ => .next s

/-- Whether a pod peer may reach a range: it lies in the export window (R413). -/
def State.exported (s : State) (addr n : Nat) : Bool :=
  decide (s.regs.expbase.toNat ≤ addr) && decide (addr + n ≤ s.regs.expbase.toNat + s.regs.expsize.toNat) &&
  decide (addr + n ≤ localSize)

/-- The bytes of an atomic by its opcode (R84): 8 for the 64-bit types. -/
def homeBytes (op : Nat) : Nat :=
  if (decide (0x44 ≤ op) && decide (op ≤ 0x46)) || [0x4A, 0x4B, 0x4E, 0x4F].contains op || (decide (0x50 ≤ op) && op % 2 == 1) then 8 else 4

/-- The new value of an atomic by its opcode (R84, R252, R253). -/
def homeNew (op old data cmp : Nat) : Nat :=
  let n := 8 * homeBytes op
  let raw (o : AtomOp) : Nat := (o.new (.int .raw n) old (data % 2 ^ n)).1
  if op ≤ 0x46 then (AtomOp.add.new (addFmt (op - 0x40)) old (data % 2 ^ n)).1
  else if op ≤ 0x4B then (AtomOp.min.new (minFmt (op - 0x48)) old (data % 2 ^ n)).1
  else if op ≤ 0x4F then (AtomOp.max.new (minFmt (op - 0x4C)) old (data % 2 ^ n)).1
  else if op ≤ 0x51 then raw .and
  else if op ≤ 0x53 then raw .or
  else if op ≤ 0x55 then raw .xor
  else if op ≤ 0x57 then raw .xchg
  else (casNew n old (cmp % 2 ^ n + 2 ^ n * (data % 2 ^ n))).1

/-- Whether an opcode is one of an atomic (R84). -/
def isHomeOp (op : Nat) : Bool := decide (0x40 ≤ op) && decide (op ≤ 0x59) && op != 0x47

/-- A peer's atomic, performed at its home in one step; the peer receives the old value (R252 to R254). -/
def State.homeAtomic (s : State) (addr op data cmp : Nat) : State :=
  let n := homeBytes op
  let old := s.rdNat addr n
  { s.wr addr (toBytes n (homeNew op old data cmp)) with outbox := s.outbox ++ [.podRead (toBytes n old) (s.poisoned addr n)] }

/-- POD_ACCESS: a peer's access to exported local memory; outside it the access fails at the peer and does nothing here (R413,
R414). -/
def execPodAccess (acc : OuterAccess) (s : State) : Host.Outcome State Fault Refusal :=
  if s.regs.boot ≠ .ready then .next s
  else
    match acc with
    | .write _ addr bs => .next (if s.exported addr bs.length then s.wr addr bs else s)
    | .read _ addr n =>
      .next (if s.exported addr n then { s with outbox := s.outbox ++ [.podRead (s.rdBytes addr n) (s.poisoned addr n)] } else s)
    | .atomic addr op data cmp =>
      .next (if isHomeOp op && addr % homeBytes op == 0 && s.exported addr (homeBytes op) then
        s.homeAtomic addr op data.toNat cmp.toNat else s)

/-! ### Links and routes (R413, R414) -/

/-- LINK_REPLAY: a damaged flit is sent again; every access is still performed exactly once, so nothing changes (R414). -/
def execLinkReplay (link : Nat) (s : State) : Host.Outcome State Fault Refusal :=
  let _ := link
  .next s

/-- LINK_FAILURE: the link is cleared from every mask; accesses in flight are performed once, on another link (R414). -/
def execLinkFailure (link : Nat) (s : State) : Host.Outcome State Fault Refusal :=
  .next { s with regs := { s.regs with
    routes := s.regs.routes.map fun e => { e with links := e.links &&& ~~~(BitVec.ofNat 18 (2 ^ link)) } } }

/-- ROUTE_CHANGE by the fabric manager, which has joined the pod in state 5: the device's chip number, the export window, or an entry
(R412, R413, R415). -/
def execRouteChange (r : Route) (s : State) : Host.Outcome State Fault Refusal :=
  if s.regs.boot ≠ .ready then .next s
  else
    match r with
    | .chip n => .next { s with regs := { s.regs with chip := n } }
    | .window base size =>
      if base.toNat % 2 ^ 30 = 0 ∧ size.toNat % 2 ^ 30 = 0 then
        .next { s with regs := { s.regs with expbase := base, expsize := size } }
      else .next s
    | .entry chip valid links =>
      .next { s with regs := { s.regs with routes := s.regs.routes.set chip.toNat { valid, links } } }

end Sys2Proof.Machine
end

