-- ==== Sys2Proof/Machine/StartEvents.lean ====
section
/-!
DEFINITION. Start-up, firmware, attestation and board management (R354, R381, R415 to R418).
-/

namespace Sys2Proof.Machine

/-- Enter the recovery state: a reason, and the host alert (R410, R411, R415). -/
def State.recover (s : State) (reason : Nat) : State :=
  { s with regs := { s.regs with boot := .recovery, reason := BitVec.ofNat 8 reason } }.hostAlert

/-- Record a measurement block (R417). -/
def State.measured (s : State) (ix : Nat) (data : List Byte) : State :=
  { s with mgmt := { s.mgmt with measured := tabSet s.mgmt.measured ix (Config.sha256 data) } }

/-- POWER_ON: power good or reset starts the ROM on one management core; the ROM, the fuses and the debug policy are measured (R415,
R417). -/
def execPowerOn (s : State) : Host.Outcome State Fault Refusal :=
  if s.regs.boot ≠ .rom then .next s
  else
    let m := s.mgmt
    let s := { s with regs := { s.regs with boot := .check } }
    let s := s.measured 1 Config.romImage
    let s := s.measured 3 (toBytes 4 m.svnMin.toNat ++ toBytes 32 m.keyDigest.toNat)
    .next (s.measured 4 (toBytes 1 (m.debug).toNat))

/-- DEVICE_RESET: every incomplete launch is lost, and start-up begins again (R381, R415). What a reset does not change stays: the
drives, the fuses, the epoch register (R4), memory (log 1), and what lies outside the device. -/
def execDeviceReset (s : State) : Host.Outcome State Fault Refusal :=
  .next { State.reset with
    mem := s.mem, poison := s.poison, regs := { Regs.reset with epoch := s.regs.epoch },
    mgmt := { s.mgmt with running := none, measured := [] }, peers := s.peers, birth := s.birth, outbox := s.outbox,
    agenda := s.agenda, free := s.free, nextId := s.nextId }

/-- The magic bytes of an image (R416). -/
def imageMagic : BitVec 32 := 0x014C4152

/-! The fields of a header, in R416's order from its first byte on: 4 magic bytes, an 8-byte version, a 4-byte svn, an 8-byte body
length, 32 bytes of digest, little-endian (log 17). -/

/-- A field of a header. -/
def imagePart (i : Image) (at_ n : Nat) : Nat := ofBytes ((i.header.drop at_).take n)

def imageMagicOf (i : Image) : BitVec 32 := BitVec.ofNat 32 (imagePart i 0 4)
def imageVersion (i : Image) : BitVec 64 := BitVec.ofNat 64 (imagePart i 4 8)
def imageSvn (i : Image) : BitVec 32 := BitVec.ofNat 32 (imagePart i 12 4)
def imageBodyLen (i : Image) : Nat := imagePart i 16 8
def imageDigest (i : Image) : BitVec 256 := BitVec.ofNat 256 (imagePart i 24 32)

/-- Whether an image is valid: every field that is checked lies in the header that the signature covers (R416). -/
def Mgmt.valid (m : Mgmt) (i : Image) : Bool :=
  imageMagicOf i == imageMagic && imageBodyLen i == i.body.length && i.header.length == 512 && i.key.length == 384 &&
  Config.sha256 i.key == m.keyDigest && Config.rsaVerify i.key i.header i.signature && Config.sha256 i.body == imageDigest i &&
  decide (m.svnMin.toNat ≤ (imageSvn i).toNat)

/-- The image of a drive. -/
def Mgmt.drive (m : Mgmt) (d : Nat) : Option Image := if d = 0 then m.drive0 else m.drive1

/-- The first drive that holds a valid image: drive 0, then drive 1 (R416). -/
def Mgmt.bootDrive (m : Mgmt) : Option Nat := [0, 1].find? fun d => ((m.drive d).map m.valid).getD false

/-- IMAGE_CHECK (R415 to R417). -/
def execImageCheck (s : State) : Host.Outcome State Fault Refusal :=
  if s.regs.boot ≠ .check then .next s
  else
    match s.mgmt.bootDrive with
    | none => .next (s.recover 1)
    | some d =>
      match s.mgmt.drive d with
      | none => .next (s.recover 1)
      | some i =>
        let regs := { s.regs with boot := .dies, svn := imageSvn i, fwver := imageVersion i }
        let s := { s with regs, mgmt := { s.mgmt with running := some d } }
        .next (s.measured 2 (i.header ++ i.body))

/-- DIE_BRING_UP: both dies pass and ageing is measured, or a die fails (R384, R385, R415). -/
def execDieBringUp (ok : Bool) (freqs : List Nat) (s : State) : Host.Outcome State Fault Refusal :=
  if s.regs.boot ≠ .dies then .next s
  else if !ok then .next (s.recover 3)
  else
    let s := (List.range 32).foldl (fun s c => s.measure c (freqs.getD c 0)) s.bankClocks
    let clock := Vector.ofFn fun c : Fin 32 => BitVec.ofNat 16 (ageLimit s.birth[c] (s.drift[c].getD 0))
    .next { s with regs := { s.regs with boot := .memory, clock } }

/-- MEMORY_TRAINING: all eight stacks train, or one fails (R415). -/
def execMemoryTraining (ok : Bool) (s : State) : Host.Outcome State Fault Refusal :=
  if s.regs.boot ≠ .memory then .next s
  else if ok then .next { s with regs := { s.regs with boot := .scheduler } }
  else .next (s.recover 2)

/-- SCHEDULER_START: the stored epoch is tested, incremented and written back; the device is ready (R354, R415). -/
def execSchedulerStart (s : State) : Host.Outcome State Fault Refusal :=
  if s.regs.boot ≠ .scheduler then .next s
  else if s.mgmt.storedEpoch = 0xFFFF then .next (s.recover 4)
  else
    let e := s.mgmt.storedEpoch + 1
    .next { s with mgmt := { s.mgmt with storedEpoch := e }, regs := { s.regs with boot := .ready, epoch := e, accepted := 0 } }

/-! ### SPDM and PLDM (R416 to R418) -/

/-- GET_MEASUREMENTS of one block, or of all by 0xFF (R417). -/
def execGetMeasurements (ix : Nat) (s : State) : Host.Outcome State Fault Refusal :=
  let bs := if ix = 0xFF then s.mgmt.measured else s.mgmt.measured.filter fun e => e.1 == ix
  .next { s with outbox := s.outbox ++ bs.map fun e => .measurements e.1 e.2 }

/-- The chain of certificate slot 0: the certificates above the identity key, which ends it (R417). -/
def Mgmt.chain (m : Mgmt) : List (List Byte) := m.issuers ++ [m.identity]

/-- CHALLENGE: the chain of slot 0, and a signature by the private part of the identity key over the nonce and the measurements (R417). -/
def execChallenge (nonce : BitVec 256) (s : State) : Host.Outcome State Fault Refusal :=
  .next { s with outbox := s.outbox ++ [.challengeAuth s.mgmt.chain (Config.identitySign s.mgmt.identityPrivate nonce (s.mgmt.measured.map Prod.snd))] }

/-- PLDM_FIRMWARE_UPDATE: writes the drive that is not running; it takes effect at the next start (R416). -/
def execPldmFirmwareUpdate (image : Image) (s : State) : Host.Outcome State Fault Refusal :=
  if s.mgmt.running = some 0 then .next { s with mgmt := { s.mgmt with drive1 := some image } }
  else .next { s with mgmt := { s.mgmt with drive0 := some image } }

/-- PLDM_SET_CAP: the later of this and the host's write holds (R418). -/
def execPldmSetCap (v : BitVec 16) (s : State) : Host.Outcome State Fault Refusal :=
  if s.hostOn then .next (s.writeCap v.toNat) else .next s

/-- PLDM_SENSORS (R418). -/
def execPldmSensors (s : State) : Host.Outcome State Fault Refusal :=
  if s.hostOn then .next { s with outbox := s.outbox ++ [.sensors s.regs.draw s.regs.pclock s.regs.cap] } else .next s

end Sys2Proof.Machine
end

