-- ==== Sys2Proof/Machine/Dispatch.lean ====
section
/-!
DEFINITION. The dispatch: one arm for each instruction, calling its meaning.
-/

namespace Sys2Proof.Machine

def exec (i : Instr) (s : State) : Host.Outcome State Fault Refusal :=
  match i with
  | .add z w d a b x t => Sys2Proof.Machine.execAdd z w d a b x t s
  | .addImm z w d a imm t => Sys2Proof.Machine.execAddImm z w d a imm t s
  | .sub z w d a b x t => Sys2Proof.Machine.execSub z w d a b x t s
  | .subImm z w d a imm t => Sys2Proof.Machine.execSubImm z w d a imm t s
  | .mul z w d a b x t => Sys2Proof.Machine.execMul z w d a b x t s
  | .mulImm z w d a imm t => Sys2Proof.Machine.execMulImm z w d a imm t s
  | .mulh z w d a b x t => Sys2Proof.Machine.execMulh z w d a b x t s
  | .mad z w d a b x t => Sys2Proof.Machine.execMad z w d a b x t s
  | .abs z w d a => Sys2Proof.Machine.execAbs z w d a s
  | .neg z w d a t => Sys2Proof.Machine.execNeg z w d a t s
  | .min z w d a b x t => Sys2Proof.Machine.execMin z w d a b x t s
  | .minImm z w d a imm t => Sys2Proof.Machine.execMinImm z w d a imm t s
  | .max z w d a b x t => Sys2Proof.Machine.execMax z w d a b x t s
  | .maxImm z w d a imm t => Sys2Proof.Machine.execMaxImm z w d a imm t s
  | .and z w d a b x => Sys2Proof.Machine.execAnd z w d a b x s
  | .andImm z w d a imm => Sys2Proof.Machine.execAndImm z w d a imm s
  | .or z w d a b x => Sys2Proof.Machine.execOr z w d a b x s
  | .orImm z w d a imm => Sys2Proof.Machine.execOrImm z w d a imm s
  | .xor z w d a b x => Sys2Proof.Machine.execXor z w d a b x s
  | .xorImm z w d a imm => Sys2Proof.Machine.execXorImm z w d a imm s
  | .not z w d a => Sys2Proof.Machine.execNot z w d a s
  | .shl z w d a b x => Sys2Proof.Machine.execShl z w d a b x s
  | .shlImm z w d a imm => Sys2Proof.Machine.execShlImm z w d a imm s
  | .shr z w d a b x => Sys2Proof.Machine.execShr z w d a b x s
  | .shrImm z w d a imm => Sys2Proof.Machine.execShrImm z w d a imm s
  | .sar z w d a b x => Sys2Proof.Machine.execSar z w d a b x s
  | .sarImm z w d a imm => Sys2Proof.Machine.execSarImm z w d a imm s
  | .rot z w d a b x => Sys2Proof.Machine.execRot z w d a b x s
  | .rotImm z w d a imm => Sys2Proof.Machine.execRotImm z w d a imm s
  | .clz z w d a => Sys2Proof.Machine.execClz z w d a s
  | .popc z w d a => Sys2Proof.Machine.execPopc z w d a s
  | .bfe z w d a b x => Sys2Proof.Machine.execBfe z w d a b x s
  | .bfi z w d a b x => Sys2Proof.Machine.execBfi z w d a b x s
  | .fadd z d a b x => Sys2Proof.Machine.execFadd z d a b x s
  | .faddImm z d a imm => Sys2Proof.Machine.execFaddImm z d a imm s
  | .fsub z d a b x => Sys2Proof.Machine.execFsub z d a b x s
  | .fsubImm z d a imm => Sys2Proof.Machine.execFsubImm z d a imm s
  | .fmul z d a b x => Sys2Proof.Machine.execFmul z d a b x s
  | .fmulImm z d a imm => Sys2Proof.Machine.execFmulImm z d a imm s
  | .fma z d a b x => Sys2Proof.Machine.execFma z d a b x s
  | .fmin z d a b x => Sys2Proof.Machine.execFmin z d a b x s
  | .fminImm z d a imm => Sys2Proof.Machine.execFminImm z d a imm s
  | .fmax z d a b x => Sys2Proof.Machine.execFmax z d a b x s
  | .fmaxImm z d a imm => Sys2Proof.Machine.execFmaxImm z d a imm s
  | .fabs z d a => Sys2Proof.Machine.execFabs z d a s
  | .fneg z d a => Sys2Proof.Machine.execFneg z d a s
  | .frnd z d a r => Sys2Proof.Machine.execFrnd z d a r s
  | .cmp z w c d a b x t => Sys2Proof.Machine.execCmp z w c d a b x t s
  | .cmpImm z w c d a imm t => Sys2Proof.Machine.execCmpImm z w c d a imm t s
  | .fcmp z c d a b x => Sys2Proof.Machine.execFcmp z c d a b x s
  | .fcmpImm z c d a imm => Sys2Proof.Machine.execFcmpImm z c d a imm s
  | .kand z d a b => Sys2Proof.Machine.execKand z d a b s
  | .kor z d a b => Sys2Proof.Machine.execKor z d a b s
  | .kxor z d a b => Sys2Proof.Machine.execKxor z d a b s
  | .knot z d a => Sys2Proof.Machine.execKnot z d a s
  | .kis z d a t => Sys2Proof.Machine.execKis z d a t s
  | .isabs z d a t => Sys2Proof.Machine.execIsabs z d a t s
  | .isabs64 z d a t => Sys2Proof.Machine.execIsabs64 z d a t s
  | .coal z d a b x t => Sys2Proof.Machine.execCoal z d a b x t s
  | .coal64 z d a b x t => Sys2Proof.Machine.execCoal64 z d a b x t s
  | .mkabs z d a b x t => Sys2Proof.Machine.execMkabs z d a b x t s
  | .mkabs64 z d a b x t => Sys2Proof.Machine.execMkabs64 z d a b x t s
  | .nullif z d a b x t => Sys2Proof.Machine.execNullif z d a b x t s
  | .nullif64 z d a b x t => Sys2Proof.Machine.execNullif64 z d a b x t s
  | .sel z d a b x t => Sys2Proof.Machine.execSel z d a b x t s
  | .sel64 z d a b x t => Sys2Proof.Machine.execSel64 z d a b x t s
  | .cvt z d a ext => Sys2Proof.Machine.execCvt z d a ext s
  | .rsum z w d a b x t => Sys2Proof.Machine.execRsum z w d a b x t s
  | .rmin z w d a b x t => Sys2Proof.Machine.execRmin z w d a b x t s
  | .rmax z w d a b x t => Sys2Proof.Machine.execRmax z w d a b x t s
  | .rcnt z w d a t => Sys2Proof.Machine.execRcnt z w d a t s
  | .scan z w d a b x t => Sys2Proof.Machine.execScan z w d a b x t s
  | .shfl z d a b x o => Sys2Proof.Machine.execShfl z d a b x o s
  | .shflImm z d a imm o => Sys2Proof.Machine.execShflImm z d a imm o s
  | .bcastImm z d a imm => Sys2Proof.Machine.execBcastImm z d a imm s
  | .bcast z d a b x => Sys2Proof.Machine.execBcast z d a b x s
  | .vote z d a o => Sys2Proof.Machine.execVote z d a o s
  | .dot4 z d a b x t => Sys2Proof.Machine.execDot4 z d a b x t s
  | .dot8 z d a b x t => Sys2Proof.Machine.execDot8 z d a b x t s
  | .dot2 z d a b x => Sys2Proof.Machine.execDot2 z d a b x s
  | .scale z d a b x => Sys2Proof.Machine.execScale z d a b x s
  | .pack z d a b x t => Sys2Proof.Machine.execPack z d a b x t s
  | .unpk z d a b x t => Sys2Proof.Machine.execUnpk z d a b x t s
  | .xfRcp z d a => Sys2Proof.Machine.execXfRcp z d a s
  | .xfRsqrt z d a => Sys2Proof.Machine.execXfRsqrt z d a s
  | .xfSqrt z d a => Sys2Proof.Machine.execXfSqrt z d a s
  | .xfExp2 z d a => Sys2Proof.Machine.execXfExp2 z d a s
  | .xfLog2 z d a => Sys2Proof.Machine.execXfLog2 z d a s
  | .xfSin z d a => Sys2Proof.Machine.execXfSin z d a s
  | .xfCos z d a => Sys2Proof.Machine.execXfCos z d a s
  | .xfTanh z d a => Sys2Proof.Machine.execXfTanh z d a s
  | .xfErf z d a => Sys2Proof.Machine.execXfErf z d a s
  | .xfQsb8 z d a b => Sys2Proof.Machine.execXfQsb8 z d a b s
  | .xfXpose z d a => Sys2Proof.Machine.execXfXpose z d a s
  | .xfSort z d a b t => Sys2Proof.Machine.execXfSort z d a b t s
  | .ld z t d a b x f ext => Sys2Proof.Machine.execLd z t d a b x f ext s
  | .st z t d a b x f ext => Sys2Proof.Machine.execSt z t d a b x f ext s
  | .stSk z t d a b x f ext => Sys2Proof.Machine.execStSk z t d a b x f ext s
  | .stnt z t d a b x f ext => Sys2Proof.Machine.execStnt z t d a b x f ext s
  | .ntdrain z ext => Sys2Proof.Machine.execNtdrain z ext s
  | .touch z a b x f ext => Sys2Proof.Machine.execTouch z a b x f ext s
  | .fence z ext => Sys2Proof.Machine.execFence z ext s
  | .xfence z d a ext => Sys2Proof.Machine.execXfence z d a ext s
  | .post z d => Sys2Proof.Machine.execPost z d s
  | .bwait z d a b x f ext => Sys2Proof.Machine.execBwait z d a b x f ext s
  | .wake z d a b x f ext => Sys2Proof.Machine.execWake z d a b x f ext s
  | .atomAdd z t d a b x f ext => Sys2Proof.Machine.execAtomAdd z t d a b x f ext s
  | .atomMin z t d a b x f ext => Sys2Proof.Machine.execAtomMin z t d a b x f ext s
  | .atomMax z t d a b x f ext => Sys2Proof.Machine.execAtomMax z t d a b x f ext s
  | .atomAnd z w d a b x f ext => Sys2Proof.Machine.execAtomAnd z w d a b x f ext s
  | .atomOr z w d a b x f ext => Sys2Proof.Machine.execAtomOr z w d a b x f ext s
  | .atomXor z w d a b x f ext => Sys2Proof.Machine.execAtomXor z w d a b x f ext s
  | .atomXchg z w d a b x f ext => Sys2Proof.Machine.execAtomXchg z w d a b x f ext s
  | .cas z w d a b x f ext => Sys2Proof.Machine.execCas z w d a b x f ext s
  | .waita z w d a b x f ext => Sys2Proof.Machine.execWaita z w d a b x f ext s
  | .gath z d a b ext => Sys2Proof.Machine.execGath z d a b ext s
  | .scat z d a b ext => Sys2Proof.Machine.execScat z d a b ext s
  | .scadd z d a b ext => Sys2Proof.Machine.execScadd z d a b ext s
  | .confd z d a => Sys2Proof.Machine.execConfd z d a s
  | .tld z t d a h ext => Sys2Proof.Machine.execTld z t d a h ext s
  | .tst z t d a h ext => Sys2Proof.Machine.execTst z t d a h ext s
  | .tstSk z t d a h ext => Sys2Proof.Machine.execTstSk z t d a h ext s
  | .br z p u o j => Sys2Proof.Machine.execBr z p u o j s
  | .brc z p u o j => Sys2Proof.Machine.execBrc z p u o j s
  | .brq z q o => Sys2Proof.Machine.execBrq z q o s
  | .join z => Sys2Proof.Machine.execJoin z s
  | .call z o => Sys2Proof.Machine.execCall z o s
  | .ret z => Sys2Proof.Machine.execRet z s
  | .jmpx z a g => Sys2Proof.Machine.execJmpx z a g s
  | .callx z a g => Sys2Proof.Machine.execCallx z a g s
  | .exit z => Sys2Proof.Machine.execExit z s
  | .bar z imm a l => Sys2Proof.Machine.execBar z imm a l s
  | .live z a => Sys2Proof.Machine.execLive z a s
  | .savept z imm => Sys2Proof.Machine.execSavept z imm s
  | .trap z imm => Sys2Proof.Machine.execTrap z imm s
  | .rdstat z d => Sys2Proof.Machine.execRdstat z d s
  | .wrstat z a => Sys2Proof.Machine.execWrstat z a s
  | .rtf z r => Sys2Proof.Machine.execRtf z r s
  | .yield z => Sys2Proof.Machine.execYield z s
  | .leadAdd z d a b y c32 t => Sys2Proof.Machine.execLeadAdd z d a b y c32 t s
  | .leadAddImm z d a imm t => Sys2Proof.Machine.execLeadAddImm z d a imm t s
  | .leadSub z d a b y c32 t => Sys2Proof.Machine.execLeadSub z d a b y c32 t s
  | .leadSubImm z d a imm t => Sys2Proof.Machine.execLeadSubImm z d a imm t s
  | .leadMul z d a b y c32 t => Sys2Proof.Machine.execLeadMul z d a b y c32 t s
  | .leadMulImm z d a imm t => Sys2Proof.Machine.execLeadMulImm z d a imm t s
  | .leadMulh z d a b y c32 t => Sys2Proof.Machine.execLeadMulh z d a b y c32 t s
  | .div z d a b y c32 t => Sys2Proof.Machine.execDiv z d a b y c32 t s
  | .rem z d a b y c32 t => Sys2Proof.Machine.execRem z d a b y c32 t s
  | .leadAnd z d a b y c32 => Sys2Proof.Machine.execLeadAnd z d a b y c32 s
  | .leadAndImm z d a imm => Sys2Proof.Machine.execLeadAndImm z d a imm s
  | .leadOr z d a b y c32 => Sys2Proof.Machine.execLeadOr z d a b y c32 s
  | .leadOrImm z d a imm => Sys2Proof.Machine.execLeadOrImm z d a imm s
  | .leadXor z d a b y c32 => Sys2Proof.Machine.execLeadXor z d a b y c32 s
  | .leadXorImm z d a imm => Sys2Proof.Machine.execLeadXorImm z d a imm s
  | .leadShl z d a b y c32 => Sys2Proof.Machine.execLeadShl z d a b y c32 s
  | .leadShlImm z d a imm => Sys2Proof.Machine.execLeadShlImm z d a imm s
  | .leadShr z d a b y c32 => Sys2Proof.Machine.execLeadShr z d a b y c32 s
  | .leadShrImm z d a imm => Sys2Proof.Machine.execLeadShrImm z d a imm s
  | .leadSar z d a b y c32 => Sys2Proof.Machine.execLeadSar z d a b y c32 s
  | .leadSarImm z d a imm => Sys2Proof.Machine.execLeadSarImm z d a imm s
  | .leadMin z d a b y c32 t => Sys2Proof.Machine.execLeadMin z d a b y c32 t s
  | .leadMax z d a b y c32 t => Sys2Proof.Machine.execLeadMax z d a b y c32 t s
  | .leadCmp z c d a b y c32 t => Sys2Proof.Machine.execLeadCmp z c d a b y c32 t s
  | .leadCmpImm z c d a imm t => Sys2Proof.Machine.execLeadCmpImm z c d a imm t s
  | .leadSel z d a b y c32 t => Sys2Proof.Machine.execLeadSel z d a b y c32 t s
  | .movi z d imm t => Sys2Proof.Machine.execMovi z d imm t s
  | .movc z d a w => Sys2Proof.Machine.execMovc z d a w s
  | .ldx z t d a imm => Sys2Proof.Machine.execLdx z t d a imm s
  | .stx z t d a imm => Sys2Proof.Machine.execStx z t d a imm s
  | .atomxAdd z t d a b p o => Sys2Proof.Machine.execAtomxAdd z t d a b p o s
  | .atomxMinI64 z d a b p o => Sys2Proof.Machine.execAtomxMinI64 z d a b p o s
  | .atomxMinN64 z d a b p o => Sys2Proof.Machine.execAtomxMinN64 z d a b p o s
  | .atomxMaxI64 z d a b p o => Sys2Proof.Machine.execAtomxMaxI64 z d a b p o s
  | .atomxMaxN64 z d a b p o => Sys2Proof.Machine.execAtomxMaxN64 z d a b p o s
  | .atomxAnd z d a b p o => Sys2Proof.Machine.execAtomxAnd z d a b p o s
  | .atomxOr z d a b p o => Sys2Proof.Machine.execAtomxOr z d a b p o s
  | .atomxXor z d a b p o => Sys2Proof.Machine.execAtomxXor z d a b p o s
  | .atomxXchg z d a b p o => Sys2Proof.Machine.execAtomxXchg z d a b p o s
  | .atomxCas z d a b p o => Sys2Proof.Machine.execAtomxCas z d a b p o s
  | .leadBr z p u o => Sys2Proof.Machine.execLeadBr z p u o s
  | .leadBrc z p u o => Sys2Proof.Machine.execLeadBrc z p u o s
  | .leadCall z p u o => Sys2Proof.Machine.execLeadCall z p u o s
  | .leadRet z => Sys2Proof.Machine.execLeadRet z s
  | .dqpush z d a => Sys2Proof.Machine.execDqpush z d a s
  | .rqpop z d => Sys2Proof.Machine.execRqpop z d s
  | .qpush z d a b p => Sys2Proof.Machine.execQpush z d a b p s
  | .qpop z d a p => Sys2Proof.Machine.execQpop z d a p s
  | .leadWaita z d a b p w => Sys2Proof.Machine.execLeadWaita z d a b p w s
  | .leadWake z d a b p => Sys2Proof.Machine.execLeadWake z d a b p s
  | .leadFence z p o => Sys2Proof.Machine.execLeadFence z p o s
  | .leadXfence z d a p => Sys2Proof.Machine.execLeadXfence z d a p s
  | .mzero z d unit acc ty => Sys2Proof.Machine.execMzero z d unit acc ty s
  | .mma z d a b unit acc k strict => Sys2Proof.Machine.execMma z d a b unit acc k strict s
  | .mmc z d b unit acc src fmt strict => Sys2Proof.Machine.execMmc z d b unit acc src fmt strict s
  | .mmw z d a unit acc h strict => Sys2Proof.Machine.execMmw z d a unit acc h strict s
  | .mdrain z d a b unit acc => Sys2Proof.Machine.execMdrain z d a b unit acc s
  | .mload z d a unit acc ty => Sys2Proof.Machine.execMload z d a unit acc ty s
  | .talloc z d a b h fmt slice packed => Sys2Proof.Machine.execTalloc z d a b h fmt slice packed s
  | .tfree z d h => Sys2Proof.Machine.execTfree z d h s
  | .tbind z d a h => Sys2Proof.Machine.execTbind z d a h s
  | .tdry z d h => Sys2Proof.Machine.execTdry z d h s
  | .tstat z d a h => Sys2Proof.Machine.execTstat z d a h s
  | .abind z d a h slice => Sys2Proof.Machine.execAbind z d a h slice s
  | .seek z d a b unit ka mc n => Sys2Proof.Machine.execSeek z d a b unit ka mc n s
  | .proj z d a b unit => Sys2Proof.Machine.execProj z d a b unit s
  | .copy z d a tile h => Sys2Proof.Machine.execCopy z d a tile h s
  | .pcopy z d a b scope n => Sys2Proof.Machine.execPcopy z d a b scope n s
  | .binit z a b tile h scope => Sys2Proof.Machine.execBinit z a b tile h scope s
  | .barr z d a b tile h scope => Sys2Proof.Machine.execBarr z d a b tile h scope s
  | .leadBwait z d a b tile h scope => Sys2Proof.Machine.execLeadBwait z d a b tile h scope s
  | .smapLook z d a b => Sys2Proof.Machine.execSmapLook z d a b s
  | .smapAppend z d a b => Sys2Proof.Machine.execSmapAppend z d a b s
  | .smapShare z d a b => Sys2Proof.Machine.execSmapShare z d a b s
  | .smapLen z d a b => Sys2Proof.Machine.execSmapLen z d a b s
  | .smapEvict z d a b => Sys2Proof.Machine.execSmapEvict z d a b s
  | .chase z d a b q lim => Sys2Proof.Machine.execChase z d a b q lim s
  | .launch z d a p => Sys2Proof.Machine.execLaunch z d a p s
  | .mark z d a b => Sys2Proof.Machine.execMark z d a b s
  | .snap z => Sys2Proof.Machine.execSnap z s
  | .rollbk z => Sys2Proof.Machine.execRollbk z s
  | .commit z => Sys2Proof.Machine.execCommit z s
  | .leadTrap z b => Sys2Proof.Machine.execLeadTrap z b s
  | .leadRdstat z d => Sys2Proof.Machine.execLeadRdstat z d s
  | .leadWrstat z a => Sys2Proof.Machine.execLeadWrstat z a s
  | .leadRtf z r => Sys2Proof.Machine.execLeadRtf z r s
  | .leadSavept z imm h => Sys2Proof.Machine.execLeadSavept z imm h s
  | .leadExit z => Sys2Proof.Machine.execLeadExit z s
  | .rep n k t => Sys2Proof.Machine.execRep n k t s
  | .unlistedOpcode w => Sys2Proof.Machine.execUnlistedOpcode w s
  | .clauseFetch => Sys2Proof.Machine.execClauseFetch s
  | .resultReturn c n => Sys2Proof.Machine.execResultReturn c n s
  | .regcacheFill k r victim => Sys2Proof.Machine.execRegcacheFill k r victim s
  | .xfReply k => Sys2Proof.Machine.execXfReply k s
  | .memoryReply k n => Sys2Proof.Machine.execMemoryReply k n s
  | .collectorRoom c => Sys2Proof.Machine.execCollectorRoom c s
  | .queueStallRelease c => Sys2Proof.Machine.execQueueStallRelease c s
  | .waitEnd c cause => Sys2Proof.Machine.execWaitEnd c cause s
  | .waitTimeout c => Sys2Proof.Machine.execWaitTimeout c s
  | .bwaitResume c => Sys2Proof.Machine.execBwaitResume c s
  | .pageResident va => Sys2Proof.Machine.execPageResident va s
  | .tileFill g h sb => Sys2Proof.Machine.execTileFill g h sb s
  | .tileEvict g h sb => Sys2Proof.Machine.execTileEvict g h sb s
  | .matrixKStep op => Sys2Proof.Machine.execMatrixKStep op s
  | .matrixOpComplete op => Sys2Proof.Machine.execMatrixOpComplete op s
  | .chunkDeliver op n => Sys2Proof.Machine.execChunkDeliver op n s
  | .pcopyComplete op => Sys2Proof.Machine.execPcopyComplete op s
  | .chasePage op => Sys2Proof.Machine.execChasePage op s
  | .sqDoorbell q v => Sys2Proof.Machine.execSqDoorbell q v s
  | .queueEnable q => Sys2Proof.Machine.execQueueEnable q s
  | .queueDisable q => Sys2Proof.Machine.execQueueDisable q s
  | .cancel seq => Sys2Proof.Machine.execCancel seq s
  | .cancelAll => Sys2Proof.Machine.execCancelAll s
  | .retire n => Sys2Proof.Machine.execRetire n s
  | .registerWrite off size v => Sys2Proof.Machine.execRegisterWrite off size v s
  | .recordConsume q a => Sys2Proof.Machine.execRecordConsume q a s
  | .launchAccept sub a => Sys2Proof.Machine.execLaunchAccept sub a s
  | .gangBind seq places => Sys2Proof.Machine.execGangBind seq places s
  | .crewStart k => Sys2Proof.Machine.execCrewStart k s
  | .boundOverrun seq => Sys2Proof.Machine.execBoundOverrun seq s
  | .preemptRequest seq plans => Sys2Proof.Machine.execPreemptRequest seq plans s
  | .saveComplete g => Sys2Proof.Machine.execSaveComplete g s
  | .saveTimeout g => Sys2Proof.Machine.execSaveTimeout g s
  | .gangRestore g places => Sys2Proof.Machine.execGangRestore g places s
  | .gangRelaunch g => Sys2Proof.Machine.execGangRelaunch g s
  | .comparePoint g p => Sys2Proof.Machine.execComparePoint g p s
  | .unitCompare g => Sys2Proof.Machine.execUnitCompare g s
  | .pairFaultMatch g p => Sys2Proof.Machine.execPairFaultMatch g p s
  | .uncorrectableError g core => Sys2Proof.Machine.execUncorrectableError g core s
  | .scrub unit found => Sys2Proof.Machine.execScrub unit found s
  | .ageingMeasure cl freq => Sys2Proof.Machine.execAgeingMeasure cl freq s
  | .clockLimitApply cl => Sys2Proof.Machine.execClockLimitApply cl s
  | .machineDissent m differ => Sys2Proof.Machine.execMachineDissent m differ s
  | .machineResync m copy => Sys2Proof.Machine.execMachineResync m copy s
  | .powerControl draw => Sys2Proof.Machine.execPowerControl draw s
  | .hostMemoryAccess acc => Sys2Proof.Machine.execHostMemoryAccess acc s
  | .podAccess acc => Sys2Proof.Machine.execPodAccess acc s
  | .linkReplay link => Sys2Proof.Machine.execLinkReplay link s
  | .linkFailure link => Sys2Proof.Machine.execLinkFailure link s
  | .routeChange r => Sys2Proof.Machine.execRouteChange r s
  | .powerOn => Sys2Proof.Machine.execPowerOn s
  | .deviceReset => Sys2Proof.Machine.execDeviceReset s
  | .imageCheck => Sys2Proof.Machine.execImageCheck s
  | .dieBringUp ok freqs => Sys2Proof.Machine.execDieBringUp ok freqs s
  | .memoryTraining ok => Sys2Proof.Machine.execMemoryTraining ok s
  | .schedulerStart => Sys2Proof.Machine.execSchedulerStart s
  | .getMeasurements ix => Sys2Proof.Machine.execGetMeasurements ix s
  | .challenge nonce => Sys2Proof.Machine.execChallenge nonce s
  | .pldmFirmwareUpdate image => Sys2Proof.Machine.execPldmFirmwareUpdate image s
  | .pldmSetCap v => Sys2Proof.Machine.execPldmSetCap v s
  | .pldmSensors => Sys2Proof.Machine.execPldmSensors s
  | .pageDemotion va unmap => Sys2Proof.Machine.execPageDemotion va unmap s

end Sys2Proof.Machine
end

