-- ==== Sys2Proof/Machine/Fetch.lean ====
section
/-!
DEFINITION. What the machine does in a step: the agenda (log 5), which contexts can issue, and the fetch of a clause header or
a word through the header map (R44 to R46, R59, R63).
-/

namespace Sys2Proof.Machine

/-- What a context that is due to issue does. -/
inductive Fetched where
  /-- It cannot issue now. -/
  | idle
  | run (i : Instr)
  /-- A word that raises illegal_instruction at fetch of its encoding, and its length (R79). -/
  | illegal (aux words : Nat)
  /-- The word was read from a poisoned line (R383). -/
  | poison
  /-- The word's extension word is not mapped executable (R64). -/
  | noCode (addr : Nat)
  deriving DecidableEq, Repr

/-- Fetch at a program counter: a clause header, or the word that the decoder reads there. A place that no clause of the stream
covers (R45, R46, R63), as it may be once code is overwritten, is fetched as a header, and faults. A direct branch whose target
lies within a clause (R62 forbids it to the program and names no fault) runs the word there (log 33). -/
def State.fetchAt (s : State) (lead : Bool) (headers : List Nat) (pc : Nat) (reps : Option RepCtl) (rep : Nat) : Fetched :=
  if headers.contains pc then .run .clauseFetch
  else
    match clauseBack headers pc with
    | none => .run .clauseFetch
    | some k =>
      match s.codeWord (pc - 4 * k), s.codeWord pc with
      | .error (.away _), _ => .idle
      | _, .error (.away _) => .idle
      | .ok h, .ok w =>
        if k > fieldNat h.toNat 24 4 ∨ !streamClass lead (fieldNat h.toNat 28 4) then .run .clauseFetch
        else
          let cls := fieldNat h.toNat 28 4
          let two := needsExt cls w && decide (k < fieldNat h.toNat 24 4)
          match (if two then (s.codeWord (pc + 4)).map some else .ok none) with
          | .error (.away _) => .idle
          | .error _ => .noCode (pc + 4)
          | .ok ext =>
            if s.codePoisoned pc || (two && s.codePoisoned (pc + 4)) then .poison
            else
              match decodeWord cls (match reps with | some r => stepWord cls w r rep | none => w) ext with
              | .ok i _ => .run i
              | .bad aux => .illegal aux (if ext.isSome then 2 else 1)
      | _, _ => .run .clauseFetch

/-- Whether a split waits for a register-cache line that is absent: its whole wave waits (R177). -/
def Wave.missesLine (w : Wave) : SplitWait → Bool
  | .regs r => !w.cached.getLsbD r
  | _ => false

/-- Whether a split can issue: it waits for nothing, and its wave is neither parked nor draining (R56, R196), nor held by a
register-cache miss (R177), by a fault of a pair (R397) or by its synchronising compare point (R392). -/
def WCtx.ready (c : WCtx) : Bool :=
  c.gang.state.live && !c.w.parked && !(c.w.splits.any fun e => e.2.wait.holdsFault || e.2.wait.atPoint || c.w.missesLine e.2.wait) && c.w.drain.isEmpty && c.sp.state == .ready &&
    match c.sp.wait with
    | .none => true
    | .matched _ => true
    | _ => false

/-- Whether a lead context can issue. -/
def LCtx.ready (c : LCtx) : Bool :=
  c.gang.state.live && !c.l.parked &&
    match c.l.wait with
    | .none => true
    | .matched _ => true
    | _ => false

/-- What the context that `cur` names does next. -/
def State.fetch (s : State) : Fetched :=
  match s.cur with
  | .none => .idle
  | .split _ _ =>
    match s.wctx with
    | none => .idle
    | some c =>
      if !c.ready then .idle
      else
        match s.codeOf c.gang with
        | none => .idle
        | some co => s.fetchAt false co.wave.headers c.sp.pc.toNat c.sp.reps c.sp.rep
  | .lead _ =>
    match s.lctx with
    | none => .idle
    | some c =>
      if !c.ready then .idle
      else
        match s.codeOf c.gang with
        | none => .idle
        | some co => s.fetchAt true co.lead.headers c.l.pc.toNat c.l.reps c.l.rep

/-- illegal_instruction of a word that does not decode, raised by the context that `cur` names. -/
def State.raiseIllegal (s : State) (aux words : Nat) : State :=
  match s.wctx, s.lctx with
  | some c, _ => s.stopWave c words (.fault (illegal aux))
  | none, some c => s.stopLead c words (.fault (illegal aux))
  | none, none => s

/-- jump_target for an extension word that is not mapped executable (R64, R190), raised by the context that `cur` names. -/
def State.raiseNoCode (s : State) (addr : Nat) : State :=
  let reason := if (pageAt s.pages addr).isSome then 2 else 1
  match s.wctx, s.lctx with
  | some c, _ => s.stopWave c 2 (.fault { Raised.at .jumpTarget addr with aux := reason })
  | none, some c => s.stopLead c 2 (.fault (Raised.of .jumpTarget 0))
  | none, none => s

/-- Poison in the code that the context reads (R383). -/
def State.poisonedCode (s : State) : State :=
  match s.wctx, s.lctx with
  | some c, _ => s.stopWave c 1 .poison
  | none, some c => s.stopLead c 1 .poison
  | none, none => s

/-- Whether an instruction is a step that no context issues. -/
def isEvent (i : Instr) : Bool :=
  match i with
  | .unlistedOpcode _ => false
  | .clauseFetch => false
  | i => decide (classOf i ≥ 14)

/-- A context that is due to issue. A context that cannot issue leaves the machine as it is. -/
def State.issue (s : State) (c : Ctx) : Host.Outcome State Fault Refusal :=
  let t := { s with cur := c }
  match t.fetch with
  | .idle => .next s
  | .run i => exec i t
  | .illegal aux n => .next (t.raiseIllegal aux n)
  | .poison => .next t.poisonedCode
  | .noCode a => .next (t.raiseNoCode a)

/-- Perform one action after the time that passes before it, in which bounds may end launches (R40). -/
def State.perform (s : State) (a : Action) : Host.Outcome State Fault Refusal :=
  let s := s.passTime a.dt
  match a.act with
  | .issue c => s.issue c
  | .event i => if isEvent i then exec i s else .next s

/-- One step: the next entry of the agenda, or a free action where the agenda is empty (log 5). -/
def State.advance (s : State) : Host.Outcome State Fault Refusal :=
  match s.agenda with
  | a :: as => { s with agenda := as }.perform a
  | [] => { s with free := s.free + 1 }.perform (Config.nextAction s.free)

/-! ### A word placed for the next step (log 8) -/

/-- Where a placed clause stands: a page of its own, mapped one to one. -/
def placeBase : Nat := 0x10000

/-- The launch record that a placed gang runs: one gang of one crew of one wave, 16 barriers. -/
def placeRecord : BitVec 2048 :=
  0x100001010000000100000000000000000000000000000000000000000001000000000000000100000000000000010000#2048

/-- The bytes of a placed clause: its header, the word with an extension word of zeros where it needs one, and a clause of the
same stream after it. -/
def placeBytes (cls : Nat) (w : Word) (w2 : Nat) : List Byte :=
  let two := needsExt cls w
  toBytes 4 (cls * 2 ^ 28 + (if two then 2 else 1) * 2 ^ 24) ++ toBytes 4 w.toNat ++ (if two then toBytes 4 w2 else []) ++
  toBytes 4 ((if cls < 8 ∨ cls = 13 then 0 else 8) * 2 ^ 28 + 2 ^ 24) ++ toBytes 4 0

/-- A gang in its place: one crew of one wave on core 0. -/
def placeCrew : CrewPlace := { core := 0, pos := 0, lframe := 0x8000, wframe := 0, leadFrec := 0x200, waveFrecs := [0x201] }

def placeGang (seq : DWord) : Gang :=
  { seq, index := 0, trailing := false, state := .running,
    place := { index := 0, trailing := false, cluster := 0, barbase := 0, crews := [placeCrew] },
    crews := 1, waves := 1, barriers := 16, phases := [], handles := [], resCluster := 1048576, resSlice := 1048576, acc := 16,
    regions := [], ckpt := none, bindOrder := 0, since := 0, progress := 0, saveSince := 0, pair := none }

/-- Place a word of a class as the next to be issued, by a fresh gang of its own, and name its context as the next to move. -/
def State.placeWord (s : State) (cls : Nat) (w : Word) (w2 : Nat) : State :=
  let g := s.nextId
  let seq : DWord := BitVec.ofNat 64 (2 ^ 63 + g)
  let headers := [placeBase, placeBase + (if needsExt cls w then 12 else 8)]
  let stream : Stream := { base := placeBase, size := 64, headers, handler := none }
  let code : CodeObj := { addr := placeBase, lead := stream, wave := stream, live := [] }
  let pc : DWord := BitVec.ofNat 64 (placeBase + 4)
  let page : Page := { base := placeBase, size := 0x10000, r := true, w := true, x := true, resident := true, pa := placeBase }
  let launch : Launch := { record := placeRecord, retained := 0, origin := .host 0, scope := 8, accepted := s.mtime, next := 1,
                           again := [], endedOk := 0, failed := none, done := none, table := [], mismatches := [], errors := [], reruns := 0,
                           plan := [], victims := [], pages := [] }
  let crew : CrewKey := { gang := g, crew := 0 }
  let wave : WaveKey := { gang := g, crew := 0, wave := 0 }
  let ctx : Ctx := if cls < 8 ∨ cls = 13 then .split wave 0 else .lead crew
  { s with
    mem := memWrites s.mem placeBase (placeBytes cls w w2), pages := page :: s.pages, codeObjs := code :: s.codeObjs,
    waves := tabSet s.waves wave { Wave.start pc 0x201 with cached := BitVec.allOnes 128 },
    leads := tabSet s.leads crew (Lead.start pc placeCrew.leadFrec),
    crews := tabSet s.crews crew (Crew.start placeCrew 0 1 16 (Vector.replicate 64 0)),
    gangs := tabSet s.gangs g (placeGang seq), launches := tabSet s.launches seq launch, nextId := s.nextId + 1,
    agenda := { dt := 0, act := .issue ctx } :: s.agenda }

end Sys2Proof.Machine
end

