-- ==== Sys2Proof/Machine/Step.lean ====
section
/-!
DEFINITION. One step of the machine, and a word placed so that the next step runs it (log 8).
-/

namespace Sys2Proof.Machine

/-- One step: the next entry of the agenda moves (log 5). -/
def step (s : State) : Host.Outcome State Fault Refusal := s.advance

/-- The state with an instruction of the opcode table placed where the next step fetches it (log 8). -/
def State.withFetchWord (s : State) (nbits w : Nat) : State :=
  let v := w % 2 ^ nbits
  match tableClass nbits w with
  | some (cls, _) => s.placeWord cls (BitVec.ofNat 32 v) (v / 2 ^ 32)
  | none => s.placeWord 0 (BitVec.ofNat 32 v) (v / 2 ^ 32)

end Sys2Proof.Machine
end

