-- ==== Sys2Proof/Safety.lean ====
section
/-!
DEFINITION. What a safe run is: the machine goes on, and what it holds keeps the forms that the spec gives it; and the terms in
which claims speak of a word: when a context issues it undisturbed, and everything that its completion changes.
-/

namespace Sys2Proof

open Machine

/-- An outcome that goes on. -/
def goesOn : Host.Outcome State Fault Refusal → Prop
  | .next _ => True
  | .fault _ => False
  | .refused _ => False

/-- A table lists no key twice. -/
def distinctKeys {κ α : Type} (t : List (κ × α)) : Prop := (tabKeys t).Nodup

/-- The invariant of the machine: memory in its canonical form, every x0 zero (R50, R130), and no sequence number listed twice (R354). -/
structure Inv (s : State) : Prop where
  mem : Memory.wf s.mem = true
  x0 : ∀ e ∈ s.leads, e.2.x[0] = 0
  launches : distinctKeys s.launches

/-! ### Register writes -/

/-- What one register write puts into a lane of v register `r`. -/
def Machine.RegWrite.vAt (w : RegWrite) (r : Nat) (l : Lane) : Option Word :=
  match w with
  | .v q lanes vals => if q = r ∧ lanes.getLsbD l.val = true then some vals[l] else none
  | _ => none

/-- What one register write puts into a lane of k register `r`. -/
def Machine.RegWrite.kAt (w : RegWrite) (r : Nat) (l : Lane) : Option Trit :=
  match w with
  | .k q lanes vals => if q = r ∧ lanes.getLsbD l.val = true then some vals[l] else none
  | _ => none

/-- What one register write puts into x register `r`; x0 takes nothing. -/
def Machine.RegWrite.xAt (w : RegWrite) (r : Nat) : Option DWord :=
  match w with
  | .x q val => if q = r ∧ r ≠ 0 then some val else none
  | _ => none

/-- What a list of register writes leaves in a lane of v register `r`: the last write that reaches the lane, none where none does. -/
def writtenV : List RegWrite → Nat → Lane → Option Word
  | [], _, _ => none
  | w :: ws, r, l => (writtenV ws r l).or (w.vAt r l)

/-- The same for a lane of k register `r`. -/
def writtenK : List RegWrite → Nat → Lane → Option Trit
  | [], _, _ => none
  | w :: ws, r, l => (writtenK ws r l).or (w.kAt r l)

/-- The same for x register `r`. -/
def writtenX : List RegWrite → Nat → Option DWord
  | [], _ => none
  | w :: ws, r => (writtenX ws r).or (w.xAt r)

/-- Whether a list of register writes names v register `r`. -/
def namesV (ws : List RegWrite) (r : Nat) : Bool :=
  ws.any fun w => match w with
    | .v q _ _ => q == r
    | _ => false

/-- The writes that a word makes at once; those of an outstanding result come later. -/
def Machine.Done.now (d : Done) : List RegWrite := if d.cat.isNone then d.writes else []

/-- The result that a word leaves outstanding, if it leaves one. -/
def Machine.Done.later (d : Done) : List Pending :=
  match d.cat with
  | some k =>
    if d.writes.isEmpty && d.needs.isEmpty then []
    else [{ cat := k, writes := d.writes, gives := d.writes, entries := d.entries, needs := d.needs }]
  | none => []

/-- The same for a lead word, which waits for no page. -/
def Machine.Done.laterLead (d : Done) : List Pending :=
  match d.cat with
  | some k => if d.writes.isEmpty then [] else [{ cat := k, writes := d.writes, gives := d.writes, entries := 0, needs := [] }]
  | none => []

/-- Whether a register write covers a poisoned word of the register cache, register and pair of lanes, which it mends (R383). -/
def Machine.RegWrite.mends (w : RegWrite) (e : Nat × Nat) : Bool :=
  match w with
  | .v r lanes _ => decide (r < 128) && (e.1 == r && bitNat lanes.toNat (2 * e.2) && bitNat lanes.toNat (2 * e.2 + 1))
  | _ => false

/-- The same writes are late on the same paths: only what the chains from them have reached may differ, which no read shows (R32). -/
def sameLate (s t : State) : Prop := t.late.map (fun r => { r with known := [] }) = s.late.map fun r => { r with known := [] }

/-- The sticky flags that the lanes of a set raise. -/
def laneFlags (lanes : LaneSet) (f : Lane → Flags) : Flags := (lanesOf lanes).foldl (fun a l => a ||| f l) Flags.none

/-! ### Words of a wave -/

/-- A wave word issues undisturbed: `cur` names the split `c`, the word breaks no field rule, every register line that it uses is in
the register cache, and it reads no register that the transform pipe has yet to write, and no poisoned word of the cache. -/
abbrev WaveIssues (s : State) (c : WCtx) (i : Instr) : Prop :=
  s.wctx = some c ∧ i.wf = true ∧ missing c.w i = none ∧ awaited c.w i = none ∧ c.readsPoison i = false

/-- What the completion of a wave word leaves in its wave `w`, where `w0` is the wave as the word's other effects leave it: the
registers that it writes, with what they replace for the reads that R57 still lets see it, the flags that it raises, a queue entry
popped, its split at the next place, its result outstanding; everything else as in `w0`. -/
structure WaveAfter (c : WCtx) (z : Bool) (n : Nat) (d : Done) (w0 w : Wave) : Prop where
  v : ∀ (r : Fin 128) (l : Lane), w.v[r][l] = (writtenV d.now r l).getD w0.v[r][l]
  unset : ∀ (r : Fin 128) (l : Lane), w.unset[r].getLsbD l.val = (w0.unset[r].getLsbD l.val && (writtenV d.now r l).isNone)
  dirty : ∀ r : Fin 128, w.dirty.getLsbD r.val = (w0.dirty.getLsbD r.val || namesV d.now r)
  k : ∀ (r : Fin 48) (l : Lane), w.k[r][l] = (writtenK d.now r l).getD w0.k[r][l]
  status : w.status = raiseFlags w0.status d.flags
  own : w.slot c.slot = (w0.slot c.slot).map fun p => (p.step n).1
  other : w.slot (Machine.other c.slot) = w0.slot (Machine.other c.slot)
  popped : ∀ q : Fin 4, w.popped[q] = w0.popped[q] + if d.pop = some q.val then 1 else 0
  outstanding : w.outstanding = (if d.cat.isNone then underAll d.writes w0.outstanding else w0.outstanding) ++ d.later
  parked : w.parked = (w0.parked || (z && ((w0.slot c.slot).map fun p => (p.step n).2).getD false && !w.outstanding.isEmpty))
  past : w.past = if (z && ((w0.slot c.slot).map fun p => (p.step n).2).getD false && w.outstanding.isEmpty) = true then []
    else d.now.filterMap w0.replaced ++ w0.past
  bad : w.bad = w0.bad.filter fun e => !d.now.any fun x => x.mends e
  ran : w.ran = ranWord c.gang (.wave c.key.crew c.key.wave) c.sp.pc c.sp.rep c.sp.lanes w0.ran
  just : w.just = some (c.slot, d.flags)
  same : w.stack = w0.stack ∧ w.exited = w0.exited ∧ w.handling = w0.handling ∧ w.drain = w0.drain ∧ w.nt = w0.nt ∧
    w.cached = w0.cached ∧ w.ended = w0.ended

/-- What the completion of a wave word leaves in the machine, where `d.s` holds its effects on memory, queues and units. The lines
of other waves keep their order of use; the pop of a queue entry lets chains reach the wave. -/
structure WaveEffect (c : WCtx) (z : Bool) (n : Nat) (d : Done) (t : State) : Prop where
  wave : ∃ w0 w, d.s.wave c.key = some w0 ∧ t.wave c.key = some w ∧ WaveAfter c z n d w0 w
  others : ∀ k, k ≠ c.key → t.wave k = d.s.wave k
  crews : d.pop = none → t.crews = d.s.crews
  crew : ∀ k, k ≠ crewOf c.key → t.crew k = d.s.crew k
  free : c.w.outstanding = [] → t.free = d.s.free
  late : (d.pop = none → t.late = d.s.late) ∧ sameLate d.s t
  recent : (t.recent.filter fun e => e.1 != c.key) = d.s.recent.filter fun e => e.1 != c.key
  rest : t = { d.s with waves := t.waves, crews := t.crews, free := t.free, late := t.late, recent := t.recent }

/-- A wave word completes: its outcome is a next state with the effect `d` and nothing else. -/
def completes (c : WCtx) (z : Bool) (n : Nat) (d : Done) (o : Host.Outcome State Fault Refusal) : Prop :=
  ∃ t, o = .next t ∧ WaveEffect c z n d t

/-- The effect of a word that gives an element to every lane of its split, into a v register or pair: `f` gives the code and the
flags of each lane. -/
def elementwise (s : State) (c : WCtx) (wide : Bool) (d : BitVec 7) (pop : Option Nat) (f : Lane → Nat × Flags) : Done :=
  { s, writes := vWrites wide d.toNat c.sp.lanes (Vector.ofFn fun l => (f l).1), flags := laneFlags c.sp.lanes fun l => (f l).2, pop }

/-- The effect of a word that gives a trit to every lane of its split. -/
def tritwise (s : State) (c : WCtx) (d : BitVec 7) (pop : Option Nat) (f : Lane → Trit × Flags) : Done :=
  { s, writes := [.k d.toNat c.sp.lanes (Vector.ofFn fun l => (f l).1)], flags := laneFlags c.sp.lanes fun l => (f l).2, pop }

/-- The same effect, outstanding in a scoreboard category until it returns (R47, R55). -/
def Machine.Done.inCat (d : Done) (k : Cat) : Done := { d with cat := some k }

/-- An operation of an integer type on two codes: absent where an operand of a value type is, else the exact result narrowed (R93,
R94). -/
def intValue (k : Kind) (n a b : Nat) (op : Int → Int → Int) : Nat × Flags :=
  if isAbsentCode k n a ∨ isAbsentCode k n b then (absentCode k n, Flags.none) else narrow k n (op (intOf k n a) (intOf k n b))

/-- A wave word `i` that moves its split: the wave `w` stands, parked by the switch bit over outstanding results (R56), and free slots
are refilled from its stack (R181). -/
def movedWave (s : State) (c : WCtx) (i : Instr) (z : Bool) (w : Wave) : State :=
  let t := s.setWave c.key (w.ranControl c z).refill
  (if c.w.outstanding.isEmpty then t else { t with free := t.free + 65536 }).useLines c.key (vUses i)

/-! ### Accesses of wave words -/

/-- The physical address that a translation gives, if it gives one. -/
def Machine.Tr.pa : Tr → Option Nat
  | .ok pa => some pa
  | _ => none

/-- The physical address at which a lane of an access is performed; none for a lane without a part or with an element failure. -/
def Machine.State.homeOf (s : State) (ks : List AccKind) (part : Vector (Option Nat) 32) (l : Lane) : Option Nat :=
  part[l].bind fun a => (s.translateAll a ks).pa

/-- The lanes that are performed. -/
def performedLanes (home : Lane → Option Nat) : LaneSet := laneSet fun l => (home l).isSome

/-- What a residency predicate receives in a lane (R242). -/
def residency (part : Vector (Option Nat) 32) (home : Lane → Option Nat) (l : Lane) : Trit :=
  if part[l] = none then .u else if (home l).isSome then .t else .f

/-- The write of the residency predicate of an extension word. -/
def residencyWrites (c : WCtx) (ext : Option MemExt) (part : Vector (Option Nat) 32) (home : Lane → Option Nat) : List RegWrite :=
  match ext with
  | some e => if e.res.toNat < 48 then [.k e.res.toNat c.sp.lanes (Vector.ofFn (residency part home))] else []
  | none => []

/-- A value for every lane: `f` of its home where it is performed, `fill` where it is not. -/
def laneValues (home : Lane → Option Nat) (f : Nat → Nat) (fill : Nat) : Vector Nat 32 := Vector.ofFn fun l => ((home l).map f).getD fill

/-- Nothing holds back the accesses of a word outside a redundant pair: every lane aligned to `n` bytes (R240), under .must no lane
with an element failure (R241), and room in the core's request collector for `entries` entries (R263). -/
structure Accesses (s : State) (c : WCtx) (ks : List AccKind) (ext : Option MemExt) (n entries : Nat) (part : Vector (Option Nat) 32) :
    Prop where
  single : c.gang.pair = none
  aligned : ∀ (l : Lane) (a : Nat), part[l] = some a → a % n = 0
  reach : mustOf ext = true → ∀ (l : Lane) (a : Nat), part[l] = some a → (s.homeOf ks part l).isSome
  room : entries = 0 ∨ s.entriesOn c.crew.place.core + entries ≤ 4096

/-- The entries of the request collector that an access takes: one for each lane that takes part, none where no lane is performed
(R263). -/
def entriesFor (part : Vector (Option Nat) 32) (home : Lane → Option Nat) : Nat :=
  if performedLanes home = 0 then 0 else countPart part

/-- A word that reads changes nothing but what is late: writes may have come to show, and chains have moved on (R32, R34). -/
def Heard (s u : State) : Prop := u = { s with late := u.late, free := u.free }

/-- Whether a write that reaches an address is late on a path: the path may show what stood there before (R33, R34). -/
def Machine.State.lateAt (s : State) (q : Path) (x : Nat) : Prop :=
  ∃ r ∈ s.late, r.seen.contains q = false ∧ ∃ old, r.former = .mem old ∧ ∃ e ∈ old, e.1 = x

/-- What a memory word of a split finds: its lanes act together (R265), late writes may have come to show on path W, and memory is
as that path shows it to the split (R16, R34). -/
def Machine.State.waveView (s : State) (c : WCtx) (part : Vector (Option Nat) 32) : State := ((s.begins c part).hear .w).onW c

/-- The same for a lead word, on path L. -/
def Machine.State.leadView (s : State) (c : LCtx) (va : Nat) : State := (s.beginsLead c va).on .l (.lead c.key)

/-- No line that the performed lanes read is poisoned (R383). -/
def cleanLanes (s : State) (n : Nat) (home : Lane → Option Nat) : Prop := ∀ (l : Lane) (pa : Nat), home l = some pa → s.poisoned pa n = false

/-- Whether the `n` bytes at an address cover address `x`. -/
abbrev covers (n pa x : Nat) : Prop := pa ≤ x ∧ x < pa + n

/-- Writes that reach the addresses of `at_` alone: every other byte reads as before, on every path and for every party; a wait ends
only where a byte that it watches is written; and nothing but memory, the waits, what is late on some path, the poison of lines
written whole and the logs of open checkpoints changes. -/
structure WroteOnly (s : State) (at_ : Nat → Prop) (u : State) : Prop where
  outside : ∀ x, ¬at_ x → u.rd x = s.rd x
  paths : ∀ q a x, ¬at_ x → (u.on q a).rd x = (s.on q a).rd x
  waits : u.waiters.Sublist s.waiters ∧ ∀ w ∈ s.waiters, (∀ p ∈ w.watch, ∀ x, covers p.2 p.1 x → ¬at_ x) → w ∈ u.waiters
  logs : (∀ e ∈ s.gangs, e.2.ckpt = none) → u.gangs = s.gangs
  rest : u = { s with mem := u.mem, gangs := u.gangs, poison := u.poison, waiters := u.waiters, late := u.late, free := u.free }

/-- Stores of `n` bytes by lanes: nothing outside their bytes changes; where lanes share a byte, the highest one's remains (R246). -/
structure StoredBy (s : State) (n : Nat) (home : Lane → Option Nat) (val : Lane → Nat) (u : State) : Prop where
  only : WroteOnly s (fun x => ∃ l pa, home l = some pa ∧ covers n pa x) u
  inside : ∀ l pa x, home l = some pa → covers n pa x → (∀ m, l < m → ∀ q, home m = some q → ¬covers n q x) →
    u.rd x = BitVec.ofNat 8 (val l / 2 ^ (8 * (x - pa)))

/-! ### Words of a lead context -/

/-- A lead word issues undisturbed: `cur` names the context `c`, the word breaks no field rule, and no register that it uses holds
a token that is pending or faulted. -/
abbrev LeadIssues (s : State) (c : LCtx) (i : Instr) : Prop :=
  s.lctx = some c ∧ i.wf = true ∧ ∀ r ∈ xUses i, tabGet c.l.tokens r = none

/-- What the completion of a lead word leaves in its context `l`, where `l0` is the context as the word's other effects leave it. -/
structure LeadAfter (c : LCtx) (z : Bool) (n : Nat) (d : Done) (l0 l : Lead) : Prop where
  x : ∀ r : Fin 64, l.x[r] = (writtenX d.now r).getD l0.x[r]
  j : ∀ r : Fin 16, l.j[r] = match d.j with
    | some (q, val) => if q = r.val then val else l0.j[r]
    | none => l0.j[r]
  place : l.pc = (l0.step n).1.pc ∧ l.rep = (l0.step n).1.rep ∧ l.reps = (l0.step n).1.reps ∧ l.wait = .none
  status : l.status = raiseFlags l0.status d.flags
  outstanding : l.outstanding = (if d.cat.isNone then underAll d.writes l0.outstanding else l0.outstanding) ++ d.laterLead
  parked : l.parked = (l0.parked || (z && (l0.step n).2 && !l.outstanding.isEmpty))
  past : l.past = if (z && (l0.step n).2 && l.outstanding.isEmpty) = true then [] else d.now.filterMap l0.replaced ++ l0.past
  ran : l.ran = ranWord c.gang (.lead c.key.crew) c.l.pc c.l.rep 0 l0.ran
  same : l.handling = l0.handling ∧ l.tokens = l0.tokens ∧ l.exited = l0.exited

/-- What the completion of a lead word leaves in the machine; the chains that its token registers carry reach the context (R25). -/
structure LeadEffect (c : LCtx) (z : Bool) (n : Nat) (d : Done) (t : State) : Prop where
  lead : ∃ l0 l, d.s.lead c.key = some l0 ∧ t.lead c.key = some l ∧ LeadAfter c z n d l0 l
  others : ∀ k, k ≠ c.key → t.lead k = d.s.lead k
  free : c.l.outstanding = [] → t.free = d.s.free
  late : sameLate d.s t
  rest : t = { d.s with leads := t.leads, free := t.free, late := t.late }

/-- A lead word completes: its outcome is a next state with the effect `d` and nothing else. -/
def leadCompletes (c : LCtx) (z : Bool) (n : Nat) (d : Done) (o : Host.Outcome State Fault Refusal) : Prop :=
  ∃ t, o = .next t ∧ LeadEffect c z n d t

/-- The effect of a lead word that writes one x register at once. -/
def oneX (s : State) (d : BitVec 6) (v : Nat × Flags) : Done := { s, writes := [.x d.toNat (BitVec.ofNat 64 v.1)], flags := v.2 }

/-- A lead word `i` that moves its context: the context `l` stands, parked by the switch bit over outstanding results, the word counted
as run (R397), and the token registers that it names read (R25). -/
def movedLead (s : State) (c : LCtx) (i : Instr) (z : Bool) (l : Lead) : State :=
  let t := s.setLead c.key (l.ranControl c z)
  (if c.l.outstanding.isEmpty then t else { t with free := t.free + 65536 }).readTokens i

/-- Chains have come to a context with the tokens that its word names, which no read shows (R25, R32). -/
def Told (s u : State) : Prop := sameLate s u ∧ u = { s with late := u.late }

/-- A lead word that waits: nothing but the context's wait changes. -/
abbrev waitsFor (s : State) (c : LCtx) (w : LeadWait) (o : Host.Outcome State Fault Refusal) : Prop :=
  ∃ u, Told s u ∧ o = .next (u.stallLead c w)

/-- A lead word of `n` words that raises a fault in its context. -/
abbrev leadRaises (s : State) (c : LCtx) (n : Nat) (f : Raised) (o : Host.Outcome State Fault Refusal) : Prop :=
  ∃ u, Told s u ∧ o = .next (u.raiseLead c f (pastWord c.l.pc n))

/-- One store of `n` bytes of `val` at `pa`: nothing outside these bytes changes. -/
structure StoredAt (s : State) (n pa val : Nat) (u : State) : Prop where
  only : WroteOnly s (covers n pa) u
  inside : ∀ x, covers n pa x → u.rd x = BitVec.ofNat 8 (val / 2 ^ (8 * (x - pa)))

/-- Writes of byte strings in order: every byte outside them reads as before, and a byte that several cover is as the last leaves it. -/
structure WroteAll (s : State) (ws : List (Nat × List Byte)) (u : State) : Prop where
  outside : ∀ x, (∀ e ∈ ws, ¬covers e.2.length e.1 x) → u.rd x = s.rd x
  inside : ∀ before after pa bs, ws = before ++ (pa, bs) :: after → ∀ (i : Nat) (h : i < bs.length),
    (∀ e ∈ after, ¬covers e.2.length e.1 (pa + i)) → u.rd (pa + i) = bs[i]

/-! ### Steps -/

/-- At `pc`, a place that the header map of its stream does not list, a word `w` with the extension word `ext` stands in a clause of
class `cls` of that stream, and can be read (R44 to R46, R63, R383). -/
structure WordAt (t : State) (lead : Bool) (headers : List Nat) (pc cls : Nat) (w : Word) (ext : Option Word) : Prop where
  inside : headers.contains pc = false
  clause : ∃ k h, clauseBack headers pc = some k ∧ t.codeWord (pc - 4 * k) = .ok h ∧ fieldNat h.toNat 28 4 = cls ∧
    k + ext.toList.length ≤ fieldNat h.toNat 24 4
  stream : streamClass lead cls = true
  word : t.codeWord pc = .ok w
  more : ext.isSome = needsExt cls w ∧ ∀ e, ext = some e → t.codeWord (pc + 4) = .ok e
  clean : t.codePoisoned pc = false ∧ (ext.isSome = true → t.codePoisoned (pc + 4) = false)

/-- The state in which a context of the agenda moves: the entry taken, its time passed, in which bounds may end launches (R40), the
context named. -/
def Machine.State.moving (s : State) (a : Action) (rest : List Action) (c : Ctx) : State :=
  { { s with agenda := rest }.passTime a.dt with cur := c }

end Sys2Proof
end

