-- ==== Sys2Proof/Certificates/Slice0/Obligations.lean ====
section
/-!
DEFINITION. The statements for the provers. Each says which rule of the spec it formalises. "Issues" and "completes" are those of
Safety.lean: a word issues undisturbed, and its outcome is a next state with the effect named and no other.
-/

open Sys2Proof Sys2Proof.Machine

/-! ### Class 0: integers and bits -/

/-- R208 (from R92 to R94): what the arithmetic words of class 0 give in each lane, for both widths, every type, every source. -/
def Obligations.WaveArithmetic : Prop :=
  ∀ (s : State) (c : WCtx) (z w : Bool) (d a b : BitVec 7) (x : Bool) (i : BitVec 8) (t : BitVec 2) (vb : Vector Nat 32) (pop : Option Nat),
    let k := Kind.ofCode t
    let n := bitsOf w
    let va := s.vReg c.w w a.toNat (absentCode k n)
    let vd := s.vReg c.w w d.toNat (absentCode k n)
    let done := elementwise s c w d pop
    (∀ p ∈ ([(.add z w d a b x t, .field b x, fun m n => m + n), (.addImm z w d a i t, immSrc w k i, fun m n => m + n),
        (.sub z w d a b x t, .field b x, fun m n => m - n), (.subImm z w d a i t, immSrc w k i, fun m n => m - n),
        (.mul z w d a b x t, .field b x, fun m n => m * n), (.mulImm z w d a i t, immSrc w k i, fun m n => m * n),
        (.min z w d a b x t, .field b x, fun m n => if m ≤ n then m else n),
        (.minImm z w d a i t, immSrc w k i, fun m n => if m ≤ n then m else n),
        (.max z w d a b x t, .field b x, fun m n => if m ≤ n then n else m),
        (.maxImm z w d a i t, immSrc w k i, fun m n => if m ≤ n then n else m)] : List (Instr × Src × (Int → Int → Int))),
      WaveIssues s c p.1 → s.src c w (absentCode k n) p.2.1 = .ok (vb, pop) →
        completes c z 1 (done fun l => intValue k n va[l] vb[l] p.2.2) (exec p.1 s)) ∧
    (WaveIssues s c (.mulh z w d a b x t) → s.src c w (absentCode k n) (.field b x) = .ok (vb, pop) →
      completes c z 1 (done fun l =>
        if isAbsentCode k n va[l] ∨ isAbsentCode k n vb[l] then (absentCode k n, Flags.none)
        else (ofInt n (intOf k n va[l] * intOf k n vb[l] / 2 ^ n), Flags.none)) (exec (.mulh z w d a b x t) s)) ∧
    (WaveIssues s c (.mad z w d a b x t) → s.src c w (absentCode k n) (.field b x) = .ok (vb, pop) →
      completes c z 1 (done fun l =>
        if isAbsentCode k n va[l] ∨ isAbsentCode k n vb[l] ∨ isAbsentCode k n vd[l] then (absentCode k n, Flags.none)
        else narrow k n (intOf k n va[l] * intOf k n vb[l] + intOf k n vd[l])) (exec (.mad z w d a b x t) s)) ∧
    (WaveIssues s c (.abs z w d a) →
      completes c z 1 (elementwise s c w d none fun l =>
        let v := (s.vReg c.w w a.toNat (absentCode .signed n))[l]
        if isAbsentCode .signed n v then (absentCode .signed n, Flags.none) else narrow .signed n (intOf .signed n v).natAbs)
        (exec (.abs z w d a) s)) ∧
    (WaveIssues s c (.neg z w d a t) →
      completes c z 1 (elementwise s c w d none fun l =>
        if isAbsentCode k n va[l] then (absentCode k n, Flags.none) else narrow k n (-intOf k n va[l])) (exec (.neg z w d a t) s))

/-- R208 to R210: what the raw-bits words of class 0 give in each lane, of 32 or 64 bits. -/
def Obligations.WaveBitOperations : Prop :=
  ∀ (s : State) (c : WCtx) (z w : Bool) (d a b : BitVec 7) (x : Bool) (i : BitVec 8) (vb : Vector Nat 32) (pop : Option Nat),
    let n := bitsOf w
    let va := s.vReg c.w w a.toNat (2 ^ n - 1)
    let vd := s.vReg c.w w d.toNat (2 ^ n - 1)
    let imm := immSrc w .raw i
    let shl (m k : Nat) : Nat := m * 2 ^ (k % n)
    let shr (m k : Nat) : Nat := m % 2 ^ n / 2 ^ (k % n)
    let sar (m k : Nat) : Nat := ofInt n (toSigned n m / 2 ^ (k % n))
    let rot (m k : Nat) : Nat := m % 2 ^ n * 2 ^ (k % n) + m % 2 ^ n / 2 ^ (n - k % n)
    let pos (k : Nat) : Nat := if w then fieldNat k 0 6 else fieldNat k 0 5
    let len (k : Nat) : Nat := if w then min 64 (fieldNat k 8 7) else min 32 (fieldNat k 8 6)
    (∀ p ∈ ([(.and z w d a b x, .field b x, fun m k => m &&& k), (.andImm z w d a i, imm, fun m k => m &&& k),
        (.or z w d a b x, .field b x, fun m k => m ||| k), (.orImm z w d a i, imm, fun m k => m ||| k),
        (.xor z w d a b x, .field b x, fun m k => m ^^^ k), (.xorImm z w d a i, imm, fun m k => m ^^^ k),
        (.shl z w d a b x, .field b x, shl), (.shlImm z w d a i, imm, shl),
        (.shr z w d a b x, .field b x, shr), (.shrImm z w d a i, imm, shr),
        (.sar z w d a b x, .field b x, sar), (.sarImm z w d a i, imm, sar),
        (.rot z w d a b x, .field b x, rot), (.rotImm z w d a i, imm, rot),
        (.bfe z w d a b x, .field b x, fun m k => m / 2 ^ pos k % 2 ^ len k)] : List (Instr × Src × (Nat → Nat → Nat))),
      WaveIssues s c p.1 → s.src c w (2 ^ n - 1) p.2.1 = .ok (vb, pop) →
        completes c z 1 (elementwise s c w d pop fun l => (p.2.2 va[l] vb[l] % 2 ^ n, Flags.none)) (exec p.1 s)) ∧
    (WaveIssues s c (.bfi z w d a b x) → s.src c w (2 ^ n - 1) (.field b x) = .ok (vb, pop) →
      completes c z 1 (elementwise s c w d pop fun l =>
        let p := pos vb[l]
        let top := p + len vb[l]
        ((vd[l] % 2 ^ p + va[l] % 2 ^ len vb[l] * 2 ^ p + vd[l] / 2 ^ top * 2 ^ top) % 2 ^ n, Flags.none))
        (exec (.bfi z w d a b x) s)) ∧
    (∀ p ∈ ([(.not z w d a, fun m => 2 ^ n - 1 - m % 2 ^ n),
        (.clz z w d a, fun m => if m % 2 ^ n = 0 then n else n - 1 - (m % 2 ^ n).log2),
        (.popc z w d a, fun m => popCount n m)] : List (Instr × (Nat → Nat))),
      WaveIssues s c p.1 →
        completes c z 1 (elementwise s c w d none fun l => (p.2 va[l] % 2 ^ n, Flags.none)) (exec p.1 s))

/-! ### Class 1: floating point -/

/-- R211 to R213: what the floating words give in each lane, rounded by the mode of the status register. R214 to R216: CVT converts the
element of each lane from its source format to its target format. R99: an absent operand gives absent, a NaN the canonical NaN, with NV
where it is signalling; the exact sum, difference, product or product and sum of numbers is rounded once. R100: rounding to a format takes
the number `n`, at the exponent of a unit in the last place, that is nearest (a tie to the even one), toward zero, or on the side of an
infinity, as the mode says; NX says that it differs from the exact one (R102), and beyond the largest finite value the result overflows. -/
def Obligations.WaveFloating : Prop :=
  (∀ (s : State) (c : WCtx) (z : Bool) (d a b : BitVec 7) (x : Bool) (i : BitVec 8) (r : BitVec 7) (vb : Vector Nat 32) (pop : Option Nat),
     let m := statusMode c.w.status
     let va := s.v32 c.w a.toNat 0xFFFF_FFFF
     let vd := s.v32 c.w d.toNat 0xFFFF_FFFF
     let imm := Src.imm (immF32 i)
     let lo (p q : Nat) : Nat × Flags := (fMinMax .lt p q, Flags.none)
     let hi (p q : Nat) : Nat × Flags := (fMinMax .gt p q, Flags.none)
     (∀ p ∈ ([(.fadd z d a b x, .field b x, fAdd m), (.faddImm z d a i, imm, fAdd m),
         (.fsub z d a b x, .field b x, fSub m), (.fsubImm z d a i, imm, fSub m),
         (.fmul z d a b x, .field b x, fMul m), (.fmulImm z d a i, imm, fMul m),
         (.fmin z d a b x, .field b x, lo), (.fminImm z d a i, imm, lo),
         (.fmax z d a b x, .field b x, hi), (.fmaxImm z d a i, imm, hi)] : List (Instr × Src × (Nat → Nat → Nat × Flags))),
       WaveIssues s c p.1 → s.src c false 0xFFFF_FFFF p.2.1 = .ok (vb, pop) →
         completes c z 1 (elementwise s c false d pop fun l => p.2.2 va[l] vb[l]) (exec p.1 s)) ∧
     (WaveIssues s c (.fma z d a b x) → s.src c false 0xFFFF_FFFF (.field b x) = .ok (vb, pop) →
       completes c z 1 (elementwise s c false d pop fun l => fFma m va[l] vb[l] vd[l]) (exec (.fma z d a b x) s)) ∧
     (WaveIssues s c (.fabs z d a) →
       completes c z 1 (elementwise s c false d none fun l => (fSign false va[l], Flags.none)) (exec (.fabs z d a) s)) ∧
     (WaveIssues s c (.fneg z d a) →
       completes c z 1 (elementwise s c false d none fun l => (fSign true va[l], Flags.none)) (exec (.fneg z d a) s)) ∧
     (WaveIssues s c (.frnd z d a r) →
       completes c z 1 (elementwise s c false d none fun l => fRnd (if r = 0 then m else Rnd.ofCode (r.toNat - 1)) va[l])
         (exec (.frnd z d a r) s))) ∧
  (∀ (s : State) (c : WCtx) (z : Bool) (d a : BitVec 7) (e : CvtExt) (f t : Fmt),
     WaveIssues s c (.cvt z d a e) → Fmt.ofCode e.source.toNat = some f → Fmt.ofCode e.target.toNat = some t →
       completes c z 2 (elementwise s c (t.width == 64) d none fun l =>
         convert f t (if e.rnd = 0 then statusMode c.w.status else Rnd.ofCode (e.rnd.toNat - 1))
           ((s.vReg c.w (f.width == 64) a.toNat f.absent)[l] % 2 ^ f.width)) (exec (.cvt z d a e) s)) ∧
  (∀ (mode : Rnd) (a b d : Nat),
     let x := FFmt.f32.decode a
     let y := FFmt.f32.decode b
     let value (neg : Bool) (m : Nat) (e low : Int) : Int := (if neg then -1 else 1) * (m * 2 ^ (e - low).toNat : Nat)
     let rounded (v low : Int) : Nat × Flags := FFmt.f32.roundNum mode (decide (v < 0)) v.natAbs low
     (∀ f ∈ [fAdd mode, fSub mode, fMul mode],
       (x = .absent ∨ y = .absent → f a b = (FFmt.f32.absent, Flags.none)) ∧
       (x ≠ .absent → y ≠ .absent → x.isNan = true ∨ y.isNan = true →
         f a b = (FFmt.f32.nanCode, if x = .nan true ∨ y = .nan true then Flags.nv else Flags.none))) ∧
     (∀ p m e q n k, x = .num p m e → y = .num q n k → m ≠ 0 → n ≠ 0 →
       let low := min e k
       let sum := value p m e low + value q n k low
       let difference := value p m e low - value q n k low
       (sum ≠ 0 → fAdd mode a b = rounded sum low) ∧ (difference ≠ 0 → fSub mode a b = rounded difference low) ∧
         fMul mode a b = FFmt.f32.roundNum mode (p != q) (m * n) (e + k) ∧
         (∀ r o j, FFmt.f32.decode d = .num r o j → o ≠ 0 →
           let fused := value (p != q) (m * n) (e + k) (min (e + k) j) + value r o j (min (e + k) j)
           fused ≠ 0 → fFma mode a b d = rounded fused (min (e + k) j)))) ∧
  (∀ (f : FFmt) (mode : Rnd) (neg : Bool) (m : Nat) (e : Int), 0 < m →
     let low : Int := 1 - (f.bias : Int) - f.frac
     let q := max (e + m.log2 - f.frac) low
     let unit := 2 ^ (q - e).toNat
     let outward : Prop := mode = .ru ∧ neg = false ∨ mode = .rd ∧ neg = true
     let r := f.roundNum mode neg m e
     ∃ n : Nat,
       (q ≤ e → n = m * 2 ^ (e - q).toNat) ∧
       (e < q →
         (mode = .rne → 2 * n * unit ≤ 2 * m + unit ∧ 2 * m ≤ 2 * n * unit + unit ∧
           (2 * n * unit = 2 * m + unit ∨ 2 * m = 2 * n * unit + unit → n % 2 = 0)) ∧
         (outward → m ≤ n * unit ∧ n * unit < m + unit) ∧ (mode ≠ .rne → ¬outward → n * unit ≤ m ∧ m < n * unit + unit)) ∧
       ((q - low).toNat * 2 ^ f.frac + n ≤ f.maxCode →
         (∃ k j, f.decode r.1 = .num (neg && (n != 0 || f != .e2m1)) k j ∧ low ≤ j ∧ k * 2 ^ (j - low).toNat = n * 2 ^ (q - low).toNat) ∧
         r.2 &&& Flags.of = Flags.none ∧ (r.2 &&& Flags.nx = Flags.none ↔ q ≤ e ∨ n * unit = m)) ∧
       (f.maxCode < (q - low).toNat * 2 ^ f.frac + n → r = (f.overflow mode neg, Flags.of ||| Flags.nx)))

/-! ### Class 2: compares, trits, absent values, conversion -/

/-- R217: compares give a trit in each lane. R218 and R111: the words on trits, and the test for absent. -/
def Obligations.WaveCompares : Prop :=
  (∀ (s : State) (c : WCtx) (z w : Bool) (o : BitVec 3) (d a b : BitVec 7) (x : Bool) (i : BitVec 8) (t : BitVec 2) (vb : Vector Nat 32)
     (pop : Option Nat),
     let k := Kind.ofCode t
     let n := bitsOf w
     let cond := Cond.ofCode o.toNat
     (∀ p ∈ ([(.cmp z w o d a b x t, .field b x), (.cmpImm z w o d a i t, immSrc w k i)] : List (Instr × Src)),
       WaveIssues s c p.1 → s.src c w (absentCode k n) p.2 = .ok (vb, pop) →
         completes c z 1 (tritwise s c d pop fun l =>
           let va := (s.vReg c.w w a.toNat (absentCode k n))[l]
           (if isAbsentCode k n va ∨ isAbsentCode k n vb[l] then Trit.u
             else Trit.ofBool (cond.holds (compare (intOf k n va) (intOf k n vb[l]))), Flags.none)) (exec p.1 s)) ∧
     (∀ p ∈ ([(.fcmp z o d a b x, .field b x), (.fcmpImm z o d a i, .imm (immF32 i))] : List (Instr × Src)),
       WaveIssues s c p.1 → s.src c false 0xFFFF_FFFF p.2 = .ok (vb, pop) →
         completes c z 1 (tritwise s c d pop fun l => fCmp cond (s.v32 c.w a.toNat 0xFFFF_FFFF)[l] vb[l]) (exec p.1 s))) ∧
  (∀ (s : State) (c : WCtx) (z : Bool) (d a b : BitVec 7) (t : BitVec 2),
     let ka := s.kReg c.w a.toNat
     let kb := s.kReg c.w b.toNat
     (∀ p ∈ ([(.kand z d a b, fun m n => if m = .f ∨ n = .f then .f else if m = .t ∧ n = .t then .t else .u),
         (.kor z d a b, fun m n => if m = .t ∨ n = .t then .t else if m = .f ∧ n = .f then .f else .u),
         (.kxor z d a b, fun m n => if m = .u ∨ n = .u then .u else if m = n then .f else .t)] : List (Instr × (Trit → Trit → Trit))),
       WaveIssues s c p.1 → completes c z 1 (tritwise s c d none fun l => (p.2 ka[l] kb[l], Flags.none)) (exec p.1 s)) ∧
     (WaveIssues s c (.knot z d a) →
       completes c z 1 (tritwise s c d none fun l => (if ka[l] = .u then .u else if ka[l] = .t then .f else .t, Flags.none))
         (exec (.knot z d a) s)) ∧
     (WaveIssues s c (.kis z d a t) →
       completes c z 1 (tritwise s c d none fun l =>
         (if ka[l] = (if t = 0 then .t else if t = 1 then .f else .u) then .t else .f, Flags.none)) (exec (.kis z d a t) s)) ∧
     (∀ p ∈ ([(.isabs z d a t, false), (.isabs64 z d a t, true)] : List (Instr × Bool)),
       WaveIssues s c p.1 →
         completes c z 1 (tritwise s c d none fun l =>
           (if (ATy.ofCode p.2 t).isAbsent (s.vReg c.w p.2 a.toNat (ATy.ofCode p.2 t).absent)[l] then .t else .f, Flags.none))
           (exec p.1 s)))

/-- R219: COAL, MKABS, NULLIF and SEL of both widths. SEL leaves a lane alone where its trit is F and the lane reads as dead (log 23). -/
def Obligations.WaveAbsentWords : Prop :=
  ∀ (s : State) (c : WCtx) (z : Bool) (d a b : BitVec 7) (x : Bool) (t : BitVec 2) (vb : Vector Nat 32) (pop : Option Nat),
    (∀ p ∈ ([(.coal z d a b x t, false), (.coal64 z d a b x t, true)] : List (Instr × Bool)),
      let ty := ATy.ofCode p.2 t
      let va := s.vReg c.w p.2 a.toNat ty.absent
      WaveIssues s c p.1 → s.src c p.2 ty.absent (.field b x) = .ok (vb, pop) →
        completes c z 1 (elementwise s c p.2 d pop fun l => (if ty.isAbsent va[l] then vb[l] else va[l], Flags.none)) (exec p.1 s)) ∧
    (∀ p ∈ ([(.mkabs z d a b x t, false), (.mkabs64 z d a b x t, true)] : List (Instr × Bool)),
      let ty := ATy.ofCode p.2 t
      let va := s.vReg c.w p.2 a.toNat ty.absent
      WaveIssues s c p.1 → s.src c p.2 (2 ^ bitsOf p.2 - 1) (.field b x) = .ok (vb, pop) →
        completes c z 1 (elementwise s c p.2 d pop fun l =>
          (if vb[l] = 2 ^ bitsOf p.2 - 1 ∨ vb[l] ≤ l.val then ty.absent else va[l], Flags.none)) (exec p.1 s)) ∧
    (∀ p ∈ ([(.nullif z d a b x t, false), (.nullif64 z d a b x t, true)] : List (Instr × Bool)),
      let ty := ATy.ofCode p.2 t
      let va := s.vReg c.w p.2 a.toNat ty.absent
      WaveIssues s c p.1 → s.src c p.2 ty.absent (.field b x) = .ok (vb, pop) →
        completes c z 1 (elementwise s c p.2 d pop fun l =>
          (if ty.isAbsent va[l] ∨ (¬ty.isAbsent vb[l] ∧ ty.eq va[l] vb[l]) then ty.absent else va[l], Flags.none)) (exec p.1 s)) ∧
    (∀ p ∈ ([(.sel z d a b x t, false), (.sel64 z d a b x t, true)] : List (Instr × Bool)),
      let ty := ATy.ofCode p.2 t
      let ka := s.kReg c.w a.toNat
      let vd := s.vReg c.w p.2 d.toNat ty.absent
      let lives (r : Nat) (l : Lane) : Bool := ka[l] != .f || (s.vLane c.w r l).isSome
      let lanes := c.sp.lanes &&& laneSet (lives d.toNat)
      WaveIssues s c p.1 → s.src c p.2 ty.absent (.field b x) = .ok (vb, pop) →
        let vals : Vector Nat 32 := Vector.ofFn fun l => if ka[l] = .t then vb[l] else if ka[l] = .u then ty.absent else vd[l]
        let all := if p.2 then lanes &&& laneSet (lives (d.toNat + 1)) else lanes
        completes c z 1 { s, writes := vWrites p.2 d.toNat all vals, pop } (exec p.1 s))

/-! ### Class 3: across lanes -/

/-- R220 and R221 (from R114 to R117): reductions give one result and one count to every lane of the split. SCAN gives each lane the
combination of the lanes up to it: integers summed exactly and saturated once per lane, SA set where any lane's result saturates; .f32
added left to right, one present lane at a time, each addition rounded by the status mode, with the flags of every addition; a lane with
no present element up to it receives absent. Lanes outside the split count as absent, and the result stays outstanding until it returns. -/
def Obligations.WaveReductions : Prop :=
  ∀ (s : State) (c : WCtx) (z w : Bool) (d a b : BitVec 7) (x : Bool) (t : BitVec 2),
    let ty := ATy.ofCode w t
    let k := Kind.ofCode t
    let n := bitsOf w
    let m := statusMode c.w.status
    let va := s.vReg c.w w a.toNat ty.absent
    let xs := (List.finRange 32).map fun l => if c.sp.lanes.getLsbD l.val then va[l] else ty.absent
    let present (vs : List Nat) : List Nat := vs.filter fun v => !ty.isAbsent v
    let ps := present xs
    let upTo (l : Lane) : List Nat := present (xs.take (l.val + 1))
    let sum (vs : List Nat) : Nat × Flags := if vs = [] then (ty.absent, Flags.none) else narrow k n (vs.map (intOf k n)).sum
    let running (vs : List Nat) : Nat × Flags := match vs with
      | [] => (ty.absent, Flags.none)
      | v :: more => more.foldl (fun r u => ((fAdd m r.1 u).1, r.2 ||| (fAdd m r.1 u).2)) (quiet v, Flags.none)
    let one (r : Nat × Flags) : Done :=
      { s, writes := vWrites w d.toNat c.sp.lanes (Vector.replicate 32 r.1) ++
             if x then [] else vWrites false b.toNat c.sp.lanes (Vector.replicate 32 ps.length),
           flags := r.2, cat := some .cross }
    let each (r : Lane → Nat) (f : Flags) : Done :=
      { s, writes := vWrites w d.toNat c.sp.lanes (Vector.ofFn r) ++
             if x then [] else vWrites false b.toNat c.sp.lanes (Vector.ofFn fun l => (upTo l).length),
           flags := f, cat := some .cross }
    (WaveIssues s c (.rsum z w d a b x t) →
      (t.toNat < 2 → completes c z 1 (one (sum ps)) (exec (.rsum z w d a b x t) s)) ∧
      (t = 2 → completes c z 1 (one (quiet (fTreeSum m xs).1, (fTreeSum m xs).2)) (exec (.rsum z w d a b x t) s))) ∧
    (∀ p ∈ ([(.rmin z w d a b x t, Ordering.lt, fun i j => decide (i ≤ j)),
        (.rmax z w d a b x t, Ordering.gt, fun i j => decide (j ≤ i))] : List (Instr × Ordering × (Int → Int → Bool))),
      WaveIssues s c p.1 →
        ∃ r, completes c z 1 (one (r, Flags.none)) (exec p.1 s) ∧ (ps = [] → r = ty.absent) ∧
          (t.toNat < 2 → ps ≠ [] → r ∈ ps ∧ ∀ v ∈ ps, p.2.2 (intOf k n r) (intOf k n v) = true) ∧
          (t = 2 → r = quiet (ps.foldl (fun q v => if q = ty.absent then v else fMinMax p.2.1 q v) ty.absent))) ∧
    (WaveIssues s c (.rcnt z w d a t) →
      completes c z 1 { s, writes := vWrites false d.toNat c.sp.lanes (Vector.replicate 32 ps.length), cat := some .cross }
        (exec (.rcnt z w d a t) s)) ∧
    (WaveIssues s c (.scan z w d a b x t) →
      (t.toNat < 2 → completes c z 1 (each (fun l => (sum (upTo l)).1) ((List.finRange 32).foldl (fun f l => f ||| (sum (upTo l)).2) Flags.none))
        (exec (.scan z w d a b x t) s)) ∧
      (t = 2 → completes c z 1 (each (fun l => (running (upTo l)).1) (running ps).2) (exec (.scan z w d a b x t) s)))

/-- R222 to R224 and R233: the words that move values between lanes, or vote. A lane that is not in the split gives all ones. -/
def Obligations.WaveLaneMoves : Prop :=
  ∀ (s : State) (c : WCtx) (z : Bool) (d a b : BitVec 7) (x : Bool) (i : BitVec 8) (o : BitVec 2) (vb : Vector Nat 32) (pop : Option Nat),
    let va := s.v32 c.w a.toNat 0xFFFF_FFFF
    let ka := s.kReg c.w a.toNat
    let here (l : Lane) : Bool := c.sp.lanes.getLsbD l.val
    let take (q : Int) : Nat := if h : 0 ≤ q ∧ q < 32 then (if here ⟨q.toNat, by omega⟩ then va[q.toNat] else 0xFFFF_FFFF) else 0xFFFF_FFFF
    (∀ p ∈ ([(.shfl z d a b x o, .field b x), (.shflImm z d a i o, .imm i.toNat)] : List (Instr × Src)),
      WaveIssues s c p.1 → s.src c false 0xFFFF_FFFF p.2 = .ok (vb, pop) →
        completes c z 1 ((elementwise s c false d pop fun l =>
          (take (if o = 0 then (vb[l] : Int) else if o = 1 then (l.val : Int) - vb[l] else if o = 2 then (l.val : Int) + vb[l]
            else ((l.val ^^^ vb[l] : Nat) : Int)),
            Flags.none)).inCat .cross) (exec p.1 s)) ∧
    (∀ p ∈ ([(.bcast z d a b x, .field b x), (.bcastImm z d a i, .imm i.toNat)] : List (Instr × Src)),
      WaveIssues s c p.1 → s.src c false 0xFFFF_FFFF p.2 = .ok (vb, pop) →
        completes c z 1 ((elementwise s c false d pop fun _ => (take vb[lowestLane c.sp.lanes], Flags.none)).inCat .cross)
          (exec p.1 s)) ∧
    (WaveIssues s c (.vote z d a o) →
      ∃ r, completes c z 1 ((elementwise s c false d none fun _ => (r, Flags.none)).inCat .cross) (exec (.vote z d a o) s) ∧
        (o = 0 → r = if ∃ l, here l ∧ ka[l] = .t then 1 else if ∃ l, here l ∧ ka[l] = .u then 0xFFFF_FFFF else 0) ∧
        (o = 1 → r = if ∃ l, here l ∧ ka[l] = .f then 0 else if ∃ l, here l ∧ ka[l] = .u then 0xFFFF_FFFF else 1) ∧
        (2 ≤ o.toNat → r < 2 ^ 32 ∧ ∀ l : Lane, r.testBit l.val = (here l && ka[l] == .t))) ∧
    (WaveIssues s c (.xfXpose z d a) →
      completes c z 1 ((elementwise s c false d none fun l => (take (4 * (l.val % 8) + l.val / 8 : Nat), Flags.none)).inCat .pipe)
        (exec (.xfXpose z d a) s))

/-- R225 to R229: packed dot products, scales, packing and unpacking. -/
def Obligations.WaveDots : Prop :=
  ∀ (s : State) (c : WCtx) (z : Bool) (d a b : BitVec 7) (x : Bool) (t : BitVec 2) (vb : Vector Nat 32) (pop : Option Nat),
    let k := Kind.ofCode t
    let cross (f : Lane → Nat × Flags) : Done := (elementwise s c false d pop f).inCat .cross
    let ones := 0xFFFF_FFFF
    (∀ p ∈ ([(.dot4 z d a b x t, 8), (.dot8 z d a b x t, 4)] : List (Instr × Nat)),
      let n := p.2
      let fill := everyElem n (absentCode k n)
      let va := s.v32 c.w a.toNat fill
      let vd := s.v32 c.w d.toNat (absentCode k 32)
      let el (v j : Nat) : Nat := v / 2 ^ (n * j) % 2 ^ n
      WaveIssues s c p.1 → s.src c false fill (.field b x) = .ok (vb, pop) →
        completes c z 1 (cross fun l =>
          if (∃ j < 32 / n, isAbsentCode k n (el va[l] j) ∨ isAbsentCode k n (el vb[l] j)) ∨ isAbsentCode k 32 vd[l] then
            (absentCode k 32, Flags.none)
          else narrow k 32 (intOf k 32 vd[l] +
            ((List.range (32 / n)).map fun j => intOf k n (el va[l] j) * intOf k n (el vb[l] j)).sum)) (exec p.1 s)) ∧
    (WaveIssues s c (.dot2 z d a b x) → s.src c false ones (.field b x) = .ok (vb, pop) →
      completes c z 1 (cross fun l => fDot2 (statusMode c.w.status) (s.v32 c.w a.toNat ones)[l] vb[l] (s.v32 c.w d.toNat ones)[l])
        (exec (.dot2 z d a b x) s)) ∧
    (WaveIssues s c (.scale z d a b x) → s.src c false ones (.field b x) = .ok (vb, pop) →
      completes c z 1 (cross fun l => fScale (s.v32 c.w a.toNat 0x8000_0000)[l] (vb[l] % 2 ^ 12) (vb[l] / 2 ^ 12 % 2 ^ 12))
        (exec (.scale z d a b x) s)) ∧
    (let n := if t = 0 then 16 else if t = 1 then 8 else 4
      let va := s.v32 c.w a.toNat ones
      let vd := s.v32 c.w d.toNat ones
      (WaveIssues s c (.pack z d a b x t) → s.src c false ones (.field b x) = .ok (vb, pop) →
        completes c z 1 (cross fun l =>
          (vd[l] / 2 ^ (2 * n) + va[l] % 2 ^ n * 2 ^ (32 - 2 * n) + vb[l] % 2 ^ n * 2 ^ (32 - n), Flags.none))
          (exec (.pack z d a b x t) s)) ∧
      (WaveIssues s c (.unpk z d a b x t) → s.src c false ones (.field b x) = .ok (vb, pop) →
        completes c z 1 (cross fun l => (va[l] / 2 ^ (n * (vb[l] % (32 / n))) % 2 ^ n, Flags.none)) (exec (.unpk z d a b x t) s)))

/-! ### Class 7: the transform pipe -/

/-- R230 to R235: the transform words leave their results outstanding in the pipe. R232: the special inputs of the nine scalar functions
of R231, with their flags; R231: an absent or NaN input, the exact cases, when a result is infinite with OF, and for the other numbers the
bound of each function, as log 11 tests it against the exact result, or the exact result rounded, which is within one unit in the last
place; the results of TANH and ERF, and of SIN and COS beyond 2^20, in [-1, 1]. QSB8 writes the elements and the exponent of one block,
with the flags of R234; SORT writes a permutation of the split's keys with the lane that each comes from, in the order of R235. -/
def Obligations.WaveTransform : Prop :=
  (∀ (s : State) (c : WCtx) (z : Bool) (d a b : BitVec 7) (t : BitVec 2),
    let va := s.v32 c.w a.toNat 0xFFFF_FFFF
    (∀ p ∈ ([(.xfRcp z d a, xfRcp), (.xfRsqrt z d a, xfRsqrt), (.xfSqrt z d a, xfSqrt), (.xfExp2 z d a, xfExp2),
        (.xfLog2 z d a, xfLog2), (.xfSin z d a, xfSin), (.xfCos z d a, xfCos), (.xfTanh z d a, xfTanh),
        (.xfErf z d a, xfErf)] : List (Instr × (Nat → Nat × Flags))),
      WaveIssues s c p.1 → completes c z 1 ((elementwise s c false d none fun l => p.2 va[l]).inCat .pipe) (exec p.1 s)) ∧
    (WaveIssues s c (.xfQsb8 z d a b) →
      let xs := (List.finRange 32).map fun l => FFmt.f32.decode (if c.sp.lanes.getLsbD l.val then va[l] else FFmt.f32.absent)
      let blk := quantise .sb8 xs
      let flag (l : Lane) : Flags := match xs.getD l.val .absent with
        | .absent => Flags.none
        | .num neg m k =>
          let low := min k ((blk.e : Int) - 2048)
          if m = 0 ∨ toSigned 8 (blk.els.getD l.val 0) * 2 ^ ((blk.e : Int) - 2048 - low).toNat =
            (if neg then -1 else 1) * (m * 2 ^ (k - low).toNat : Nat) then Flags.none else Flags.nx
        | _ => Flags.nv
      completes c z 1
        { s, writes := vWrites false d.toNat c.sp.lanes (Vector.ofFn fun l => blk.els.getD l.val 0) ++
               vWrites false b.toNat c.sp.lanes (Vector.replicate 32 blk.e),
             flags := (List.finRange 32).foldl (fun f l => f ||| flag l) Flags.none, cat := some .pipe } (exec (.xfQsb8 z d a b) s)) ∧
    (WaveIssues s c (.xfSort z d a b t) →
      let ty := ATy.ofCode false t
      let vt := s.v32 c.w a.toNat ty.absent
      let xs := (List.finRange 32).map fun l => (if c.sp.lanes.getLsbD l.val then vt[l] else ty.absent, l.val)
      ∃ ys : Vector (Nat × Nat) 32,
        completes c z 1
          { s, writes := vWrites false d.toNat c.sp.lanes (ys.map Prod.fst) ++ vWrites false b.toNat c.sp.lanes (ys.map Prod.snd),
               cat := some .pipe } (exec (.xfSort z d a b t) s) ∧
          ys.toList.Perm xs ∧
          (∀ (i : Nat) (h : i + 1 < 32),
            keyLt ty ys[i + 1] ys[i] = false ∧ (keyLt ty ys[i] ys[i + 1] = false → ys[i].2 < ys[i + 1].2)))) ∧
  (let infinite := 0x7F80_0000
   let negative := 0x8000_0000
   let one := 0x3F80_0000
   let nan : Nat × Flags := (0x7FC0_0000, Flags.nv)
   let quietly (v : Nat) : Nat × Flags := (v, Flags.none)
   (∀ p ∈ ([(xfRcp, [quietly negative, (negative + infinite, Flags.dz), (infinite, Flags.dz), quietly 0]),
       (xfRsqrt, [nan, (negative + infinite, Flags.dz), (infinite, Flags.dz), quietly 0]),
       (xfSqrt, [nan, quietly negative, quietly 0, quietly infinite]), (xfExp2, [quietly 0, quietly one, quietly one, quietly infinite]),
       (xfLog2, [nan, (negative + infinite, Flags.dz), (negative + infinite, Flags.dz), quietly infinite]),
       (xfSin, [nan, quietly negative, quietly 0, nan]), (xfCos, [nan, quietly one, quietly one, nan]),
       (xfTanh, [quietly (negative + one), quietly negative, quietly 0, quietly one]),
       (xfErf, [quietly (negative + one), quietly negative, quietly 0, quietly one])] : List ((Nat → Nat × Flags) × List (Nat × Flags))),
     [p.1 (negative + infinite), p.1 negative, p.1 0, p.1 infinite] = p.2 ∧
     (∀ a, FFmt.f32.decode a = .absent → p.1 a = quietly 0xFFFF_FFFF) ∧
     (∀ a signalling, FFmt.f32.decode a = .nan signalling → p.1 a = (0x7FC0_0000, if signalling then Flags.nv else Flags.none))) ∧
   (∀ a m e, FFmt.f32.decode a = .num true m e → m ≠ 0 → xfRsqrt a = nan ∧ xfSqrt a = nan ∧ xfLog2 a = nan) ∧
   (∀ n, 0 < n → n < 254 → xfRcp (n * 2 ^ 23) = quietly ((254 - n) * 2 ^ 23) ∧ xfRcp (negative + n * 2 ^ 23) = quietly (negative + (254 - n) * 2 ^ 23)) ∧
   xfRcp (2 ^ 22) = quietly (254 * 2 ^ 23) ∧ xfRcp (negative + 2 ^ 22) = quietly (negative + 254 * 2 ^ 23) ∧
   (∀ r : Near, r.rounded % 2 ^ 31 < FFmt.f32.maxCode → r.within 1 r.ulp r.rounded = true) ∧
   (∀ a neg m e, FFmt.f32.decode a = .num neg m e → m ≠ 0 →
     let at_ (v : Nat) (low : Int) : Int := (if neg then -1 else 1) * (v * 2 ^ (e - low).toNat : Nat)
     let sign := if neg then negative else 0
     let near (f : Nat → Nat × Flags) (r : Near) (n : Nat) (u : Int) : Prop :=
       (f a).2 = Flags.none ∧ (r.within n u (f a).1 = true ∨ (f a).1 = r.rounded)
     let atMostOne (f : Nat → Nat × Flags) : Prop := (f a).2 = Flags.none ∧ (f a).1 % 2 ^ 31 ≤ one
     let inverse : Near := ⟨at_ 1 e * (2 ^ 400 / m : Nat), -400 - e, 1⟩
     (m * 2 ^ (e + 149).toNat ≤ 2 ^ 21 → xfRcp a = (sign + infinite, Flags.of)) ∧
     (2 ^ 21 < m * 2 ^ (e + 149).toNat → m ≠ 2 ^ m.log2 ∨ 126 < e + m.log2 → near xfRcp inverse 1 inverse.ulp) ∧
     (neg = false → let r : Near := ⟨isqrt (2 ^ 400 / (if e % 2 = 0 then m else 2 * m)), -200 - (e - e % 2) / 2, 2⟩
       near xfRsqrt r 2 r.ulp) ∧
     (neg = false → 7 ≤ e + m.log2 → xfExp2 a = (infinite, Flags.of)) ∧
     (∀ i : Int, -149 ≤ i → i < 128 → at_ m (min e 0) = i * 2 ^ (-min e 0).toNat →
       xfExp2 a = quietly (if -126 ≤ i then (i + 127).toNat * 2 ^ 23 else 2 ^ (i + 149).toNat)) ∧
     (neg = true ∨ e + m.log2 < 7 → (∀ i : Int, at_ m (min e 0) = i * 2 ^ (-min e 0).toNat → i < -149) →
       let r := exp2Near (at_ m e) e (if 40 < e then 0 else xfFixed (at_ m e) e)
       near xfExp2 r 2 r.ulp) ∧
     (neg = false → m = 2 ^ m.log2 → (xfLog2 a).2 = Flags.none ∧ ∃ s n k, FFmt.f32.decode (xfLog2 a).1 = .num s n k ∧
       (if s then -1 else 1) * (n : Int) = (e + m.log2) * 2 ^ (-k).toNat) ∧
     (neg = false → m ≠ 2 ^ m.log2 → let r := log2Near m e
       if e + m.log2 = 0 ∨ e + m.log2 = -1 then near xfLog2 r 1 (-22) else near xfLog2 r 2 r.ulp) ∧
     (neg = false → ∃ n k, xfSqrt a = quietly (xfSqrt a).1 ∧ FFmt.f32.decode (xfSqrt a).1 = .num false n k ∧
       let low := min e (2 * k - 2)
       (2 * n - 1) ^ 2 * 2 ^ (2 * k - 2 - low).toNat ≤ m * 2 ^ (e - low).toNat ∧ m * 2 ^ (e - low).toNat ≤ (2 * n + 1) ^ 2 * 2 ^ (2 * k - 2 - low).toNat) ∧
     (m * 2 ^ (e + 149).toNat ≤ 2 ^ 169 → near xfSin (sinNear (xfFixed (at_ m e) e)) 1 (-21) ∧ near xfCos (cosNear (xfFixed (at_ m e) e)) 1 (-21)) ∧
     (2 ^ 169 < m * 2 ^ (e + 149).toNat → atMostOne xfSin ∧ atMostOne xfCos) ∧ atMostOne xfTanh ∧ atMostOne xfErf ∧
     (∀ p ∈ [(xfTanh, tanhNear neg m e), (xfErf, erfNear neg m e)], near p.1 p.2 2 (max p.2.ulp (-25)))))

/-! ### Class 4: memory -/

/-- R244, R245 and R259: LD and GATH. Each lane that is performed receives the element at its address, extended as the type says, absent
codes staying absent; the other lanes of the split receive the fill. The result is outstanding, with one entry of the request collector
for each lane that takes part, unless no lane is performed. No byte of memory changes. R34: the bytes are those that path W shows the
split; where no write that reaches an address is late on W, these are the bytes of memory (log 35). -/
def Obligations.WaveLoads : Prop :=
  (∀ (s : State) (c : WCtx) (z : Bool) (t : BitVec 4) (d a b : BitVec 7) (x f : Bool) (ext : Option MemExt),
    ∀ p ∈ ([(.ld z t d a b x f ext, ldTy t.toNat, partAddrs c ext (ldTy t.toNat).bytes (s.addrs c a b x f ext)),
        (.gath z d a b ext, ldTy 2, partAddrs c ext 4 (s.elemAddrs c a b ext))] : List (Instr × MemTy × Vector (Option Nat) 32)),
      let ty := p.2.1
      let part := p.2.2
      let home := s.homeOf [.read] part
      let view := s.waveView c part
      (WaveIssues s c p.1 → Accesses s c [.read] ext ty.bytes (entriesFor part home) part → cleanLanes s ty.bytes home →
        ∃ u, Heard s u ∧ completes c z (wordsOf ext)
          { s := u,
            writes := vWritesN ty.regs d.toNat c.sp.lanes (laneValues home (fun pa => ty.load (view.rdNat pa ty.bytes)) ty.fill) ++
              residencyWrites c ext part home,
            cat := some .load, entries := entriesFor part home } (exec p.1 s)) ∧
      (c.gang.pair = none → Memory.wf s.mem = true → ∀ x, ¬s.lateAt .w x → view.rd x = s.rd x)) ∧
  (∀ n ∈ [1, 2], ∀ v < 2 ^ (8 * n),
    let i := ldTy (if n = 1 then 5 else 6)
    let u := ldTy (if n = 1 then 7 else 8)
    (i.bytes = n ∧ i.load v = if v = 2 ^ (8 * n - 1) then 0x8000_0000 else ofInt 32 (toSigned (8 * n) v)) ∧
      (u.bytes = n ∧ u.load v = if v = 2 ^ (8 * n) - 1 then 0xFFFF_FFFF else v)) ∧
  (∀ t < 5, (ldTy t).bytes = 2 ^ t ∧ ∀ v, (ldTy t).load v = v)

/-- R241, R244, R246 and R259: ST, ST.SK and SCAT. Each performed lane stores the low bytes of its data at its address, narrowed where the
type is a value type; ST.SK skips a lane whose data is absent; where lanes share a byte the highest one's remains; every other byte of
memory reads as before, on every path; a wait ends only where a byte that it watches is written (R145, R256). -/
def Obligations.WaveStores : Prop :=
  ∀ (s : State) (c : WCtx) (z : Bool) (t : BitVec 4) (d a b : BitVec 7) (x f : Bool) (ext : Option MemExt),
    ∀ p ∈ ([(.st z t d a b x f ext, ldTy t.toNat, false, partAddrs c ext (ldTy t.toNat).bytes (s.addrs c a b x f ext)),
        (.stSk z t d a b x f ext, skTy t.toNat, true, partAddrs c ext (skTy t.toNat).bytes (s.addrs c a b x f ext)),
        (.scat z d a b ext, ldTy 2, false, partAddrs c ext 4 (s.elemAddrs c a b ext))] :
          List (Instr × MemTy × Bool × Vector (Option Nat) 32)),
      let ty := p.2.1
      let vals := s.vData c.w ty.regs d.toNat ty.fill
      let live := skipLanes p.2.2.1 ty vals p.2.2.2
      let home := s.homeOf [.write] live
      WaveIssues s c p.1 → Accesses s c [.write] ext ty.bytes (entriesFor live home) live → Memory.wf s.mem = true →
        ∃ u, completes c z (wordsOf ext)
            { s := u, writes := residencyWrites c ext live home,
              flags := laneFlags (performedLanes home) fun l => (ty.store vals[l]).2, cat := some .load } (exec p.1 s) ∧
          StoredBy s ty.bytes home (fun l => (ty.store vals[l]).1) u

/-- R37 and R267: each lane's STNT is visible at once or kept by its wave, as the machine chooses (log 19); where lanes share a byte the
highest one's counts (R246). Kept bytes go to memory at the wave's NTDRAIN, in the order in which they were stored, and show on path W to
the parties of its scope, if not to all (log 35). Every byte outside the stored ones reads as before. -/
def Obligations.WaveNonTemporal : Prop :=
  (∀ (s : State) (c : WCtx) (z : Bool) (t : BitVec 3) (d a b : BitVec 7) (x f : Bool) (ext : Option MemExt),
    let ty := ldTy t.toNat
    let part := partAddrs c ext ty.bytes (s.addrs c a b x f ext)
    let vals := s.vData c.w ty.regs d.toNat ty.fill
    let home := s.homeOf [.write] part
    WaveIssues s c (.stnt z t d a b x f ext) → Accesses s c [.write] ext ty.bytes (entriesFor part home) part → Memory.wf s.mem = true →
      ∃ (u : State) (kept : List NtByte),
        completes c z (wordsOf ext) { s := u, writes := residencyWrites c ext part home, cat := some .load }
            (exec (.stnt z t d a b x f ext) s) ∧
          u.wave c.key = some { c.w with nt := kept } ∧ (∀ k, k ≠ c.key → u.wave k = s.wave k) ∧
          (∀ x, (∀ l pa, home l = some pa → ¬covers ty.bytes pa x) → u.rd x = s.rd x ∧ ∀ v, (x, v) ∈ kept ↔ (x, v) ∈ c.w.nt) ∧
          (∀ l pa x, home l = some pa → covers ty.bytes pa x → (∀ m, l < m → ∀ q, home m = some q → ¬covers ty.bytes q x) →
            let v := BitVec.ofNat 8 (vals[l] / 2 ^ (8 * (x - pa)))
            (u.rd x = v ∧ ∀ y, (x, y) ∉ kept) ∨ (u.rd x = s.rd x ∧ ∃ before after, kept = before ++ (x, v) :: after ∧ ∀ y, (x, y) ∉ after)) ∧
          u = { s with mem := u.mem, gangs := u.gangs, poison := u.poison, waiters := u.waiters, late := u.late, waves := u.waves, free := u.free }) ∧
  (∀ (s : State) (c : WCtx) (z : Bool) (ext : MemExt),
    WaveIssues s c (.ntdrain z ext) → c.gang.pair = none → Memory.wf s.mem = true →
      ∃ u, completes c z 2 { s := u } (exec (.ntdrain z ext) s) ∧
        u.wave c.key = some { c.w with nt := [] } ∧ (∀ k, k ≠ c.key → u.wave k = s.wave k) ∧
        (∀ x, (∀ v, (x, v) ∉ c.w.nt) → u.rd x = s.rd x) ∧
        (∀ x v before after, c.w.nt = before ++ (x, v) :: after → (∀ y, (x, y) ∉ after) →
          u.rd x = v ∧ ∀ a, s.share ext.scope.toNat c.actor (s.clusterOf (crewOf c.key)) a = true → (u.on .w a).rd x = v) ∧
        u = { s with mem := u.mem, gangs := u.gangs, poison := u.poison, waiters := u.waiters, late := u.late, waves := u.waves, free := u.free })

/-- R252 to R254: the atomics and CAS make one read-modify-write for each performed lane, in ascending order, each seeing the one before;
a lane receives the old value, the other lanes the fill. The old value is the one that path W shows the split, which those that came
before at its location always show on (R254, log 35). Every byte that no lane reaches reads as before. -/
def Obligations.WaveAtomics : Prop :=
  ∀ (s : State) (c : WCtx) (z w : Bool) (t : BitVec 3) (o : BitVec 2) (d a b : BitVec 7) (x f : Bool) (ext : Option MemExt),
    let addT := addFmt t.toNat
    let minT := minFmt o.toNat
    let raw := Fmt.int .raw (bitsOf w)
    let both (ty : Fmt) (op : Int → Int → Int) (m v : Nat) : Nat × Flags := match ty with
      | .int k n => intValue k n m v op
      | .flt _ => ((fAdd .rne m v).1, Flags.none)
    let bits (op : Nat → Nat → Nat) (m v : Nat) : Nat × Flags := (op m v, Flags.none)
    let own (ty : Fmt) : Vector Nat 32 := s.vReg c.w (ty.width == 64) d.toNat ty.absent
    let cas : Nat → Nat → Nat × Flags := fun m v =>
      (if m = v % 2 ^ bitsOf w then v / 2 ^ bitsOf w % 2 ^ bitsOf w else m, Flags.none)
    let casData : Vector Nat 32 := Vector.ofFn fun l =>
      (s.vReg c.w w d.toNat (2 ^ bitsOf w - 1))[l] + 2 ^ bitsOf w * (s.vReg c.w w (d.toNat + bitsOf w / 32) (2 ^ bitsOf w - 1))[l]
    ∀ p ∈ ([(.atomAdd z t d a b x f ext, addT, own addT, both addT fun m n => m + n),
        (.atomMin z o d a b x f ext, minT, own minT, both minT fun m n => if m ≤ n then m else n),
        (.atomMax z o d a b x f ext, minT, own minT, both minT fun m n => if m ≤ n then n else m),
        (.atomAnd z w d a b x f ext, raw, own raw, bits fun m n => m &&& n),
        (.atomOr z w d a b x f ext, raw, own raw, bits fun m n => m ||| n),
        (.atomXor z w d a b x f ext, raw, own raw, bits fun m n => m ^^^ n),
        (.atomXchg z w d a b x f ext, raw, own raw, bits fun _ n => n),
        (.cas z w d a b x f ext, raw, casData, cas)] : List (Instr × Fmt × Vector Nat 32 × (Nat → Nat → Nat × Flags))),
      let n := p.2.1.width / 8
      let part := partAddrs c ext n (s.addrs c a b x f ext)
      let home := s.homeOf [.read, .write] part
      let one (r : State × Vector Nat 32 × Flags) (l : Lane) (pa : Nat) : State × Vector Nat 32 × Flags :=
        let met := r.1.meetRmw .w pa n
        let old := (met.onW c).rdNat pa n
        let new := p.2.2.2 old (p.2.2.1[l])
        (met.wrRmw .w c.actor pa n new.1, r.2.1.set l old, r.2.2 ||| new.2)
      WaveIssues s c p.1 → Accesses s c [.read, .write] ext n (entriesFor part home) part → cleanLanes s n home →
        ∃ u, Heard s u ∧
          let done := (List.finRange 32).foldl (fun r l => ((home l).map (one r l)).getD r) (u, Vector.replicate 32 p.2.1.absent, Flags.none)
          ∃ t, sameLate done.1 t ∧ t = { done.1 with late := t.late } ∧
            completes c z (wordsOf ext)
              { s := t, writes := vWritesN (n / 4) d.toNat c.sp.lanes done.2.1 ++ residencyWrites c ext part home,
                flags := done.2.2, cat := some .load, entries := entriesFor part home } (exec p.1 s) ∧
            (Memory.wf s.mem = true → ∀ x, (∀ l pa, home l = some pa → ¬covers n pa x) → t.rd x = s.rd x) ∧
            t = { s with mem := t.mem, gangs := t.gangs, poison := t.poison, waiters := t.waiters, late := t.late, free := t.free }

/-- R260 and R261: CONFD names the lowest lane of the split with the same index; SCADD makes one atomic add for each group of lanes that
share an index, of the sum of the group's present data, and no other byte of memory changes. -/
def Obligations.WaveScatterAdd : Prop :=
  (∀ (s : State) (c : WCtx) (z : Bool) (d a : BitVec 7),
    WaveIssues s c (.confd z d a) →
      ∃ low : Vector Nat 32,
        completes c z 1 { s, writes := vWritesN 1 d.toNat c.sp.lanes low, cat := some .load } (exec (.confd z d a) s) ∧
          let ix := s.v32 c.w a.toNat 0x8000_0000
          ∀ l : Lane, c.sp.lanes.getLsbD l.val = true →
            (ix[l] = 0x8000_0000 → low[l] = 0xFFFF_FFFF) ∧
            (ix[l] ≠ 0x8000_0000 → ∃ m : Lane, low[l] = m.val ∧ c.sp.lanes.getLsbD m.val = true ∧ ix[m] = ix[l] ∧
              ∀ q : Lane, c.sp.lanes.getLsbD q.val = true → ix[q] = ix[l] → m ≤ q)) ∧
  (∀ (s : State) (c : WCtx) (z : Bool) (d a b : BitVec 7) (ext : Option MemExt),
    let part := partAddrs c ext 4 (s.elemAddrs c a b ext)
    let vals := s.v32 c.w d.toNat FFmt.f32.absent
    let live : Vector (Option Nat) 32 := Vector.ofFn fun l => if vals[l] = FFmt.f32.absent then none else part[l]
    let home := s.homeOf [.read, .write] live
    let groups := groupsOf c.sp.lanes (s.v32 c.w a.toNat 0x8000_0000) vals part (s.laneAccs [.read, .write] live)
    let add (r : State) (g : Group) : State :=
      let met := r.meetRmw .w g.pa 4
      met.wrRmw .w c.actor g.pa 4 (fAdd .rne ((met.onW c).rdNat g.pa 4) (g.sum % 2 ^ 32)).1
    WaveIssues s c (.scadd z d a b ext) → Accesses s c [.read, .write] ext 4 groups.length live →
      (∀ g ∈ groups, s.poisoned g.pa 4 = false) →
      ∃ u t, Heard s u ∧ sameLate (groups.foldl add u) t ∧ t = { groups.foldl add u with late := t.late } ∧
        completes c z (wordsOf ext) { s := t, writes := residencyWrites c ext live home, cat := some .load } (exec (.scadd z d a b ext) s) ∧
        (Memory.wf s.mem = true → ∀ x, (∀ l pa, home l = some pa → ¬covers 4 pa x) → t.rd x = s.rd x) ∧
        t = { s with mem := t.mem, gangs := t.gangs, poison := t.poison, waiters := t.waiters, late := t.late, free := t.free })

/-- R240 and R241: a word whose lanes are not all aligned raises misaligned, and one that carries .must with a lane that cannot be
accessed raises element_access; the fault names the failing lanes and the address of the lowest, and the word has no effect. -/
def Obligations.WaveAccessFaults : Prop :=
  ∀ (s : State) (c : WCtx) (z w : Bool) (t : BitVec 4) (r : BitVec 3) (o : BitVec 2) (d a b : BitVec 7) (x f : Bool) (ext : Option MemExt),
    let at_ (n : Nat) : Vector (Option Nat) 32 := partAddrs c ext n (s.addrs c a b x f ext)
    let n := bitsOf w / 8
    let rw := [AccKind.read, .write]
    ∀ p ∈ ([(.ld z t d a b x f ext, [.read], (ldTy t.toNat).bytes, at_ (ldTy t.toNat).bytes),
        (.gath z d a b ext, [.read], 4, partAddrs c ext 4 (s.elemAddrs c a b ext)),
        (.st z t d a b x f ext, [.write], (ldTy t.toNat).bytes, at_ (ldTy t.toNat).bytes),
        (.scat z d a b ext, [.write], 4, partAddrs c ext 4 (s.elemAddrs c a b ext)),
        (.stnt z r d a b x f ext, [.write], (ldTy r.toNat).bytes, at_ (ldTy r.toNat).bytes),
        (.atomAdd z r d a b x f ext, rw, (addFmt r.toNat).width / 8, at_ ((addFmt r.toNat).width / 8)),
        (.atomMin z o d a b x f ext, rw, (minFmt o.toNat).width / 8, at_ ((minFmt o.toNat).width / 8)),
        (.atomMax z o d a b x f ext, rw, (minFmt o.toNat).width / 8, at_ ((minFmt o.toNat).width / 8)),
        (.atomAnd z w d a b x f ext, rw, n, at_ n), (.atomOr z w d a b x f ext, rw, n, at_ n),
        (.atomXor z w d a b x f ext, rw, n, at_ n), (.atomXchg z w d a b x f ext, rw, n, at_ n),
        (.cas z w d a b x f ext, rw, n, at_ n)] : List (Instr × List AccKind × Nat × Vector (Option Nat) 32)),
      let size := p.2.2.1
      let part := p.2.2.2
      let next := pastWord c.sp.pc (wordsOf ext)
      let off := laneSet fun l => (part[l].map fun v => v % size != 0).getD false
      let lost := laneSet fun l => (part[l].map fun _ => (s.homeOf p.2.1 part l).isNone).getD false
      let addr (ls : LaneSet) : Nat := part[lowestLane ls].getD 0
      WaveIssues s c p.1 →
        (off ≠ 0 → exec p.1 s = .next (s.raiseWave c (Raised.lanes .misaligned 0 (addr off) off) next)) ∧
        (off = 0 → mustOf ext = true → lost ≠ 0 →
          exec p.1 s = .next (s.raiseWave c (Raised.lanes .elementAccess 0 (addr lost) lost) next))

/-- R256, R257 and R258: WAITA completes at once where a lane's value, as path W shows it, differs from the expected one or no lane takes
part, with the final read; else it parks on its addresses, and joins their waiters behind those that are there. WAKE takes its lanes in
ascending order: each selects up to its count of the waiters on its address, in the order in which they joined, all of them for a count of
all ones, and receives how many; the selected leave every list, the others stay in their order. BWAIT completes with the phases where every
lane's phase differs, and waits where one does not; a lane without a part keeps its register (log 24); an object with a reserved field or
an expected count of zero raises illegal_instruction (R29). Where no write is late, path W shows memory as it is (log 35). -/
def Obligations.WaveWaits : Prop :=
  (∀ (s : State) (c : WCtx) (z w : Bool) (d a b : BitVec 7) (x f : Bool) (ext : Option MemExt),
    let at_ (n : Nat) : Vector (Option Nat) 32 := partAddrs c ext n (s.addrs c a b x f ext)
    let home (n : Nat) : Lane → Option Nat := s.homeOf [.read] (at_ n)
    let view (n : Nat) : State := s.waveView c (at_ n)
    let all (n : Nat) : Prop := ∀ (l : Lane) (v : Nat), (at_ n)[l] = some v → v % n = 0 ∧ (home n l).isSome
    c.gang.pair = none →
    (let n := if w then 8 else 4
      let old := s.vReg c.w w d.toNat (2 ^ (8 * n) - 1)
      let last := (((s.begins c (at_ n)).hear .w).hear .w).onW c
      WaveIssues s c (.waita z w d a b x f ext) → all n → cleanLanes s n (home n) →
        ((∃ (l : Lane) (pa : Nat), home n l = some pa ∧ (view n).rdNat pa n ≠ old[l]) ∨ (∀ l, home n l = none) →
          ∃ u, Heard s u ∧ completes c z (wordsOf ext)
            { s := u, writes := vWritesN (n / 4) d.toNat c.sp.lanes (laneValues (home n) (fun pa => last.rdNat pa n) (2 ^ (8 * n) - 1)),
              cat := some .load } (exec (.waita z w d a b x f ext) s)) ∧
        ((∀ (l : Lane) (pa : Nat), home n l = some pa → (view n).rdNat pa n = old[l]) → (∃ l, (home n l).isSome) →
          ∃ (u : State) (q : AddrWait) (keys : List Nat) (watch : List (Nat × Nat)), Heard s u ∧
            exec (.waita z w d a b x f ext) s = .next
              (({ u with waiters := s.waiters ++ [{ who := .split c.key c.slot, keys, watch }] } : State).modSplit c
                fun p => { p with wait := .waita q }) ∧
              q = { lanes := q.lanes, wide := w, d := d.toNat, since := s.ticksOf (s.clusterOf (crewOf c.key)), words := wordsOf ext, z,
                    scope := (scopeOf 8 ext).toNat, fwd := false } ∧
              (∀ l pa, (l, pa) ∈ q.lanes ↔ home n l = some pa) ∧
              (∀ k, k ∈ keys ↔ ∃ l pa, home n l = some pa ∧ k = pa / 8 * 8) ∧ keys.Nodup ∧
              (∀ pa m, (pa, m) ∈ watch ↔ m = n ∧ ∃ l, home n l = some pa)) ∧
        (Memory.wf s.mem = true → ∀ i, ¬s.lateAt .w i → (view n).rd i = s.rd i ∧ last.rd i = s.rd i)) ∧
    (let object (pa : Nat) : Nat := (view 16).rdNat pa 16
      let sound (o : Nat) : Prop := o / 2 ^ 96 % 2 ^ 32 = 0 ∧ o / 2 ^ 64 % 2 ^ 32 ≠ 0
      let phase (pa : Nat) : Nat := object pa % 2 ^ 32
      let old := s.v32 c.w d.toNat 0xFFFF_FFFF
      WaveIssues s c (.bwait z d a b x f ext) → all 16 → cleanLanes s 16 (home 16) →
        ((∀ (l : Lane) (pa : Nat), home 16 l = some pa → sound (object pa)) →
          ((∀ (l : Lane) (pa : Nat), home 16 l = some pa → phase pa ≠ old[l]) →
            ∃ u, Heard s u ∧ completes c z (wordsOf ext)
              { s := u, writes := vWritesN 1 d.toNat (performedLanes (home 16)) (laneValues (home 16) phase 0), cat := some .load }
              (exec (.bwait z d a b x f ext) s)) ∧
          ((∃ (l : Lane) (pa : Nat), home 16 l = some pa ∧ phase pa = old[l]) →
            ∃ u : State, Heard s u ∧ exec (.bwait z d a b x f ext) s = .next (u.stallWave c .bwait))) ∧
        (∀ l : Lane, (∃ pa, home 16 l = some pa ∧ ¬sound (object pa)) → (∀ m < l, ∀ pa, home 16 m = some pa → sound (object pa)) →
          exec (.bwait z d a b x f ext) s = .next (s.raiseWave c
            (Raised.lanes .illegalInstruction 64 ((at_ 16)[l].getD 0)
              (laneSet fun m => ((home 16 m).map fun pa => !decide (sound (object pa))).getD false)) (pastWord c.sp.pc (wordsOf ext))))) ∧
    (let ns := s.v32 c.w d.toNat 0xFFFF_FFFF
      let wake (r : Vector Nat 32 × State) (l : Lane) : Vector Nat 32 × State := match home 1 l with
        | some pa =>
          let q := r.2.wakeAt (if ns[l] = 0xFFFF_FFFF then r.2.waiters.length else ns[l]) pa fun _ => true
          (r.1.set l q.1, q.2)
        | none => r
      let done := (List.finRange 32).foldl wake (Vector.replicate 32 0, s)
      WaveIssues s c (.wake z d a b x f ext) → all 1 →
        completes c z (wordsOf ext) { s := done.2, writes := vWritesN 1 d.toNat c.sp.lanes done.1, cat := some .load }
          (exec (.wake z d a b x f ext) s))) ∧
  (∀ (s : State) (n pa : Nat) (sel : Waiter → Bool),
    let on (w : Waiter) : Bool := w.keys.contains (pa / 8 * 8) && sel w
    let r := s.wakeAt n pa sel
    r.1 = min n (s.waiters.filter on).length ∧ r.2 = { s with waiters := r.2.waiters } ∧ r.2.waiters.Sublist s.waiters ∧
      r.2.waiters.filter on = (s.waiters.filter on).drop n ∧ (r.2.waiters.filter fun w => !on w) = s.waiters.filter fun w => !on w)

/-- R243, R266, R268, R33 and R22: FENCE makes no access: one path shows its writes in their order already (log 4), and what it orders
travels with the chains of R32 (log 35). XFENCE makes the writes of its first path that happen before it show on its second, to the parties
of its scope (log 35). TOUCH asks for the pages that are away, and where it writes a residency predicate its result waits for exactly these
pages; under .must a lane without a page raises element_access. POST appends the lowest lane's pair to the crew's return queue, waits where
that is full, and is discarded where the lead context has exited (R144). -/
def Obligations.WaveOrderingWords : Prop :=
  ∀ (s : State) (c : WCtx) (z : Bool) (d a b : BitVec 7) (x f : Bool) (e : MemExt) (ext : Option MemExt),
    (WaveIssues s c (.fence z e) → c.gang.pair = none →
      ∃ u, completes c z 2 { s := u } (exec (.fence z e) s) ∧ sameLate s u ∧ u = { s with late := u.late }) ∧
    (WaveIssues s c (.xfence z d a e) →
      let here (p : Actor) : Prop := s.share e.scope.toNat c.actor (s.clusterOf (crewOf c.key)) p = true
      ∃ u, completes c z 2 { s := u } (exec (.xfence z d a e) s) ∧ u = { s with late := u.late } ∧ u.late.length = s.late.length ∧
        ∀ (i : Nat) (r : Late), s.late[i]? = some r → ∃ q : Late, u.late[i]? = some q ∧ q.former = r.former ∧ q.path = r.path ∧
          (∀ p v, s.shows p v r = true → u.shows p v q = true) ∧
          (r.path = Path.ofCode d.toNat → r.knows c.actor = true → s.share e.scope.toNat r.by_ r.cluster c.actor = true →
            ∀ v, here v → u.shows (Path.ofCode a.toNat) v q = true)) ∧
    (let part := partAddrs c ext 1 (s.addrs c a b x f ext)
      let mapped (v : Nat) : Bool := decide (v < 2 ^ 57) && match pageAt s.pages v with
        | some p => s.reachable (p.pa + (v - p.base))
        | none => false
      let away (v : Nat) : Prop := mapped v = true ∧ ∃ p, pageAt s.pages v = some p ∧ p.resident = false
      let lost := laneSet fun l => (part[l].map fun v => !mapped v).getD false
      WaveIssues s c (.touch z a b x f ext) →
        (mustOf ext = false ∨ lost = 0 →
          ∃ asked needs, completes c z (wordsOf ext)
              { s := { s with touched := asked }, writes := residencyWrites c ext part fun l => part[l].filter mapped,
                cat := some .load, needs } (exec (.touch z a b x f ext) s) ∧
            (∀ v, v ∈ asked ↔ v ∈ s.touched ∨ ∃ l : Lane, part[l] = some v ∧ away v) ∧
            (∀ v, v ∈ needs ↔ (∃ q, ext = some q ∧ q.res.toNat < 48) ∧ ∃ l : Lane, part[l] = some v ∧ away v)) ∧
        (mustOf ext = true → lost ≠ 0 → exec (.touch z a b x f ext) s = .next (s.raiseWave c
          (Raised.lanes .elementAccess 0 (part[lowestLane lost].getD 0) lost) (pastWord c.sp.pc (wordsOf ext))))) ∧
    (let v := BitVec.ofNat 64 (s.v64 c.w d.toNat (2 ^ 64 - 1))[lowestLane c.sp.lanes];
      WaveIssues s c (.post z d) →
        (s.leadExited (crewOf c.key) = true → completes c z 1 { s } (exec (.post z d) s)) ∧
        (s.leadExited (crewOf c.key) = false →
          (c.crew.rq.length < 64 → c.crew.rqDue = [] →
            ∃ u, completes c z 1 { s := u } (exec (.post z d) s) ∧ sameLate s u ∧
              u = { s.modCrew (crewOf c.key) fun k => { k with rq := k.rq ++ [v] } with late := u.late }) ∧
          (64 ≤ c.crew.rq.length ∨ c.crew.rqDue ≠ [] → exec (.post z d) s = .next (s.stallWave c .post))))

/-! ### Class 5: tiles -/

/-- R249 and R250: TLD reads, and TST and TST.SK write, the bytes of a tile at the lanes' offsets. A lane makes an access where its offset
is not absent, not negative, within the limit and within the tile; TST.SK skips absent data; where lanes share a byte the highest one's
remains. Without a tile under the handle the word raises tile_handle, and a store into an Accord accord_write, with the offset of the
lowest lane that has one (log 21). The tile is the one that path W shows the split (R249, R328); a store into one that has since given up
its handle is made in vain (log 35); where no write is late it is the tile of the gang. -/
def Obligations.WaveTileAccess : Prop :=
  ∀ (s : State) (c : WCtx) (z : Bool) (t : BitVec 2) (d a : BitVec 7) (h : BitVec 8) (ext : Option MemExt) (tl : Tile),
    let va := s.v32 c.w a.toNat 0x8000_0000
    let offs := s.tileOffs c a ext
    let met := (s.together265 c.actor).hear .w
    let seen := (met.tilesOn c).gang.handles
    let ok (n : Nat) (part : Vector (Option Nat) 32) : Prop :=
      (∀ (l : Lane) (off : Nat), part[l] = some off → off % n = 0 ∧ tl.unfilledAt n off = none) ∧
        (countPart part = 0 ∨ s.entriesOn c.crew.place.core + countPart part ≤ 4096);
    (s.late = [] → seen = c.gang.handles) ∧
    (∀ (n : Nat) (l : Lane) (off : Nat), (tilePart c tl ext n offs)[l] = some off ↔
      c.sp.lanes.getLsbD l.val = true ∧ va[l] ≠ 0x8000_0000 ∧ toSigned 32 va[l] + extOff ext = (off : Int) ∧
        inLimit (limitOf c ext) off n = true ∧ off + n ≤ tl.size) ∧
    (let n := 4 * 2 ^ t.toNat
      let part := tilePart c tl ext n offs
      WaveIssues s c (.tld z t d a h ext) → tabGet seen h.toNat = some (.tile tl) → ok n part →
        (∀ (l : Lane) (off : Nat), part[l] = some off → tl.poisoned off n = false) →
        ∃ u, Heard s u ∧ completes c z (wordsOf ext)
          { s := u, writes := vWritesN (n / 4) d.toNat c.sp.lanes
                 (laneValues (fun l => part[l]) (fun off => ofBytes ((upFrom off n).map tl.rdByte)) (2 ^ (8 * n) - 1)),
               cat := some .tile, entries := countPart part } (exec (.tld z t d a h ext) s)) ∧
    (∀ p ∈ ([(.tst z t d a h ext, rawTy (4 * 2 ^ t.toNat), false), (.tstSk z t d a h ext, tskTy t.toNat, true)] :
        List (Instr × MemTy × Bool)),
      let ty := p.2.1
      let vals := s.vData c.w ty.regs d.toNat ty.fill
      let live := skipLanes p.2.2 ty vals (tilePart c tl ext ty.bytes offs)
      let stored (at_ : Tile) : Tile :=
        (List.finRange 32).foldl (fun u l => (live[l].map fun off => u.store off (toBytes ty.bytes vals[l])).getD u) at_
      WaveIssues s c p.1 → tabGet seen h.toNat = some (.tile tl) → ok ty.bytes live →
        (∀ now, met.staleHandle .w c.actor c.key.gang h.toNat = false → tabGet c.gang.handles h.toNat = some (.tile now) →
          ∃ u, completes c z (wordsOf ext) { s := u, cat := some .tile } (exec p.1 s) ∧
            u.gang c.key.gang = some { c.gang with handles := tabSet c.gang.handles h.toNat (.tile (stored now)) } ∧
            (∀ g, g ≠ c.key.gang → u.gang g = s.gang g) ∧ u = { s with gangs := u.gangs, late := u.late, free := u.free }) ∧
        (met.staleHandle .w c.actor c.key.gang h.toNat = true →
          ∃ u, Heard s u ∧ completes c z (wordsOf ext) { s := u, cat := some .tile } (exec p.1 s))) ∧
    (∀ p ∈ ([(.tld z t d a h ext, .tileHandle), (.tst z t d a h ext, .accordWrite), (.tstSk z t d a h ext, .accordWrite)] :
        List (Instr × FaultCode)),
      WaveIssues s c p.1 →
        (tabGet seen h.toNat = none →
          exec p.1 s = .next (s.raiseWave c (Raised.at .tileHandle (handleAddr c offs)) (pastWord c.sp.pc (wordsOf ext)))) ∧
        (∀ sl bs, tabGet seen h.toNat = some (.accord sl bs) →
          exec p.1 s = .next (s.raiseWave c (Raised.at p.2 (handleAddr c offs)) (pastWord c.sp.pc (wordsOf ext)))))

/-! ### Class 6: control -/

/-- R185 and R186: BR and BRC send each lane to the target or past the word by its trit, an unknown lane by the policy. Where all lanes
agree the split moves as one; where they divide, the taken lanes keep the slot and the others take the other slot, or go onto the stack
where that is busy; a join record is pushed where one is named; an unknown lane under .ux raises unknown_condition, and a stack without
room split_overflow. -/
def Obligations.WaveBranches : Prop :=
  ∀ (s : State) (c : WCtx) (z : Bool) (p : BitVec 6) (u : BitVec 2) (o j : BitVec 8),
    ∀ q ∈ ([(.br z p u o j, .t), (.brc z p u o j, .f)] : List (Instr × Trit)),
      let k := s.kReg c.w p.toNat
      let here (l : Lane) : Bool := c.sp.lanes.getLsbD l.val
      let every := p.toNat = 63
      let taken := laneSet fun l => here l && (decide every || k[l] == q.2 || (k[l] == .u && u == 1))
      let fall := laneSet fun l => here l && !decide every && ((k[l] != q.2 && k[l] != .u) || (k[l] == .u && u == 0))
      let park := laneSet fun l => here l && !decide every && k[l] == .u && u == 2
      let bad := laneSet fun l => here l && !decide every && k[l] == .u && u == 3
      let target := wordAt c.sp.pc (toSigned 8 o.toNat)
      let next := pastWord c.sp.pc 1
      let link := c.sp.link
      let two (w : Wave) (i : Option Nat) : Wave :=
        (w.setSlot c.slot (some (Split.ready target taken i))).spill c.slot (Split.ready next fall i)
      let one (w : Wave) (i : Option Nat) : Wave :=
        if taken ≠ 0 then w.setSlot c.slot (some (Split.ready target taken i)) else w.setSlot c.slot (some (Split.ready next fall i))
      let record : StackEntry := .join { pc := wordAt c.sp.pc j.toNat, lanes := c.sp.lanes, arrived := 0, parked := park, link }
      let busy := if (c.w.slot (other c.slot)).isSome then 1 else 0;
      WaveIssues s c q.1 → c.w.exited ≠ BitVec.allOnes 32 →
        (bad ≠ 0 → exec q.1 s = .next (s.raiseWave c (Raised.lanes .unknownCondition 0 0 bad) next)) ∧
        (bad = 0 → park = 0 → taken ≠ 0 → fall = 0 → exec q.1 s = .next (movedWave s c q.1 z (one c.w link))) ∧
        (bad = 0 → park = 0 → taken = 0 → fall ≠ 0 → exec q.1 s = .next (movedWave s c q.1 z (one c.w link))) ∧
        (bad = 0 → taken ≠ 0 → fall ≠ 0 → j = 0 → c.w.depth + busy ≤ 64 → exec q.1 s = .next (movedWave s c q.1 z (two c.w link))) ∧
        (bad = 0 → j ≠ 0 → c.sp.lanes &&& c.w.exited = 0 → taken ≠ 0 → fall ≠ 0 → c.w.depth + 1 + busy ≤ 64 →
          exec q.1 s = .next (movedWave s c q.1 z (two (c.w.push record) (some c.w.depth)))) ∧
        (bad = 0 → j ≠ 0 → c.sp.lanes &&& c.w.exited = 0 → park ≠ 0 → (taken = 0 ∧ fall ≠ 0 ∨ taken ≠ 0 ∧ fall = 0) → c.w.depth + 1 ≤ 64 →
          exec q.1 s = .next (movedWave s c q.1 z (one (c.w.push record) (some c.w.depth)))) ∧
        (bad = 0 → j ≠ 0 → c.sp.lanes &&& c.w.exited = 0 → park ≠ 0 → taken = 0 → fall = 0 → link = none → c.w.depth + 1 ≤ 64 →
          exec q.1 s = .next (movedWave s c q.1 z (({ c.w with stack := trimStack c.w.stack } : Wave).setSlot c.slot
            (some (Split.ready (wordAt c.sp.pc j.toNat) c.sp.lanes none))))) ∧
        (bad = 0 → taken ≠ 0 → fall ≠ 0 → 64 < c.w.depth + (if j = 0 then 0 else 1) + busy →
          0 < (if j = 0 then 0 else 1) + busy →
          exec q.1 s = .next (s.raiseWave c (Raised.of .splitOverflow 0) next))

/-- R187: BRQ pops one entry and moves the split as one: to the target where the entry is neither zero nor all ones. On an empty queue it
waits, unless the lead context has exited, which gives all ones and pops nothing (R144). -/
def Obligations.WaveQueueBranch : Prop :=
  ∀ (s : State) (c : WCtx) (z : Bool) (q : BitVec 2) (o : BitVec 8),
    WaveIssues s c (.brq z q o) → c.w.exited ≠ BitVec.allOnes 32 →
      (∀ e pop, s.frontOf c q.toNat = some (e, pop) →
        ∃ t, exec (.brq z q o) s = .next t ∧
          t.wave c.key = (movedWave s c (.brq z q o) z ((c.goto (if e ≠ 0 ∧ e ≠ BitVec.allOnes 64 then wordAt c.sp.pc (toSigned 8 o.toNat)
            else pastWord c.sp.pc 1) c.w).popQueue pop)).wave c.key ∧
          (∀ k, k ≠ c.key → t.wave k = s.wave k) ∧ (∀ k, k ≠ crewOf c.key → t.crew k = s.crew k) ∧
          sameLate s t ∧ t = { s with waves := t.waves, crews := t.crews, free := t.free, late := t.late, recent := t.recent }) ∧
      (s.frontOf c q.toNat = none → exec (.brq z q o) s = .next (s.stallWave c (.queue q.toNat))) ∧
      (∀ h : q.toNat < 4, c.crew.dq[q.toNat].entries.length ≤ c.w.popped[q.toNat] - c.crew.dq[q.toNat].retired →
        s.frontOf c q.toNat = if s.leadExited (crewOf c.key) then some (BitVec.allOnes 64, none) else none)

/-- R182 and R188: JOIN goes on where its split has no record; else the split arrives, and its slot is free until the record's lanes have
all arrived, parked or exited, when one split with those lanes goes on at the join address. R192: once every member of a barrier has
arrived, and for a lead barrier every lead context concerned has taken its entry or exited, the phase ends and every split of the gang
that waits there goes on past its BAR; a barrier entry that finds the return queue full waits before every later one. R193: a phase
takes its membership and lead flag from its first arrival; an arrival that disagrees, and every wave that has arrived, takes
barrier_mismatch at its BAR (in a pair it awaits its counterpart, R397), and the phase is as before its first arrival. -/
def Obligations.WaveJoins : Prop :=
  (∀ (s : State) (c : WCtx) (z : Bool),
     WaveIssues s c (.join z) → c.w.exited ≠ BitVec.allOnes 32 →
       (c.sp.link = none → exec (.join z) s = .next (movedWave s c (.join z) z (c.goto (pastWord c.sp.pc 1) c.w))) ∧
       (∀ i r, c.sp.link = some i → c.w.record? i = some r →
         let want := r.lanes &&& ~~~c.w.exited
         let there := r.arrived ||| c.sp.lanes
         let freed := c.w.setSlot c.slot none
         let waiting : Wave := { freed with stack := c.w.stack.set i (.join { r with arrived := there }) };
         (want &&& ~~~(there ||| r.parked) ≠ 0 → (∀ p, c.w.slot (other c.slot) = some p → p.state ≠ .barrier) →
           (∀ p, StackEntry.pending p ∈ c.w.stack → p.state ≠ .barrier) → exec (.join z) s = .next (movedWave s c (.join z) z waiting)) ∧
         (want &&& ~~~(there ||| r.parked) = 0 → want ≠ 0 → r.link = none →
           exec (.join z) s = .next (movedWave s c (.join z) z ((waiting.clearEntry i).setSlot c.slot (some (Split.ready r.pc want none))))) ∧
         (want &&& ~~~(there ||| r.parked) = 0 → want ≠ 0 → ∀ n q, r.link = some n → (waiting.clearEntry i).record? n = some q → q.pc ≠ r.pc →
           exec (.join z) s =
             .next (movedWave s c (.join z) z ((waiting.clearEntry i).setSlot c.slot (some (Split.ready r.pc want (some n)))))))) ∧
  (∀ (s : State) (g id : Nat) (gg : Gang) (p : Phase),
     s.gang g = some gg → tabGet gg.phases id = some p → p.lead = false →
     (∀ m ∈ barMembers p.members, s.barArrived g p m = true) →
       (s.barStep g id).gang g = some { gg with phases := tabDel gg.phases id } ∧
       (∀ k w, k.gang = g → s.wave k = some w → (s.barStep g id).wave k = some (w.releaseBar id)) ∧
       (∀ k, k.gang ≠ g → (s.barStep g id).wave k = s.wave k) ∧
       (∀ (w : Wave) (i : Fin 2) (b : BarWait) (sp : Split), w.slot i = some sp → sp.state = .barrier → sp.wait = .bar b → b.id = id →
         (w.releaseBar id).slot i = some { sp with pc := sp.pc + 4, state := .ready, wait := .none })) ∧
  (∀ (s : State) (g id : Nat) (gg : Gang) (p : Phase),
     let key (n : Nat) : CrewKey := { gang := g, crew := n }
     let all (n : Nat) : Prop := ∀ m ∈ barMembers p.members, m / 32 = n → s.barArrived g p m = true
     let due (n : Nat) : Prop := n ∈ barCrews p.members ∧ all n ∧ n ∉ p.posted
     let through (n : Nat) : Prop := n ∈ p.popped ∨ s.leadExited (key n) = true
     let t := s.barStep g id;
     s.gang g = some gg → tabGet gg.phases id = some p → p.lead = true →
       (∀ n k, s.crew (key n) = some k → due n → s.leadExited (key n) = false →
         ∃ k' : Crew, t.crew (key n) = some { k with rq := k'.rq, rqDue := k'.rqDue } ∧ k'.rq ++ k'.rqDue = k.rq ++ k.rqDue ++ [barEntry id] ∧
           k'.rq = k.rq ++ (k.rqDue ++ [barEntry id]).take (64 - k.rq.length)) ∧
       (∀ n, ¬due n → t.crew (key n) = s.crew (key n)) ∧
       ((∀ n ∈ barCrews p.members, all n ∧ through n) →
         t.gang g = some { gg with phases := tabDel gg.phases id } ∧
         ∀ k w, s.wave k = some w → t.wave k = some (if k.gang = g then w.releaseBar id else w)) ∧
       ((∃ n ∈ barCrews p.members, ¬(all n ∧ through n)) →
         (∃ (gg' : Gang) (p' : Phase), t.gang g = some gg' ∧ tabGet gg'.phases id = some p' ∧ p'.arrived = p.arrived ∧ p'.popped = p.popped ∧
           ∀ n, n ∈ p'.posted ↔ n ∈ p.posted ∨ due n) ∧
         ∀ k, t.wave k = s.wave k)) ∧
  (∀ (s : State) (c : WCtx) (z x : Bool) (i : BitVec 4) (a : BitVec 7),
     let b : BarWait := { id := i.toNat, members := c.crew.cQuad a.toNat, lead := x, z };
     WaveIssues s c (.bar z i a x) → i.toNat < c.gang.barriers →
       exec (.bar z i a x) s = .next (((movedWave s c (.bar z i a x) z
         (c.w.setSlot c.slot (some { c.sp with state := .barrier, wait := .bar b }))).barArrive c.key).endWave c.key)) ∧
  (∀ (s : State) (k : WaveKey) (w : Wave) (g : Gang) (b : BarWait) (bs : List BarWait),
     let p : Phase := (tabGet g.phases b.id).getD { members := b.members, lead := b.lead, arrived := [], posted := [], popped := [] }
     let one := ∀ d ∈ bs, d.id = b.id ∧ d.members = b.members ∧ d.lead = b.lead
     let agrees := p.members = b.members ∧ p.lead = b.lead ∧ b.members.getLsbD (32 * k.crew + k.wave) = true ∧
       ∀ m ∈ barMembers b.members, m / 32 < g.crews ∧ m % 32 < g.waves;
     s.wave k = some w → s.gang k.gang = some g → w.atBarriers = some (b :: bs) →
       (one → (k.crew, k.wave) ∉ p.arrived → agrees →
         s.barArrive k = ((s.arriveBar k w b.id).setGang k.gang
           { g with phases := tabSet g.phases b.id { p with arrived := p.arrived ++ [(k.crew, k.wave)] } }).barStep k.gang b.id) ∧
       (one → (k.crew, k.wave) ∉ p.arrived → ¬agrees → s.barArrive k = (s.arriveBar k w b.id).barMismatch k.gang [b.id] k) ∧
       (¬one → s.barArrive k = s.barMismatch k.gang (b.id :: bs.map BarWait.id) k)) ∧
  (∀ (s : State) (ids : List Nat) (k : WaveKey) (g : Gang),
     let there (j : WaveKey) : Prop := j = k ∨
       j.gang = k.gang ∧ ∃ id ∈ ids, ∃ p, tabGet g.phases id = some p ∧ (j.crew, j.wave) ∈ p.arrived
     let t := s.barMismatch k.gang ids k;
     s.gang k.gang = some g →
       (g.pair = none → ∀ co h, s.codeOf g = some co → co.wave.handler = some h →
         (∀ j w, there j → s.wave j = some w → w.handling = none) →
           (∃ g', t.gang k.gang = some g' ∧ ∀ n, tabGet g'.phases n = if n ∈ ids then none else tabGet g.phases n) ∧
           (∀ j w sp, there j → s.wave j = some w → w.slot w.faultSlot = some sp →
             ∃ w', t.wave j = some w' ∧ w'.slot w.faultSlot = some (Split.ready (BitVec.ofNat 64 h) sp.lanes sp.link) ∧
               w'.handling = some
                 { pc := sp.pc, nextPc := sp.pc + 4, lanes := sp.lanes, rep := sp.rep, reps := sp.reps, depth := w.depth, link := sp.link }) ∧
           (∀ j, ¬there j → t.wave j = s.wave j)) ∧
       (g.pair ≠ none → ∀ j w sp, there j → s.wave j = some w → w.slot w.faultSlot = some sp →
         t.wave j = some (w.setSlot w.faultSlot (some
           { sp with state := .ready, wait := .pairFault (Raised.of .barrierMismatch 0) (sp.pc + 4) }))))

/-- R189 to R191: CALL writes the link pair and goes to its target; RET, JMPX and CALLX check every lane's target, raise the first reason
of the lowest failing lane, wait for a landing pad that is away, and else divide the split over the targets, with split_overflow where
the stack has no room. CALL and CALLX must be last in their clause. -/
def Obligations.WaveCalls : Prop :=
  ∀ (s : State) (c : WCtx) (z : Bool) (o : BitVec 8) (a : BitVec 7) (g : BitVec 6),
    let last := s.lastInClause (s.waveHeaders c.gang) c.sp.pc.toNat
    let next := pastWord c.sp.pc 1
    let linked := c.w.putNow [.v 126 c.sp.lanes (Vector.replicate 32 (BitVec.ofNat 32 next.toNat)),
      .v 127 c.sp.lanes (Vector.replicate 32 (BitVec.ofNat 32 (next.toNat / 2 ^ 32)))];
    (WaveIssues s c (.call z o) → c.w.exited ≠ BitVec.allOnes 32 →
      (last = true → exec (.call z o) s = .next (movedWave s c (.call z o) z (c.goto (wordAt c.sp.pc (toSigned 8 o.toNat)) linked))) ∧
      (last = false → exec (.call z o) s = .next (s.raiseWave c (illegal 64) next))) ∧
    (WaveIssues s c (.callx z a g) → last = false → exec (.callx z a g) s = .next (s.raiseWave c (illegal 64) next)) ∧
    (∀ p ∈ ([(.ret z, 126, none, false), (.jmpx z a g, a.toNat, some g.toNat, false), (.callx z a g, a.toNat, some g.toNat, true)] :
        List (Instr × Nat × Option Nat × Bool)),
      let targets := s.v64 c.w p.2.1 (2 ^ 64 - 1)
      let why (l : Lane) : Option Nat := s.jumpReason (s.waveHeaders c.gang) p.2.2.1 targets[l]
      let failing := laneSet fun l => c.sp.lanes.getLsbD l.val && (why l).isSome
      let w := if p.2.2.2 then linked else c.w
      let ways := (lanesOf c.sp.lanes).foldl (fun ts l => insertRising targets[l] ts) []
      let new := ways.length - 1 - (if (c.w.slot (other c.slot)).isNone then 1 else 0);
      WaveIssues s c p.1 → c.w.exited ≠ BitVec.allOnes 32 → (p.2.2.2 = true → last = true) →
        (failing ≠ 0 →
          let l := lowestLane failing
          let r := (why l).getD 0
          exec p.1 s = .next (s.raiseWave c (Raised.lanes (if r ≤ 4 then .jumpTarget else .landingMismatch) r targets[l] failing) next)) ∧
        (failing = 0 → ∀ l : Lane, c.sp.lanes.getLsbD l.val = true → s.padAway p.2.2.1 targets[l] = true →
          (∀ m < l, c.sp.lanes.getLsbD m.val = true → s.padAway p.2.2.1 targets[m] = false) →
          exec p.1 s = .next (s.stallWave c (.page targets[l]))) ∧
        (failing = 0 → (∀ l : Lane, c.sp.lanes.getLsbD l.val = true → s.padAway p.2.2.1 targets[l] = false) →
          (∀ t, c.sp.lanes ≠ 0 → (∀ l : Lane, c.sp.lanes.getLsbD l.val = true → targets[l] = t) →
            exec p.1 s = .next (movedWave s c p.1 z (w.setSlot c.slot (some (Split.ready (BitVec.ofNat 64 t) c.sp.lanes c.sp.link))))) ∧
          (0 < new → 64 < c.w.depth + new → exec p.1 s = .next (s.raiseWave c (Raised.of .splitOverflow 0) next)) ∧
          (∀ t, c.scatter w targets = .ok t → c.sp.lanes ≠ 0 → exec p.1 s = .next (movedWave s c p.1 z t))))

/-- R178, R183, R192, R197 and R199: EXIT, BAR, LIVE, SAVEPT and YIELD. EXIT takes its lanes out of every record, and the last exit ends
the wave; BAR holds the split at its barrier; LIVE kills the registers outside its set once nothing is outstanding; SAVEPT parks while a
save is pending; YIELD goes on. R198: RDSTAT gives the status register in every lane of the split; WRSTAT puts bits [7:0] of the lowest
lane into its low byte and leaves its other bits; flags that the last word of the other split raised may stand after it, as where the two
issue in one cycle (R206). -/
def Obligations.WaveEndAndWait : Prop :=
  (∀ (s : State) (c : WCtx) (z x : Bool) (i : BitVec 4) (n : BitVec 8) (a : BitVec 7),
     let next := pastWord c.sp.pc 1;
     (WaveIssues s c (.exit z) → c.gang.pair = none →
       (∀ w, w = c.w.exitLanes c.slot c.sp.lanes → w.exited = c.w.exited ||| c.sp.lanes) ∧
       (∀ p, c.w.slot (other c.slot) = some p → p.state ≠ .barrier → c.w.exited ||| c.sp.lanes ≠ BitVec.allOnes 32 →
         exec (.exit z) s = .next (movedWave s c (.exit z) z (c.w.exitLanes c.slot c.sp.lanes))) ∧
       (c.w.exited ||| c.sp.lanes = BitVec.allOnes 32 → c.w.slot (other c.slot) = none → c.w.stack = [] → c.w.outstanding = [] →
         ∃ t, exec (.exit z) s = .next t ∧ ∀ w, t.wave c.key = some w → w.ended = true)) ∧
     (WaveIssues s c (.bar z i a x) →
       (c.gang.barriers ≤ i.toNat → exec (.bar z i a x) s = .next (s.raiseWave c (illegal 17) next)) ∧
       (i.toNat < c.gang.barriers → c.w.exited ≠ BitVec.allOnes 32 → ∀ p, c.w.slot (other c.slot) = some p → p.state ≠ .barrier →
         exec (.bar z i a x) s = .next (movedWave s c (.bar z i a x) z (c.w.setSlot c.slot (some
           { c.sp with state := .barrier, wait := .bar { id := i.toNat, members := c.crew.cQuad a.toNat, lead := x, z } }))))) ∧
     (WaveIssues s c (.live z a) → c.w.exited ≠ BitVec.allOnes 32 →
       (c.w.outstanding = [] →
         ∃ w, exec (.live z a) s = .next (movedWave s c (.live z a) z (c.goto next w)) ∧
           (∀ r : Fin 128, w.unset[r] = if (c.crew.cQuad a.toNat).getLsbD r.val then c.w.unset[r] else BitVec.allOnes 32) ∧
           w = { c.w with unset := w.unset, past := [] }) ∧
       (c.w.outstanding ≠ [] → c.sp.state ≠ .barrier → exec (.live z a) s = .next (movedWave s c (.live z a) z { c.w with parked := true }))) ∧
     (WaveIssues s c (.savept z n) → c.w.exited ≠ BitVec.allOnes 32 →
       (s.hasSavePoint c.gang false n.toNat = true → c.gang.state ≠ .saving →
         exec (.savept z n) s = .next (movedWave s c (.savept z n) z (c.goto next c.w))) ∧
       (s.hasSavePoint c.gang false n.toNat = true → c.gang.state = .saving →
         exec (.savept z n) s = .next (s.stallWave c (.savept n.toNat))) ∧
       (s.hasSavePoint c.gang false n.toNat = false → exec (.savept z n) s = .next (s.raiseWave c (illegal 64) next))) ∧
     (WaveIssues s c (.yield z) → c.w.exited ≠ BitVec.allOnes 32 →
       exec (.yield z) s = .next (movedWave s c (.yield z) z (c.goto next c.w)))) ∧
  (∀ (s : State) (c : WCtx) (z : Bool) (d a : BitVec 7),
     (WaveIssues s c (.rdstat z d) →
       completes c z 1 { s, writes := vWrites true d.toNat c.sp.lanes (Vector.replicate 32 c.w.status.toNat) } (exec (.rdstat z d) s)) ∧
     (WaveIssues s c (.wrstat z a) → c.w.exited ≠ BitVec.allOnes 32 →
       let v := (s.v32 c.w a.toNat 0xFFFF_FFFF)[lowestLane c.sp.lanes] % 2 ^ 8
       ∃ st : DWord,
         exec (.wrstat z a) s = .next (movedWave s.spend c (.wrstat z a) z (c.goto (pastWord c.sp.pc 1) { c.w with status := st })) ∧
         (st.toNat % 2 ^ 8 = v ∨ ∃ f, c.w.just = some (other c.slot, f) ∧ st.toNat % 2 ^ 8 = v ||| (raiseFlags 0 f).toNat) ∧
         st.toNat / 2 ^ 8 = c.w.status.toNat / 2 ^ 8))

/-! ### What stands before a word, clauses and REP -/

/-- R79, R55, R177 and R383: a wave word with a field that breaks a rule raises illegal_instruction at the lowest such position; one
whose register-cache line is absent, or that reads a register which the transform pipe has yet to write, waits for that register; one that
reads a poisoned word of the register cache has consumed an uncorrectable error. R79, R23 and R26: the same field rules for lead words,
which wait for a pending token among their registers, and else take the fault of the faulted one whose operation was issued first; that a
pending token goes before a faulted one is the model's choice (log 27). R79: a word whose opcode its class does not list raises
illegal_instruction with aux 24; its length follows log 33. -/
def Obligations.IssueChecks : Prop :=
  (∀ (s : State) (c : WCtx) (i : Instr), s.wctx = some c → classOf i < 8 →
     (∀ aux, leastFault i = some aux → ∃ n, (n = 1 ∨ n = 2) ∧ exec i s = .next (s.raiseWave c (illegal aux) (pastWord c.sp.pc n))) ∧
     (∀ r, i.wf = true → missing c.w i = some r → exec i s = .next (s.stallWave c (.regs r))) ∧
     (∀ r, i.wf = true → missing c.w i = none → awaited c.w i = some r → exec i s = .next (s.stallWave c (.regs r))) ∧
     (i.wf = true → missing c.w i = none → awaited c.w i = none → c.readsPoison i = true →
       exec i s = .next (s.uncorrectable c.key.gang))) ∧
  (∀ (s : State) (c : LCtx) (i : Instr), s.lctx = some c → 8 ≤ classOf i → classOf i < 13 →
     let heard (f : State → State) : Prop := ∃ u, Told s u ∧ exec i s = .next (f u);
     (∀ aux, leastFault i = some aux → ∃ n, (n = 1 ∨ n = 2) ∧ heard fun u => u.raiseLead c (illegal aux) (pastWord c.l.pc n)) ∧
     (∀ r, i.wf = true → c.l.pendingIn (xUses i) = some r → heard fun u => u.stallLead c (.token r)) ∧
     (∀ r op f, i.wf = true → c.l.pendingIn (xUses i) = none → (r, op, f) ∈ c.l.faultedIn (xUses i) →
       (∀ q ∈ c.l.faultedIn (xUses i), q ≠ (r, op, f) → op < q.2.1) →
       ∃ n, (n = 1 ∨ n = 2) ∧ heard fun u =>
         (u.modLead c.key fun l => { l with tokens := tabDel l.tokens r }).raiseLead c f (pastWord c.l.pc n))) ∧
  (∀ (s : State) (w : BitVec 32),
     (∀ c : WCtx, s.wctx = some c →
       exec (.unlistedOpcode w) s =
         .next (s.raiseWave c (illegal 24) (pastWord c.sp.pc (s.wordsAt (s.waveHeaders c.gang) c.sp.pc.toNat w)))) ∧
     (∀ c : LCtx, s.lctx = some c →
       exec (.unlistedOpcode w) s =
         .next (s.raiseLead c (illegal 24) (pastWord c.l.pc (s.wordsAt (s.leadHeaders c.gang) c.l.pc.toNat w)))))

/-- R44 to R47 and R64: a clause header that breaks no rule moves its context to the clause's first word; a wave then drains the
categories that the wait field marks, and a lead context waits at the header while a result of its own is outstanding. A header that
breaks a rule of R46 raises illegal_clause, and a place where no clause begins jump_target, in waves and in lead contexts. R182: a split
that fetches the header at the address of its record arrives there: it waits for the record's lanes, or goes on as their merged split.
R59 and R60: REP goes to the clause after it with a count one more than its field and the fields that it steps; where the target may not
be repeated it raises illegal_instruction with aux 64. -/
def Obligations.ClauseHeaders : Prop :=
  (∀ (s : State) (lead : Bool) (headers : List Nat) (pc : Nat) (h : Word),
     let cls := fieldNat h.toNat 28 4
     let n := fieldNat h.toNat 24 4
     let legal : Prop := (if lead then 8 ≤ cls ∧ cls ≤ 13 else cls ≤ 7 ∨ cls = 13) ∧ n ≠ 0 ∧ (cls = 13 → n = 1) ∧
       (h.getLsbD 23 = false → fieldNat h.toNat 17 6 = 0) ∧ fieldNat h.toNat 0 9 = 0 ∧
       ∀ b < 8, h.getLsbD (9 + b) = true → if lead then b = 3 ∨ b = 4 else b < 3;
     (∀ r, s.jumpReason headers none pc = some r → s.fetchHeader lead headers pc = .none r) ∧
     (s.jumpReason headers none pc = none → s.codeWord pc = .ok h → s.codePoisoned pc = false →
       (legal → s.endsOpen cls (pc + 4) n = some false → s.fetchHeader lead headers pc = .ok h) ∧
       (legal → s.endsOpen cls (pc + 4) n = some true → s.fetchHeader lead headers pc = .bad h) ∧
       (legal → s.endsOpen cls (pc + 4) n = none → s.fetchHeader lead headers pc = .away) ∧
       (¬legal → s.fetchHeader lead headers pc = .bad h))) ∧
  ((∀ (s : State) (c : WCtx), s.wctx = some c → (∀ i r, c.sp.link = some i → c.w.record? i = some r → r.pc ≠ c.sp.pc) →
     (∀ h, s.fetchHeader false (s.waveHeaders c.gang) c.sp.pc.toNat = .ok h →
       ∃ cats gone, exec .clauseFetch s = .next ((s.noteClause c.gang c.sp.pc h).setWave c.key
           ({ c.w with drain := cats, past := waitedOn gone c.w.past }.setSlot c.slot
             (some { c.sp with pc := pastWord c.sp.pc 1, wait := .none }))) ∧
         (∀ k, k ∈ cats ↔ k ∈ waitCats (hdrWait h) ∧ ∃ p ∈ c.w.outstanding, p.cat = k) ∧
         (∀ k, k ∈ gone ↔ k ∈ waitCats (hdrWait h) ∧ ∀ p ∈ c.w.outstanding, p.cat ≠ k)) ∧
     (s.fetchHeader false (s.waveHeaders c.gang) c.sp.pc.toNat = .away → exec .clauseFetch s = .next s) ∧
     (∀ h, s.fetchHeader false (s.waveHeaders c.gang) c.sp.pc.toNat = .bad h →
       exec .clauseFetch s = .next (s.raiseWave c (Raised.of .illegalClause 0) (pastWord c.sp.pc (hdrCount h + 1)))) ∧
     (∀ r, s.fetchHeader false (s.waveHeaders c.gang) c.sp.pc.toNat = .none r →
       exec .clauseFetch s = .next (s.raiseWave c { Raised.at .jumpTarget c.sp.pc.toNat with aux := r } (pastWord c.sp.pc 1)))) ∧
   (∀ (s : State) (c : WCtx) (i : Nat) (r : JoinRec),
     let want := r.lanes &&& ~~~c.w.exited
     let there := r.arrived ||| c.sp.lanes
     let freed := c.w.setSlot c.slot none
     let waiting : Wave := { freed with stack := c.w.stack.set i (.join { r with arrived := there }) };
     s.wctx = some c → c.sp.link = some i → c.w.record? i = some r → r.pc = c.sp.pc → c.w.exited ≠ BitVec.allOnes 32 →
       (want &&& ~~~(there ||| r.parked) ≠ 0 → (∀ p, c.w.slot (other c.slot) = some p → p.state ≠ .barrier) →
         (∀ p, StackEntry.pending p ∈ c.w.stack → p.state ≠ .barrier) →
         exec .clauseFetch s = .next (s.setWave c.key waiting.refill)) ∧
       (want &&& ~~~(there ||| r.parked) = 0 → want ≠ 0 →
         (∀ n q, r.link = some n → (waiting.clearEntry i).record? n = some q → q.pc ≠ r.pc) →
         exec .clauseFetch s =
           .next (s.setWave c.key ((waiting.clearEntry i).setSlot c.slot (some (Split.ready r.pc want r.link))).refill))) ∧
   (∀ (s : State) (c : LCtx), s.lctx = some c →
     (∀ h, s.fetchHeader true (s.leadHeaders c.gang) c.l.pc.toNat = .ok h →
       ((∀ k ∈ waitCats (hdrWait h), ∀ p ∈ c.l.outstanding, p.cat ≠ k) →
         exec .clauseFetch s = .next ((s.noteClause c.gang c.l.pc h).setLead c.key
           { c.l with pc := pastWord c.l.pc 1, wait := .none, past := waitedOn (waitCats (hdrWait h)) c.l.past })) ∧
       ((∃ k ∈ waitCats (hdrWait h), ∃ p ∈ c.l.outstanding, p.cat = k) → exec .clauseFetch s = .next s)) ∧
     (s.fetchHeader true (s.leadHeaders c.gang) c.l.pc.toNat = .away → exec .clauseFetch s = .next s) ∧
     (∀ h, s.fetchHeader true (s.leadHeaders c.gang) c.l.pc.toNat = .bad h →
       exec .clauseFetch s = .next (s.raiseLead c (Raised.of .illegalClause 0) (pastWord c.l.pc (hdrCount h + 1)))) ∧
     (∀ r, s.fetchHeader true (s.leadHeaders c.gang) c.l.pc.toNat = .none r →
       exec .clauseFetch s = .next (s.raiseLead c (Raised.of .jumpTarget 0) (pastWord c.l.pc 1)))) ∧
   (∀ (s : State) (g : Gang) (pc : DWord) (h : Word), g.pair = none → s.noteClause g pc h = s)) ∧
  (∀ (s : State) (n : BitVec 6) (k : BitVec 3) (t : Bool),
     let r : RepCtl := { n := n.toNat + 1, stepD := k.getLsbD 2, stepA := k.getLsbD 1, stepB := k.getLsbD 0, stride := if t then 2 else 1 };
     (∀ c : WCtx, WaveIssues s c (.rep n k t) → c.w.exited ≠ BitVec.allOnes 32 →
       (s.repTarget (s.waveHeaders c.gang) (pastWord c.sp.pc 1).toNat r = .good →
         exec (.rep n k t) s = .next (movedWave s c (.rep n k t) false
           (c.w.setSlot c.slot (some { c.sp with pc := pastWord c.sp.pc 1, rep := 0, reps := some r, wait := .none })))) ∧
       (s.repTarget (s.waveHeaders c.gang) (pastWord c.sp.pc 1).toNat r = .away →
         exec (.rep n k t) s = .next (s.stallWave c (.page (pastWord c.sp.pc 1).toNat))) ∧
       (s.repTarget (s.waveHeaders c.gang) (pastWord c.sp.pc 1).toNat r = .bad →
         exec (.rep n k t) s = .next (s.raiseWave c (illegal 64) (pastWord c.sp.pc 1)))) ∧
     (∀ c : LCtx, LeadIssues s c (.rep n k t) →
       (s.repTarget (s.leadHeaders c.gang) (pastWord c.l.pc 1).toNat r = .good →
         exec (.rep n k t) s = .next (movedLead s c (.rep n k t) false
           { c.l with pc := pastWord c.l.pc 1, rep := 0, reps := some r, wait := .none })) ∧
       (s.repTarget (s.leadHeaders c.gang) (pastWord c.l.pc 1).toNat r = .away →
         exec (.rep n k t) s = .next (s.stallLead c (.page (pastWord c.l.pc 1).toNat))) ∧
       (s.repTarget (s.leadHeaders c.gang) (pastWord c.l.pc 1).toNat r = .bad →
         exec (.rep n k t) s = .next (s.raiseLead c (illegal 64) (pastWord c.l.pc 1)))) ∧
     (∀ (headers : List Nat) (pc : Nat) (h w : Word), headers.contains pc = true → s.codeWord pc = .ok h → s.codeWord (pc + 4) = .ok w →
       let cls := fieldNat h.toNat 28 4;
       (cls ∈ [6, 9, 12, 13] → s.repTarget headers pc r = .bad) ∧
       (r.stepB = true → immOpcode cls (fieldNat w.toNat 24 7) = true → s.repTarget headers pc r = .bad)))

/-! ### Faults -/

/-- R200: a wave fault writes the outstanding results and the fault record; where the stream has a handler and the flag is clear, the
faulting split goes on at the handler's entry with its lanes and link, the other split is held, leaving a barrier that it waited at, and
the flag is set. TRAP raises the fault of its code. R201: RTF in a handler whose lanes are the record's, with no join record pushed since,
clears the flag, makes the held split ready and sends its own to the recorded PC, or past the faulting word; anywhere else it raises
illegal_instruction with aux 64. The model's choices here: the handler is entered whether or not the record area can be written (log 12),
the REP control is kept with its index (log 13), and RTF goes by the PCs that the machine kept (log 27). -/
def Obligations.WaveFaults : Prop :=
  ((∀ (s : State) (c : WCtx) (z : Bool) (i : BitVec 8), WaveIssues s c (.trap z i) → c.gang.pair = none →
     exec (.trap z i) s = .next (s.takeWaveFault c.key c.slot (Raised.of .trap i.toNat) (pastWord c.sp.pc 1))) ∧
   (∀ (s : State) (k : WaveKey) (n : Fin 2) (f : Raised) (next : DWord) (w : Wave) (g : Gang) (sp : Split) (co : CodeObj) (h : Nat),
     s.wave k = some w → s.gang k.gang = some g → w.slot n = some sp → s.codeOf g = some co → co.wave.handler = some h →
     w.handling = none → Memory.wf s.mem = true →
       let t := s.takeWaveFault k n f next
       (∃ v, t.wave k = some v ∧
         v.slot n = some (Split.ready (BitVec.ofNat 64 h) sp.lanes sp.link) ∧
         v.slot (other n) = (w.slot (other n)).map (fun p => { p with
           state := .held, wait := match p.wait with
             | .bar _ => .none
             | o => o }) ∧
         v.handling = some { pc := sp.pc, nextPc := next, lanes := sp.lanes, rep := sp.rep, reps := sp.reps, depth := w.depth, link := sp.link } ∧
         v.outstanding = [] ∧ v.status = w.status ∧ v.exited = w.exited ∧ v.stack = w.stack ∧
         (∀ (r : Fin 128) (l : Lane), v.v[r][l] = (writtenV (w.outstanding.flatMap Pending.writes) r l).getD w.v[r][l]) ∧
         (∀ (r : Fin 48) (l : Lane), v.k[r][l] = (writtenK (w.outstanding.flatMap Pending.writes) r l).getD w.k[r][l])) ∧
       (∀ pa, s.translate .write (statusFrec w.status) = .ok pa →
         ∀ i < 64, t.rd (pa + i) = (waveRecord f sp.pc.toNat next.toNat sp.lanes sp.rep).getD i 0) ∧
       (∀ j, j ≠ k → t.wave j = s.wave j) ∧
       t = { s with mem := t.mem, gangs := t.gangs, poison := t.poison, waves := t.waves, waiters := t.waiters, late := t.late })) ∧
  (∀ (s : State) (c : WCtx) (z r : Bool), WaveIssues s c (.rtf z r) →
     (c.w.handling = none → exec (.rtf z r) s = .next (s.raiseWave c (illegal 64) (pastWord c.sp.pc 1))) ∧
     (∀ h, c.w.handling = some h →
       (h.lanes ≠ c.sp.lanes ∨ (∃ q, StackEntry.join q ∈ c.w.stack.drop h.depth) →
         exec (.rtf z r) s = .next (s.raiseWave c (illegal 64) (pastWord c.sp.pc 1))) ∧
       (h.lanes = c.sp.lanes → (∀ q, StackEntry.join q ∉ c.w.stack.drop h.depth) → c.w.exited ≠ BitVec.allOnes 32 → c.sp.state = .ready →
         ∃ w, exec (.rtf z r) s = .next (movedWave s c (.rtf z r) z w) ∧
           w.slot c.slot = some (if r then { c.sp with pc := h.nextPc, rep := 0, reps := none }
             else { c.sp with pc := h.pc, rep := h.rep, reps := h.reps }) ∧
           w.slot (other c.slot) = (c.w.slot (other c.slot)).map (fun p => if p.state = .held then { p with state := .ready } else p) ∧
           w = { c.w with handling := none, slot0 := w.slot0, slot1 := w.slot1 })))

/-- R170 and R171: a lead fault writes the outstanding results and the fault record; with a handler and a clear flag the context goes on
at the handler's entry and the flag is set. TRAP raises the fault of its code; RTF goes back to the faulting word or past it, and raises
illegal_instruction where no fault is handled. R42, R170 and R200: a fault of a wave or a lead context without a handler, or within one,
ends the gang, whose contexts and slots go, and with it the launch: its outcome is an error of kind 3 with the fault's code. The model's
choices here: the record area may be unwritable (log 12), the REP control is kept (log 13), RTF goes by the PCs kept (log 27). -/
def Obligations.LeadFaults : Prop :=
  ((∀ (s : State) (c : LCtx) (z : Bool) (i : BitVec 6), LeadIssues s c (.leadTrap z i) → c.gang.pair = none →
     exec (.leadTrap z i) s = .next (s.takeLeadFault c.key (Raised.of .trap i.toNat) (pastWord c.l.pc 1))) ∧
   (∀ (s : State) (c : LCtx) (z r : Bool), LeadIssues s c (.leadRtf z r) →
     (c.l.handling = none → exec (.leadRtf z r) s = .next (s.raiseLead c (illegal 64) (pastWord c.l.pc 1))) ∧
     (∀ h, c.l.handling = some h →
       exec (.leadRtf z r) s = .next (movedLead s c (.leadRtf z r) z (if r then { c.l with handling := none, pc := h.nextPc, rep := 0, reps := none }
         else { c.l with handling := none, pc := h.pc, rep := h.rep, reps := h.reps })))) ∧
   (∀ (s : State) (k : CrewKey) (f : Raised) (next : DWord) (l : Lead) (g : Gang) (co : CodeObj) (h : Nat),
     s.lead k = some l → s.gang k.gang = some g → s.codeOf g = some co → co.lead.handler = some h → l.handling = none →
     Memory.wf s.mem = true →
       let t := s.takeLeadFault k f next
       (∃ m, t.lead k = some m ∧ m.pc = BitVec.ofNat 64 h ∧ m.rep = 0 ∧ m.reps = none ∧ m.wait = .none ∧
         m.handling = some { pc := l.pc, nextPc := next, rep := l.rep, reps := l.reps } ∧ m.outstanding = [] ∧ m.status = l.status ∧
         m.tokens = l.tokens ∧ m.j = l.j ∧
         ∀ r : Fin 64, m.x[r] = (writtenX (l.outstanding.flatMap Pending.writes) r).getD l.x[r]) ∧
       (∀ pa, s.translate .write (statusFrec l.status) = .ok pa →
         ∀ i < 64, t.rd (pa + i) = (leadRecord f l.pc.toNat next.toNat l.rep).getD i 0) ∧
       (∀ j, j ≠ k → t.lead j = s.lead j) ∧
       t = { s with mem := t.mem, gangs := t.gangs, poison := t.poison, leads := t.leads, waiters := t.waiters, late := t.late })) ∧
  (∀ (s t : State) (n : Nat) (f : Raised) (next : DWord) (g : Gang) (l : Launch),
     s.gang n = some g → s.launch g.seq = some l → l.done = none → l.failed = none → distinctKeys s.launches →
     (∃ k i w sp, k.gang = n ∧ s.wave k = some w ∧ w.slot i = some sp ∧
         (((s.codeOf g).bind fun co => co.wave.handler) = none ∨ w.handling ≠ none) ∧ t = s.takeWaveFault k i f next) ∨
       (∃ k m, k.gang = n ∧ s.lead k = some m ∧
         (((s.codeOf g).bind fun co => co.lead.handler) = none ∨ m.handling ≠ none) ∧ t = s.takeLeadFault k f next) →
       (∃ m, t.launch g.seq = some m ∧ m.failed = some { kind := 3, fault := f.code.num }) ∧
       (g.state.stopping = false →
         t.gang n = none ∧ (∀ k, k.gang = n → t.wave k = none) ∧ (∀ k, k.gang = n → t.lead k = none ∧ t.crew k = none) ∧
         ∀ i ∈ placeSlots g.place, ∀ e ∈ t.slots, e.1 ≠ i))

/-! ### Class 8: lead arithmetic and memory -/

/-- R134 and R135: the arithmetic words of the lead strand, for every type and every second source: an absent operand gives absent, the
exact result is narrowed, MULH gives the high half, and a division by zero gives absent and raises DZ or NV. R134: the raw-bits words of
the lead strand; a shift counts by the low six bits of its second source. -/
def Obligations.LeadIntegers : Prop :=
  (∀ (s : State) (c : LCtx) (z : Bool) (d a b : BitVec 6) (y : BitVec 2) (x : Bool) (i : BitVec 8) (t : BitVec 2),
     let k := Kind.ofCode t
     let va := s.xNat c a
     let reg := s.leadSrc c k b y x
     let absent := absentCode k 64
     (∀ p ∈ ([(.leadAdd z d a b y x t, reg, fun m n => m + n), (.leadAddImm z d a i t, immCode k 64 i, fun m n => m + n),
         (.leadSub z d a b y x t, reg, fun m n => m - n), (.leadSubImm z d a i t, immCode k 64 i, fun m n => m - n),
         (.leadMul z d a b y x t, reg, fun m n => m * n), (.leadMulImm z d a i t, immCode k 64 i, fun m n => m * n),
         (.leadMin z d a b y x t, reg, fun m n => if m ≤ n then m else n),
         (.leadMax z d a b y x t, reg, fun m n => if m ≤ n then n else m)] : List (Instr × Nat × (Int → Int → Int))),
       LeadIssues s c p.1 → leadCompletes c z 1 (oneX s d (intValue k 64 va p.2.1 p.2.2)) (exec p.1 s)) ∧
     (∀ p ∈ ([(.leadMulh z d a b y x t, fun m n => (ofInt 64 (m * n / 2 ^ 64), Flags.none)),
         (.div z d a b y x t, fun m n => if n = 0 then (absent, if m = 0 then Flags.nv else Flags.dz) else (ofInt 64 (m.tdiv n), Flags.none)),
         (.rem z d a b y x t, fun m n =>
           if n = 0 then (absent, if m = 0 then Flags.nv else Flags.dz) else (ofInt 64 (m - n * m.tdiv n), Flags.none))] :
           List (Instr × (Int → Int → Nat × Flags))),
       LeadIssues s c p.1 →
         leadCompletes c z 1 (oneX s d (if isAbsentCode k 64 va ∨ isAbsentCode k 64 reg then (absent, Flags.none)
           else p.2 (intOf k 64 va) (intOf k 64 reg))) (exec p.1 s))) ∧
  (∀ (s : State) (c : LCtx) (z : Bool) (d a b : BitVec 6) (y : BitVec 2) (x : Bool) (i : BitVec 8),
     let va := s.xNat c a
     let reg := s.leadSrc c .raw b y x
     let imm := immCode .raw 64 i
     let shl (m k : Nat) : Nat := m * 2 ^ (k % 64)
     let shr (m k : Nat) : Nat := m / 2 ^ (k % 64)
     let sar (m k : Nat) : Nat := ofInt 64 (toSigned 64 m / 2 ^ (k % 64))
     ∀ p ∈ ([(.leadAnd z d a b y x, reg, fun m k => m &&& k), (.leadAndImm z d a i, imm, fun m k => m &&& k),
         (.leadOr z d a b y x, reg, fun m k => m ||| k), (.leadOrImm z d a i, imm, fun m k => m ||| k),
         (.leadXor z d a b y x, reg, fun m k => m ^^^ k), (.leadXorImm z d a i, imm, fun m k => m ^^^ k),
         (.leadShl z d a b y x, reg, shl), (.leadShlImm z d a i, imm, shl),
         (.leadShr z d a b y x, reg, shr), (.leadShrImm z d a i, imm, shr),
         (.leadSar z d a b y x, reg, sar), (.leadSarImm z d a i, imm, sar)] : List (Instr × Nat × (Nat → Nat → Nat))),
       LeadIssues s c p.1 → leadCompletes c z 1 (oneX s d (p.2.2 va p.2.1, Flags.none)) (exec p.1 s))

/-- R136, R137 and R168: CMP gives a trit in a j register, SEL takes its source, the absent value or nothing, MOVI an immediate; MOVC
writes the uniform registers of the crew; RDSTAT and WRSTAT move the status register. -/
def Obligations.LeadCompareSelectMove : Prop :=
  ∀ (s : State) (c : LCtx) (z w : Bool) (o : BitVec 3) (d a b : BitVec 6) (y : BitVec 2) (x : Bool) (i : BitVec 8) (t : BitVec 2),
    let k := Kind.ofCode t
    let va := s.xNat c a
    let reg := s.leadSrc c k b y x
    let cond := Cond.ofCode o.toNat
    (∀ p ∈ ([(.leadCmp z o d a b y x t, reg), (.leadCmpImm z o d a i t, immCode k 64 i)] : List (Instr × Nat)),
      LeadIssues s c p.1 →
        leadCompletes c z 1 { s, j := some (d.toNat,
          if isAbsentCode k 64 va ∨ isAbsentCode k 64 p.2 then .u
          else Trit.ofBool (cond.holds (compare (intOf k 64 va) (intOf k 64 p.2)))) } (exec p.1 s)) ∧
    (LeadIssues s c (.leadSel z d a b y x t) →
      (c.l.jReg a.toNat = .t → leadCompletes c z 1 (oneX s d (reg, Flags.none)) (exec (.leadSel z d a b y x t) s)) ∧
      (c.l.jReg a.toNat = .f → leadCompletes c z 1 { s } (exec (.leadSel z d a b y x t) s)) ∧
      (c.l.jReg a.toNat = .u →
        leadCompletes c z 1 (if k = .raw then { s } else oneX s d (absentCode k 64, Flags.none)) (exec (.leadSel z d a b y x t) s))) ∧
    (LeadIssues s c (.movi z d i t) → leadCompletes c z 1 (oneX s d (immCode k 64 i, Flags.none)) (exec (.movi z d i t) s)) ∧
    (LeadIssues s c (.movc z d a w) →
      ∃ C : Vector Word 64, leadCompletes c z 1 { s := s.setCrew c.key { c.crew with c := C } } (exec (.movc z d a w) s) ∧
        ∀ r : Fin 64, C[r] = if r.val = d.toNat then BitVec.ofNat 32 va
          else if w ∧ r.val = d.toNat + 1 then BitVec.ofNat 32 (va / 2 ^ 32) else c.crew.c[r]) ∧
    (LeadIssues s c (.leadRdstat z d) → leadCompletes c z 1 { s, writes := [.x d.toNat c.l.status] } (exec (.leadRdstat z d) s)) ∧
    (LeadIssues s c (.leadWrstat z a) →
      ∃ st : DWord, leadCompletes c z 1 { s := s.setLead c.key { c.l with status := st } } (exec (.leadWrstat z a) s) ∧
        st.toNat % 2 ^ 8 = va % 2 ^ 8 ∧ st.toNat / 2 ^ 8 = c.l.status.toNat / 2 ^ 8)

/-- R138 and R139: LDX and STX of 1, 2, 4 and 8 bytes at x_a plus the sign-extended immediate. A load is zero-extended and outstanding; a
store writes its bytes and no other. The bytes are those that path L shows the context: those of memory where no write that reaches them
is late on L (R34, log 35); a poisoned line is an uncorrectable error (R383). An address that maps no page, or a page that forbids the access, raises element_access, else one not
aligned raises misaligned, else a page not resident is waited for. -/
def Obligations.LeadMemory : Prop :=
  ∀ (s : State) (c : LCtx) (z : Bool) (t : BitVec 2) (d a : BitVec 6) (i : BitVec 8),
    let n := 2 ^ t.toNat
    let va := ofInt 64 (s.xNat c a + toSigned 8 i.toNat)
    let view := s.leadView c va
    c.gang.pair = none →
    (∀ pa, LeadIssues s c (.ldx z t d a i) → s.translate .read va = .ok pa → va % n = 0 →
      (s.poisoned pa n = false → ∃ u, Heard s u ∧
        leadCompletes c z 1 { s := u, writes := [.x d.toNat (BitVec.ofNat 64 (ofBytes (view.rdBytes pa n)))], cat := some .leadMem }
          (exec (.ldx z t d a i) s)) ∧
      (s.poisoned pa n = true → exec (.ldx z t d a i) s = .next (s.uncorrectable c.key.gang))) ∧
    (Memory.wf s.mem = true → ∀ x, ¬s.lateAt .l x → view.rd x = s.rd x) ∧
    (∀ pa, LeadIssues s c (.stx z t d a i) → s.translate .write va = .ok pa → va % n = 0 → Memory.wf s.mem = true →
      ∃ u, StoredAt s n pa (s.xNat c d) u ∧ leadCompletes c z 1 { s := u } (exec (.stx z t d a i) s)) ∧
    (∀ p ∈ ([(.ldx z t d a i, .read), (.stx z t d a i, .write)] : List (Instr × AccKind)), LeadIssues s c p.1 →
      (s.translate p.2 va = .bad → leadRaises s c 1 (Raised.at .elementAccess va) (exec p.1 s)) ∧
      (s.translate p.2 va ≠ .bad → va % n ≠ 0 → leadRaises s c 1 (Raised.at .misaligned va) (exec p.1 s)) ∧
      (s.translate p.2 va = .away va → va % n = 0 → waitsFor s c (.page va) (exec p.1 s)))

/-- R140: ATOMX reads eight bytes at x_a, writes the operation's result there and gives the old value, outstanding; every other byte reads
as before. The sums, minima and maxima follow R134, with an absent operand giving absent. The old value is the one that path L shows (R34, R254, log 35). -/
def Obligations.LeadAtomics : Prop :=
  ∀ (s : State) (c : LCtx) (z : Bool) (t : BitVec 2) (d a b : BitVec 6) (p : BitVec 4) (o : BitVec 2) (pa : Nat),
    let va := s.xNat c a
    let v := s.xNat c b
    let old := (((s.beginsLead c va).meetRmw .l pa 8).on .l (.lead c.key)).rdNat pa 8
    let lesser (m n : Int) : Int := if m ≤ n then m else n
    let greater (m n : Int) : Int := if m ≤ n then n else m
    ∀ q ∈ ([(.atomxAdd z t d a b p o, intValue (Kind.ofCode t) 64 old v (fun m n => m + n)),
        (.atomxMinI64 z d a b p o, intValue .signed 64 old v lesser), (.atomxMinN64 z d a b p o, intValue .unsigned 64 old v lesser),
        (.atomxMaxI64 z d a b p o, intValue .signed 64 old v greater), (.atomxMaxN64 z d a b p o, intValue .unsigned 64 old v greater),
        (.atomxAnd z d a b p o, (old &&& v, Flags.none)), (.atomxOr z d a b p o, (old ||| v, Flags.none)),
        (.atomxXor z d a b p o, (old ^^^ v, Flags.none)), (.atomxXchg z d a b p o, (v, Flags.none)),
        (.atomxCas z d a b p o, (if old = s.xNat c d then v else old, Flags.none))] : List (Instr × (Nat × Flags))),
      LeadIssues s c q.1 → c.gang.pair = none → s.translateAll va [.read, .write] = .ok pa → va % 8 = 0 → s.poisoned pa 8 = false →
        Memory.wf s.mem = true →
        (∃ h u, Heard s h ∧ StoredAt h 8 pa q.2.1 u ∧
          leadCompletes c z 1 { s := u, writes := [.x d.toNat (BitVec.ofNat 64 old)], flags := q.2.2, cat := some .leadMem } (exec q.1 s)) ∧
        ((∀ x, covers 8 pa x → ¬s.lateAt .l x) → old = s.rdNat pa 8)

/-! ### Class 9: lead control -/

/-- R141 and R142: BR, BRC and CALL go to their target or past the word by the trit of their predicate, an unknown one by the policy; a
taken CALL, last in its clause, leaves its return address in x63; RET goes to the clause header that x63 names. -/
def Obligations.LeadBranches : Prop :=
  ∀ (s : State) (c : LCtx) (z : Bool) (p : BitVec 6) (u : BitVec 2) (o : BitVec 8),
    let j := c.l.jReg p.toNat
    let target := wordAt c.l.pc (toSigned 8 o.toNat)
    let next := pastWord c.l.pc 1
    let at_ (pc : DWord) : Lead := { c.l with pc, rep := 0, reps := none, wait := .none }
    let taken (want : Trit) : Prop := p.toNat = 63 ∨ j = want ∨ (j = .u ∧ u = 1)
    let trap : Prop := p.toNat ≠ 63 ∧ j = .u ∧ u = 3
    let last := s.lastInClause (s.leadHeaders c.gang) c.l.pc.toNat
    (∀ q ∈ ([(.leadBr z p u o, .t), (.leadBrc z p u o, .f)] : List (Instr × Trit)), LeadIssues s c q.1 →
      (trap → leadRaises s c 1 (Raised.of .unknownCondition 0) (exec q.1 s)) ∧
      (taken q.2 → exec q.1 s = .next (movedLead s c q.1 z (at_ target))) ∧
      (¬trap → ¬taken q.2 → exec q.1 s = .next (movedLead s c q.1 z (at_ next)))) ∧
    (LeadIssues s c (.leadCall z p u o) →
      (last = false → leadRaises s c 1 (illegal 64) (exec (.leadCall z p u o) s)) ∧
      (last = true → trap → leadRaises s c 1 (Raised.of .unknownCondition 0) (exec (.leadCall z p u o) s)) ∧
      (last = true → taken .t → exec (.leadCall z p u o) s =
        .next (movedLead s c (.leadCall z p u o) z { at_ target with
          x := c.l.x.set 63 next, outstanding := underAll [.x 63 next] c.l.outstanding,
          past := { val := .x 63 c.l.x[63], waited := [] } :: c.l.past })) ∧
      (last = true → ¬trap → ¬taken .t → exec (.leadCall z p u o) s = .next (movedLead s c (.leadCall z p u o) z (at_ next)))) ∧
    (LeadIssues s c (.leadRet z) →
      let t := s.xReg c.l 63
      let reason := s.jumpReason (s.leadHeaders c.gang) none t.toNat
      (reason = none → exec (.leadRet z) s = .next (movedLead s c (.leadRet z) z (at_ t))) ∧
      (reason ≠ none → leadRaises s c 1 (Raised.of .jumpTarget 0) (exec (.leadRet z) s)))

/-- R18, R20, R22 and R143: DQPUSH appends an entry to a decision queue of the crew, waits on a full one, and discards it where no wave
runs; RQPOP takes the oldest entry of the return queue, and lets in the posts that wait for room; it waits on an empty one. -/
def Obligations.LeadQueues : Prop :=
  ∀ (s : State) (c : LCtx) (z : Bool) (d a : BitVec 6),
    (∀ h : d.toNat < 4, LeadIssues s c (.dqpush z d a) →
      let q := c.crew.dq[d.toNat]
      (s.liveWaves c.key = [] → leadCompletes c z 1 { s } (exec (.dqpush z d a) s)) ∧
      (s.liveWaves c.key ≠ [] → 64 ≤ q.entries.length → waitsFor s c (.dqFull d.toNat) (exec (.dqpush z d a) s)) ∧
      (s.liveWaves c.key ≠ [] → q.entries.length < 64 →
        leadCompletes c z 1 { s := s.setCrew c.key { c.crew with
          dq := c.crew.dq.set d.toNat { q with entries := q.entries ++ [(s.xReg c.l a.toNat, none)] } } } (exec (.dqpush z d a) s))) ∧
    (LeadIssues s c (.rqpop z d) →
      (c.crew.rq = [] → waitsFor s c .rqEmpty (exec (.rqpop z d) s)) ∧
      (∀ v rest, c.crew.rq = v :: rest →
        let n := 64 - rest.length
        let t := s.setCrew c.key { c.crew with rq := rest ++ c.crew.rqDue.take n, rqDue := c.crew.rqDue.drop n }
        let taken (t : State) : Prop :=
          leadCompletes c z 1 { s := t, writes := [.x d.toNat v], cat := some .leadQueue } (exec (.rqpop z d) s)
        (v.toNat < 0xFFFF_FFFF_FFFF_FF00 ∨ 0xFFFF_FFFF_FFFF_FF10 ≤ v.toNat → taken t) ∧
        (∀ id < 16, v.toNat = 0xFFFF_FFFF_FFFF_FF00 + id → taken (t.barPopped c.key id))))

/-- R147 and R148: QPUSH writes its entry into the ring of its level and counts it; QPOP takes the oldest entry of the highest level that
holds one, and reads absent from an empty queue. An absent value is not pushed, a full level raises queue_overflow, and a descriptor with
a capacity outside 4 to 16, a misaligned base or a reserved field that is not zero raises illegal_instruction. The push ends every wait on the total. What stands in the descriptor and the
ring is what path L shows the context (R34, logs 32 and 35). -/
def Obligations.WorkQueues : Prop :=
  ∀ (s : State) (c : LCtx) (z : Bool) (d a b : BitVec 6) (p : BitVec 4) (pa : Nat),
    let view := s.leadView c (s.xNat c a)
    let q := view.rdNat pa 256
    let cap := q / 2 ^ 128 % 2 ^ 8
    let pops (lv : Nat) : Nat := view.rdNat (pa + 64 + 8 * lv) 4
    let pushes (lv : Nat) : Nat := view.rdNat (pa + 68 + 8 * lv) 4
    let held (lv : Nat) : Nat := (pushes lv + 2 ^ 32 - pops lv) % 2 ^ 32
    let sound : Prop := 4 ≤ cap ∧ cap ≤ 16 ∧ q % 2 ^ 64 % 64 = 0 ∧ q / 2 ^ 64 % 2 ^ 64 = 0 ∧ q / 2 ^ 136 % 2 ^ 8 = 0 ∧
      q / 2 ^ 192 % 2 ^ 320 = 0 ∧ q / 2 ^ 1536 % 2 ^ 512 = 0
    let ring (lv n : Nat) : Nat := (q % 2 ^ 64 + lv * 2 ^ cap * 8 + n % 2 ^ cap * 8) % 2 ^ 64
    let apart (slot : Nat) : Prop := slot + 8 ≤ pa ∨ pa + 256 ≤ slot
    let value := s.xNat c b
    let lv := s.xNat c d % 16
    let push : Instr := .qpush z d a b p
    let pop : Instr := .qpop z d a p
    c.gang.pair = none → Memory.wf s.mem = true →
    s.translateAll (s.xNat c a) [.read, .write] = .ok pa → s.xNat c a % 256 = 0 → s.poisoned pa 256 = false → isLocal pa = true →
      (LeadIssues s c push →
        (value = 2 ^ 64 - 1 → leadCompletes c z 1 { s } (exec push s)) ∧
        (value ≠ 2 ^ 64 - 1 → ¬sound → leadRaises s c 1 (illegal 64) (exec push s)) ∧
        (value ≠ 2 ^ 64 - 1 → sound → held lv = 2 ^ cap → leadRaises s c 1 (Raised.at .queueOverflow (s.xNat c a)) (exec push s)) ∧
        (∀ slot, value ≠ 2 ^ 64 - 1 → sound → held lv ≠ 2 ^ cap → s.translate .write (ring lv (pushes lv)) = .ok slot → isLocal slot = true →
          apart slot →
          let at_ (x : Nat) : Prop := covers 8 slot x ∨ covers 4 (pa + 68 + 8 * lv) x ∨ covers 6 (pa + 18) x
          ∃ h u : State, Heard s h ∧ leadCompletes c z 1 { s := u } (exec push s) ∧
            u.rdNat slot 8 = value ∧ u.rdNat (pa + 68 + 8 * lv) 4 = (pushes lv + 1) % 2 ^ 32 ∧
            u.rdNat (pa + 20) 4 = (view.rdNat (pa + 20) 4 + 1) % 2 ^ 32 ∧
            (∀ m, (u.rdNat (pa + 18) 2).testBit m = ((view.rdNat (pa + 18) 2).testBit m || decide (m = lv))) ∧
            (∀ x, ¬at_ x → u.rd x = s.rd x ∧ ∀ p k, (u.on p k).rd x = (h.on p k).rd x) ∧
            u.waiters.Sublist s.waiters ∧ (∀ w ∈ u.waiters, w.keys.contains (waitKey (pa + 20)) = false) ∧
            (∀ w ∈ s.waiters, w.keys.contains (waitKey (pa + 20)) = false →
              (∀ e ∈ w.watch, ∀ x, covers e.2 e.1 x → ¬at_ x) → w ∈ u.waiters) ∧
            u = { s with mem := u.mem, gangs := u.gangs, poison := u.poison, waiters := u.waiters, late := u.late, free := u.free })) ∧
      (LeadIssues s c pop →
        (¬sound → leadRaises s c 1 (illegal 64) (exec pop s)) ∧
        (sound → (∀ m < 16, held m = 0) →
          ∃ u, Heard s u ∧
            leadCompletes c z 1 { s := u, writes := [.x d.toNat (BitVec.allOnes 64)], cat := some .leadQueue } (exec pop s)) ∧
        (∀ top slot, sound → top < 16 → held top ≠ 0 → (∀ m < 16, top < m → held m = 0) →
          s.translate .read (ring top (pops top)) = .ok slot → isLocal slot = true → s.poisoned slot 8 = false →
          let at_ (x : Nat) : Prop := covers 4 (pa + 64 + 8 * top) x ∨ covers 6 (pa + 18) x
          ∃ h u : State, Heard s h ∧
            leadCompletes c z 1 { s := u, writes := [.x d.toNat (BitVec.ofNat 64 (view.rdNat slot 8))], cat := some .leadQueue } (exec pop s) ∧
            u.rdNat (pa + 64 + 8 * top) 4 = (pops top + 1) % 2 ^ 32 ∧
            u.rdNat (pa + 20) 4 = (view.rdNat (pa + 20) 4 + 2 ^ 32 - 1) % 2 ^ 32 ∧
            (∀ m, (u.rdNat (pa + 18) 2).testBit m =
              if m = top then decide (held top ≠ 1) else (view.rdNat (pa + 18) 2).testBit m) ∧
            WroteOnly h at_ u)) ∧
      (∀ x, ¬s.lateAt .l x → view.rd x = s.rd x)

/-- R33, R143, R145, R146 and R169: the lead context waits on an address, wakes the waiters of one, and orders its accesses. FENCE makes
no access: one path shows its writes in their order already (log 4), and what it orders travels with the chains of R32. XFENCE makes the
writes of its first path that happen before it show on its second, to the parties of its scope (log 35). WAITA completes where the value,
as path L shows it, differs, and parks where it is equal; WAKE reads nothing; SAVEPT goes on unless its gang is being saved. -/
def Obligations.LeadWaits : Prop :=
  ∀ (s : State) (c : LCtx) (z : Bool) (d a b : BitVec 6) (p : BitVec 4) (o w : BitVec 2),
    c.gang.pair = none →
    (LeadIssues s c (.leadFence z p o) → ∃ u, Told s u ∧ leadCompletes c z 1 { s := u } (exec (.leadFence z p o) s)) ∧
    (LeadIssues s c (.leadXfence z d a p) →
      let here (v : Actor) : Prop := s.share p.toNat (.lead c.key) (s.clusterOf c.key) v = true
      ∃ u, leadCompletes c z 1 { s := u } (exec (.leadXfence z d a p) s) ∧ u = { s with late := u.late } ∧ u.late.length = s.late.length ∧
        ∀ (i : Nat) (r : Late), s.late[i]? = some r → ∃ q : Late, u.late[i]? = some q ∧ q.former = r.former ∧ q.path = r.path ∧
          (∀ p v, s.shows p v r = true → u.shows p v q = true) ∧
          (r.path = Path.ofCode d.toNat → r.knows (.lead c.key) = true → s.share p.toNat r.by_ r.cluster (.lead c.key) = true →
            ∀ v, here v → u.shows (Path.ofCode a.toNat) v q = true)) ∧
    (∀ pa, LeadIssues s c (.leadWaita z d a b p w) →
      let n := if w = 1 then 8 else 4
      let view := s.leadView c (s.xNat c a)
      s.translate .read (s.xNat c a) = .ok pa → s.xNat c a % n = 0 → s.poisoned pa n = false →
        (view.rdNat pa n ≠ s.xNat c b % 2 ^ (8 * n) → ∃ u, Heard s u ∧
          leadCompletes c z 1 { s := u, writes := [.x d.toNat (BitVec.ofNat 64 (view.rdNat pa n))] } (exec (.leadWaita z d a b p w) s)) ∧
        (view.rdNat pa n = s.xNat c b % 2 ^ (8 * n) → ∃ u : State, Heard s u ∧
          exec (.leadWaita z d a b p w) s =
            .next (({ u with waiters := s.waiters ++ [{ who := .lead c.key, keys := [pa / 8 * 8], watch := [(pa, n)] }] } : State).setLead
              c.key { c.l with wait := .waita pa (w == 1) d.toNat (s.ticksOf (s.clusterOf c.key)) (view.rdNat pa n) p.toNat z false }))) ∧
    (∀ pa, LeadIssues s c (.leadWake z d a b p) → s.translate .read (s.xNat c a) = .ok pa →
      ∃ (m : Nat) (rest : List Waiter),
        let chosen (v : Waiter) : Bool := v.keys.contains (pa / 8 * 8) && s.sameScope p.toNat c.key v.who
        leadCompletes c z 1 { s := { s with waiters := rest }, writes := [.x d.toNat (BitVec.ofNat 64 m)] }
          (exec (.leadWake z d a b p) s) ∧
        m = min (s.xNat c b) (s.waiters.filter chosen).length ∧ rest.filter (fun v => !chosen v) = s.waiters.filter (fun v => !chosen v) ∧
        rest.filter chosen = (s.waiters.filter chosen).drop m) ∧
    (∀ (i : BitVec 6) (h : BitVec 2), LeadIssues s c (.leadSavept z i h) →
      let ix := h.toNat * 64 + i.toNat
      (s.hasSavePoint c.gang true ix = false → leadRaises s c 1 (illegal 64) (exec (.leadSavept z i h) s)) ∧
      (s.hasSavePoint c.gang true ix = true → c.gang.state = .saving → waitsFor s c (.savept ix) (exec (.leadSavept z i h) s)) ∧
      (s.hasSavePoint c.gang true ix = true → c.gang.state ≠ .saving → leadCompletes c z 1 { s } (exec (.leadSavept z i h) s)))

/-! ### Classes 10 to 12: operations, objects, sequences, checkpoints -/

/-- R23, R25, R26, R277, R279, R295, R313, R342 and R346: a matrix, tile, Accord, copy or walk word starts an operation and makes its
token pending. An accumulator outside the crew's grant raises illegal_instruction; eight unfinished operations of a crew on a unit, and
sixteen unfinished copies, hold the next one back; a record that a COPY rejects marks its token faulted and starts nothing. R153: LAUNCH
hands its record to the control plane, with the word's scope, and makes its token pending; an address that maps no page, or that is not
aligned to 64 bytes, marks the token faulted. The records are as path L shows them (R14, R16, log 35). -/
def Obligations.OperationsStart : Prop :=
  ((∀ (s : State) (c : LCtx) (d : BitVec 6) (kind : OpKind), s.lctx = some c →
     let t := (s.startOp c d kind).s
     (s.startOp c d kind).writes = [] ∧
     t.ops = s.ops ++ [(s.nextId, { crew := c.key, token := d.toNat, issuePc := c.l.pc, kind, units := 0 })] ∧
     t.lead c.key = some { c.l with
       tokens := tabSet c.l.tokens d.toNat (.pending s.nextId), outstanding := underAll [.x d.toNat 0] c.l.outstanding } ∧
     (∀ k, k ≠ c.key → t.lead k = s.lead k) ∧
     sameLate s t ∧ t = { s with ops := t.ops, leads := t.leads, nextId := s.nextId + 1, late := t.late }) ∧
   (∀ (s : State) (c : LCtx) (d : BitVec 6) (f : Raised), s.lctx = some c →
     let t := (s.failOp c d f).s
     t.lead c.key = some { c.l with
       tokens := tabSet c.l.tokens d.toNat (.faulted s.nextId { f with issuePc := c.l.pc }),
       outstanding := underAll [.x d.toNat 0] c.l.outstanding } ∧
     (∀ k, k ≠ c.key → t.lead k = s.lead k) ∧ t = { s with leads := t.leads, nextId := s.nextId + 1 }) ∧
   (∀ (s : State) (c : LCtx) (z : Bool) (d a b : BitVec 6) (unit : BitVec 2) (acc src : BitVec 4) (k h : BitVec 8) (f : BitVec 5)
       (ka mc : BitVec 3) (y : Bool),
     let xa := s.xReg c.l a.toNat
     let xb := s.xReg c.l b.toNat
     let busy := (s.ops.filter fun e => e.2.crew == c.key && e.2.kind.onUnit unit.toNat).length
     ∀ p ∈ ([(.mzero z d unit acc y, .mzero acc.toNat y, [acc]),
         (.mma z d a b unit acc k y, .mma acc.toNat (k.toNat + 1) y xa xb, [acc]),
         (.mmc z d b unit acc src f y, .mmc acc.toNat src.toNat f.toNat y xb, [src, acc]),
         (.mmw z d a unit acc h y, .mmw acc.toNat h.toNat y xa, [acc]),
         (.mdrain z d a b unit acc, .mdrain acc.toNat xa (if b = 0 then none else some xb), [acc]),
         (.mload z d a unit acc y, .mload acc.toNat y xa, [acc]),
         (.seek z d a b unit ka mc k, .seek ka.toNat mc.toNat k.toNat xa xb, []),
         (.proj z d a b unit, .proj xa xb, [])] : List (Instr × UnitWord × List (BitVec 4))), LeadIssues s c p.1 →
       ((∀ r ∈ p.2.2, r.toNat < c.crew.acc) →
         (busy < 8 → leadCompletes c z 2 (s.startOp c d (.unit unit.toNat p.2.1 0 [] [] [])) (exec p.1 s)) ∧
         (8 ≤ busy → waitsFor s c .room (exec p.1 s))) ∧
       (∀ r ∈ p.2.2, c.crew.acc ≤ r.toNat → ∃ aux, (aux = 53 ∨ aux = 57) ∧ leadRaises s c 2 (illegal aux) (exec p.1 s))) ∧
   (∀ (s : State) (c : LCtx) (z : Bool) (d a b : BitVec 6) (h : BitVec 8) (f : BitVec 5) (slice packed : Bool),
     let xa := s.xReg c.l a.toNat
     ∀ p ∈ ([(.talloc z d a b h f slice packed, .talloc h.toNat f.toNat slice packed xa (s.xReg c.l b.toNat)),
         (.tfree z d h, .tfree h.toNat), (.tbind z d a h, .tbind h.toNat xa), (.tdry z d h, .tdry h.toNat),
         (.tstat z d a h, .tstat h.toNat xa), (.abind z d a h slice, .abind h.toNat slice xa)] : List (Instr × TileWord)),
       LeadIssues s c p.1 → leadCompletes c z 2 (s.startOp c d (.tile p.2)) (exec p.1 s)) ∧
   (∀ (s : State) (c : LCtx) (z : Bool) (d a b : BitVec 6) (q : BitVec 2) (n : BitVec 16) (scope : BitVec 4) (h : BitVec 8) (pa : Nat),
     let xa := s.xReg c.l a.toNat
     let xb := s.xReg c.l b.toNat
     let busy := (s.ops.filter fun e => e.2.crew == c.key && e.2.kind.isCopy).length
     let view := s.leadView c xa.toNat
     let r : Copy := BitVec.ofNat 512 (view.rdNat pa 64)
     c.gang.pair = none →
     (LeadIssues s c (.chase z d a b q n) →
       leadCompletes c z 2 (s.startOp c d (.chase xa xb q.toNat n.toNat 0)) (exec (.chase z d a b q n) s)) ∧
     (LeadIssues s c (.pcopy z d a b scope n) →
       (busy < 16 → leadCompletes c z 2 (s.startOp c d (.pcopy xa xb scope.toNat n.toNat)) (exec (.pcopy z d a b scope n) s)) ∧
       (16 ≤ busy → waitsFor s c .room (exec (.pcopy z d a b scope n) s))) ∧
     (LeadIssues s c (.copy z d a false h) →
       (16 ≤ busy → waitsFor s c .room (exec (.copy z d a false h) s)) ∧
       (busy < 16 → s.translate .read xa.toNat = .bad →
         leadCompletes c z 2 (s.failOp c d (Raised.at .elementAccess xa.toNat)) (exec (.copy z d a false h) s)) ∧
       (busy < 16 → s.translate .read xa.toNat = .ok pa → xa.toNat % 64 = 0 → s.poisoned pa 64 = false →
         (Copy.malformed r = true →
           ∃ u, Heard s u ∧ leadCompletes c z 2 (u.failOp c d (illegal 64)) (exec (.copy z d a false h) s)) ∧
         (Copy.malformed r = false → (Copy.src r).kind ≠ .tile → (Copy.dst r).kind ≠ .tile → Copy.bkind r = 0 →
           (Copy.src r).base % (Copy.src r).align = 0 → (Copy.dst r).base % (Copy.dst r).align = 0 →
           ∃ u, Heard s u ∧ leadCompletes c z 2 (u.startOp c d (.copy r [] [])) (exec (.copy z d a false h) s)) ∧
         (let sides (sd : Side) (accord : FaultCode) : Prop :=
            let fails (code : FaultCode) : Prop := ∃ u, Heard s u ∧
              leadCompletes c z 2 (u.failOp c d (Raised.of code 0)) (exec (.copy z d a false h) s)
            (tabGet c.gang.handles sd.handle = none → fails .tileHandle) ∧
              ∀ sl bs, tabGet c.gang.handles sd.handle = some (.accord sl bs) → fails accord
          Copy.malformed r = false →
            ((Copy.src r).kind = .tile → sides (Copy.src r) .tileHandle) ∧
            ((Copy.src r).kind ≠ .tile → (Copy.dst r).kind = .tile → sides (Copy.dst r) .accordWrite)))))) ∧
  (∀ (s : State) (c : LCtx) (z : Bool) (d a : BitVec 6) (p : BitVec 4),
     let va := s.xNat c a
     LeadIssues s c (.launch z d a p) → c.gang.pair = none →
       (s.translate .read va = .bad → leadCompletes c z 1 (s.failOp c d (Raised.at .elementAccess va)) (exec (.launch z d a p) s)) ∧
       (s.translate .read va ≠ .bad → va % 64 ≠ 0 →
         leadCompletes c z 1 (s.failOp c d (Raised.at .misaligned va)) (exec (.launch z d a p) s)) ∧
       (∀ pa : Nat → Nat, va % 64 = 0 → (∀ i < 4, s.translate .read (va + 64 * i) = .ok (pa i) ∧ s.poisoned (pa i) 64 = false) →
         let view := s.leadView c va
         let record : BitVec 2048 := BitVec.ofNat 2048 (ofBytes (view.rdBytes (pa 0) 64 ++ view.rdBytes (pa 1) 64 ++
           view.rdBytes (pa 2) 64 ++ view.rdBytes (pa 3) 64))
         let sub : Submission := { crew := c.key, addr := pa 1 + 48, record, scope := p.toNat }
         ∃ u, Heard s u ∧
           leadCompletes c z 1 (State.startOp { u with subs := s.subs ++ [(s.nextId, sub)], nextId := s.nextId + 1 } c d (.launch s.nextId))
             (exec (.launch z d a p) s)))

/-- R28, R29, R344 and R345: BINIT, BARR and BWAIT on an object in memory or in a tile. BINIT starts phase 0 with its count; BARR counts
down, and where its count reaches past what remains it ends a phase and goes on counting in the next, several times if need be; BWAIT
gives the phase once it differs. A count of zero, and an object with a reserved field or an expected count of zero, raise
illegal_instruction, which BINIT checks as well (R29, log 32). An update of an object in memory is observed at once by every party on
every path. An object in a tile is read as path L shows the tile (log 35). -/
def Obligations.BarrierObjects : Prop :=
  ∀ (s : State) (c : LCtx) (z : Bool) (d a b : BitVec 6) (tile : Bool) (h : BitVec 8) (scope : BitVec 4) (o : Nat) (put : Nat → State → Prop)
      (ready : List AccKind → Prop),
    let at_ := s.xNat c a
    let n := s.xNat c b % 2 ^ 32
    let phase := o % 2 ^ 32
    let remaining := o / 2 ^ 32 % 2 ^ 32
    let expected := o / 2 ^ 64 % 2 ^ 32
    let sound : Prop := o / 2 ^ 96 % 2 ^ 32 = 0 ∧ expected ≠ 0
    let init : Instr := .binit z a b tile h scope
    let down : Instr := .barr z d a b tile h scope
    let wait : Instr := .leadBwait z d a b tile h scope
    (tile = false ∧ (∃ pa, o = s.rdNat pa 16 ∧
        (∀ v u, put v u ↔ (∃ t, Heard s t ∧ StoredAt t 16 pa v u) ∧ ∀ q k x, covers 16 pa x → (u.on q k).rd x = u.rd x) ∧
        ∀ ks, ready ks ↔ s.translateAll at_ ks = .ok pa ∧ at_ % 16 = 0 ∧ s.poisoned pa 16 = false) ∨
      tile = true ∧ (∃ t seen : Tile, c.gang.tile? h.toNat = some t ∧ o = ofBytes (memReads seen.data at_ 16) ∧
        (∀ v u, put v u ↔ u.gang c.key.gang = some { c.gang with handles := tabSet c.gang.handles h.toNat (.tile (t.wr at_ (toBytes 16 v))) } ∧
          (∀ g, g ≠ c.key.gang → u.gang g = s.gang g) ∧ u = { s with gangs := u.gangs, late := u.late }) ∧
        ∀ ks, ready ks ↔ (s.gangOn .l (.lead c.key) c.key.gang c.gang).tile? h.toNat = some seen ∧ at_ % 16 = 0 ∧ at_ + 16 ≤ seen.size ∧
          seen.poisoned at_ 16 = false ∧ ∀ i < 16, t.needsFill ((at_ + i) / seen.area) = false)) →
    c.gang.pair = none → Memory.wf s.mem = true →
      (LeadIssues s c init →
        (n = 0 → leadRaises s c 2 (illegal 64) (exec init s)) ∧
        (n ≠ 0 → ready [.read, .write] → ¬sound → leadRaises s c 2 (illegal 64) (exec init s)) ∧
        (n ≠ 0 → ready [.read, .write] → sound →
          ∃ u, put (n * 2 ^ 32 + n * 2 ^ 64) u ∧ leadCompletes c z 2 { s := u } (exec init s))) ∧
      (LeadIssues s c down →
        (n = 0 → leadRaises s c 2 (illegal 64) (exec down s)) ∧
        (n ≠ 0 → ready [.read, .write] → ¬sound → leadRaises s c 2 (illegal 64) (exec down s)) ∧
        (n < remaining → n ≠ 0 → ready [.read, .write] → sound →
          ∃ u, put (phase + (remaining - n) * 2 ^ 32 + expected * 2 ^ 64) u ∧
            leadCompletes c z 2 { s := u, writes := [.x d.toNat (BitVec.ofNat 64 phase)] } (exec down s)) ∧
        (remaining ≤ n → n ≠ 0 → ready [.read, .write] → sound →
          let more := n - remaining
          let now := (phase + 1 + more / expected) % 2 ^ 32
          ∃ u, put (now + (expected - more % expected) * 2 ^ 32 + expected * 2 ^ 64) u ∧
            leadCompletes c z 2 { s := u, writes := [.x d.toNat (BitVec.ofNat 64 now)] } (exec down s))) ∧
      (LeadIssues s c wait → ready [.read] →
        (¬sound → leadRaises s c 2 (illegal 64) (exec wait s)) ∧
        (sound → phase ≠ n → ∃ u, leadCompletes c z 2 { s := u, writes := [.x d.toNat (BitVec.ofNat 64 phase)] } (exec wait s) ∧
          (∀ g, u.gang g = s.gang g) ∧ u = { s with gangs := u.gangs, late := u.late, free := u.free }) ∧
        (sound → phase = n → ∃ u : State, waitsFor u c .bwait (exec wait s) ∧ (∀ g, u.gang g = s.gang g) ∧ u = { s with gangs := u.gangs, late := u.late, free := u.free })) ∧
      (s.late = [] → s.gang c.key.gang = some c.gang → s.gangOn .l (.lead c.key) c.key.gang c.gang = c.gang)

/-- R160 to R164: the walk of a sequence, its maps, and what SMAP does. A sequence that is not resident is refilled at its first SMAP, from
its spill table if it has one, else by a walk; the least recently used sequence of a full map is written to its spill table. A lookup gives
the address of a slot, or absent at or past the length; an append is refused unless the length is the capacity of the linked pages, and else
writes and links the new page; a share counts the pages below its whole pages once more; a length that grows sets the counts of the pages it
fills; one that shrinks abandons the pages after its last, with it a shared last page that it does not fill, and all of them at 0, and frees
those that no sequence holds any more onto the queue at freeq, which raises queue_overflow where it lacks room; an eviction takes the
sequence out of every map. What the words read is what path L shows (logs 31 and 35). -/
def Obligations.SequenceMaps : Prop :=
  (∀ (s : State) (q : SeqDesc) (n : Nat) (ps : List SeqPage), s.walkFrom q q.head 0 n = .ok ps →
    ps.length = n ∧ (∀ p ∈ ps, s.translate .read p.va = .ok p.pa ∧ p.bits = s.rdNat p.pa 64) ∧
    (∀ p, ps[0]? = some p → p.va = q.head ∧ p.first = 0) ∧
    ∀ i a b, ps[i]? = some a → ps[i + 1]? = some b → b.first = a.first + q.cap ∧
      ((∃ e ∈ q.splice, e.1 = b.first ∧ b.va = e.2) ∨ (∀ e ∈ q.splice, e.1 ≠ b.first) ∧ b.va = a.bits % 2 ^ 64)) ∧
  (∀ (s : State) (q : SeqDesc) (ps : List SeqPage), s.resident q.va = none → q.pages ≤ 16384 →
    (q.spill = 0 → s.seqPages q = s.walkFrom q q.head 0 q.pages) ∧
    (q.spill ≠ 0 → s.seqPages q = .ok ps → ps.length = q.pages ∧ ∀ i p, ps[i]? = some p →
      p.first = q.cap * i ∧ ∃ pa, s.translate .read (ofInt 64 (q.spill + 8 * i : Nat)) = .ok pa ∧ p.va = s.rdNat pa 8)) ∧
  (∀ (s : State) (p : Actor) (col va : Nat) (q : SeqDesc) (ps : List SeqPage),
    (s.on .l p).seqDesc [.read] va = .ok q → (s.on .l p).seqPages q = .ok ps →
      s.meetSeq p col va = s.makeResident p col va (ps.map SeqPage.va)) ∧
  (∀ (s : State) (p : Actor) (col va : Nat) (pages : List Nat), pages.length ≤ 16384 →
    let old := (tabGet (s.unmapSeq va).seqMaps col).getD []
    let size (m : List (Nat × List Nat)) : Nat := (m.map fun e => e.2.length).sum
    let u := s.makeResident p col va pages
    (size old + pages.length ≤ 65536 → u.resident va = some pages ∧ u = { s with seqMaps := u.seqMaps }) ∧
    (∀ m w ws, old = m ++ [(w, ws)] → 65536 < size old + pages.length → size m + pages.length ≤ 65536 →
      u = ({ s.unmapSeq va with seqMaps := tabSet (s.unmapSeq va).seqMaps col ((va, pages) :: m) } : State).spillOut p w ws)) ∧
  (∀ (s : State) (p : Actor) (va pa : Nat) (pages : List Nat) (at_ : Nat → Nat),
    let spill := (s.on .l p).rdNat (pa + 56) 8
    s.translate .read va = .ok pa → spill ≠ 0 → Memory.wf s.mem = true →
      (∀ i < pages.length, s.translate .write (ofInt 64 (spill + 8 * i : Nat)) = .ok (at_ i)) →
      (∀ i < pages.length, ∀ j < pages.length, i < j → at_ i + 8 ≤ at_ j ∨ at_ j + 8 ≤ at_ i) →
      ∀ i v, pages[i]? = some v → (s.spillOut p va pages).rdNat (at_ i) 8 = v % 2 ^ 64) ∧
  (∀ (s : State) (p : Actor) (freeq pa q : Nat) (vas : List Nat) (slot : Nat → Nat), s.workQueue p freeq = .ok (pa, q) → vas ≠ [] →
    (2 ^ wqCap q < wqHeld q 0 + vas.length → s.freePages p freeq vas = .error (.stop (.fault (Raised.at .queueOverflow freeq)))) ∧
    (wqHeld q 0 + vas.length ≤ 2 ^ wqCap q → Memory.wf s.mem = true →
      (∀ i < vas.length, s.wqSlot q 0 (wqPush q 0 + i) .write = .ok (slot i) ∧ (slot i + 8 ≤ pa ∨ pa + 256 ≤ slot i)) →
      (∀ i < vas.length, ∀ j < vas.length, i < j → slot i + 8 ≤ slot j ∨ slot j + 8 ≤ slot i) →
      ∃ u, s.freePages p freeq vas = .ok u ∧ (∀ i v, vas[i]? = some v → u.rdNat (slot i) 8 = v % 2 ^ 64) ∧
        u.rdNat (pa + 68) 4 = (wqPush q 0 + vas.length) % 2 ^ 32 ∧ u.rdNat (pa + 20) 4 = (wqTotal q + vas.length) % 2 ^ 32 ∧
        (u.rdNat (pa + 18) 2).testBit 0 = true)) ∧
  (∀ (s : State) (c : LCtx) (z : Bool) (d a b : BitVec 6),
    let A := s.xNat c a
    let B := s.xNat c b
    let col := s.columnOf c.key
    let me : Actor := .lead c.key
    let met := (s.hear .l).meetSeq me col A
    let v := met.on .l me
    let absent (i : Instr) : Prop :=
      leadCompletes c z 2 { s := met, writes := [.x d.toNat (BitVec.allOnes 64)], cat := some .leadQueue } (exec i s)
    let gives (i : Instr) (u : State) (r : Nat) : Prop :=
      leadCompletes c z 2 { s := u, writes := [.x d.toNat (BitVec.ofNat 64 r)], cat := some .leadQueue } (exec i s)
    let clear (x n y m : Nat) : Prop := x + n ≤ y ∨ y + m ≤ x
    let distinct (q : SeqDesc) (ps : List SeqPage) : Prop := ps.Pairwise (fun x y => clear x.pa 64 y.pa 64) ∧ ∀ p ∈ ps, clear q.pa 256 p.pa 64
    let onlyMem (t u : State) : Prop :=
      u = { t with mem := u.mem, gangs := u.gangs, poison := u.poison, waiters := u.waiters, late := u.late, free := u.free }
    c.gang.pair = none → Memory.wf s.mem = true →
      (∀ q, LeadIssues s c (.smapLook z d a b) → v.seqDesc [.read] A = .ok q →
        (q.length ≤ B → absent (.smapLook z d a b)) ∧
        (∀ ps p, B < q.length → v.seqPages q = .ok ps → ps[B / q.cap]? = some p →
          gives (.smapLook z d a b) met
            ((if pageDemoted p.bits then pageBody p.bits else p.va + 64) + B % q.cap * 64 * pageSlot p.bits))) ∧
      (∀ q ps, LeadIssues s c (.smapAppend z d a b) → v.seqDesc [.read, .write] A = .ok q → v.seqLinked q = .ok ps →
        (q.length ≠ ps.length * q.cap → absent (.smapAppend z d a b)) ∧
        (∀ t page, q.length = ps.length * q.cap → ps.getLast? = some t → v.seqPage B q.length = .ok page → v.mayWrite [page] = .ok () →
          distinct q [t, page] →
          (1 < pageRefs t.bits → 8 ≤ q.nsplice → absent (.smapAppend z d a b)) ∧
          (1 < pageRefs t.bits ∧ q.nsplice < 8 ∨ pageRefs t.bits ≤ 1 ∧ v.mayWrite [t] = .ok () →
            ∃ u : State, gives (.smapAppend z d a b) (u.refreshMap me col A) 0 ∧
              u.rdNat page.pa 64 = A * 2 ^ 64 + 2 ^ 128 + q.capCode * 2 ^ 168 + q.slot * 2 ^ 176 + q.length * 2 ^ 192 ∧
              u.rdNat (q.pa + 8) 8 = B ∧
              (if 1 < pageRefs t.bits then u.rdNat (q.pa + 41) 1 = q.nsplice + 1 ∧ u.rdNat (q.pa + 64 + 16 * q.nsplice) 8 = q.length ∧
                  u.rdNat (q.pa + 72 + 16 * q.nsplice) 8 = B
                else u.rdNat t.pa 8 = B) ∧
              (∀ x, ¬covers 256 q.pa x → ¬covers 64 page.pa x → 1 < pageRefs t.bits ∨ ¬covers 8 t.pa x → u.rd x = met.rd x) ∧
              onlyMem met u))) ∧
      (∀ q t ps, LeadIssues s c (.smapShare z d a b) → v.seqDesc [.read, .write] A = .ok q → v.seqDesc [.read, .write] B = .ok t →
        (q.length < t.length ∨ 8 ≤ q.nsplice → absent (.smapShare z d a b)) ∧
        (let f := t.length / q.cap * q.cap
          let keep := ps.filter fun p => decide (p.first < f);
          t.length ≤ q.length → q.nsplice < 8 → v.seqPages q = .ok ps → (∀ p ∈ keep, pageRefs p.bits + 1 ≤ 2 ^ 32 - 2) →
          v.mayWrite keep = .ok () → distinct t keep →
          ∃ u : State, gives (.smapShare z d a b) ((u.refreshMap me col A).refreshMap me col B)
              (if f < t.length then ((ps[f / q.cap]?).map SeqPage.va).getD 0 else 0) ∧
            (∀ p ∈ keep, u.rdNat (p.pa + 16) 4 = pageRefs p.bits + 1) ∧ u.rdNat (t.pa + 16) 8 = f ∧
            u.rdNat t.pa 8 = ((keep.head?).map SeqPage.va).getD 0 % 2 ^ 64 ∧
            u.rdNat (t.pa + 8) 8 = ((keep.getLast?).map SeqPage.va).getD 0 % 2 ^ 64 ∧
            (∀ x, ¬covers 256 t.pa x → (∀ p ∈ keep, ¬covers 4 (p.pa + 16) x) → u.rd x = met.rd x) ∧
            onlyMem met u)) ∧
      (∀ q ps, LeadIssues s c (.smapLen z d a b) → v.seqDesc [.read, .write] A = .ok q → v.seqLinked q = .ok ps →
        (let fill := ps.filter fun p => decide (p.first < B) && decide (p.first + q.cap > q.length);
          (q.length < B → (ps.length * q.cap < B ∨ ∃ p ∈ fill, pageRefs p.bits ≠ 1) → absent (.smapLen z d a b)) ∧
          (q.length < B → B ≤ ps.length * q.cap → (∀ p ∈ fill, pageRefs p.bits = 1) → v.mayWrite fill = .ok () → distinct q fill →
            ∃ u : State, gives (.smapLen z d a b) (u.refreshMap me col A) 0 ∧ u.rdNat (q.pa + 16) 8 = B ∧
              (∀ p ∈ fill, u.rdNat (p.pa + 20) 1 = min q.cap (B - p.first)) ∧
              (∀ x, ¬covers 8 (q.pa + 16) x → (∀ p ∈ fill, ¬covers 1 (p.pa + 20) x) → u.rd x = met.rd x) ∧
              onlyMem met u)) ∧
        (let freed (gone : List SeqPage) : List Nat := (gone.filter fun g => pageRefs g.bits == 1).map SeqPage.va
          let cut (gone : List SeqPage) (kept : Option SeqPage) (len tail r : Nat) : Prop :=
            met.mayWrite gone = .ok () →
              (met.freePages me q.freeq (freed gone) = .error (.stop (.fault (Raised.at .queueOverflow q.freeq))) →
                leadRaises s c 2 (Raised.at .queueOverflow q.freeq) (exec (.smapLen z d a b) s)) ∧
              (∀ w, met.freePages me q.freeq (freed gone) = .ok w → distinct q (kept.toList ++ gone) →
                ∃ u : State, gives (.smapLen z d a b) (u.refreshMap me col A) r ∧
                  (∀ g ∈ gone, u.rdNat (g.pa + 16) 4 = pageRefs g.bits - 1) ∧
                  u.rdNat (q.pa + 16) 8 = len ∧ u.rdNat (q.pa + 8) 8 = tail % 2 ^ 64 ∧ (len = 0 → u.rdNat q.pa 8 = 0) ∧
                  u.rdNat (q.pa + 41) 1 = (q.splice.filter fun e => decide (e.1 < len)).length ∧
                  (∀ p ∈ kept, u.rdNat (p.pa + 20) 1 = B - p.first ∧ (pageRefs p.bits = 1 → u.rdNat p.pa 8 = 0)) ∧
                  (∀ x, ¬covers 256 q.pa x → (∀ g ∈ kept.toList ++ gone, ¬covers 64 g.pa x) → u.rd x = w.rd x) ∧
                  onlyMem w u)
          (B = 0 → B ≤ q.length → cut ps none 0 0 0) ∧
          (∀ p, 0 < B → B ≤ q.length → ps[(B - 1) / q.cap]? = some p → p.first < B → B ≤ p.first + q.cap →
            (pageRefs p.bits = 1 ∨ B = p.first + q.cap → v.mayWrite [p] = .ok () →
              cut (ps.filter fun x => decide (p.first < x.first)) (some p) B p.va 0) ∧
            (pageRefs p.bits ≠ 1 → B < p.first + q.cap →
              cut (ps.filter fun x => decide (p.first ≤ x.first)) none p.first
                (if p.first = 0 then 0 else ((ps[p.first / q.cap - 1]?).map SeqPage.va).getD 0) p.va)))) ∧
      (∀ q, LeadIssues s c (.smapEvict z d a b) → ((s.hear .l).on .l me).seqDesc [.read, .write] A = .ok q →
        (s.resident A = none → gives (.smapEvict z d a b) (s.hear .l) 0) ∧
        (∀ vas, s.resident A = some vas → gives (.smapEvict z d a b) (((s.hear .l).unmapSeq A).spillOut me A vas) 0 ∧
          (((s.hear .l).unmapSeq A).spillOut me A vas).resident A = none)))

/-- R157, R166, R167 and R169: MARK sets or clears a region after its checks. SNAP, ROLLBK and COMMIT take effect once every lead context of
the gang that has not exited has issued the same one, and then all of them go on; where they issue different ones, each raises
barrier_mismatch. SNAP waits for the pages of the regions and for room for its log, ROLLBK restores every logged line and raises
illegal_instruction where no checkpoint is open; SNAP shows what its contexts know of on every path of the gang. EXIT waits for pending
tokens, ends the gang by a faulted one, and else ends its context with its outstanding results written. That an EXIT which waits is a token
stall is the model's choice (log 27), and how memory for the log is counted (log 36). -/
def Obligations.CheckpointsAndExit : Prop :=
  (∀ (s : State) (c : LCtx) (z : Bool) (d a b : BitVec 6), LeadIssues s c (.mark z d a b) → c.gang.pair = none →
    let base := s.xNat c a
    let size := s.xNat c b
    let regions := if size = 0 then tabDel c.gang.regions d.toNat else tabSet c.gang.regions d.toNat (base, size)
    let total := (regions.map fun e => e.2.2).sum
    let islocal := s.localRange (s.pages.length + 1) base size
    (c.gang.ckpt ≠ none ∨ 2 ^ 30 < total → leadRaises s c 1 (illegal 64) (exec (.mark z d a b) s)) ∧
    (c.gang.ckpt = none → total ≤ 2 ^ 30 →
      (size ≠ 0 → islocal = false → leadRaises s c 1 (Raised.at .elementAccess base) (exec (.mark z d a b) s)) ∧
      (size ≠ 0 → islocal = true → base % 128 ≠ 0 ∨ size % 128 ≠ 0 → leadRaises s c 1 (Raised.at .misaligned base) (exec (.mark z d a b) s)) ∧
      (size = 0 ∨ islocal = true ∧ base % 128 = 0 ∧ size % 128 = 0 →
        leadCompletes c z 1 { s := s.setGang c.key.gang { c.gang with regions } } (exec (.mark z d a b) s)))) ∧
  (∀ (s : State) (c : LCtx) (z : Bool), c.gang.pair = none → distinctKeys s.leads →
    let g := c.key.gang
    let live (k : CrewKey) (l : Lead) : Prop := k.gang = g ∧ s.lead k = some l ∧ l.exited = false
    ∀ p ∈ ([(.snap z, .snap), (.rollbk z, .rollbk), (.commit z, .commit)] : List (Instr × Collective)), LeadIssues s c p.1 →
      let waiting : State := movedLead s c p.1 false { c.l with wait := .collective p.2 z }
      let met : Prop := ∀ k l, live k l → k ≠ c.key → ∃ y, l.wait = .collective p.2 y
      let done (t : State) : Prop := exec p.1 s = .next t ∧ t.lead c.key = some (c.l.passWord z) ∧
        (∀ k l y, live k l → k ≠ c.key → l.wait = .collective p.2 y → t.lead k = some (l.passWord y)) ∧
        ∀ k, (∀ l, ¬live k l) → t.lead k = s.lead k
      let fault (f : Raised) : Prop := ∃ t, exec p.1 s = .next t ∧ t.counters.snaps = s.counters.snaps ∧
        t.counters.rollbacks = s.counters.rollbacks ∧
        (∀ co h, s.codeOf c.gang = some co → co.lead.handler = some h → (∀ k l, live k l → l.handling = none) →
          ∀ k l, live k l → ∃ m, t.lead k = some m ∧ m.pc = BitVec.ofNat 64 h ∧
            m.handling = some { pc := l.pc, nextPc := pastWord l.pc 1, rep := l.rep, reps := l.reps }) ∧
        (∀ n, ((s.codeOf c.gang).bind fun co => co.lead.handler) = none → s.launch c.gang.seq = some n → n.done = none → n.failed = none →
          ∃ m, t.launch c.gang.seq = some m ∧ m.failed = some { kind := 3, fault := f.code.num })
      let fenced (t : State) : Prop := t.late.length = s.late.length ∧
        ∀ (i : Nat) (r : Late), s.late[i]? = some r → ∃ q : Late, t.late[i]? = some q ∧ q.former = r.former ∧ q.path = r.path ∧
          (∀ x v, s.shows x v r = true → t.shows x v q = true) ∧
          ((∃ k l, live k l ∧ r.knows (.lead k) = true) → s.share 4 r.by_ r.cluster (.lead c.key) = true →
            ∀ x v, x ≠ r.path → s.share 4 (.lead c.key) (s.clusterOf c.key) v = true → t.shows x v q = true);
      ((∃ k l, live k l ∧ k ≠ c.key ∧ ∀ n y, l.wait ≠ .collective n y) → exec p.1 s = .next waiting) ∧
      ((∀ k l, live k l → k ≠ c.key → ∃ n y, l.wait = .collective n y) → ¬met → fault (Raised.of .barrierMismatch 0)) ∧
      (met → p.2 = .snap →
        let room : Prop := (∀ r ∈ c.gang.regions, s.residentRange r.2.1 r.2.2 = true) ∧ (c.gang.regions.map fun e => e.2.2).sum ≤ s.logRoom g
        (room → ∃ t, done t ∧ t.gangs = tabSet s.gangs g { c.gang with ckpt := some [] } ∧ fenced t ∧
          t.counters = { s.counters with snaps := s.counters.snaps + 1 } ∧
          t = { s with gangs := t.gangs, counters := t.counters, leads := t.leads, free := t.free, late := t.late }) ∧
        (¬room → exec p.1 s = .next waiting)) ∧
      (met → p.2 = .commit → ∃ t, done t ∧ t.gangs = tabSet s.gangs g { c.gang with ckpt := none } ∧
        t = { s with gangs := t.gangs, leads := t.leads, free := t.free }) ∧
      (met → p.2 = .rollbk →
        (c.gang.ckpt = none → fault (illegal 64)) ∧
        (∀ log, c.gang.ckpt = some log → Memory.wf s.mem = true →
          ∃ t, done t ∧ (∃ x, t.gang g = some x ∧ x.ckpt = some []) ∧ WroteAll s log t ∧
            t.counters = { s.counters with rollbacks := s.counters.rollbacks + 1 } ∧
            t = { s with mem := t.mem, poison := t.poison, gangs := t.gangs, counters := t.counters, leads := t.leads, free := t.free,
                         waiters := t.waiters, late := t.late }))) ∧
  (∀ (s : State) (c : LCtx) (z : Bool), LeadIssues s c (.leadExit z) → c.gang.pair = none →
    (∀ r, c.l.pendingIn (tabKeys c.l.tokens) = some r → waitsFor s c .ops (exec (.leadExit z) s)) ∧
    (∀ r op f l, c.l.pendingIn (tabKeys c.l.tokens) = none → (r, op, f) ∈ c.l.faultedIn (tabKeys c.l.tokens) →
      (∀ q ∈ c.l.faultedIn (tabKeys c.l.tokens), q ≠ (r, op, f) → op < q.2.1) →
      s.launch c.gang.seq = some l → l.done = none → l.failed = none →
      ∃ t m, exec (.leadExit z) s = .next t ∧ t.launch c.gang.seq = some m ∧ m.failed = some { kind := 3, fault := f.code.num }) ∧
    (c.l.tokens = [] → ∃ t, exec (.leadExit z) s = .next t ∧ ∀ l, t.lead c.key = some l → l.exited = true ∧
      ∀ r : Fin 64, l.x[r] = (writtenX (c.l.outstanding.flatMap Pending.writes) r).getD c.l.x[r]))

/-! ### Steps that no context issues -/

/-- R55 to R57, R230, R243 and R263: a result that returns writes its registers, in the lanes that no later write has taken, and leaves
the list; results of the collector, of the transform pipe and the others return each by its own step, a TOUCH only once its pages have
been resident; the last one ends a park. R57: a read of a register sees what stands in it, or, while a result for it is outstanding, what
such a result gives or what the register has held since its context last waited on the result's category or parked (log 10). R18, R22,
R144, R177, R258, R263 and R344: a missed register line is filled, where the bank is full over its dead or its least recently used line,
which is written back where it is dirty and not dead; a word that waits for the collector, a queue or a barrier object tries again. -/
def Obligations.StallsEnd : Prop :=
  ((∀ (s : State) (k : WaveKey) (i : Fin 2) (n : Nat) (w : Wave) (p : Pending),
     s.wave k = some w → w.outstanding[n]? = some p → (∀ a ∈ p.needs, s.touchDone a = true) → w.exited ≠ BitVec.allOnes 32 →
       ∀ e ∈ ([(.resultReturn (.split k i) n, p.entries = 0 ∧ p.cat ≠ .pipe), (.memoryReply k n, p.entries ≠ 0),
           (.xfReply k, p.cat = .pipe ∧ ∀ m < n, ∀ q, w.outstanding[m]? = some q → q.cat ≠ .pipe)] : List (Instr × Prop)), e.2 →
         ∃ v, exec e.1 s = .next (s.setWave k v) ∧
           (∀ (r : Fin 128) (l : Lane), v.v[r][l] = (writtenV p.writes r l).getD w.v[r][l]) ∧
           (∀ (r : Fin 48) (l : Lane), v.k[r][l] = (writtenK p.writes r l).getD w.k[r][l]) ∧
           (∀ (r : Fin 128) (l : Lane), v.unset[r].getLsbD l.val = (w.unset[r].getLsbD l.val && (writtenV p.writes r l).isNone)) ∧
           v.outstanding = underAll p.writes (w.outstanding.take n) ++ w.outstanding.drop (n + 1) ∧
           v.parked = (w.parked && !v.outstanding.isEmpty) ∧
           v.bad = w.bad.filter (fun b => !p.writes.any fun x => x.mends b) ∧
           v = { w with v := v.v, k := v.k, unset := v.unset, dirty := v.dirty, outstanding := v.outstanding, parked := v.parked,
                        drain := v.drain, past := v.past, bad := v.bad, slot0 := w.slot0.map wakeRegs, slot1 := w.slot1.map wakeRegs }) ∧
   (∀ (s : State) (k : CrewKey) (n : Nat) (l : Lead) (p : Pending), s.lead k = some l → l.outstanding[n]? = some p →
     ∃ m, exec (.resultReturn (.lead k) n) s = .next (s.setLead k m) ∧
       (∀ r : Fin 64, m.x[r] = (writtenX p.writes r).getD l.x[r]) ∧
       m.outstanding = underAll p.writes (l.outstanding.take n) ++ l.outstanding.drop (n + 1) ∧
       m.parked = (l.parked && !m.outstanding.isEmpty) ∧ m = { l with x := m.x, outstanding := m.outstanding, parked := m.parked, past := m.past })) ∧
  ((∀ (s : State) (w : Wave) (r : Fin 128) (l : Lane),
     let own := if w.unset[r].getLsbD l.val then none else some w.v[r][l]
     let gives (p : Pending) (v : Word) : Prop :=
       ∃ (lanes : LaneSet) (vals : Vector Word 32), RegWrite.v r.val lanes vals ∈ p.gives ∧ lanes.getLsbD l.val = true ∧ vals[l] = v
     ((∀ p ∈ w.outstanding, ∀ v, ¬gives p v) → s.vLane w r.val l = own) ∧
       (s.vLane w r.val l = own ∨ (∃ p ∈ w.outstanding, ∃ v, gives p v ∧ s.vLane w r.val l = some v) ∨
         ∃ q ∈ w.past, ∃ (lanes : LaneSet) (vals : Vector (Option Word) 32), q.val = .v r.val lanes vals ∧ lanes.getLsbD l.val = true ∧
           s.vLane w r.val l = vals[l] ∧ ∀ p ∈ w.outstanding, (∃ v, gives p v) → p.cat ∉ q.waited)) ∧
   (∀ (s : State) (w : Wave) (r : Fin 48),
     let gives (p : Pending) (v : Vector Trit 32) : Prop := ∃ (lanes : LaneSet) (vals : Vector Trit 32), RegWrite.k r.val lanes vals ∈ p.gives ∧
       ∀ l : Lane, v[l] = if lanes.getLsbD l.val then vals[l] else w.k[r][l]
     ((∀ p ∈ w.outstanding, ∀ v, ¬gives p v) → s.kReg w r.val = w.k[r]) ∧
       (s.kReg w r.val = w.k[r] ∨ (∃ p ∈ w.outstanding, gives p (s.kReg w r.val)) ∨
         ∃ q ∈ w.past, q.val = .k r.val (s.kReg w r.val) ∧ ∀ p ∈ w.outstanding, (∃ v, gives p v) → p.cat ∉ q.waited)) ∧
   (∀ (s : State) (l : Lead) (r : Fin 64), s.xReg l 0 = 0 ∧ (r.val ≠ 0 →
     ((∀ p ∈ l.outstanding, ∀ v, RegWrite.x r.val v ∉ p.gives) → s.xReg l r.val = l.x[r]) ∧
       (s.xReg l r.val = l.x[r] ∨ (∃ p ∈ l.outstanding, RegWrite.x r.val (s.xReg l r.val) ∈ p.gives) ∨
         ∃ q ∈ l.past, q.val = .x r.val (s.xReg l r.val) ∧ ∀ p ∈ l.outstanding, (∃ v, RegWrite.x r.val v ∈ p.gives) → p.cat ∉ q.waited)))) ∧
  ((∀ (s : State) (k : WaveKey) (r : Nat) (w : Wave), s.wave k = some w → r < 128 → w.cached.getLsbD r = false → s.gangLive k.gang = true →
     ((s.bankOf k r).length < 256 → exec (.regcacheFill k r none) s =
       .next ((s.setWave k (Wave.wakeRegs
         { w with cached := w.cached ||| BitVec.ofNat 128 (2 ^ r), bad := s.framePoison k r ++ w.bad })).useLines k [r])) ∧
     (∀ (j : WaveKey) (q : Fin 128) (u : Wave) (cr : Crew), 256 ≤ (s.bankOf k r).length → (j, q.val) ∈ s.bankOf k r →
       s.lineDead (j, q.val) = true ∨
         (∀ l ∈ s.bankOf k r, s.lineDead l = false ∧ s.recent.findIdx (· == l) ≤ s.recent.findIdx (· == (j, q.val))) →
       s.wave j = some u → s.crew (crewOf j) = some cr → Memory.wf s.mem = true →
       ∃ t, exec (.regcacheFill k r (some (j, q.val))) s = .next t ∧
         (∃ v, t.wave k = some v ∧ v.cached.getLsbD r = true) ∧ (∃ v, t.wave j = some v ∧ v.cached.getLsbD q.val = false) ∧
         (u.dirty.getLsbD q.val = true → u.dead.getLsbD q.val = false →
           (∀ i < 128, t.rd (frameAt cr j + 128 * q.val + i) = (lineBytes u.v[q]).getD i 0) ∧
           ∀ x, ¬covers 128 (frameAt cr j + 128 * q.val) x → t.rd x = s.rd x) ∧
         (u.dirty.getLsbD q.val = false ∨ u.dead.getLsbD q.val = true → t.mem = s.mem) ∧
         t = { s with mem := t.mem, gangs := t.gangs, poison := t.poison, waves := t.waves, waiters := t.waiters, late := t.late,
                      recent := t.recent })) ∧
   (∀ (s : State) (k : WaveKey) (i : Fin 2) (w : Wave) (p : Split) (cr : Crew), s.wave k = some w → w.slot i = some p → s.crew (crewOf k) = some cr →
     let again : Host.Outcome State Fault Refusal := .next (s.setWave k (w.setSlot i (some { p with wait := .none })))
     (p.wait = .collector → s.entriesOn cr.place.core < 4096 → exec (.collectorRoom (.split k i)) s = again) ∧
     (∀ (q : Nat) (h : q < 4), p.wait = .queue q → w.popped[q] < cr.dq[q].retired + cr.dq[q].entries.length ∨ s.leadExited (crewOf k) = true →
       exec (.queueStallRelease (.split k i)) s = again) ∧
     (p.wait = .post → (cr.rq.length < 64 ∧ cr.rqDue = []) ∨ s.leadExited (crewOf k) = true →
       exec (.queueStallRelease (.split k i)) s = again) ∧
     (p.wait = .bwait → exec (.bwaitResume (.split k i)) s = again)) ∧
   (∀ (s : State) (k : CrewKey) (l : Lead) (cr : Crew), s.lead k = some l → s.crew k = some cr →
     let again : Host.Outcome State Fault Refusal := .next (s.setLead k { l with wait := .none })
     (∀ (q : Nat) (h : q < 4), l.wait = .dqFull q → cr.dq[q].entries.length < 64 ∨ s.liveWaves k = [] →
       exec (.queueStallRelease (.lead k)) s = again) ∧
     (l.wait = .rqEmpty → cr.rq ≠ [] → exec (.queueStallRelease (.lead k)) s = again) ∧
     (l.wait = .bwait → exec (.bwaitResume (.lead k)) s = again)))

/-- R41, R145 and R256: a wait on an address ends once a WAKE or a write of a changed value has taken it off the lists or a value differs, at
an eviction or for want of room, and after 2^20 cycles of its cluster; it then reads each value again, as its path shows it, and goes past
its word. R138, R243, R290 and R398: a page that becomes resident lets whatever waits for a page look again, and no TOUCH waits for it any
more; a page goes away, or loses its mapping, only where no open checkpoint pins it and no pair launch that runs has accessed it. R395: a
pair launch keeps the pages that its gangs access. -/
def Obligations.PagesComeAndGo : Prop :=
  ((∀ (s : State) (k : WaveKey) (i : Fin 2) (cause : WaitCause) (w : Wave) (p : Split) (a : AddrWait) (g : Gang),
     let n := if a.wide then 8 else 4
     s.wave k = some w → w.slot i = some p → p.wait = .waita a → s.gang k.gang = some g → g.pair = none →
     (∀ l ∈ a.lanes, s.poisoned l.2 n = false) → (∀ l pa, (l, pa) ∈ a.lanes → ∀ q, (l, q) ∈ a.lanes → q = pa) →
       let view := (s.hear .w).on .w (.wave k p.lanes)
       let due : Prop := cause ≠ .changed ∨ (∀ x ∈ s.waiters, x.who ≠ .split k i) ∨
         ∃ l ∈ a.lanes, s.rdNat l.2 n ≠ (s.vReg w a.wide a.d (2 ^ (8 * n) - 1))[l.1]
       let tooLong : Prop := 2 ^ 20 * 1000 ≤ s.ticksOf (s.clusterOf (crewOf k)) - a.since
       let ends (o : Host.Outcome State Fault Refusal) : Prop :=
         ∃ (u : State) (v : Wave) (vals : Vector Nat 32), Heard s u ∧
           o = .next { u.setWave k v with waiters := s.waiters.filter fun x => x.who != .split k i } ∧
           (∀ l pa, (l, pa) ∈ a.lanes → vals[l] = view.rdNat pa n) ∧ (∀ l : Lane, (∀ pa, (l, pa) ∉ a.lanes) → vals[l] = 2 ^ (8 * n) - 1) ∧
           (∀ (r : Fin 128) (l : Lane), v.v[r][l] = (writtenV (vWritesN (n / 4) a.d p.lanes vals) r l).getD w.v[r][l]) ∧
           v.slot i = some (p.step a.words).1 ∧ v.slot (other i) = w.slot (other i) ∧ v.k = w.k ∧ v.status = w.status
       (due → ends (exec (.waitEnd (.split k i) cause) s)) ∧ (¬due → exec (.waitEnd (.split k i) cause) s = .next s) ∧
       (tooLong → ends (exec (.waitTimeout (.split k i)) s)) ∧ (¬tooLong → exec (.waitTimeout (.split k i)) s = .next s) ∧
       (Memory.wf s.mem = true → ∀ x, ¬s.lateAt .w x → view.rd x = s.rd x)) ∧
   (∀ (s : State) (k : CrewKey) (cause : WaitCause) (l : Lead) (pa d since old scope : Nat) (wide z : Bool) (g : Gang),
     let n := if wide then 8 else 4
     s.lead k = some l → l.wait = .waita pa wide d since old scope z false → s.gang k.gang = some g → g.pair = none →
     s.poisoned pa n = false →
       let view := (s.hear .l).on .l (.lead k)
       let due : Prop := (cause = .changed ∧ ((∀ x ∈ s.waiters, x.who ≠ .lead k) ∨ s.rdNat pa n ≠ old)) ∨ (cause = .evicted ∧ g.state = .saving)
       let tooLong : Prop := 2 ^ 20 * 1000 ≤ s.ticksOf (s.clusterOf k) - since
       let ends (o : Host.Outcome State Fault Refusal) : Prop :=
         ∃ (u : State) (m : Lead), Heard s u ∧ o = .next { u.setLead k m with waiters := s.waiters.filter fun x => x.who != .lead k } ∧
           (∀ r : Fin 64, m.x[r] = (writtenX [.x d (BitVec.ofNat 64 (view.rdNat pa n))] r).getD l.x[r]) ∧
           m.pc = (l.step 1).1.pc ∧ m.wait = .none ∧ m.j = l.j ∧ m.status = l.status ∧ m.tokens = l.tokens
       (due → ends (exec (.waitEnd (.lead k) cause) s)) ∧ (¬due → exec (.waitEnd (.lead k) cause) s = .next s) ∧
       (tooLong → ends (exec (.waitTimeout (.lead k)) s)) ∧ (¬tooLong → exec (.waitTimeout (.lead k)) s = .next s) ∧
       (Memory.wf s.mem = true → ∀ x, ¬s.lateAt .l x → view.rd x = s.rd x))) ∧
  (∀ (s : State) (va : Nat) (p : Page), pageAt s.pages va = some p →
     ((∀ e ∈ s.leads, e.2.atCollective = none) → (∀ g ∈ s.gangKeys, s.allExited g = false) →
       ∃ t, exec (.pageResident va) s = .next t ∧ pageAt t.pages va = some { p with resident := true } ∧
         (∀ k w, s.wave k = some w → ∃ v : Wave, t.wave k = some { w with
           outstanding := v.outstanding, slot0 := w.slot0.map wakePage, slot1 := w.slot1.map wakePage } ∧
           v.outstanding.length = w.outstanding.length ∧
           ∀ (i : Nat) (o : Pending), w.outstanding[i]? = some o → ∃ needs : List Nat, v.outstanding[i]? = some { o with needs } ∧
             ∀ a, a ∈ needs ↔ a ∈ o.needs ∧ ¬covers p.size p.base a) ∧
         (∀ k, s.wave k = none → t.wave k = none) ∧
         (∀ k, t.lead k = (s.lead k).map wakePageLead) ∧ (∀ a, a ∈ t.touched ↔ a ∈ s.touched ∧ ¬covers p.size p.base a) ∧
         t = { s with pages := t.pages, touched := t.touched, waves := t.waves, leads := t.leads }) ∧
     (let held : Prop := (∃ e ∈ s.gangs, e.2.ckpt ≠ none ∧ ∃ r ∈ e.2.regions, r.2.1 < p.base + p.size ∧ p.base < r.2.1 + r.2.2) ∨
          ∃ e ∈ s.launches, e.2.done = none ∧ p.base ∈ e.2.pages;
       (held → ∀ unmap, exec (.pageDemotion va unmap) s = .next s) ∧
       (¬held →
         (∃ t, exec (.pageDemotion va false) s = .next t ∧ pageAt t.pages va = some { p with resident := false } ∧ t = { s with pages := t.pages }) ∧
         (∃ t, exec (.pageDemotion va true) s = .next t ∧ t.pages = s.pages.filter (fun q => q != p) ∧
           t = { s with pages := t.pages, waves := t.waves, leads := t.leads })))) ∧
  (∀ (s : State) (va : Nat) (unmap : Bool), pageAt s.pages va = none →
     exec (.pageResident va) s = .next s ∧ exec (.pageDemotion va unmap) s = .next s) ∧
  (∀ (s : State) (g : Gang) (l : Launch) (vas : List Nat) (va : Nat) (p : Page), g.pair ≠ none → s.launch g.seq = some l → va ∈ vas →
     pageAt s.pages va = some p → ∃ m, (s.notePages g vas).launch g.seq = some { l with pages := m } ∧ p.base ∈ m ∧ ∀ b ∈ l.pages, b ∈ m)

/-- R250, R288 and R289: a fill gives a sub-block of a bound tile the bytes of memory, as path M shows it; an eviction takes a sub-block
back, writing the dirty ones to memory first. R23, R26, R279, R295 to R307, R313, R317 and R320 to R322: operations on one unit, and those
that share a tile, run in the order of issue. A K step of MMA or MMC adds one group to each element of its accumulator, one of MMW to its
projections; an operation that completes has its effect and writes its token; one that fails marks its token faulted. What an operation
reads is as path M shows it (R16, log 35). -/
def Obligations.UnitsWork : Prop :=
  (∀ (s : State) (g h sb base : Nat) (gg : Gang) (t : Tile), s.gang g = some gg → gg.tile? h = some t → t.bound = some base →
     gg.pair = none → gg.state = .running → sb < t.subCount →
       (let view := (s.hear .m).on .m (controlOf g)
        ∀ u, (t.sub sb).filled = false → view.fillSub t base sb = .ok u → view.poisonedVirt (base + sb * t.area) (u.used sb) = false →
         exec (.tileFill g h sb) s =
           .next (((s.hear .m).setGang g { gg with handles := tabSet gg.handles h (.tile u) }).wakeFills g h sb) ∧
         (u.sub sb).filled = true ∧ (u.sub sb).dirty = false ∧
         (blockOf t.fmt = none → Memory.wf t.data = true → ∀ i < t.area, ∀ pa, s.translate .read (base + sb * t.area + i) = .ok pa →
           u.rd (sb * t.area + i) = view.rd pa) ∧
         (Memory.wf s.mem = true → ∀ x, ¬s.lateAt .m x → view.rd x = s.rd x)) ∧
       ((t.sub sb).filled = true → (t.sub sb).dirty = false →
         exec (.tileEvict g h sb) s = .next (s.setGang g { gg with
           handles := tabSet gg.handles h (.tile (t.setSub sb { t.sub sb with filled := false, zero := none, absent := none })) })) ∧
       (∀ ws, (t.sub sb).filled = true → (t.sub sb).dirty = true → s.dryWrites t base sb = .ok ws → gg.ckpt = none →
         ∃ u, exec (.tileEvict g h sb) s = .next u ∧ (∃ e v, u.gang g = some e ∧ e.tile? h = some v ∧ (v.sub sb).filled = false) ∧
           (Memory.wf s.mem = true → WroteAll s ws u) ∧
           u = { s with mem := u.mem, gangs := u.gangs, poison := u.poison, waiters := u.waiters, late := u.late, free := u.free }) ∧
       (∀ (n crew : Nat) (ps : Nat → List (Nat × Nat)), Memory.wf s.mem = true → t.dirtySubs ≠ [] →
         (∀ i ∈ t.dirtySubs, s.opPieces .write (base + i * t.area) (t.used i) = .ok (ps i)) →
         ∃ u, s.dryFor g n crew h t = .ok (u, true) ∧
           WroteAll s (t.dirtySubs.flatMap fun i => cutTo (ps i) (memReads t.data (i * t.area) (t.used i))) u ∧
           (∃ e v, u.gang g = some e ∧ e.tile? h = some v ∧ v.dirtySubs = [] ∧ v.data = t.data) ∧
           u = { s with mem := u.mem, gangs := u.gangs, poison := u.poison, waiters := u.waiters, late := u.late, free := u.free })) ∧
  ((∀ (s : State) (n : Nat) (o : Op) (l : Lead) (v : DWord) (f : Raised), tabGet s.ops n = some o → s.lead o.crew = some l →
     tabGet l.tokens o.token = some (.pending n) → o.token < 64 →
       (∃ m, (s.writeToken n v).lead o.crew = some m ∧ tabGet m.tokens o.token = none ∧ (o.token ≠ 0 → m.x.toList[o.token]? = some v) ∧
         (∀ r : Fin 64, r.val ≠ o.token → m.x[r] = l.x[r])) ∧ tabGet (s.writeToken n v).ops n = none ∧
       (∃ m, (s.faultToken n f).lead o.crew = some m ∧
         tabGet m.tokens o.token = some (.faulted n { f with issuePc := o.issuePc }) ∧ m.x = l.x) ∧ tabGet (s.faultToken n f).ops n = none) ∧
   (∀ (s : State) (n : Nat) (o : Op) (gg : Gang) (cr : Crew), tabGet s.ops n = some o → s.gang o.crew.gang = some gg → s.crew o.crew = some cr →
     let stays (i : Instr) : Prop := exec i s = .next s
     let g := o.crew.gang
     let me : Actor := .op n o.crew
     let b := s.beginsOp n o
     let steps (u : Nat) (w : UnitWord) (k : Nat) (t : State) (fa fb : Nat) (r : State → List (Nat × AccElem) → List (Nat × Nat) → State) : Prop :=
       ∀ temp counts fmts, o.kind = .unit u w k temp counts fmts →
         (if k = 0 then stepChecks gg cr u w = .ok [fa, fb] else fmts = [fa, fb]) → k < w.steps [fa, fb] →
         b.stepFills me g w k (if k = 0 then w.steps [fa, fb] else 1) = .ok t → (t.on .m me).stepSound g cr u w k = .ok () →
         exec (.matrixKStep n) s = .next (r t temp counts).spend
     let ends (r : State) (v : DWord) : Prop := exec (.matrixOpComplete n) s = .next (r.writeToken n v)
     let fails (c : FaultCode) : Prop := exec (.matrixOpComplete n) s = .next (s.faultToken n (Raised.of c 0))
     let putAcc (t : State) (u acc : Nat) (x : Acc) : State := t.setCrew o.crew { cr with accs := tabSet cr.accs (u, acc) x }
     (s.opReady n o = false → stays (.matrixKStep n) ∧ stays (.matrixOpComplete n)) ∧
     (gg.state = .running → s.opReady n o = true → gg.pair = none →
       Heard s b ∧
       (∀ u acc count strict x y k t fa fb m, sumMode fa fb (cr.accAt u acc).i32 = some m →
         let w : UnitWord := .mma acc count strict x y
         let v := t.on .m me
         steps u w k t fa fb fun t temp counts => (putAcc t u acc { cr.accAt u acc with
             elems := matrixStep strict m (v.rowsOf g (Desc.of x) fa k) (v.colsOf g (Desc.of y) fb k) (cr.accAt u acc).elems }).setOp n
           { o with kind := .unit u w (k + 1) temp counts [fa, fb] }) ∧
       (∀ u acc src fmt strict y k t fb m, sumMode fmt fb (cr.accAt u acc).i32 = some m →
         let w : UnitWord := .mmc acc src fmt strict y
         let rows := (List.range 64).map fun i => (cr.accAt u src).down fmt i k
         steps u w k t fmt fb fun t temp counts => (putAcc t u acc { cr.accAt u acc with
             elems := matrixStep strict m rows ((t.on .m me).colsOf g (Desc.of y) fb k) (cr.accAt u acc).elems }).setOp n
           { o with kind := .unit u w (k + 1) temp counts [fmt, fb] }) ∧
       (∀ u acc h strict x k t fa ka sl bs gt, t.gang g = some gt → tabGet gt.handles h = some (.accord sl bs) → 64 ≤ bs.length →
         let w : UnitWord := .mmw acc h strict x
         let hd := ofBytes (bs.take 64)
         let xs := (t.on .m me).rowsOf g (Desc.of x) fa k
         let cols := (basis (hdrSeed hd) (hdrKa hd) (hdrM hd)).map fun c => (c.drop (32 * k)).take 32
         steps u w k t fa ka fun t temp counts => t.setOp n
           { o with kind := .unit u w (k + 1) (mmwStep strict (if fa = 14 then .win else .int) xs cols temp) (mmwCounts xs counts) [fa, ka] }) ∧
       (∀ u w temp counts fmts f, o.kind = .unit u w 0 temp counts fmts → w.stepped = true → stepChecks gg cr u w = .error (.fail f) →
         exec (.matrixKStep n) s = .next (s.faultToken n f)) ∧
       (∀ u acc count strict x y, tabGet gg.handles (Desc.of x).handle = none →
         stepChecks gg cr u (.mma acc count strict x y) = .error (.fail (Raised.of .tileHandle 0))) ∧
       (o.units = 0 →
         (∀ u w k temp counts fmts, o.kind = .unit u w k temp counts fmts → w.stepped = true → 0 < k → w.steps fmts ≤ k →
           (∀ acc h strict x, w ≠ .mmw acc h strict x) → ends b 0) ∧
         (∀ u acc h strict x k temp counts fmts sl bs, o.kind = .unit u (.mmw acc h strict x) k temp counts fmts → 0 < k →
           fmts.getD 1 0 / 32 ≤ k → (cr.accAt u acc).bad = [] → tabGet gg.handles h = some (.accord sl bs) → 64 ≤ bs.length →
           ends (putAcc b u acc { cr.accAt u acc with
             elems := mmwFinish (ofBytes (bs.take 64)) (fun i => bs.getD i 0) temp counts (cr.accAt u acc).elems }).spend 0) ∧
         (∀ u acc i32 k temp counts fmts, o.kind = .unit u (.mzero acc i32) k temp counts fmts → ends (putAcc b u acc (Acc.empty i32)) 0) ∧
         (∀ u acc i32 x k temp counts fmts tl t, o.kind = .unit u (.mload acc i32 x) k temp counts fmts →
           let d := Desc.of x
           let all := List.range 64
           let v := t.on .m me
           gg.opTile d.handle false = .ok tl → d.bad tl false = false → moveFmt tl.fmt = true →
           b.fillHandle me g d.handle (d.subs all all) = .ok t → v.operandSound g d all all = .ok () →
           ends (putAcc t u acc { i32, bad := [], elems := (List.range 4096).map fun e =>
             (e, loadElem i32 (v.operand g d tl.fmt 0 (e / 64) (e % 64))) }) 0) ∧
         (∀ u acc x y k temp counts fmts tl, o.kind = .unit u (.mdrain acc x y) k temp counts fmts →
           let d := Desc.of x
           let a := cr.accAt u acc
           let sums (t : State) : State := t.putTile .m me g d.handle (tl.drainRanges d) fun t => t.drain d fun i j => a.value (64 * i + j)
           gg.opTile d.handle true = .ok tl → d.badDrain = false → moveFmt tl.fmt = true → a.bad = [] →
           (y = none → ends (sums b) 0) ∧
           (∀ q tn, y = some q → gg.opTile (Desc.of q).handle true = .ok tn → (Desc.of q).badDrain = false → tn.fmt = 4 →
             let e := Desc.of q
             ends ((sums b).putTile .m me g e.handle (tn.drainRanges e) fun t => t.drain e fun i j => a.countValue (64 * i + j)) 0)) ∧
         (∀ u ka mc cnt x seed k temp counts fmts t, o.kind = .unit u (.seek ka mc cnt x seed) k temp counts fmts →
           let d := Desc.of x
           let ks := List.range (32 * 2 ^ ka)
           let v := t.on .m me
           gg.targetTile d = .ok () → b.fillHandle me g d.handle (d.subs ks (List.range 64)) = .ok t →
           v.operandSound g d ks (List.range 64) = .ok () →
           ends t (seekToken (32 * 2 ^ ka) (2 * 2 ^ mc) (cnt + 1) seed (v.target g d (32 * 2 ^ ka)))) ∧
         (∀ u x addr k temp counts fmts hb ps rs ws t, o.kind = .unit u (.proj x addr) k temp counts fmts → k ≠ 1 →
           let d := Desc.of x
           let at_ := addr.toNat
           let hd := ofBytes hb
           let ks := List.range (hdrKa hd)
           let v := t.on .m me
           at_ % 64 = 0 → (b.on .m me).opRead at_ 64 = .ok hb → b.opPieces .write at_ 64 = .ok ps → hdrBad hd = false →
           b.opPieces .read (at_ + 64) (coefBytes hd) = .ok rs → b.opPieces .write (at_ + 64) (coefBytes hd) = .ok ws →
           gg.targetTile d = .ok () → b.fillHandle me g d.handle (d.subs ks (List.range 64)) = .ok t →
           v.operandSound g d ks (List.range 64) = .ok () →
           let out := cutTo ws (projBytes hd (v.target g d (hdrKa hd)))
           ends (t.wrAllBy .m me out) 0 ∧ (Memory.wf t.mem = true → WroteAll t out (t.wrAllBy .m me out))) ∧
         (∀ h fmt slice packed rows cols, o.kind = .tile (.talloc h fmt slice packed rows cols) →
           let t := Tile.alloc rows.toNat cols.toNat fmt slice packed
           let sound : Prop := shapeOk rows.toNat = true ∧ shapeOk cols.toNat = true ∧ isTileFmt fmt = true ∧
             (packed = true → (blockOf fmt).isSome = true)
           (tabGet gg.handles h ≠ none → fails .tileHandle) ∧ (tabGet gg.handles h = none → ¬sound → fails .tileShape) ∧
           (tabGet gg.handles h = none → sound →
             (gg.hasRoom slice t.size = true → ends (b.putHandle me g h (some (.tile t))) 0) ∧
             (gg.hasRoom slice t.size = false → ends b (BitVec.allOnes 64)))) ∧
         (∀ h, o.kind = .tile (.tfree h) →
           (tabGet gg.handles h = none → fails .tileHandle) ∧
           (∀ sl bs, tabGet gg.handles h = some (.accord sl bs) → ends (b.putHandle me g h none) 0) ∧
           (∀ t u, tabGet gg.handles h = some (.tile t) → b.dryFor g n o.crew.crew h t = .ok (u, true) → ends (u.putHandle me g h none) 0)) ∧
         (∀ h, o.kind = .tile (.tdry h) →
           (tabGet gg.handles h = none → fails .tileHandle) ∧ (∀ sl bs, tabGet gg.handles h = some (.accord sl bs) → ends b 0) ∧
           (∀ t u, tabGet gg.handles h = some (.tile t) → b.dryFor g n o.crew.crew h t = .ok (u, true) → ends u 0)) ∧
         (∀ h addr t, o.kind = .tile (.tbind h addr) → tabGet gg.handles h = some (.tile t) →
           (addr.toNat % 64 ≠ 0 → exec (.matrixOpComplete n) s = .next (s.faultToken n (Raised.at .misaligned addr.toNat))) ∧
           (addr.toNat % 64 = 0 → addr ≠ 0 →
             (∀ a, b.mappedRw (t.size + 1) addr.toNat t.size = .error a →
               exec (.matrixOpComplete n) s = .next (s.faultToken n (Raised.at .elementAccess a))) ∧
             (∀ u, b.mappedRw (t.size + 1) addr.toNat t.size = .ok () → b.dryFor g n o.crew.crew h t = .ok (u, true) →
               ends (u.resetTile g h (fun t => t.bindTo addr.toNat) t.size) 0 ∧
               (t.bindTo addr.toNat).bound = some addr.toNat ∧ ∀ i < t.subCount, (t.bindTo addr.toNat).needsFill i = true)) ∧
           (∀ u, addr = 0 → b.dryFor g n o.crew.crew h t = .ok (u, true) →
             (t.bound = none → ends u 0) ∧ (t.bound ≠ none → ends ((u.modTile g h fun t => t.unbind u.free).spend) 0))) ∧
         (∀ h x t u tl, o.kind = .tile (.tstat h x) → tabGet gg.handles h = some (.tile t) →
           let rb := x.toNat % 2 ^ 16
           let cb := x.toNat / 2 ^ 16 % 2 ^ 16
           let i := rb * (t.cols / 32) + cb
           let inside : Prop := x.toNat / 2 ^ 32 = 0 ∧ 32 * rb < t.rows ∧ 32 * cb < t.cols
           (¬inside → fails .tileShape) ∧
           (inside → b.fillHandle me g h (fun _ => [i]) = .ok u → (u.gangOn .m me g gg).tile? h = some tl →
             tl.poisoned (i * tl.area) (tl.used i) = false →
             let count (k : ElemKind) : Nat := ((tl.subKinds i).filter (· == k)).length
             ends (u.modTile g h fun t => t.recompute i)
               (BitVec.ofNat 64 (count .nonzero + 2 ^ 16 * count .zero + 2 ^ 32 * count .absent)))) ∧
         (∀ h slice addr, o.kind = .tile (.abind h slice addr) →
           let at_ := addr.toNat
           let v := b.on .m me
           (at_ % 64 ≠ 0 → exec (.matrixOpComplete n) s = .next (s.faultToken n (Raised.at .misaligned at_))) ∧
           (∀ hb, at_ % 64 = 0 → v.opRead at_ 64 = .ok hb →
             let hd := ofBytes hb
             (hdrBad hd = true → fails .accordRecord) ∧
             (∀ cb, hdrBad hd = false → v.opRead (at_ + 64) (coefBytes hd) = .ok cb →
               let bs := hb ++ cb
               let sound : Prop := coefAbsent hd (fun i => bs.getD i 0) = false
               let room : Prop := gg.hasRoom slice (roundUp bs.length 1024) = true
               (¬sound → fails .accordRecord) ∧
               (∀ sl x, sound → tabGet gg.handles h = some (.accord sl x) → fails .accordWrite) ∧
               (∀ t, sound → tabGet gg.handles h = some (.tile t) → fails .tileHandle) ∧
               (sound → tabGet gg.handles h = none → room → ends (b.putHandle me g h (some (.accord slice bs))) 0) ∧
               (sound → tabGet gg.handles h = none → ¬room → ends b (BitVec.allOnes 64)))))))))

/-- R165, R338, R341 and R346: a chunk is delivered once, or fails alone, and a copy completes with its last chunk; a copy into packed
block data is delivered whole with its chunk 0, or every chunk of it fails; a partial-page copy writes its bytes on C and completes; CHASE pushes the next page's address, or at the end all ones, and keeps at most four entries pushed. -/
def Obligations.CopySteps : Prop :=
  ∀ (s : State) (n : Nat) (o : Op) (gg : Gang), tabGet s.ops n = some o → s.gang o.crew.gang = some gg → gg.state = .running → gg.pair = none →
    (∀ r done failed k, o.kind = .copy r done failed → o.units = 0 → k < Copy.chunks r → k ∉ done → tabGet failed k = none →
      Copy.oneUnit gg r = false →
      (∀ t, s.deliverChunk n o gg r done k = .ok t → exec (.chunkDeliver n k) s = .next (t.copyDone n)) ∧
      (∀ f, s.deliverChunk n o gg r done k = .error (.fail f) → done.length + failed.length + 1 < Copy.chunks r →
        exec (.chunkDeliver n k) s = .next (s.setOp n { o with kind := .copy r done (failed ++ [(k, f)]) }))) ∧
    (∀ r done failed k, o.kind = .copy r done failed → k ∈ done → exec (.chunkDeliver n k) s = .next s) ∧
    (∀ r, o.kind = .copy r (List.range (Copy.chunks r)) [] → o.units = 0 → s.copyDone n = s.writeToken n (BitVec.ofNat 64 (Copy.size r))) ∧
    (∀ r failed t, o.kind = .copy r [] failed → o.units = 0 → failed = [] → 0 < Copy.chunks r → Copy.oneUnit gg r = true →
      s.deliverPacked n o gg r = .ok t → exec (.chunkDeliver n 0) s = .next (t.copyDone n)) ∧
    (∀ r f t, o.kind = .copy r [] [] → 0 < Copy.chunks r → Copy.oneUnit gg r = true → s.deliverPacked n o gg r = .error (.fail f) →
      t = s.markChunk n 0 [] ((List.range (Copy.chunks r)).map fun k => (k, f)) → exec (.chunkDeliver n 0) s = .next (t.copyDone n)) ∧
    (∀ src dst scope k ws bs, o.kind = .pcopy src dst scope k → o.units = 0 →
      let u := s.hear .c
      u.pcopyPlan (u.seenOn .c (.op n o.crew) gg) src.toNat dst.toNat k = .ok (ws, bs) →
      exec (.pcopyComplete n) s = .next ((u.wrAllBy .c (.op n o.crew) ws).writeToken n (BitVec.ofNat 64 bs.length))) ∧
    (∀ src dst scope k, o.kind = .pcopy src dst scope k → o.units = 0 → src.toNat % 64 ≠ 0 →
      exec (.pcopyComplete n) s = .next ((s.hear .c).faultToken n (Raised.at .misaligned src.toNat))) ∧
    (∀ desc pos q limit pushed cr ps, o.kind = .chase desc pos q limit pushed → s.crew o.crew = some cr → s.liveWaves o.crew ≠ [] →
      ∀ hq : q < 4,
        let u := s.hear .l
        (u.seenOn .l (.op n o.crew) gg).chasePages desc.toNat pos.toNat limit = .ok ps →
        let held := (cr.dq[q].entries.filter fun e => e.2 == some n).length
        let push (v : DWord) : State := (u.pushRelease o.crew q (.op n o.crew)).setCrew o.crew
          { cr with dq := cr.dq.set q { cr.dq[q] with entries := cr.dq[q].entries ++ [(v, some n)] } }
        (64 ≤ cr.dq[q].entries.length ∨ 4 ≤ held → exec (.chasePage n) s = .next s) ∧
        (cr.dq[q].entries.length < 64 → held < 4 →
          (∀ va, ps[pushed]? = some va → exec (.chasePage n) s =
            .next ((push (BitVec.ofNat 64 va)).setOp n { o with kind := .chase desc pos q limit (pushed + 1) })) ∧
          (ps[pushed]? = none → exec (.chasePage n) s = .next ((push (BitVec.allOnes 64)).writeToken n (BitVec.ofNat 64 pushed)))))

/-! ### Host queues, launches, gangs -/

/-- R348 to R350, R409 to R413 and R418: the doorbell takes the tail, and disables a queue whose tail runs too far ahead; enabling checks
the queue and clears its indices; registers take what they may; accesses through the windows reach local memory and nothing else, and a
peer's atomic on exported memory is performed there, its old value going back. -/
def Obligations.HostRegisters : Prop :=
  (∀ (s : State) (q : Nat) (h : q < 64), s.regs.boot ≠ .recovery →
    let k := s.queues[q]
    let sets (i : Instr) (f : HostQueue) : Prop := exec i s = .next { s with queues := s.queues.set q f }
    (∀ v : BitVec 32,
      ((v - k.sqhead).toNat ≤ 2 ^ k.size.toNat → sets (.sqDoorbell q v) { k with sqtail := v }) ∧
      (2 ^ k.size.toNat < (v - k.sqhead).toNat → sets (.sqDoorbell q v) { k with sqtail := v, enable := false, err := true })) ∧
    (let valid : Prop := 4 ≤ k.size.toNat ∧ k.size.toNat ≤ 12 ∧ k.sqbase.toNat % 4096 = 0 ∧ k.cqbase.toNat % 4096 = 0;
      (k.enable = true → sets (.queueEnable q) k) ∧
      (k.enable = false → s.regs.boot = .ready → valid → sets (.queueEnable q)
        { k with enable := true, err := false, sqhead := 0, sqtail := 0, cqhead := 0, cqtail := 0, phase := true }) ∧
      (k.enable = false → ¬valid ∨ s.regs.boot = .rom ∨ s.regs.boot = .check ∨ s.regs.boot = .dies ∨ s.regs.boot = .memory ∨
        s.regs.boot = .scheduler → sets (.queueEnable q) { k with err := true })) ∧
    sets (.queueDisable q) { k with enable := false } ∧
    (∀ v, sets (.registerWrite (0x11000 + 64 * q + 52) 4 v) { k with cqhead := BitVec.ofNat 32 v.toNat }) ∧
    (∀ v, sets (.registerWrite (0x11000 + 64 * q) 8 v) (if k.enable = false ∧ s.consumedOf q = 0 then { k with sqbase := v } else k))) ∧
  (∀ (s : State) (v : BitVec 64), s.regs.boot ≠ .recovery →
    (let n := v.toNat % 2 ^ 16;
      exec (.registerWrite 0x40000 2 v) s =
        .next (if 1200 ≤ n ∧ n ≤ 2400 then { s with regs := { s.regs with cap := BitVec.ofNat 16 n } } else s)) ∧
    exec (.registerWrite 32 8 v) s =
      .next (if v.toNat % (64 * 2 ^ 30) = 0 ∧ v.toNat < 768 * 2 ^ 30 then { s with regs := { s.regs with winbase := v } } else s) ∧
    exec (.registerWrite 8 8 v) s = .next s ∧
    (∀ w : BitVec 16, exec (.pldmSetCap w) s =
      .next (if 1200 ≤ w.toNat ∧ w.toNat ≤ 2400 then { s with regs := { s.regs with cap := w } } else s))) ∧
  (∀ (s : State) (bar2 : Bool) (addr n : Nat) (bs : List Byte), Memory.wf s.mem = true →
    let pa := if bar2 then s.regs.winbase.toNat + addr else addr
    let reach (m : Nat) : Prop := addr + m ≤ if bar2 then 64 * 2 ^ 30 else 768 * 2 ^ 30
    let open_ (m : Nat) : Prop := s.regs.expbase.toNat ≤ addr ∧ addr + m ≤ s.regs.expbase.toNat + s.regs.expsize.toNat ∧ addr + m ≤ 768 * 2 ^ 30
    (s.regs.boot ≠ .recovery →
      (reach bs.length → ∃ u, exec (.hostMemoryAccess (.write bar2 addr bs)) s = .next u ∧ WroteAll s [(pa, bs)] u ∧
        u = { s with mem := u.mem, gangs := u.gangs, poison := u.poison, late := u.late, waiters := u.waiters }) ∧
      (reach n → exec (.hostMemoryAccess (.read bar2 addr n)) s =
        .next { s with outbox := s.outbox ++ [.hostRead (s.rdBytes pa n) (s.poisoned pa n)] }) ∧
      (¬reach bs.length → exec (.hostMemoryAccess (.write bar2 addr bs)) s = .next s)) ∧
    (s.regs.boot = .ready →
      (open_ bs.length → ∃ u, exec (.podAccess (.write bar2 addr bs)) s = .next u ∧ WroteAll s [(addr, bs)] u ∧
        u = { s with mem := u.mem, gangs := u.gangs, poison := u.poison, late := u.late, waiters := u.waiters }) ∧
      (open_ n → exec (.podAccess (.read bar2 addr n)) s =
        .next { s with outbox := s.outbox ++ [.podRead (s.rdBytes addr n) (s.poisoned addr n)] }) ∧
      (¬open_ bs.length → exec (.podAccess (.write bar2 addr bs)) s = .next s) ∧
      (∀ (op : Nat) (data cmp : BitVec 64), isHomeOp op = true → addr % homeBytes op = 0 →
        let m := homeBytes op
        let old := s.rdNat addr m
        (open_ m → ∃ u, exec (.podAccess (.atomic addr op data cmp)) s = .next u ∧
          WroteAll s [(addr, toBytes m (homeNew op old data.toNat cmp.toNat))] u ∧
          u = { s with mem := u.mem, gangs := u.gangs, poison := u.poison, late := u.late, waiters := u.waiters,
                       outbox := s.outbox ++ [.podRead (toBytes m old) (s.poisoned addr m)] }) ∧
        (¬open_ m → exec (.podAccess (.atomic addr op data cmp)) s = .next s))))

/-- R30, R150, R152 to R154 and R350 to R353: a record of a host queue, and a LAUNCH, are decided once: a malformed or refused one
completes at once with kind 2 or 1 and takes no number; an accepted one takes the next number, its record is retained, copied to a place
that nothing else uses (log 36), the number is written into the record's dseq field and whoever waits there is woken. A host record's
scope 0 is device (8). A bounded launch has its plan from then on. -/
def Obligations.LaunchDecisions : Prop :=
  (∀ (s : State) (q : Nat) (a : Admit) (h : q < 64) (table : List (BitVec 256)),
    let k := s.queues[q]
    let slot := hostKey (k.sqbase.toNat + 256 * (k.sqhead.toNat % 2 ^ k.size.toNat))
    let r : BitVec 2048 := BitVec.ofNat 2048 (s.rdNat slot 256)
    let seq := s.accseq + 1
    let entry := hostKey (k.cqbase.toNat + 32 * (k.cqtail.toNat % 2 ^ k.size.toNat))
    s.regs.boot = .ready → s.nextQueue = some q → s.tableOf r = some table → Memory.wf s.mem = true →
      (s.retainsAt a.retained = false → exec (.recordConsume q a) s = .next s) ∧
      (s.retainsAt a.retained = true →
        (s.verdict r true table a = .accepted →
          ∃ (u : State) (l : Launch), exec (.recordConsume q a) s = .next u.settle ∧
            u.queues = s.queues.set q { k with sqhead := k.sqhead + 1, lasthseq := BitVec.ofNat 64 (recHseq r) } ∧
            u.regs = { s.regs with turn := (q + 1) % 64, accepted := s.regs.accepted + 1 } ∧
            u.launch (BitVec.ofNat 64 seq) = some l ∧ l.record = r ∧ l.retained = a.retained ∧ l.origin = .host q ∧
            l.scope = (if recScope r = 0 then 8 else recScope r) ∧ l.accepted = s.mtime ∧ l.table = table ∧
            l.plan = (if recBounded r then a.gangs else []) ∧ l.victims = (if recBounded r then a.victims else []) ∧
            l.done = none ∧ l.failed = none ∧ l.next = 0 ∧
            (∀ n, n ≠ BitVec.ofNat 64 seq → u.launch n = (if recBounded r then s.takePlans a.victims else s).launch n) ∧
            u.rdNat (slot + 112) 8 = seq % 2 ^ 64 ∧ u.rdNat a.retained 256 = r.toNat ∧
            (∀ x, ¬covers 8 (slot + 112) x → ¬covers 256 a.retained x → u.rd x = s.rd x) ∧
            (∀ w ∈ u.waiters, w ∈ s.waiters ∧ (slot + 112) / 8 * 8 ∉ w.keys) ∧
            u = { s with mem := u.mem, gangs := u.gangs, poison := u.poison, queues := u.queues, regs := u.regs,
                         launches := u.launches, late := u.late, waiters := u.waiters }) ∧
        (∀ kind, s.verdict r true table a = .malformed ∧ kind = 2 ∨ s.verdict r true table a = .refused ∧ kind = 1 →
          ∃ u, exec (.recordConsume q a) s = .next u ∧
            (∃ f, u.queues = s.queues.set q f ∧ f.sqhead = k.sqhead + 1 ∧ f.cqtail = k.cqtail + 1 ∧ f.enable = k.enable) ∧
            (∀ i < 32, u.rd (entry + i) = (cqBytes 0 (recHseq r) 0 0 kind q k.phase).getD i 0) ∧
            (∀ x, ¬covers 32 entry x → u.rd x = s.rd x) ∧ u.launches = s.launches ∧ u.regs.accepted = s.regs.accepted))) ∧
  (∀ (s : State) (sub : Nat) (a : Admit) (b : Submission) (table : List (BitVec 256)), tabGet s.subs sub = some b →
    s.tableOf b.record = some table → s.regs.boot = .ready → s.launchIssued sub b.crew = true → s.retainsAt a.retained = true →
    Memory.wf s.mem = true →
      let seq := s.accseq + 1
      (s.verdict b.record false table a = .accepted →
        ∃ (u : State) (l : Launch), exec (.launchAccept sub a) s = .next u.settle ∧ u.subs = tabDel s.subs sub ∧
          u.launch (BitVec.ofNat 64 seq) = some l ∧ l.record = b.record ∧ l.retained = a.retained ∧ l.origin = .lead b.crew sub ∧
          l.scope = b.scope ∧ l.accepted = s.mtime ∧ l.done = none ∧ l.failed = none ∧
          u.regs = { s.regs with accepted := s.regs.accepted + 1 } ∧ u.rdNat b.addr 8 = seq % 2 ^ 64 ∧
          (∀ i < 256, ¬covers 8 b.addr (a.retained + i) → u.rd (a.retained + i) = (toBytes 256 b.record.toNat).getD i 0) ∧
          (∀ x, ¬covers 8 b.addr x → ¬covers 256 a.retained x → u.rd x = s.rd x) ∧
          (∀ w ∈ u.waiters, w ∈ s.waiters ∧ b.addr / 8 * 8 ∉ w.keys)) ∧
      (∀ kind, s.verdict b.record false table a = .malformed ∧ kind = 2 ∨ s.verdict b.record false table a = .refused ∧ kind = 1 →
        exec (.launchAccept sub a) s =
          .next (State.launchTokens { s with subs := tabDel s.subs sub } sub (BitVec.ofNat 64 kind))))

/-- R40, R355, R358 and R375: a launch that is cancelled, or that overruns its bound, fails with its kind unless it has failed before; time
never passes the moment 25 us before the bound of a launch that is neither complete nor failed; a retired core takes no new binds. -/
def Obligations.LaunchEndings : Prop :=
  (∀ (s : State) (q : DWord) (l : Launch), s.launch q = some l → l.done = none → l.failed = none →
    let ends (i : Instr) (kind : Nat) : Prop :=
      ∃ t m, exec i s = .next t ∧ t.launch q = some m ∧ m.failed = some { kind, fault := 0 } ∧ m.record = l.record
    ends (.cancel q) 6 ∧ ends .cancelAll 6 ∧ ends (.cancel (BitVec.allOnes 64)) 6 ∧
    (recBounded l.record = true → l.accepted + recBound l.record ≤ s.mtime + 25000 → ends (.boundOverrun q) 4) ∧
    (recBounded l.record = false ∨ s.mtime + 25000 < l.accepted + recBound l.record → exec (.boundOverrun q) s = .next s)) ∧
  (∀ (s : State) (q : DWord) (l : Launch) (e : Ending), s.launch q = some l → l.done = some e → distinctKeys s.launches →
    exec (.boundOverrun q) s = .next s ∧ ∃ t, exec (.cancel q) s = .next t ∧ ∀ m, t.launch q = some m → m.done = some e) ∧
  (∀ (s : State) (dt : Nat), distinctKeys s.launches → ∀ e ∈ (s.passTime dt).launches, recBounded e.2.record = true → e.2.done = none →
    e.2.failed = none → s.mtime + dt + 25000 < e.2.accepted + recBound e.2.record) ∧
  (∀ (s : State) (n : BitVec 32), s.regs.boot ≠ .recovery → n.toNat < 128 →
    ∃ t, exec (.retire n) s = .next t ∧ ∀ i < 128, t.regs.service.getLsbD i = (s.regs.service.getLsbD i && decide (i ≠ n.toNat)))

/-- R132, R174, R175, R281, R359, R366, R367 and R377: a gang that no gang which fits stands before and that fits, in the room that
reservations and the intended place of the first leave (log 36), is bound by bind records, and a bounded launch's plan follows it to its
place; its crews start from them with the state the spec gives, each wave with a fault record of its own. -/
def Obligations.GangsStart : Prop :=
  (∀ (s : State) (seq : DWord) (p : GangPlace) (l : Launch) (u : Unbound) (hs : List (Nat × Handle)), s.launch seq = some l →
    let a := s.aim
    let m := ({ l with next := l.next + 1 } : Launch).boundAt s.mtime [p]
    let v := { a with nextId := s.nextId + 1 }.setLaunch seq m
    (s.unboundOf seq l).find? (fun v => !v.saved && placesFor v.ixs (recPair l.record) [p]) = some u → u.ixs = [p.index] →
    s.regs.boot = .ready → s.regs.bindStop = false → a.inTurn u = true →
    setOk (recPlacement l.record) (seats [p]) (s.seatsOf seq true) = true → recPair l.record = false → l.again.contains p.index = false →
    v.placeFits (v.roomFor u) (needsOf l.record l.table) p true = true → s.startTiles (l.table.drop 1) = .ok hs →
      ∃ (t : State) (g : Gang), exec (.gangBind seq [p]) s = .next t.settle ∧ t.gang s.nextId = some g ∧ g.seq = seq ∧
        g.index = p.index ∧ g.state = .bound ∧ g.place = p ∧ g.handles = hs ∧ g.crews = recCrews l.record ∧
        g.waves = recWaves l.record ∧ g.pair = none ∧ t.launch seq = some m ∧
        (∀ e ∈ m.plan, e.index = p.index → e.trailing = p.trailing →
          e.cluster = p.cluster ∧ e.cores = p.crews.map CrewPlace.core ∧ e.barbase = p.barbase ∧ e.start = s.mtime) ∧
        t.slots = setSlots (bindRecords seq m (needsOf l.record l.table) p 0) s.slots ∧
        t = { s with gangs := t.gangs, launches := t.launches, slots := t.slots, intent := a.intent, nextId := s.nextId + 1 }) ∧
  (∀ (s : State) (k : CrewKey) (gg : Gang) (c : CrewPlace) (l : Launch) (b : BindRec) (us : Vector Word 64), s.gang k.gang = some gg →
    gg.place.crews[k.crew]? = some c → s.launchOf gg = some l → tabGet s.slots (4 * c.core + c.pos) = some b → gg.state = .bound →
    b.state = 1 → b.resume = 0 → s.uniforms l.record = some us →
      ∃ t, exec (.crewStart k) s = .next t ∧
        t.crew k = some (Crew.start c gg.place.cluster gg.waves gg.acc us) ∧
        t.lead k = some (Lead.start (BitVec.ofNat 64 (recLeadEntry l.record)) c.leadFrec) ∧
        (∀ i < gg.waves, t.wave { gang := k.gang, crew := k.crew, wave := i } =
          some (Wave.start (BitVec.ofNat 64 (recWaveEntry l.record)) (c.waveFrecs.getD i 0))) ∧
        (∃ r, tabGet t.slots (4 * c.core + c.pos) = some r ∧ r.state = 2) ∧ t.mem = s.mem) ∧
  (∀ (pc : DWord) (frec : BitVec 49),
    (let l := Lead.start pc frec;
      l.pc = pc ∧ (∀ r : Fin 64, l.x[r] = 0) ∧ (∀ r : Fin 16, l.j[r] = .u) ∧ l.tokens = [] ∧ l.rep = 0 ∧ l.handling = none ∧
        l.status.toNat % 2 ^ 8 = 0) ∧
    (let w := Wave.start pc frec;
      (∃ sp, w.slot0 = some sp ∧ sp.pc = pc ∧ sp.lanes = BitVec.allOnes 32 ∧ sp.link = none) ∧ w.slot1 = none ∧ w.stack = [] ∧
        (∀ r : Fin 128, w.unset[r] = BitVec.allOnes 32) ∧ (∀ (r : Fin 48) (i : Lane), w.k[r][i] = .u) ∧ w.handling = none ∧
        w.status.toNat % 2 ^ 8 = 0))

/-- R363, R368 to R376: the option for a victim wastes least among those that meet the requester's slack, and where none does has the
least delay; victims are taken best-effort ones first, then the most recently bound, until the requester would fit (log 36 says what
counts as fitting); a save writes the gang's state and frees its slots; one that takes too long, unfinished operations among the causes
(log 27), becomes a flush or a drain; a saved gang is bound again; a flushed one waits to run from its record. -/
def Obligations.GangsYield : Prop :=
  (∀ (s : State) (r : Asker) (g : Nat) (gg : Gang) (v : Launch) (c : Choice), s.chooseOption r g gg v = some c →
    let all := s.choices g gg v.record
    let f := s.clusterMhz gg.place.cluster
    c ∈ all ∧ ((∃ d ∈ all, s.meets r f d = true) → s.meets r f c = true ∧ ∀ d ∈ all, s.meets r f d = true → c.waste ≤ d.waste) ∧
      ((∀ d ∈ all, s.meets r f d = false) → ∀ d ∈ all, c.delay ≤ d.delay)) ∧
  (∀ (s : State) (r : Asker) (f : Nat) (c : Choice),
    (recBounded r.record = false → (s.meets r f c = true ↔ c.delay * 1000 ≤ 64 * (1000000 * f))) ∧
    (recBounded r.record = true →
      let fr := s.planMhz r.plan
      let slack : Int := (r.accepted + recBound r.record : Int) - 25000 - s.mtime
      (s.meets r f c = true ↔ (c.delay : Int) * 1000 * fr ≤ 64 * f * (slack * fr - recCost r.record * 1000)) ∧
      (∀ e ∈ r.plan, fr ≤ s.clusterMhz e.cluster) ∧ (r.plan ≠ [] → ∃ e ∈ r.plan, fr = s.clusterMhz e.cluster))) ∧
  (∀ (s : State) (r : Asker) (plans : List Victim),
    let cs := s.candidates r plans
    (∀ g ∈ cs, ∃ (gg : Gang) (v : Launch), s.gang g = some gg ∧ s.launchOf gg = some v ∧ gg.state = .running ∧
      recPriority v.record < recPriority r.record ∧
      (recBounded v.record = true → recBounded r.record = true ∧ s.planKept r plans g = true)) ∧
    cs.Pairwise (fun a b => lexLt (s.victimRank b) (s.victimRank a) = false) ∧
    (∀ (u : Unbound) (gs : List Nat), s.victimsOf u [] cs = some gs →
      (∃ rest, cs = gs ++ rest) ∧ (s.fitsIn (s.roomWithout u gs) u).isSome = true ∧
      ∀ k < gs.length, s.fitsIn (s.roomWithout u (gs.take k)) u = none)) ∧
  (∀ (s : State) (seq : DWord) (g : Nat) (r v : Launch) (plans : List Victim) (u : Unbound) (gg : Gang) (c : Choice),
    s.launch seq = some r → s.firstUnbound = some u → u.seq = seq → s.fitsNow u = false → s.regs.boot = .ready →
    s.victimsOf u [] (s.candidates r.asker plans) = some [g] → s.gang g = some gg → gg.pair = none →
    let t := s.takePlans (plans.filter fun v => v.gang == g)
    t.launchOf gg = some v → t.chooseOption r.asker g gg v = some c →
      (c.option = 0 → exec (.preemptRequest seq plans) s = .next t) ∧
      (c.option = 1 → exec (.preemptRequest seq plans) s = .next (State.setGang { t with slots := markSlots (placeSlots gg.place) 3 s.slots } g
        { gg with state := .saving, saveSince := s.ticksOf gg.place.cluster })) ∧
      (c.option = 2 → exec (.preemptRequest seq plans) s = .next (t.relaunch g (recRestart v.record == 1)))) ∧
  (∀ w : SplitWait, w.atSave = true ↔ w = .post ∨ w = .collector ∨ w = .bwait ∨ w = .forwardAddr ∨ (∃ a, w = .waita a) ∨
    (∃ n, w = .savept n) ∨ (∃ n, w = .bar n) ∨ (∃ n, w = .queue n) ∨ ∃ n, w = .page n) ∧
  (∀ (s : State) (g : Nat) (gg : Gang) (l : Launch), s.gang g = some gg → gg.pair = none → gg.state = .saving → s.launchOf gg = some l →
    (s.atSave g = true → s.opsQuiet g = true → gg.dirtyTiles = [] →
      (∀ e ∈ s.waves, ∀ (i : Fin 2) (p : Split) (a : AddrWait), e.1.gang = g → e.2.slot i = some p → p.wait ≠ .waita a) →
      (∀ e ∈ s.leads, e.1.gang = g → ∀ pa wide d since old scope z fwd, e.2.wait ≠ .waita pa wide d since old scope z fwd) →
        ∃ (t : State) (x : Gang), exec (.saveComplete g) s = .next t.settle.capacityCheck ∧ t.gang g = some x ∧ x.state = .saved ∧
          (∀ n ∈ placeSlots gg.place, tabGet t.slots n = none) ∧
          (∀ k w, k.gang = g → s.wave k = some w → w.ended = false → ∃ v, t.wave k = some v ∧ v.outstanding = [] ∧ v.cached = 0 ∧
            v.status = w.status ∧ v.exited = w.exited) ∧
          (∀ k w, k.gang = g → s.lead k = some w → w.exited = false → ∃ v, t.lead k = some v ∧ v.outstanding = [] ∧ v.pc = w.pc)) ∧
    (∀ f, s.atSave g = true → s.opsQuiet g = true → s.saveUnits g = .error f → (∀ va, f ≠ .away va) →
      exec (.saveComplete g) s = .next ((s.drainSaving g).endByFault g .elementAccess)) ∧
    (150000 * 1000 ≤ s.ticksOf gg.place.cluster - gg.saveSince → s.atSave g = false ∨ s.opsQuiet g = false →
      (recRestart l.record = 2 → ∃ t : State, exec (.saveTimeout g) s = .next t.settle ∧ ∃ x, t.gang g = some x ∧ x.state = .running) ∧
      (recRestart l.record ≠ 2 → exec (.saveTimeout g) s = .next (s.relaunch g (recRestart l.record == 1)))) ∧
    (s.ticksOf gg.place.cluster - gg.saveSince < 150000 * 1000 → exec (.saveTimeout g) s = .next s)) ∧
  (∀ (s : State) (g : Nat) (gg : Gang) (p : GangPlace) (l : Launch) (u : Unbound), s.gang g = some gg → gg.pair = none → gg.state = .saved →
    s.launchOf gg = some l → (s.unboundOf gg.seq l).find? (fun v => v.saved && v.ixs == [gg.index]) = some u →
    let a := s.aim
    a.inTurn u = true → s.regs.boot = .ready → setOk (recPlacement l.record) (seats [p]) (s.seatsOf gg.seq false) = true →
    sameFrames p gg.place = true → a.placeFits (a.roomFor u) (needsOf l.record l.table) p false = true →
      ∃ t, exec (.gangRestore g [p]) s = .next t ∧ t.gang g = some { gg with state := .bound, place := p, bindOrder := s.nextId + 1 } ∧
        (∀ k, t.wave k = s.wave k) ∧ (∀ k, t.lead k = s.lead k) ∧ t.mem = s.mem) ∧
  (∀ (s : State) (g : Nat) (gg : Gang) (roll : Bool) (l : Launch), s.gang g = some gg → gg.pair = none → gg.state = .flushing roll →
    s.launch gg.seq = some l → l.failed = none → l.done = none → gg.ckpt = none →
    (∀ e ∈ s.launches, ∀ k sub, e.2.origin = .lead k sub → k.gang ≠ g) →
      ∃ (t : State) (m : Launch), exec (.gangRelaunch g) s = .next t.settle ∧ t.gang g = none ∧ t.launch gg.seq = some m ∧ gg.index ∈ m.again ∧
        m.failed = none ∧ m.done = none)

/-! ### Redundant pairs -/

/-- R392 to R394, R396 and R397: a store of a pair goes into its buffer, and waits while its party is 4,096 stores ahead or, in the
leading gang, its cluster's buffer is full; at a compare point that both gangs reach alike the leading gang's interval is written and both
go on; a unit of work is written once both agree; a forwarded result goes to the split of the same lanes at the same operation, another
one makes the gangs diverge; a fault that both hold alike is taken by both, and one whose word the counterpart has completed, or gone past,
is a difference. A difference is a mismatch: the pair runs again, or its launch ends with redundancy_mismatch. -/
def Obligations.Pairs : Prop :=
  (∀ (s : State) (c : LCtx) (z : Bool) (t : BitVec 2) (d a : BitVec 6) (i : BitVec 8) (p : PairState) (pa : Nat),
    let n := 2 ^ t.toNat
    let va := ofInt 64 (s.xNat c a + toSigned 8 i.toNat)
    LeadIssues s c (.stx z t d a i) → c.gang.pair = some p → s.translate .write va = .ok pa → va % n = 0 →
      (s.slackFull c.gang.place.cluster p c.party = false →
        ∃ (u : State) (g : Gang) (q : PairState) (e : BufWrite), exec (.stx z t d a i) s = .next u ∧ u.mem = s.mem ∧
          u.gang c.key.gang = some g ∧ g.pair = some q ∧ q.buf = p.buf ++ [(c.party, e)] ∧ e.pa = pa ∧ e.bytes = toBytes n (s.xNat c d)) ∧
      (s.slackFull c.gang.place.cluster p c.party = true → ∃ u, exec (.stx z t d a i) s = .next u ∧
        u.mem = s.mem ∧ u.gangs = s.gangs ∧ u.lead c.key = some { c.l with wait := .slack })) ∧
  (∀ (s : State) (cl : Nat) (p : PairState) (q : Party), s.slackFull cl p q = true ↔
    (s.peerParty p q).stores + 4096 ≤ (p.party q).stores ∨ p.leading = true ∧ 4 * 2 ^ 20 ≤ s.buffered cl) ∧
  (∀ (s : State) (g l t : Nat) (q : Party) (pl pt : PairState) (a b : Point) (as bs : List Point), s.pairOf g = some ((l, pl), (t, pt)) →
    l ≠ t → (pl.party q).points = a :: as → (pt.party q).points = b :: bs →
      (a = b → Memory.wf s.mem = true → (∀ e ∈ s.leads, ∀ k z, e.2.wait ≠ .collective k z) →
        let mine (e : Party × BufWrite) : Bool := e.1 == q && e.2.interval == a.n
        ∃ u, exec (.comparePoint g q) s = .next u ∧ u.counters = { s.counters with compares := s.counters.compares + 1 } ∧
          WroteAll s ((pl.buf.filter mine).map fun e => (e.2.pa, e.2.bytes)) u ∧
          (∀ h ∈ [(l, pl, as), (t, pt, bs)], ∃ gg p, u.gang h.1 = some gg ∧ gg.pair = some p ∧ (p.party q).points = h.2.2 ∧
            p.buf = h.2.1.buf.filter fun e => !mine e) ∧
          (∀ crew wave w (i : Fin 2) sp, q = .wave crew wave → ∀ h ∈ [l, t], s.wave { gang := h, crew, wave } = some w → w.slot i = some sp →
            sp.wait = .point a.n → ∃ v, u.wave { gang := h, crew, wave } = some v ∧ v.slot i = some { sp with wait := .matched a.n }) ∧
          u = { s with mem := u.mem, poison := u.poison, gangs := u.gangs, counters := u.counters, waves := u.waves, leads := u.leads,
                       late := u.late, recent := u.recent, waiters := u.waiters, free := u.free }) ∧
      (a ≠ b → exec (.comparePoint g q) s = .next (s.mismatch l q a.n))) ∧
  (∀ (s : State) (g n : Nat) (q : Party) (gg : Gang) (l : Launch), s.gang g = some gg → s.launch gg.seq = some l → l.done = none →
    l.failed = none →
      let again : Prop := (gg.index, q, n) ∉ l.mismatches ∧ (l.mismatches.filter fun e => e.1 == gg.index).length < 15 ∧ recRestart l.record ≠ 2
      let k := s.counters
      (again → (s.mismatch g q n).counters = { k with mismatches := k.mismatches + 1, retries := k.retries + 1 } ∧
        ∃ m, (s.mismatch g q n).launch gg.seq = some m ∧ m.mismatches = l.mismatches ++ [(gg.index, q, n)]) ∧
      (¬again → (s.mismatch g q n).counters = { k with mismatches := k.mismatches + 1, pairfail := k.pairfail + 1 } ∧
        ∃ m, (s.mismatch g q n).launch gg.seq = some m ∧ m.failed = some { kind := 3, fault := 0x11 })) ∧
  (∀ (s : State) (g l t : Nat) (pl pt : PairState) (u v : PairUnit), s.pairOf g = some ((l, pl), (t, pt)) → l ≠ t →
    firstCommon pl.units pt.units = some (u, v) →
      (u.sig = v.sig → u.chunk = v.chunk → u.op = none → v.op = none → s.allExited l = false → s.allExited t = false →
        Memory.wf s.mem = true →
        ∃ r, exec (.unitCompare g) s = .next r ∧ WroteAll s u.writes r ∧
          (∃ gg p, r.gang l = some gg ∧ gg.pair = some p ∧ p.units = pl.units.erase u) ∧
          (∃ gg p, r.gang t = some gg ∧ gg.pair = some p ∧ p.units = pt.units.erase v) ∧
          r = { s with mem := r.mem, poison := r.poison, gangs := r.gangs, late := r.late, recent := r.recent, waiters := r.waiters,
                       free := r.free }) ∧
      (u.sig ≠ v.sig ∨ u.chunk ≠ v.chunk →
        exec (.unitCompare g) s = .next (s.mismatch l (.lead u.crew) (pl.party (.lead u.crew)).next))) ∧
  (∀ (s : State) (g : Nat) (q : Party) (gg : Gang) (p : PairState) (h : HeldFault), s.gang g = some gg → gg.pair = some p →
    s.heldFaults g q = [h] →
      (∀ k, s.heldFaults p.peer q = [k] → k.pc = h.pc → k.lanes = h.lanes →
        let alike : Prop := h.ran = k.ran ∧ h.exit = k.exit ∧ h.f.code = k.f.code ∧ h.rep = k.rep ∧ h.f.aux = k.f.aux ∧
          h.f.addr = k.f.addr ∧ h.f.failing = k.f.failing
        (alike → exec (.pairFaultMatch g q) s = .next ((s.takeHeld g q h).takeHeld p.peer q k)) ∧
        (¬alike → exec (.pairFaultMatch g q) s = .next (s.mismatch g q (p.party q).next))) ∧
      (s.heldFaults p.peer q = [] → (p.party q).next < (s.peerParty p q).next ∨
          (s.peerParty p q).next = (p.party q).next ∧ h.ran < s.ranCount p.peer q h.pc h.rep h.lanes →
        exec (.pairFaultMatch g q) s = .next (s.mismatch g q (p.party q).next)) ∧
      (s.heldFaults p.peer q = [] → (s.peerParty p q).next = (p.party q).next →
          s.ranCount p.peer q h.pc h.rep h.lanes ≤ h.ran → s.heldUp p.peer q = false →
        exec (.pairFaultMatch g q) s = .next s)) ∧
  (∀ (s : State) (g : Nat) (p : PairState) (q : Party) (k : Taker) (f : Forward) (t : State), s.takeForward g p q k = some (f, t) →
    f ∈ (p.party q).forwards ∧ (∃ i, f.lanes.getLsbD i = true ∧ k.lanes.getLsbD i = true ∨ f.lanes = k.lanes) ∧
    ∀ (cat : Option Cat) (w : LeadWait),
      (f.lanes = k.lanes → f.op = k.op → f.fault = none →
        s.trail g p q k cat w = .ok { s := t.forwardOrder g p q k.lanes, writes := f.writes, flags := f.flags, cat }) ∧
      (f.lanes ≠ k.lanes ∨ f.op ≠ k.op → s.trail g p q k cat w = .error .diverge))

/-! ### Reliability, power, the pod and start-up -/

/-- R382 to R388, R402 to R404, R412 to R414, R418 and R419: errors of storage, ageing, the voted machines, the power controller, links
and routes. A change of a clock leaves the cycles run so far as they are. Each detection counts in ue (log 30); the power clock rises by a
step whenever the draw is below the cap, and drift past 9% takes a cluster out at the measurement (log 6). -/
def Obligations.Reliability : Prop :=
  (∀ (s : State) (g : Nat) (gg : Gang) (l : Launch), s.gang g = some gg → gg.state = .running → gg.pair = none → s.launch gg.seq = some l →
    l.done = none → l.failed = none →
      let n := (tabGet l.errors gg.index).getD 0 + 1
      ∃ t m, exec (.uncorrectableError g none) s = .next t ∧ t.counters.ue = s.counters.ue + 1 ∧ t.counters.kills = s.counters.kills + 1 ∧
        t.launch gg.seq = some m ∧ tabGet m.errors gg.index = some n ∧
        (recRestart l.record = 2 ∨ 4 ≤ n → m.failed = some { kind := 3, fault := 0x12 } ∧ t.counters.relaunch = s.counters.relaunch) ∧
        (recRestart l.record ≠ 2 → n < 4 → t.counters.relaunch = s.counters.relaunch + 1)) ∧
  (∀ (s : State) (pa : Nat), let k := s.counters
    (∀ u, exec (.scrub u .clean) s = .next s) ∧
    (∀ u, (∀ a, u ≠ .line a) → exec (.scrub u .corrected) s = .next { s with counters := { k with cesram := k.cesram + 1 } }) ∧
    exec (.scrub (.line pa) .corrected) s = .next { s with counters := { k with cehbm := k.cehbm + 1 } } ∧
    exec (.scrub .sram .uncorrectable) s = .next { s with counters := { k with ue := k.ue + 1 } } ∧
    (isLocal pa = true → pa / 64 ∉ s.poison → exec (.scrub (.line pa) .uncorrectable) s =
      .next { s with poison := s.poison ++ [pa / 64], counters := { k with ue := k.ue + 1 } }) ∧
    (∀ (q : WaveKey) (r pair : Nat) (w : Wave) (cr : Crew), s.wave q = some w → s.crew { gang := q.gang, crew := q.crew } = some cr →
      r < 128 → pair < 16 → w.cached.getLsbD r = true → (r, pair) ∉ w.bad →
        exec (.scrub (.register q r pair) .uncorrectable) s =
          .next (({ s with counters := { k with ue := k.ue + 1 } }.setWave q { w with bad := (r, pair) :: w.bad }).coreError cr.place.core)) ∧
    (∀ (g h word : Nat) (gg : Gang) (t : Tile), s.gang g = some gg → gg.tile? h = some t → 8 * word < t.size → word ∉ t.bad →
      ∃ u gg', exec (.scrub (.tile g h word) .uncorrectable) s = .next u ∧ u.gang g = some gg' ∧
        gg'.tile? h = some { t with bad := word :: t.bad } ∧
        u = { s with gangs := u.gangs, counters := { k with ue := k.ue + 1 } }) ∧
    (∀ (q : CrewKey) (unit acc word : Nat) (cr : Crew) (a : Acc), s.crew q = some cr → tabGet cr.accs (unit, acc) = some a → word < 2048 →
      word ∉ a.bad → ∃ u cr', exec (.scrub (.accumulator q unit acc word) .uncorrectable) s = .next u ∧ u.crew q = some cr' ∧
        tabGet cr'.accs (unit, acc) = some { a with bad := word :: a.bad } ∧
        u = { s with crews := u.crews, counters := { k with ue := k.ue + 1 } }) ∧
    (∀ (g n : Nat) (gg : Gang) (p : PairState) (q : Party) (w : BufWrite), s.gang g = some gg → gg.pair = some p → p.buf[n]? = some (q, w) →
      exec (.scrub (.buffer g n) .uncorrectable) s = .next (State.mismatch { s with counters := { k with ue := k.ue + 1 } } g q w.interval))) ∧
  (∀ (s : State) (core : Nat),
    let now := s.ticksOf (core / 4)
    let u := s.coreError core
    ((∀ e ∈ s.coreErrors, e.1 = core → e.2 + 2 ^ 40 * 1000 < now) → u = { s with coreErrors := s.coreErrors ++ [(core, now)] }) ∧
    (core < 128 → (∃ e ∈ s.coreErrors, e.1 = core ∧ now ≤ e.2 + 2 ^ 40 * 1000) →
      ∀ i < 128, u.regs.service.getLsbD i = (s.regs.service.getLsbD i && decide (i ≠ core)))) ∧
  (∀ (s : State) (cl freq : Nat) (h : cl < 32), s.regs.boot = .ready →
    let f := match s.drift[cl] with
      | none => freq
      | some d => min d freq
    ∃ t, exec (.ageingMeasure cl freq) s = .next t ∧ t.drift = s.drift.set cl (some f) ∧
      ∀ i < 128, t.regs.service.getLsbD i =
        (s.regs.service.getLsbD i && !(decide (9 * s.birth[cl] < (s.birth[cl] - f) * 100) && decide (i / 4 = cl)))) ∧
  (∀ (s : State) (cl f : Nat) (rs : List (BitVec 64 × List PlanEntry)) (h : cl < 32), s.drift[cl] = some f →
    let t : State := { s with ticks := s.bankClocks.ticks, tickedAt := s.mtime, regs := { s.regs with
      clock := s.regs.clock.set cl (BitVec.ofNat 16 (min s.regs.clock[cl].toNat (ageLimit s.birth[cl] f))) } }
    exec (.clockLimitApply { cluster := cl, replans := rs }) s = .next (t.replanAll rs) ∧ ∀ c, c < 32 → t.ticksOf c = s.ticksOf c) ∧
  (∀ (s : State) (rs : List (BitVec 64 × List PlanEntry)) (q : DWord) (l : Launch), s.launch q = some l →
    ∃ m, (s.replanAll rs).launch q = some m ∧ m = { l with plan := m.plan } ∧ s.replanAll rs = { s with launches := (s.replanAll rs).launches }) ∧
  (∀ birth lost : Nat, lost ≤ birth → 0 < birth →
    (100 * lost ≤ 3 * birth → ageLimit birth (birth - lost) = 1500) ∧
    (∀ n, 0 < n → (n + 5) * birth < 200 * lost → 200 * lost ≤ (n + 6) * birth → ageLimit birth (birth - lost) = max 1200 (1500 - 25 * n))) ∧
  (∀ (s : State) (m copy : Nat) (differ : List Nat) (h : m < 6) (hc : copy < 3),
    let k := s.machines[m]
    let recent := ((k.times ++ [(copy, s.mtime)]).filter fun e => e.1 == copy && decide (s.mtime ≤ e.2 + 2 ^ 31 / 3)).length
    (s.regs.boot ≠ .ready → exec (.machineDissent m differ) s = .next s) ∧
    (s.regs.boot = .ready → k.copies = Vector.replicate 3 .inStep → (∀ j < 3, j ∈ differ ↔ j = copy) →
      ∃ t, exec (.machineDissent m differ) s = .next t ∧ t.machines = s.machines.set m { k with
          copies := k.copies.set copy (if 8 ≤ recent then .retired else .fenced), times := k.times ++ [(copy, s.mtime)], dissents := k.dissents + 1 } ∧
        (recent < 8 → t = { s with machines := t.machines }) ∧ (8 ≤ recent → t.regs.alert = true ∧ t.regs.degraded.getLsbD m = true)) ∧
    (s.regs.boot = .ready → k.copies = Vector.replicate 3 .inStep → (∃ i j, i < 3 ∧ j < 3 ∧ i ≠ j ∧ i ∈ differ ∧ j ∈ differ) →
      ∃ t, exec (.machineDissent m differ) s = .next t ∧ t.regs.boot = .uncontained ∧ t.regs.uncontained = true ∧ t.regs.alert = true ∧
        t.gangs = [] ∧ t.ops = []) ∧
    (let synced : CtlMachine := { k with copies := k.copies.set copy .inStep, resyncs := k.resyncs + 1 };
      k.copies[copy] = .fenced → exec (.machineResync m copy) s = .next { s with machines := s.machines.set m synced }) ∧
    (k.copies[copy] ≠ .fenced → exec (.machineResync m copy) s = .next s)) ∧
  (∀ (s : State) (draw : BitVec 32) (rs : List (BitVec 64 × List PlanEntry)), ∃ t : State, exec (.powerControl { watts := draw, replans := rs }) s = .next (t.replanAll rs) ∧
    let p := s.regs.pclock.toNat
    let above : Prop := s.regs.cap.toNat < draw.toNat
    let below : Prop := draw.toNat < s.regs.cap.toNat
    t.regs.draw = draw ∧ (above → t.regs.pclock.toNat = max 1200 (p - 25)) ∧ (below → t.regs.pclock.toNat = min 1500 (p + 25)) ∧
      (¬above → ¬below → t.regs.pclock = s.regs.pclock) ∧ (above → p ≤ 1200 → t.regs.bindStop = true) ∧ (below → t.regs.bindStop = false) ∧
      (∀ c, c < 32 → t.ticksOf c = s.ticksOf c) ∧
      t = { s with regs := { s.regs with draw, pclock := t.regs.pclock, bindStop := t.regs.bindStop }, ticks := t.ticks, tickedAt := s.mtime }) ∧
  (∀ (s : State) (link : Nat), exec (.linkReplay link) s = .next s ∧
    ∃ t, exec (.linkFailure link) s = .next t ∧
      (∀ (c : Fin 256) (j : Nat), j < 18 → t.regs.routes[c].links.getLsbD j = (s.regs.routes[c].links.getLsbD j && decide (j ≠ link))) ∧
      (∀ c : Fin 256, t.regs.routes[c].valid = s.regs.routes[c].valid) ∧ t = { s with regs := { s.regs with routes := t.regs.routes } }) ∧
  (∀ (s : State) (base size : BitVec 44) (chip : BitVec 8) (valid : Bool) (links : BitVec 18), s.regs.boot = .ready →
    (base.toNat % 2 ^ 30 = 0 → size.toNat % 2 ^ 30 = 0 →
      exec (.routeChange (.window base size)) s = .next { s with regs := { s.regs with expbase := base, expsize := size } }) ∧
    exec (.routeChange (.chip chip)) s = .next { s with regs := { s.regs with chip } } ∧
    exec (.routeChange (.entry chip valid links)) s =
      .next { s with regs := { s.regs with routes := s.regs.routes.set chip.toNat { valid, links } } })

/-- R354, R381 and R415 to R418: the states of start-up in their order, each failure ending in the recovery state with its reason and the
host alert; an image is valid by the fields of its signed header, whose places are the model's (log 17); a device reset; measurements, the
challenge with the certificate chain that ends in the identity key, a firmware update and the sensors. -/
def Obligations.StartUp : Prop :=
  (∀ s : State,
    let recovers (o : Host.Outcome State Fault Refusal) (reason : BitVec 8) : Prop :=
      ∃ t, o = .next t ∧ t.regs.boot = .recovery ∧ t.regs.reason = reason ∧ t.regs.alert = true ∧ t.mem = s.mem
    (s.regs.boot = .rom → ∃ t, exec .powerOn s = .next t ∧ t.regs = { s.regs with boot := .check } ∧
      tabGet t.mgmt.measured 1 = some (Config.sha256 Config.romImage) ∧ (∃ d, tabGet t.mgmt.measured 3 = some d) ∧
      tabGet t.mgmt.measured 4 = some (Config.sha256 [BitVec.ofNat 8 (s.mgmt.debug).toNat]) ∧ t = { s with regs := t.regs, mgmt := t.mgmt }) ∧
    (let good (o : Option Image) : Bool := (o.map s.mgmt.valid).getD false
      let boots (n : Nat) (i : Image) : Prop := ∃ t, exec .imageCheck s = .next t ∧
        t.regs = { s.regs with boot := .dies, svn := imageSvn i, fwver := imageVersion i } ∧ t.mgmt.running = some n ∧
        tabGet t.mgmt.measured 2 = some (Config.sha256 (i.header ++ i.body)) ∧ t = { s with regs := t.regs, mgmt := t.mgmt };
      s.regs.boot = .check →
        (∀ i, s.mgmt.drive0 = some i → s.mgmt.valid i = true → boots 0 i) ∧
        (∀ i, good s.mgmt.drive0 = false → s.mgmt.drive1 = some i → s.mgmt.valid i = true → boots 1 i) ∧
        (good s.mgmt.drive0 = false → good s.mgmt.drive1 = false → recovers (exec .imageCheck s) 1)) ∧
    (s.regs.boot = .dies → ∀ freqs,
      recovers (exec (.dieBringUp false freqs) s) 3 ∧
      ∃ t, exec (.dieBringUp true freqs) s = .next t ∧ t.regs.boot = .memory ∧
        ∀ c : Fin 32,
          let f := match s.drift[c] with
            | none => freqs.getD c 0
            | some d => min d (freqs.getD c 0)
          t.drift[c] = some f ∧ t.regs.clock[c] = BitVec.ofNat 16 (ageLimit s.birth[c] f)) ∧
    (s.regs.boot = .memory → exec (.memoryTraining true) s = .next { s with regs := { s.regs with boot := .scheduler } } ∧
      recovers (exec (.memoryTraining false) s) 2) ∧
    (s.regs.boot = .scheduler →
      (s.mgmt.storedEpoch = 0xFFFF → recovers (exec .schedulerStart s) 4) ∧
      (let e := s.mgmt.storedEpoch + 1;
        s.mgmt.storedEpoch ≠ 0xFFFF → exec .schedulerStart s = .next
          { s with mgmt := { s.mgmt with storedEpoch := e }, regs := { s.regs with boot := .ready, epoch := e, accepted := 0 } })) ∧
    (∀ ok freqs, (s.regs.boot ≠ .rom → exec .powerOn s = .next s) ∧ (s.regs.boot ≠ .check → exec .imageCheck s = .next s) ∧
      (s.regs.boot ≠ .dies → exec (.dieBringUp ok freqs) s = .next s) ∧ (s.regs.boot ≠ .memory → exec (.memoryTraining ok) s = .next s) ∧
      (s.regs.boot ≠ .scheduler → exec .schedulerStart s = .next s))) ∧
  (∀ (m : Mgmt) (i : Image),
    let part (at_ n : Nat) : Nat := ofBytes ((i.header.drop at_).take n)
    m.valid i = true ↔ part 0 4 = 0x014C4152 ∧ part 16 8 = i.body.length ∧ i.header.length = 512 ∧ i.key.length = 384 ∧
      Config.sha256 i.key = m.keyDigest ∧ Config.rsaVerify i.key i.header i.signature = true ∧
      (Config.sha256 i.body).toNat = part 24 32 ∧ m.svnMin.toNat ≤ part 12 4) ∧
  (∀ s : State, ∃ t, exec .deviceReset s = .next t ∧ t.regs.boot = .rom ∧ t.launches = [] ∧ t.gangs = [] ∧ t.waves = [] ∧ t.leads = [] ∧
    t.ops = [] ∧ t.regs.epoch = s.regs.epoch ∧ t.mgmt.storedEpoch = s.mgmt.storedEpoch ∧ t.mgmt.drive0 = s.mgmt.drive0 ∧
    t.mgmt.drive1 = s.mgmt.drive1 ∧ (∀ q : Fin 64, t.queues[q].enable = false)) ∧
  (∀ (s : State) (ix : Nat) (nonce : BitVec 256) (image : Image),
    (ix ≠ 0xFF → exec (.getMeasurements ix) s = .next { s with
      outbox := s.outbox ++ (s.mgmt.measured.filter fun e => e.1 == ix).map fun e => .measurements e.1 e.2 }) ∧
    exec (.getMeasurements 0xFF) s = .next { s with outbox := s.outbox ++ s.mgmt.measured.map fun e => .measurements e.1 e.2 } ∧
    exec (.challenge nonce) s =
      .next { s with outbox := s.outbox ++ [.challengeAuth (s.mgmt.issuers ++ [s.mgmt.identity])
        (Config.identitySign s.mgmt.identityPrivate nonce (s.mgmt.measured.map Prod.snd))] } ∧
    (s.mgmt.running = some 0 → exec (.pldmFirmwareUpdate image) s = .next { s with mgmt := { s.mgmt with drive1 := some image } }) ∧
    (s.mgmt.running = some 1 → exec (.pldmFirmwareUpdate image) s = .next { s with mgmt := { s.mgmt with drive0 := some image } }) ∧
    (s.regs.boot ≠ .recovery → exec .pldmSensors s =
      .next { s with outbox := s.outbox ++ [.sensors s.regs.draw s.regs.pclock s.regs.cap] }))

/-! ### The whole machine -/

/-- R4, R100, R348, R355, R366, R381, R404, R410, R413, R415 and R418: what reset leaves, as far as the spec gives it. The device stands
in start-up state 0 with nothing launched, bound or under way; a wave and a lead context start in rounding mode RNE. -/
def Obligations.ResetLeaves : Prop :=
  let r := State.reset.regs
  let k := State.reset.counters
  (r.boot = .rom ∧ r.winbase = 0 ∧ r.chip = 0 ∧ r.svn = 0 ∧ r.fwver = 0 ∧ r.reason = 0) ∧
  (r.cap = 2400 ∧ r.pclock = 1500 ∧ r.draw = 0) ∧
  (r.expbase = 0 ∧ r.expsize = 0 ∧ ∀ c : Fin 256, r.routes[c].valid = false ∧ r.routes[c].links = 0) ∧
  (r.uncontained = false ∧ r.alert = false ∧ r.degraded = 0 ∧ r.service = BitVec.allOnes 128) ∧
  (∀ q : Fin 64, State.reset.queues[q].enable = false ∧ State.reset.queues[q].err = false) ∧
  (k.compares = 0 ∧ k.mismatches = 0 ∧ k.retries = 0 ∧ k.pairfail = 0 ∧ k.snaps = 0 ∧ k.rollbacks = 0 ∧ k.cesram = 0 ∧ k.cehbm = 0 ∧
    k.ue = 0 ∧ k.kills = 0 ∧ k.relaunch = 0) ∧
  (∀ m : Fin 6, State.reset.machines[m].dissents = 0 ∧ State.reset.machines[m].resyncs = 0) ∧
  (State.reset.launches = [] ∧ State.reset.gangs = [] ∧ State.reset.crews = [] ∧ State.reset.waves = [] ∧ State.reset.leads = [] ∧
    State.reset.ops = [] ∧ State.reset.slots = []) ∧
  ∀ (pc : DWord) (frec : BitVec 49), statusMode (Wave.start pc frec).status = .rne ∧ statusMode (Lead.start pc frec).status = .rne

/-- The invariant holds at reset: memory in its canonical form, every x0 zero (R50), and no sequence number listed twice. -/
def Obligations.ResetMeetsInvariant : Prop := Inv State.reset

/-- R3: memory is read as it was written, low byte first, every other byte as before; and memory in its canonical form is what it reads
as. -/
def Obligations.MemoryReadsBack : Prop :=
  (∀ (s : State) (pa n v : Nat), Memory.wf s.mem = true →
    (s.wrNat pa n v).rdNat pa n = v % 2 ^ (8 * n) ∧
    (∀ i < n, (s.wrNat pa n v).rd (pa + i) = BitVec.ofNat 8 (v / 2 ^ (8 * i))) ∧
    (∀ x, x < pa ∨ pa + n ≤ x → (s.wrNat pa n v).rd x = s.rd x) ∧
    Memory.wf (s.wrNat pa n v).mem = true) ∧
  (∀ (s : State) (pa n k : Nat), s.rdNat pa (n + k) = s.rdNat pa n + 2 ^ (8 * n) * s.rdNat (pa + n) k ∧ s.rdNat pa n < 2 ^ (8 * n)) ∧
  (∀ s t : State, Memory.wf s.mem = true → Memory.wf t.mem = true → (∀ x, s.rd x = t.rd x) → s.mem = t.mem)

/-- Words of the worked examples of the spec's chapters on clauses, the lead strand, wave arithmetic and memory decode to the
instructions that stand beside them there. -/
def Obligations.SpecWordsDecode : Prop :=
  decodeWord 4 0x020A_0825#32 (some 0x7FFC_0010#32) = .ok (.ld false 2 5 2 4 true false
      (some { limit := 127, res := 63, must := false, scope := 0, order := 0, cache := 0, off := 16 })) 2 ∧
  decodeWord 0 0x010C_1404#32 none = .ok (.addImm false false 6 5 1 0) 1 ∧
  decodeWord 0 0x4008_1840#32 none = .ok (.add false true 4 6 8 false 0) 1 ∧
  decodeWord 0 0x030E_1C05#32 none = .ok (.subImm false false 7 7 1 1) 1 ∧
  decodeWord 1 0x0612_0818#32 none = .ok (.fma false 9 2 3 false) 1 ∧
  decodeWord 2 0x0C06_1800#32 none = .ok (.cmpImm false false 4 3 6 0 0) 1 ∧
  decodeWord 2 0x3C10_0C48#32 none = .ok (.sel false 8 3 9 false 0) 1 ∧
  decodeWord 6 0x000A_050C#32 none = .ok (.br false 2 2 5 12) 1 ∧
  decodeWord 6 0x0800_0000#32 none = .ok (.exit false) 1 ∧
  decodeWord 8 0x0014_6154#32 none = .ok (.leadAdd false 5 6 5 1 true 0) 1 ∧
  decodeWord 8 0x2208_5070#32 none = .ok (.leadCmpImm false 2 2 5 7 0) 1 ∧
  decodeWord 11 0x0024_4000#32 (some 0x4140_0000#32) = .ok (.copy false 9 4 true 5) 2

/-- R44 and R48 to R53: the encoder and the decoder agree. Every well-formed instruction of a clause class decodes from its encoding,
with every operand at every value that the encoding admits; and a word that decodes, unless its class does not list its opcode, is the
encoding of the instruction that it decodes to. -/
def Obligations.DecodeEncode : Prop :=
  (∀ i : Instr, i.wf = true → classOf i < 14 →
    ∃ (w : Word) (ext : Option Word), encode i = w :: ext.toList ∧ ext.isSome = needsExt (classOf i) w ∧
      decodeWord (classOf i) w ext = .ok i (1 + ext.toList.length)) ∧
  (∀ (cls : Nat) (w : Word) (ext : Option Word) (i : Instr) (n : Nat), ext.isSome = needsExt cls w → decodeWord cls w ext = .ok i n →
    i = .unlistedOpcode w ∨
    (i.wf = true ∧ classOf i = cls ∧ encode i = w :: ext.toList ∧ n = 1 + ext.toList.length))

/-- R44 to R46 and R59: a step runs the word that its context has reached. A clause header is fetched; a word of a clause decodes in the
class of its clause, stepped under REP, and runs, or raises illegal_instruction where it does not decode (R79); an extension word that is
not mapped executable is jump_target (R64). A step of the device runs; time that passes before a step ends the bounded launches that R40
ends meanwhile; an empty agenda takes a free action (log 5). -/
def Obligations.StepRunsDecoded : Prop :=
  (∀ (s : State) (a : Action) (rest : List Action) (key : WaveKey) (slot : Fin 2) (c : WCtx) (co : CodeObj),
    s.agenda = a :: rest → a.act = .issue (.split key slot) →
      let t := s.moving a rest (.split key slot)
      let pc := c.sp.pc.toNat
      t.wctx = some c → c.ready = true → t.codeOf c.gang = some co →
        (co.wave.headers.contains pc = true → step s = exec .clauseFetch t) ∧
        (∀ (cls : Nat) (w : Word) (ext : Option Word), WordAt t false co.wave.headers pc cls w ext →
          let word := match c.sp.reps with
            | some r => stepWord cls w r c.sp.rep
            | none => w;
          (∀ i n, decodeWord cls word ext = .ok i n → step s = exec i t) ∧
          (∀ aux, decodeWord cls word ext = .bad aux → step s = .next (t.raiseIllegal aux (1 + ext.toList.length)))) ∧
        (∀ (cls k : Nat) (w h : Word), co.wave.headers.contains pc = false → clauseBack co.wave.headers pc = some k →
          t.codeWord (pc - 4 * k) = .ok h → fieldNat h.toNat 28 4 = cls → streamClass false cls = true → k < fieldNat h.toNat 24 4 →
          t.codeWord pc = .ok w → needsExt cls w = true → t.codeWord (pc + 4) = .error .bad →
            step s = .next (t.raiseNoCode (pc + 4)))) ∧
  (∀ (s : State) (a : Action) (rest : List Action) (key : CrewKey) (c : LCtx) (co : CodeObj),
    s.agenda = a :: rest → a.act = .issue (.lead key) →
      let t := s.moving a rest (.lead key)
      let pc := c.l.pc.toNat
      t.lctx = some c → c.ready = true → t.codeOf c.gang = some co →
        (co.lead.headers.contains pc = true → step s = exec .clauseFetch t) ∧
        (∀ (cls : Nat) (w : Word) (ext : Option Word), WordAt t true co.lead.headers pc cls w ext →
          let word := match c.l.reps with
            | some r => stepWord cls w r c.l.rep
            | none => w;
          (∀ i n, decodeWord cls word ext = .ok i n → step s = exec i t) ∧
          (∀ aux, decodeWord cls word ext = .bad aux → step s = .next (t.raiseIllegal aux (1 + ext.toList.length)))) ∧
        (∀ (cls k : Nat) (w h : Word), co.lead.headers.contains pc = false → clauseBack co.lead.headers pc = some k →
          t.codeWord (pc - 4 * k) = .ok h → fieldNat h.toNat 28 4 = cls → streamClass true cls = true → k < fieldNat h.toNat 24 4 →
          t.codeWord pc = .ok w → needsExt cls w = true → t.codeWord (pc + 4) = .error .bad →
            step s = .next (t.raiseNoCode (pc + 4)))) ∧
  (∀ (s : State) (a : Action) (rest : List Action) (i : Instr), s.agenda = a :: rest → a.act = .event i → isEvent i = true →
    step s = exec i ({ s with agenda := rest }.passTime a.dt)) ∧
  (∀ (s : State) (dt : Nat), (∀ e ∈ s.launches, e.2.planned = false) → s.passTime dt = { s with mtime := s.mtime + dt }.collectAll) ∧
  (∀ s : State, s.agenda = [] → step s = step { s with agenda := [Config.nextAction s.free], free := s.free + 1 })

/-- No step of the machine, in any state, ends in a fault of the model or in a refusal: whatever the agenda holds, the machine goes on.
(What the spec calls a fault is a next state.) -/
def Obligations.StepsGoOn : Prop := ∀ s : State, goesOn (step s)

/-- Every step keeps the invariant: memory stays in its canonical form, every x0 stays zero (R50, R130), and no sequence
number stands twice (R354). -/
def Obligations.StepsKeepInvariant : Prop := ∀ s t : State, Inv s → step s = .next t → Inv t

/-- Programs stay inside: no word of a wave or of a lead context changes what the control plane and the management cluster keep: the
translation (R138, R240), the code objects (R75), the start-up state, the boot epoch and the power cap (R410, R418), the control machines
(R386), the fuses, drives and measurements (R416, R417), the peers, and the ageing limits (R384). -/
def Obligations.ProgramsStayInside : Prop :=
  ∀ (i : Instr) (s t : State), classOf i < 14 → exec i s = .next t →
    t.pages = s.pages ∧ t.codeObjs = s.codeObjs ∧ t.mgmt = s.mgmt ∧ t.machines = s.machines ∧ t.peers = s.peers ∧ t.birth = s.birth ∧
    t.drift = s.drift ∧ t.regs.boot = s.regs.boot ∧ t.regs.epoch = s.regs.epoch ∧ t.regs.cap = s.regs.cap ∧ t.regs.routes = s.regs.routes
end

