-- ==== Sys2Proof/Laws/State.lean ====
section
/-!
SUPPORT. What each named update of the state does to each field: the one it writes, and all the others as they were.
-/

namespace Sys2Proof.Machine

@[simp] theorem State.setWave_mem (s : State) (k : WaveKey) (w : Wave) : (s.setWave k w).mem = s.mem := rfl
@[simp] theorem State.setWave_pages (s : State) (k : WaveKey) (w : Wave) : (s.setWave k w).pages = s.pages := rfl
@[simp] theorem State.setWave_touched (s : State) (k : WaveKey) (w : Wave) : (s.setWave k w).touched = s.touched := rfl
@[simp] theorem State.setWave_poison (s : State) (k : WaveKey) (w : Wave) : (s.setWave k w).poison = s.poison := rfl
@[simp] theorem State.setWave_codeObjs (s : State) (k : WaveKey) (w : Wave) : (s.setWave k w).codeObjs = s.codeObjs := rfl
@[simp] theorem State.setWave_waves (s : State) (k : WaveKey) (w : Wave) : (s.setWave k w).waves = tabSet s.waves k w := rfl
@[simp] theorem State.setWave_leads (s : State) (k : WaveKey) (w : Wave) : (s.setWave k w).leads = s.leads := rfl
@[simp] theorem State.setWave_crews (s : State) (k : WaveKey) (w : Wave) : (s.setWave k w).crews = s.crews := rfl
@[simp] theorem State.setWave_gangs (s : State) (k : WaveKey) (w : Wave) : (s.setWave k w).gangs = s.gangs := rfl
@[simp] theorem State.setWave_ops (s : State) (k : WaveKey) (w : Wave) : (s.setWave k w).ops = s.ops := rfl
@[simp] theorem State.setWave_subs (s : State) (k : WaveKey) (w : Wave) : (s.setWave k w).subs = s.subs := rfl
@[simp] theorem State.setWave_launches (s : State) (k : WaveKey) (w : Wave) : (s.setWave k w).launches = s.launches := rfl
@[simp] theorem State.setWave_waiters (s : State) (k : WaveKey) (w : Wave) : (s.setWave k w).waiters = s.waiters := rfl
@[simp] theorem State.setWave_seqMaps (s : State) (k : WaveKey) (w : Wave) : (s.setWave k w).seqMaps = s.seqMaps := rfl
@[simp] theorem State.setWave_queues (s : State) (k : WaveKey) (w : Wave) : (s.setWave k w).queues = s.queues := rfl
@[simp] theorem State.setWave_slots (s : State) (k : WaveKey) (w : Wave) : (s.setWave k w).slots = s.slots := rfl
@[simp] theorem State.setWave_counters (s : State) (k : WaveKey) (w : Wave) : (s.setWave k w).counters = s.counters := rfl
@[simp] theorem State.setWave_machines (s : State) (k : WaveKey) (w : Wave) : (s.setWave k w).machines = s.machines := rfl
@[simp] theorem State.setWave_regs (s : State) (k : WaveKey) (w : Wave) : (s.setWave k w).regs = s.regs := rfl
@[simp] theorem State.setWave_mgmt (s : State) (k : WaveKey) (w : Wave) : (s.setWave k w).mgmt = s.mgmt := rfl
@[simp] theorem State.setWave_peers (s : State) (k : WaveKey) (w : Wave) : (s.setWave k w).peers = s.peers := rfl
@[simp] theorem State.setWave_birth (s : State) (k : WaveKey) (w : Wave) : (s.setWave k w).birth = s.birth := rfl
@[simp] theorem State.setWave_drift (s : State) (k : WaveKey) (w : Wave) : (s.setWave k w).drift = s.drift := rfl
@[simp] theorem State.setWave_coreErrors (s : State) (k : WaveKey) (w : Wave) : (s.setWave k w).coreErrors = s.coreErrors := rfl
@[simp] theorem State.setWave_intent (s : State) (k : WaveKey) (w : Wave) : (s.setWave k w).intent = s.intent := rfl
@[simp] theorem State.setWave_mtime (s : State) (k : WaveKey) (w : Wave) : (s.setWave k w).mtime = s.mtime := rfl
@[simp] theorem State.setWave_ticks (s : State) (k : WaveKey) (w : Wave) : (s.setWave k w).ticks = s.ticks := rfl
@[simp] theorem State.setWave_tickedAt (s : State) (k : WaveKey) (w : Wave) : (s.setWave k w).tickedAt = s.tickedAt := rfl
@[simp] theorem State.setWave_outbox (s : State) (k : WaveKey) (w : Wave) : (s.setWave k w).outbox = s.outbox := rfl
@[simp] theorem State.setWave_late (s : State) (k : WaveKey) (w : Wave) : (s.setWave k w).late = s.late := rfl
@[simp] theorem State.setWave_recent (s : State) (k : WaveKey) (w : Wave) : (s.setWave k w).recent = s.recent := rfl
@[simp] theorem State.setWave_cur (s : State) (k : WaveKey) (w : Wave) : (s.setWave k w).cur = s.cur := rfl
@[simp] theorem State.setWave_agenda (s : State) (k : WaveKey) (w : Wave) : (s.setWave k w).agenda = s.agenda := rfl
@[simp] theorem State.setWave_free (s : State) (k : WaveKey) (w : Wave) : (s.setWave k w).free = s.free := rfl
@[simp] theorem State.setWave_nextId (s : State) (k : WaveKey) (w : Wave) : (s.setWave k w).nextId = s.nextId := rfl

@[simp] theorem State.setLead_mem (s : State) (k : CrewKey) (l : Lead) : (s.setLead k l).mem = s.mem := rfl
@[simp] theorem State.setLead_pages (s : State) (k : CrewKey) (l : Lead) : (s.setLead k l).pages = s.pages := rfl
@[simp] theorem State.setLead_touched (s : State) (k : CrewKey) (l : Lead) : (s.setLead k l).touched = s.touched := rfl
@[simp] theorem State.setLead_poison (s : State) (k : CrewKey) (l : Lead) : (s.setLead k l).poison = s.poison := rfl
@[simp] theorem State.setLead_codeObjs (s : State) (k : CrewKey) (l : Lead) : (s.setLead k l).codeObjs = s.codeObjs := rfl
@[simp] theorem State.setLead_waves (s : State) (k : CrewKey) (l : Lead) : (s.setLead k l).waves = s.waves := rfl
@[simp] theorem State.setLead_leads (s : State) (k : CrewKey) (l : Lead) : (s.setLead k l).leads = tabSet s.leads k l := rfl
@[simp] theorem State.setLead_crews (s : State) (k : CrewKey) (l : Lead) : (s.setLead k l).crews = s.crews := rfl
@[simp] theorem State.setLead_gangs (s : State) (k : CrewKey) (l : Lead) : (s.setLead k l).gangs = s.gangs := rfl
@[simp] theorem State.setLead_ops (s : State) (k : CrewKey) (l : Lead) : (s.setLead k l).ops = s.ops := rfl
@[simp] theorem State.setLead_subs (s : State) (k : CrewKey) (l : Lead) : (s.setLead k l).subs = s.subs := rfl
@[simp] theorem State.setLead_launches (s : State) (k : CrewKey) (l : Lead) : (s.setLead k l).launches = s.launches := rfl
@[simp] theorem State.setLead_waiters (s : State) (k : CrewKey) (l : Lead) : (s.setLead k l).waiters = s.waiters := rfl
@[simp] theorem State.setLead_seqMaps (s : State) (k : CrewKey) (l : Lead) : (s.setLead k l).seqMaps = s.seqMaps := rfl
@[simp] theorem State.setLead_queues (s : State) (k : CrewKey) (l : Lead) : (s.setLead k l).queues = s.queues := rfl
@[simp] theorem State.setLead_slots (s : State) (k : CrewKey) (l : Lead) : (s.setLead k l).slots = s.slots := rfl
@[simp] theorem State.setLead_counters (s : State) (k : CrewKey) (l : Lead) : (s.setLead k l).counters = s.counters := rfl
@[simp] theorem State.setLead_machines (s : State) (k : CrewKey) (l : Lead) : (s.setLead k l).machines = s.machines := rfl
@[simp] theorem State.setLead_regs (s : State) (k : CrewKey) (l : Lead) : (s.setLead k l).regs = s.regs := rfl
@[simp] theorem State.setLead_mgmt (s : State) (k : CrewKey) (l : Lead) : (s.setLead k l).mgmt = s.mgmt := rfl
@[simp] theorem State.setLead_peers (s : State) (k : CrewKey) (l : Lead) : (s.setLead k l).peers = s.peers := rfl
@[simp] theorem State.setLead_birth (s : State) (k : CrewKey) (l : Lead) : (s.setLead k l).birth = s.birth := rfl
@[simp] theorem State.setLead_drift (s : State) (k : CrewKey) (l : Lead) : (s.setLead k l).drift = s.drift := rfl
@[simp] theorem State.setLead_coreErrors (s : State) (k : CrewKey) (l : Lead) : (s.setLead k l).coreErrors = s.coreErrors := rfl
@[simp] theorem State.setLead_intent (s : State) (k : CrewKey) (l : Lead) : (s.setLead k l).intent = s.intent := rfl
@[simp] theorem State.setLead_mtime (s : State) (k : CrewKey) (l : Lead) : (s.setLead k l).mtime = s.mtime := rfl
@[simp] theorem State.setLead_ticks (s : State) (k : CrewKey) (l : Lead) : (s.setLead k l).ticks = s.ticks := rfl
@[simp] theorem State.setLead_tickedAt (s : State) (k : CrewKey) (l : Lead) : (s.setLead k l).tickedAt = s.tickedAt := rfl
@[simp] theorem State.setLead_outbox (s : State) (k : CrewKey) (l : Lead) : (s.setLead k l).outbox = s.outbox := rfl
@[simp] theorem State.setLead_late (s : State) (k : CrewKey) (l : Lead) : (s.setLead k l).late = s.late := rfl
@[simp] theorem State.setLead_recent (s : State) (k : CrewKey) (l : Lead) : (s.setLead k l).recent = s.recent := rfl
@[simp] theorem State.setLead_cur (s : State) (k : CrewKey) (l : Lead) : (s.setLead k l).cur = s.cur := rfl
@[simp] theorem State.setLead_agenda (s : State) (k : CrewKey) (l : Lead) : (s.setLead k l).agenda = s.agenda := rfl
@[simp] theorem State.setLead_free (s : State) (k : CrewKey) (l : Lead) : (s.setLead k l).free = s.free := rfl
@[simp] theorem State.setLead_nextId (s : State) (k : CrewKey) (l : Lead) : (s.setLead k l).nextId = s.nextId := rfl

@[simp] theorem State.setCrew_mem (s : State) (k : CrewKey) (c : Crew) : (s.setCrew k c).mem = s.mem := rfl
@[simp] theorem State.setCrew_pages (s : State) (k : CrewKey) (c : Crew) : (s.setCrew k c).pages = s.pages := rfl
@[simp] theorem State.setCrew_touched (s : State) (k : CrewKey) (c : Crew) : (s.setCrew k c).touched = s.touched := rfl
@[simp] theorem State.setCrew_poison (s : State) (k : CrewKey) (c : Crew) : (s.setCrew k c).poison = s.poison := rfl
@[simp] theorem State.setCrew_codeObjs (s : State) (k : CrewKey) (c : Crew) : (s.setCrew k c).codeObjs = s.codeObjs := rfl
@[simp] theorem State.setCrew_waves (s : State) (k : CrewKey) (c : Crew) : (s.setCrew k c).waves = s.waves := rfl
@[simp] theorem State.setCrew_leads (s : State) (k : CrewKey) (c : Crew) : (s.setCrew k c).leads = s.leads := rfl
@[simp] theorem State.setCrew_crews (s : State) (k : CrewKey) (c : Crew) : (s.setCrew k c).crews = tabSet s.crews k c := rfl
@[simp] theorem State.setCrew_gangs (s : State) (k : CrewKey) (c : Crew) : (s.setCrew k c).gangs = s.gangs := rfl
@[simp] theorem State.setCrew_ops (s : State) (k : CrewKey) (c : Crew) : (s.setCrew k c).ops = s.ops := rfl
@[simp] theorem State.setCrew_subs (s : State) (k : CrewKey) (c : Crew) : (s.setCrew k c).subs = s.subs := rfl
@[simp] theorem State.setCrew_launches (s : State) (k : CrewKey) (c : Crew) : (s.setCrew k c).launches = s.launches := rfl
@[simp] theorem State.setCrew_waiters (s : State) (k : CrewKey) (c : Crew) : (s.setCrew k c).waiters = s.waiters := rfl
@[simp] theorem State.setCrew_seqMaps (s : State) (k : CrewKey) (c : Crew) : (s.setCrew k c).seqMaps = s.seqMaps := rfl
@[simp] theorem State.setCrew_queues (s : State) (k : CrewKey) (c : Crew) : (s.setCrew k c).queues = s.queues := rfl
@[simp] theorem State.setCrew_slots (s : State) (k : CrewKey) (c : Crew) : (s.setCrew k c).slots = s.slots := rfl
@[simp] theorem State.setCrew_counters (s : State) (k : CrewKey) (c : Crew) : (s.setCrew k c).counters = s.counters := rfl
@[simp] theorem State.setCrew_machines (s : State) (k : CrewKey) (c : Crew) : (s.setCrew k c).machines = s.machines := rfl
@[simp] theorem State.setCrew_regs (s : State) (k : CrewKey) (c : Crew) : (s.setCrew k c).regs = s.regs := rfl
@[simp] theorem State.setCrew_mgmt (s : State) (k : CrewKey) (c : Crew) : (s.setCrew k c).mgmt = s.mgmt := rfl
@[simp] theorem State.setCrew_peers (s : State) (k : CrewKey) (c : Crew) : (s.setCrew k c).peers = s.peers := rfl
@[simp] theorem State.setCrew_birth (s : State) (k : CrewKey) (c : Crew) : (s.setCrew k c).birth = s.birth := rfl
@[simp] theorem State.setCrew_drift (s : State) (k : CrewKey) (c : Crew) : (s.setCrew k c).drift = s.drift := rfl
@[simp] theorem State.setCrew_coreErrors (s : State) (k : CrewKey) (c : Crew) : (s.setCrew k c).coreErrors = s.coreErrors := rfl
@[simp] theorem State.setCrew_intent (s : State) (k : CrewKey) (c : Crew) : (s.setCrew k c).intent = s.intent := rfl
@[simp] theorem State.setCrew_mtime (s : State) (k : CrewKey) (c : Crew) : (s.setCrew k c).mtime = s.mtime := rfl
@[simp] theorem State.setCrew_ticks (s : State) (k : CrewKey) (c : Crew) : (s.setCrew k c).ticks = s.ticks := rfl
@[simp] theorem State.setCrew_tickedAt (s : State) (k : CrewKey) (c : Crew) : (s.setCrew k c).tickedAt = s.tickedAt := rfl
@[simp] theorem State.setCrew_outbox (s : State) (k : CrewKey) (c : Crew) : (s.setCrew k c).outbox = s.outbox := rfl
@[simp] theorem State.setCrew_late (s : State) (k : CrewKey) (c : Crew) : (s.setCrew k c).late = s.late := rfl
@[simp] theorem State.setCrew_recent (s : State) (k : CrewKey) (c : Crew) : (s.setCrew k c).recent = s.recent := rfl
@[simp] theorem State.setCrew_cur (s : State) (k : CrewKey) (c : Crew) : (s.setCrew k c).cur = s.cur := rfl
@[simp] theorem State.setCrew_agenda (s : State) (k : CrewKey) (c : Crew) : (s.setCrew k c).agenda = s.agenda := rfl
@[simp] theorem State.setCrew_free (s : State) (k : CrewKey) (c : Crew) : (s.setCrew k c).free = s.free := rfl
@[simp] theorem State.setCrew_nextId (s : State) (k : CrewKey) (c : Crew) : (s.setCrew k c).nextId = s.nextId := rfl

@[simp] theorem State.setGang_mem (s : State) (g : Nat) (x : Gang) : (s.setGang g x).mem = s.mem := rfl
@[simp] theorem State.setGang_pages (s : State) (g : Nat) (x : Gang) : (s.setGang g x).pages = s.pages := rfl
@[simp] theorem State.setGang_touched (s : State) (g : Nat) (x : Gang) : (s.setGang g x).touched = s.touched := rfl
@[simp] theorem State.setGang_poison (s : State) (g : Nat) (x : Gang) : (s.setGang g x).poison = s.poison := rfl
@[simp] theorem State.setGang_codeObjs (s : State) (g : Nat) (x : Gang) : (s.setGang g x).codeObjs = s.codeObjs := rfl
@[simp] theorem State.setGang_waves (s : State) (g : Nat) (x : Gang) : (s.setGang g x).waves = s.waves := rfl
@[simp] theorem State.setGang_leads (s : State) (g : Nat) (x : Gang) : (s.setGang g x).leads = s.leads := rfl
@[simp] theorem State.setGang_crews (s : State) (g : Nat) (x : Gang) : (s.setGang g x).crews = s.crews := rfl
@[simp] theorem State.setGang_gangs (s : State) (g : Nat) (x : Gang) : (s.setGang g x).gangs = tabSet s.gangs g x := rfl
@[simp] theorem State.setGang_ops (s : State) (g : Nat) (x : Gang) : (s.setGang g x).ops = s.ops := rfl
@[simp] theorem State.setGang_subs (s : State) (g : Nat) (x : Gang) : (s.setGang g x).subs = s.subs := rfl
@[simp] theorem State.setGang_launches (s : State) (g : Nat) (x : Gang) : (s.setGang g x).launches = s.launches := rfl
@[simp] theorem State.setGang_waiters (s : State) (g : Nat) (x : Gang) : (s.setGang g x).waiters = s.waiters := rfl
@[simp] theorem State.setGang_seqMaps (s : State) (g : Nat) (x : Gang) : (s.setGang g x).seqMaps = s.seqMaps := rfl
@[simp] theorem State.setGang_queues (s : State) (g : Nat) (x : Gang) : (s.setGang g x).queues = s.queues := rfl
@[simp] theorem State.setGang_slots (s : State) (g : Nat) (x : Gang) : (s.setGang g x).slots = s.slots := rfl
@[simp] theorem State.setGang_counters (s : State) (g : Nat) (x : Gang) : (s.setGang g x).counters = s.counters := rfl
@[simp] theorem State.setGang_machines (s : State) (g : Nat) (x : Gang) : (s.setGang g x).machines = s.machines := rfl
@[simp] theorem State.setGang_regs (s : State) (g : Nat) (x : Gang) : (s.setGang g x).regs = s.regs := rfl
@[simp] theorem State.setGang_mgmt (s : State) (g : Nat) (x : Gang) : (s.setGang g x).mgmt = s.mgmt := rfl
@[simp] theorem State.setGang_peers (s : State) (g : Nat) (x : Gang) : (s.setGang g x).peers = s.peers := rfl
@[simp] theorem State.setGang_birth (s : State) (g : Nat) (x : Gang) : (s.setGang g x).birth = s.birth := rfl
@[simp] theorem State.setGang_drift (s : State) (g : Nat) (x : Gang) : (s.setGang g x).drift = s.drift := rfl
@[simp] theorem State.setGang_coreErrors (s : State) (g : Nat) (x : Gang) : (s.setGang g x).coreErrors = s.coreErrors := rfl
@[simp] theorem State.setGang_intent (s : State) (g : Nat) (x : Gang) : (s.setGang g x).intent = s.intent := rfl
@[simp] theorem State.setGang_mtime (s : State) (g : Nat) (x : Gang) : (s.setGang g x).mtime = s.mtime := rfl
@[simp] theorem State.setGang_ticks (s : State) (g : Nat) (x : Gang) : (s.setGang g x).ticks = s.ticks := rfl
@[simp] theorem State.setGang_tickedAt (s : State) (g : Nat) (x : Gang) : (s.setGang g x).tickedAt = s.tickedAt := rfl
@[simp] theorem State.setGang_outbox (s : State) (g : Nat) (x : Gang) : (s.setGang g x).outbox = s.outbox := rfl
@[simp] theorem State.setGang_late (s : State) (g : Nat) (x : Gang) : (s.setGang g x).late = s.late := rfl
@[simp] theorem State.setGang_recent (s : State) (g : Nat) (x : Gang) : (s.setGang g x).recent = s.recent := rfl
@[simp] theorem State.setGang_cur (s : State) (g : Nat) (x : Gang) : (s.setGang g x).cur = s.cur := rfl
@[simp] theorem State.setGang_agenda (s : State) (g : Nat) (x : Gang) : (s.setGang g x).agenda = s.agenda := rfl
@[simp] theorem State.setGang_free (s : State) (g : Nat) (x : Gang) : (s.setGang g x).free = s.free := rfl
@[simp] theorem State.setGang_nextId (s : State) (g : Nat) (x : Gang) : (s.setGang g x).nextId = s.nextId := rfl

@[simp] theorem State.setLaunch_mem (s : State) (q : DWord) (x : Launch) : (s.setLaunch q x).mem = s.mem := rfl
@[simp] theorem State.setLaunch_pages (s : State) (q : DWord) (x : Launch) : (s.setLaunch q x).pages = s.pages := rfl
@[simp] theorem State.setLaunch_touched (s : State) (q : DWord) (x : Launch) : (s.setLaunch q x).touched = s.touched := rfl
@[simp] theorem State.setLaunch_poison (s : State) (q : DWord) (x : Launch) : (s.setLaunch q x).poison = s.poison := rfl
@[simp] theorem State.setLaunch_codeObjs (s : State) (q : DWord) (x : Launch) : (s.setLaunch q x).codeObjs = s.codeObjs := rfl
@[simp] theorem State.setLaunch_waves (s : State) (q : DWord) (x : Launch) : (s.setLaunch q x).waves = s.waves := rfl
@[simp] theorem State.setLaunch_leads (s : State) (q : DWord) (x : Launch) : (s.setLaunch q x).leads = s.leads := rfl
@[simp] theorem State.setLaunch_crews (s : State) (q : DWord) (x : Launch) : (s.setLaunch q x).crews = s.crews := rfl
@[simp] theorem State.setLaunch_gangs (s : State) (q : DWord) (x : Launch) : (s.setLaunch q x).gangs = s.gangs := rfl
@[simp] theorem State.setLaunch_ops (s : State) (q : DWord) (x : Launch) : (s.setLaunch q x).ops = s.ops := rfl
@[simp] theorem State.setLaunch_subs (s : State) (q : DWord) (x : Launch) : (s.setLaunch q x).subs = s.subs := rfl
@[simp] theorem State.setLaunch_launches (s : State) (q : DWord) (x : Launch) : (s.setLaunch q x).launches = tabSet s.launches q x := rfl
@[simp] theorem State.setLaunch_waiters (s : State) (q : DWord) (x : Launch) : (s.setLaunch q x).waiters = s.waiters := rfl
@[simp] theorem State.setLaunch_seqMaps (s : State) (q : DWord) (x : Launch) : (s.setLaunch q x).seqMaps = s.seqMaps := rfl
@[simp] theorem State.setLaunch_queues (s : State) (q : DWord) (x : Launch) : (s.setLaunch q x).queues = s.queues := rfl
@[simp] theorem State.setLaunch_slots (s : State) (q : DWord) (x : Launch) : (s.setLaunch q x).slots = s.slots := rfl
@[simp] theorem State.setLaunch_counters (s : State) (q : DWord) (x : Launch) : (s.setLaunch q x).counters = s.counters := rfl
@[simp] theorem State.setLaunch_machines (s : State) (q : DWord) (x : Launch) : (s.setLaunch q x).machines = s.machines := rfl
@[simp] theorem State.setLaunch_regs (s : State) (q : DWord) (x : Launch) : (s.setLaunch q x).regs = s.regs := rfl
@[simp] theorem State.setLaunch_mgmt (s : State) (q : DWord) (x : Launch) : (s.setLaunch q x).mgmt = s.mgmt := rfl
@[simp] theorem State.setLaunch_peers (s : State) (q : DWord) (x : Launch) : (s.setLaunch q x).peers = s.peers := rfl
@[simp] theorem State.setLaunch_birth (s : State) (q : DWord) (x : Launch) : (s.setLaunch q x).birth = s.birth := rfl
@[simp] theorem State.setLaunch_drift (s : State) (q : DWord) (x : Launch) : (s.setLaunch q x).drift = s.drift := rfl
@[simp] theorem State.setLaunch_coreErrors (s : State) (q : DWord) (x : Launch) : (s.setLaunch q x).coreErrors = s.coreErrors := rfl
@[simp] theorem State.setLaunch_intent (s : State) (q : DWord) (x : Launch) : (s.setLaunch q x).intent = s.intent := rfl
@[simp] theorem State.setLaunch_mtime (s : State) (q : DWord) (x : Launch) : (s.setLaunch q x).mtime = s.mtime := rfl
@[simp] theorem State.setLaunch_ticks (s : State) (q : DWord) (x : Launch) : (s.setLaunch q x).ticks = s.ticks := rfl
@[simp] theorem State.setLaunch_tickedAt (s : State) (q : DWord) (x : Launch) : (s.setLaunch q x).tickedAt = s.tickedAt := rfl
@[simp] theorem State.setLaunch_outbox (s : State) (q : DWord) (x : Launch) : (s.setLaunch q x).outbox = s.outbox := rfl
@[simp] theorem State.setLaunch_late (s : State) (q : DWord) (x : Launch) : (s.setLaunch q x).late = s.late := rfl
@[simp] theorem State.setLaunch_recent (s : State) (q : DWord) (x : Launch) : (s.setLaunch q x).recent = s.recent := rfl
@[simp] theorem State.setLaunch_cur (s : State) (q : DWord) (x : Launch) : (s.setLaunch q x).cur = s.cur := rfl
@[simp] theorem State.setLaunch_agenda (s : State) (q : DWord) (x : Launch) : (s.setLaunch q x).agenda = s.agenda := rfl
@[simp] theorem State.setLaunch_free (s : State) (q : DWord) (x : Launch) : (s.setLaunch q x).free = s.free := rfl
@[simp] theorem State.setLaunch_nextId (s : State) (q : DWord) (x : Launch) : (s.setLaunch q x).nextId = s.nextId := rfl

@[simp] theorem State.setOp_mem (s : State) (n : Nat) (x : Op) : (s.setOp n x).mem = s.mem := rfl
@[simp] theorem State.setOp_pages (s : State) (n : Nat) (x : Op) : (s.setOp n x).pages = s.pages := rfl
@[simp] theorem State.setOp_touched (s : State) (n : Nat) (x : Op) : (s.setOp n x).touched = s.touched := rfl
@[simp] theorem State.setOp_poison (s : State) (n : Nat) (x : Op) : (s.setOp n x).poison = s.poison := rfl
@[simp] theorem State.setOp_codeObjs (s : State) (n : Nat) (x : Op) : (s.setOp n x).codeObjs = s.codeObjs := rfl
@[simp] theorem State.setOp_waves (s : State) (n : Nat) (x : Op) : (s.setOp n x).waves = s.waves := rfl
@[simp] theorem State.setOp_leads (s : State) (n : Nat) (x : Op) : (s.setOp n x).leads = s.leads := rfl
@[simp] theorem State.setOp_crews (s : State) (n : Nat) (x : Op) : (s.setOp n x).crews = s.crews := rfl
@[simp] theorem State.setOp_gangs (s : State) (n : Nat) (x : Op) : (s.setOp n x).gangs = s.gangs := rfl
@[simp] theorem State.setOp_ops (s : State) (n : Nat) (x : Op) : (s.setOp n x).ops = tabSet s.ops n x := rfl
@[simp] theorem State.setOp_subs (s : State) (n : Nat) (x : Op) : (s.setOp n x).subs = s.subs := rfl
@[simp] theorem State.setOp_launches (s : State) (n : Nat) (x : Op) : (s.setOp n x).launches = s.launches := rfl
@[simp] theorem State.setOp_waiters (s : State) (n : Nat) (x : Op) : (s.setOp n x).waiters = s.waiters := rfl
@[simp] theorem State.setOp_seqMaps (s : State) (n : Nat) (x : Op) : (s.setOp n x).seqMaps = s.seqMaps := rfl
@[simp] theorem State.setOp_queues (s : State) (n : Nat) (x : Op) : (s.setOp n x).queues = s.queues := rfl
@[simp] theorem State.setOp_slots (s : State) (n : Nat) (x : Op) : (s.setOp n x).slots = s.slots := rfl
@[simp] theorem State.setOp_counters (s : State) (n : Nat) (x : Op) : (s.setOp n x).counters = s.counters := rfl
@[simp] theorem State.setOp_machines (s : State) (n : Nat) (x : Op) : (s.setOp n x).machines = s.machines := rfl
@[simp] theorem State.setOp_regs (s : State) (n : Nat) (x : Op) : (s.setOp n x).regs = s.regs := rfl
@[simp] theorem State.setOp_mgmt (s : State) (n : Nat) (x : Op) : (s.setOp n x).mgmt = s.mgmt := rfl
@[simp] theorem State.setOp_peers (s : State) (n : Nat) (x : Op) : (s.setOp n x).peers = s.peers := rfl
@[simp] theorem State.setOp_birth (s : State) (n : Nat) (x : Op) : (s.setOp n x).birth = s.birth := rfl
@[simp] theorem State.setOp_drift (s : State) (n : Nat) (x : Op) : (s.setOp n x).drift = s.drift := rfl
@[simp] theorem State.setOp_coreErrors (s : State) (n : Nat) (x : Op) : (s.setOp n x).coreErrors = s.coreErrors := rfl
@[simp] theorem State.setOp_intent (s : State) (n : Nat) (x : Op) : (s.setOp n x).intent = s.intent := rfl
@[simp] theorem State.setOp_mtime (s : State) (n : Nat) (x : Op) : (s.setOp n x).mtime = s.mtime := rfl
@[simp] theorem State.setOp_ticks (s : State) (n : Nat) (x : Op) : (s.setOp n x).ticks = s.ticks := rfl
@[simp] theorem State.setOp_tickedAt (s : State) (n : Nat) (x : Op) : (s.setOp n x).tickedAt = s.tickedAt := rfl
@[simp] theorem State.setOp_outbox (s : State) (n : Nat) (x : Op) : (s.setOp n x).outbox = s.outbox := rfl
@[simp] theorem State.setOp_late (s : State) (n : Nat) (x : Op) : (s.setOp n x).late = s.late := rfl
@[simp] theorem State.setOp_recent (s : State) (n : Nat) (x : Op) : (s.setOp n x).recent = s.recent := rfl
@[simp] theorem State.setOp_cur (s : State) (n : Nat) (x : Op) : (s.setOp n x).cur = s.cur := rfl
@[simp] theorem State.setOp_agenda (s : State) (n : Nat) (x : Op) : (s.setOp n x).agenda = s.agenda := rfl
@[simp] theorem State.setOp_free (s : State) (n : Nat) (x : Op) : (s.setOp n x).free = s.free := rfl
@[simp] theorem State.setOp_nextId (s : State) (n : Nat) (x : Op) : (s.setOp n x).nextId = s.nextId := rfl

@[simp] theorem State.modWave_mem (s : State) (k : WaveKey) (f : Wave → Wave) : (s.modWave k f).mem = s.mem := rfl
@[simp] theorem State.modWave_pages (s : State) (k : WaveKey) (f : Wave → Wave) : (s.modWave k f).pages = s.pages := rfl
@[simp] theorem State.modWave_touched (s : State) (k : WaveKey) (f : Wave → Wave) : (s.modWave k f).touched = s.touched := rfl
@[simp] theorem State.modWave_poison (s : State) (k : WaveKey) (f : Wave → Wave) : (s.modWave k f).poison = s.poison := rfl
@[simp] theorem State.modWave_codeObjs (s : State) (k : WaveKey) (f : Wave → Wave) : (s.modWave k f).codeObjs = s.codeObjs := rfl
@[simp] theorem State.modWave_waves (s : State) (k : WaveKey) (f : Wave → Wave) : (s.modWave k f).waves = tabMod s.waves k f := rfl
@[simp] theorem State.modWave_leads (s : State) (k : WaveKey) (f : Wave → Wave) : (s.modWave k f).leads = s.leads := rfl
@[simp] theorem State.modWave_crews (s : State) (k : WaveKey) (f : Wave → Wave) : (s.modWave k f).crews = s.crews := rfl
@[simp] theorem State.modWave_gangs (s : State) (k : WaveKey) (f : Wave → Wave) : (s.modWave k f).gangs = s.gangs := rfl
@[simp] theorem State.modWave_ops (s : State) (k : WaveKey) (f : Wave → Wave) : (s.modWave k f).ops = s.ops := rfl
@[simp] theorem State.modWave_subs (s : State) (k : WaveKey) (f : Wave → Wave) : (s.modWave k f).subs = s.subs := rfl
@[simp] theorem State.modWave_launches (s : State) (k : WaveKey) (f : Wave → Wave) : (s.modWave k f).launches = s.launches := rfl
@[simp] theorem State.modWave_waiters (s : State) (k : WaveKey) (f : Wave → Wave) : (s.modWave k f).waiters = s.waiters := rfl
@[simp] theorem State.modWave_seqMaps (s : State) (k : WaveKey) (f : Wave → Wave) : (s.modWave k f).seqMaps = s.seqMaps := rfl
@[simp] theorem State.modWave_queues (s : State) (k : WaveKey) (f : Wave → Wave) : (s.modWave k f).queues = s.queues := rfl
@[simp] theorem State.modWave_slots (s : State) (k : WaveKey) (f : Wave → Wave) : (s.modWave k f).slots = s.slots := rfl
@[simp] theorem State.modWave_counters (s : State) (k : WaveKey) (f : Wave → Wave) : (s.modWave k f).counters = s.counters := rfl
@[simp] theorem State.modWave_machines (s : State) (k : WaveKey) (f : Wave → Wave) : (s.modWave k f).machines = s.machines := rfl
@[simp] theorem State.modWave_regs (s : State) (k : WaveKey) (f : Wave → Wave) : (s.modWave k f).regs = s.regs := rfl
@[simp] theorem State.modWave_mgmt (s : State) (k : WaveKey) (f : Wave → Wave) : (s.modWave k f).mgmt = s.mgmt := rfl
@[simp] theorem State.modWave_peers (s : State) (k : WaveKey) (f : Wave → Wave) : (s.modWave k f).peers = s.peers := rfl
@[simp] theorem State.modWave_birth (s : State) (k : WaveKey) (f : Wave → Wave) : (s.modWave k f).birth = s.birth := rfl
@[simp] theorem State.modWave_drift (s : State) (k : WaveKey) (f : Wave → Wave) : (s.modWave k f).drift = s.drift := rfl
@[simp] theorem State.modWave_coreErrors (s : State) (k : WaveKey) (f : Wave → Wave) : (s.modWave k f).coreErrors = s.coreErrors := rfl
@[simp] theorem State.modWave_intent (s : State) (k : WaveKey) (f : Wave → Wave) : (s.modWave k f).intent = s.intent := rfl
@[simp] theorem State.modWave_mtime (s : State) (k : WaveKey) (f : Wave → Wave) : (s.modWave k f).mtime = s.mtime := rfl
@[simp] theorem State.modWave_ticks (s : State) (k : WaveKey) (f : Wave → Wave) : (s.modWave k f).ticks = s.ticks := rfl
@[simp] theorem State.modWave_tickedAt (s : State) (k : WaveKey) (f : Wave → Wave) : (s.modWave k f).tickedAt = s.tickedAt := rfl
@[simp] theorem State.modWave_outbox (s : State) (k : WaveKey) (f : Wave → Wave) : (s.modWave k f).outbox = s.outbox := rfl
@[simp] theorem State.modWave_late (s : State) (k : WaveKey) (f : Wave → Wave) : (s.modWave k f).late = s.late := rfl
@[simp] theorem State.modWave_recent (s : State) (k : WaveKey) (f : Wave → Wave) : (s.modWave k f).recent = s.recent := rfl
@[simp] theorem State.modWave_cur (s : State) (k : WaveKey) (f : Wave → Wave) : (s.modWave k f).cur = s.cur := rfl
@[simp] theorem State.modWave_agenda (s : State) (k : WaveKey) (f : Wave → Wave) : (s.modWave k f).agenda = s.agenda := rfl
@[simp] theorem State.modWave_free (s : State) (k : WaveKey) (f : Wave → Wave) : (s.modWave k f).free = s.free := rfl
@[simp] theorem State.modWave_nextId (s : State) (k : WaveKey) (f : Wave → Wave) : (s.modWave k f).nextId = s.nextId := rfl

@[simp] theorem State.modLead_mem (s : State) (k : CrewKey) (f : Lead → Lead) : (s.modLead k f).mem = s.mem := rfl
@[simp] theorem State.modLead_pages (s : State) (k : CrewKey) (f : Lead → Lead) : (s.modLead k f).pages = s.pages := rfl
@[simp] theorem State.modLead_touched (s : State) (k : CrewKey) (f : Lead → Lead) : (s.modLead k f).touched = s.touched := rfl
@[simp] theorem State.modLead_poison (s : State) (k : CrewKey) (f : Lead → Lead) : (s.modLead k f).poison = s.poison := rfl
@[simp] theorem State.modLead_codeObjs (s : State) (k : CrewKey) (f : Lead → Lead) : (s.modLead k f).codeObjs = s.codeObjs := rfl
@[simp] theorem State.modLead_waves (s : State) (k : CrewKey) (f : Lead → Lead) : (s.modLead k f).waves = s.waves := rfl
@[simp] theorem State.modLead_leads (s : State) (k : CrewKey) (f : Lead → Lead) : (s.modLead k f).leads = tabMod s.leads k f := rfl
@[simp] theorem State.modLead_crews (s : State) (k : CrewKey) (f : Lead → Lead) : (s.modLead k f).crews = s.crews := rfl
@[simp] theorem State.modLead_gangs (s : State) (k : CrewKey) (f : Lead → Lead) : (s.modLead k f).gangs = s.gangs := rfl
@[simp] theorem State.modLead_ops (s : State) (k : CrewKey) (f : Lead → Lead) : (s.modLead k f).ops = s.ops := rfl
@[simp] theorem State.modLead_subs (s : State) (k : CrewKey) (f : Lead → Lead) : (s.modLead k f).subs = s.subs := rfl
@[simp] theorem State.modLead_launches (s : State) (k : CrewKey) (f : Lead → Lead) : (s.modLead k f).launches = s.launches := rfl
@[simp] theorem State.modLead_waiters (s : State) (k : CrewKey) (f : Lead → Lead) : (s.modLead k f).waiters = s.waiters := rfl
@[simp] theorem State.modLead_seqMaps (s : State) (k : CrewKey) (f : Lead → Lead) : (s.modLead k f).seqMaps = s.seqMaps := rfl
@[simp] theorem State.modLead_queues (s : State) (k : CrewKey) (f : Lead → Lead) : (s.modLead k f).queues = s.queues := rfl
@[simp] theorem State.modLead_slots (s : State) (k : CrewKey) (f : Lead → Lead) : (s.modLead k f).slots = s.slots := rfl
@[simp] theorem State.modLead_counters (s : State) (k : CrewKey) (f : Lead → Lead) : (s.modLead k f).counters = s.counters := rfl
@[simp] theorem State.modLead_machines (s : State) (k : CrewKey) (f : Lead → Lead) : (s.modLead k f).machines = s.machines := rfl
@[simp] theorem State.modLead_regs (s : State) (k : CrewKey) (f : Lead → Lead) : (s.modLead k f).regs = s.regs := rfl
@[simp] theorem State.modLead_mgmt (s : State) (k : CrewKey) (f : Lead → Lead) : (s.modLead k f).mgmt = s.mgmt := rfl
@[simp] theorem State.modLead_peers (s : State) (k : CrewKey) (f : Lead → Lead) : (s.modLead k f).peers = s.peers := rfl
@[simp] theorem State.modLead_birth (s : State) (k : CrewKey) (f : Lead → Lead) : (s.modLead k f).birth = s.birth := rfl
@[simp] theorem State.modLead_drift (s : State) (k : CrewKey) (f : Lead → Lead) : (s.modLead k f).drift = s.drift := rfl
@[simp] theorem State.modLead_coreErrors (s : State) (k : CrewKey) (f : Lead → Lead) : (s.modLead k f).coreErrors = s.coreErrors := rfl
@[simp] theorem State.modLead_intent (s : State) (k : CrewKey) (f : Lead → Lead) : (s.modLead k f).intent = s.intent := rfl
@[simp] theorem State.modLead_mtime (s : State) (k : CrewKey) (f : Lead → Lead) : (s.modLead k f).mtime = s.mtime := rfl
@[simp] theorem State.modLead_ticks (s : State) (k : CrewKey) (f : Lead → Lead) : (s.modLead k f).ticks = s.ticks := rfl
@[simp] theorem State.modLead_tickedAt (s : State) (k : CrewKey) (f : Lead → Lead) : (s.modLead k f).tickedAt = s.tickedAt := rfl
@[simp] theorem State.modLead_outbox (s : State) (k : CrewKey) (f : Lead → Lead) : (s.modLead k f).outbox = s.outbox := rfl
@[simp] theorem State.modLead_late (s : State) (k : CrewKey) (f : Lead → Lead) : (s.modLead k f).late = s.late := rfl
@[simp] theorem State.modLead_recent (s : State) (k : CrewKey) (f : Lead → Lead) : (s.modLead k f).recent = s.recent := rfl
@[simp] theorem State.modLead_cur (s : State) (k : CrewKey) (f : Lead → Lead) : (s.modLead k f).cur = s.cur := rfl
@[simp] theorem State.modLead_agenda (s : State) (k : CrewKey) (f : Lead → Lead) : (s.modLead k f).agenda = s.agenda := rfl
@[simp] theorem State.modLead_free (s : State) (k : CrewKey) (f : Lead → Lead) : (s.modLead k f).free = s.free := rfl
@[simp] theorem State.modLead_nextId (s : State) (k : CrewKey) (f : Lead → Lead) : (s.modLead k f).nextId = s.nextId := rfl

@[simp] theorem State.modCrew_mem (s : State) (k : CrewKey) (f : Crew → Crew) : (s.modCrew k f).mem = s.mem := rfl
@[simp] theorem State.modCrew_pages (s : State) (k : CrewKey) (f : Crew → Crew) : (s.modCrew k f).pages = s.pages := rfl
@[simp] theorem State.modCrew_touched (s : State) (k : CrewKey) (f : Crew → Crew) : (s.modCrew k f).touched = s.touched := rfl
@[simp] theorem State.modCrew_poison (s : State) (k : CrewKey) (f : Crew → Crew) : (s.modCrew k f).poison = s.poison := rfl
@[simp] theorem State.modCrew_codeObjs (s : State) (k : CrewKey) (f : Crew → Crew) : (s.modCrew k f).codeObjs = s.codeObjs := rfl
@[simp] theorem State.modCrew_waves (s : State) (k : CrewKey) (f : Crew → Crew) : (s.modCrew k f).waves = s.waves := rfl
@[simp] theorem State.modCrew_leads (s : State) (k : CrewKey) (f : Crew → Crew) : (s.modCrew k f).leads = s.leads := rfl
@[simp] theorem State.modCrew_crews (s : State) (k : CrewKey) (f : Crew → Crew) : (s.modCrew k f).crews = tabMod s.crews k f := rfl
@[simp] theorem State.modCrew_gangs (s : State) (k : CrewKey) (f : Crew → Crew) : (s.modCrew k f).gangs = s.gangs := rfl
@[simp] theorem State.modCrew_ops (s : State) (k : CrewKey) (f : Crew → Crew) : (s.modCrew k f).ops = s.ops := rfl
@[simp] theorem State.modCrew_subs (s : State) (k : CrewKey) (f : Crew → Crew) : (s.modCrew k f).subs = s.subs := rfl
@[simp] theorem State.modCrew_launches (s : State) (k : CrewKey) (f : Crew → Crew) : (s.modCrew k f).launches = s.launches := rfl
@[simp] theorem State.modCrew_waiters (s : State) (k : CrewKey) (f : Crew → Crew) : (s.modCrew k f).waiters = s.waiters := rfl
@[simp] theorem State.modCrew_seqMaps (s : State) (k : CrewKey) (f : Crew → Crew) : (s.modCrew k f).seqMaps = s.seqMaps := rfl
@[simp] theorem State.modCrew_queues (s : State) (k : CrewKey) (f : Crew → Crew) : (s.modCrew k f).queues = s.queues := rfl
@[simp] theorem State.modCrew_slots (s : State) (k : CrewKey) (f : Crew → Crew) : (s.modCrew k f).slots = s.slots := rfl
@[simp] theorem State.modCrew_counters (s : State) (k : CrewKey) (f : Crew → Crew) : (s.modCrew k f).counters = s.counters := rfl
@[simp] theorem State.modCrew_machines (s : State) (k : CrewKey) (f : Crew → Crew) : (s.modCrew k f).machines = s.machines := rfl
@[simp] theorem State.modCrew_regs (s : State) (k : CrewKey) (f : Crew → Crew) : (s.modCrew k f).regs = s.regs := rfl
@[simp] theorem State.modCrew_mgmt (s : State) (k : CrewKey) (f : Crew → Crew) : (s.modCrew k f).mgmt = s.mgmt := rfl
@[simp] theorem State.modCrew_peers (s : State) (k : CrewKey) (f : Crew → Crew) : (s.modCrew k f).peers = s.peers := rfl
@[simp] theorem State.modCrew_birth (s : State) (k : CrewKey) (f : Crew → Crew) : (s.modCrew k f).birth = s.birth := rfl
@[simp] theorem State.modCrew_drift (s : State) (k : CrewKey) (f : Crew → Crew) : (s.modCrew k f).drift = s.drift := rfl
@[simp] theorem State.modCrew_coreErrors (s : State) (k : CrewKey) (f : Crew → Crew) : (s.modCrew k f).coreErrors = s.coreErrors := rfl
@[simp] theorem State.modCrew_intent (s : State) (k : CrewKey) (f : Crew → Crew) : (s.modCrew k f).intent = s.intent := rfl
@[simp] theorem State.modCrew_mtime (s : State) (k : CrewKey) (f : Crew → Crew) : (s.modCrew k f).mtime = s.mtime := rfl
@[simp] theorem State.modCrew_ticks (s : State) (k : CrewKey) (f : Crew → Crew) : (s.modCrew k f).ticks = s.ticks := rfl
@[simp] theorem State.modCrew_tickedAt (s : State) (k : CrewKey) (f : Crew → Crew) : (s.modCrew k f).tickedAt = s.tickedAt := rfl
@[simp] theorem State.modCrew_outbox (s : State) (k : CrewKey) (f : Crew → Crew) : (s.modCrew k f).outbox = s.outbox := rfl
@[simp] theorem State.modCrew_late (s : State) (k : CrewKey) (f : Crew → Crew) : (s.modCrew k f).late = s.late := rfl
@[simp] theorem State.modCrew_recent (s : State) (k : CrewKey) (f : Crew → Crew) : (s.modCrew k f).recent = s.recent := rfl
@[simp] theorem State.modCrew_cur (s : State) (k : CrewKey) (f : Crew → Crew) : (s.modCrew k f).cur = s.cur := rfl
@[simp] theorem State.modCrew_agenda (s : State) (k : CrewKey) (f : Crew → Crew) : (s.modCrew k f).agenda = s.agenda := rfl
@[simp] theorem State.modCrew_free (s : State) (k : CrewKey) (f : Crew → Crew) : (s.modCrew k f).free = s.free := rfl
@[simp] theorem State.modCrew_nextId (s : State) (k : CrewKey) (f : Crew → Crew) : (s.modCrew k f).nextId = s.nextId := rfl

@[simp] theorem State.modGang_mem (s : State) (g : Nat) (f : Gang → Gang) : (s.modGang g f).mem = s.mem := rfl
@[simp] theorem State.modGang_pages (s : State) (g : Nat) (f : Gang → Gang) : (s.modGang g f).pages = s.pages := rfl
@[simp] theorem State.modGang_touched (s : State) (g : Nat) (f : Gang → Gang) : (s.modGang g f).touched = s.touched := rfl
@[simp] theorem State.modGang_poison (s : State) (g : Nat) (f : Gang → Gang) : (s.modGang g f).poison = s.poison := rfl
@[simp] theorem State.modGang_codeObjs (s : State) (g : Nat) (f : Gang → Gang) : (s.modGang g f).codeObjs = s.codeObjs := rfl
@[simp] theorem State.modGang_waves (s : State) (g : Nat) (f : Gang → Gang) : (s.modGang g f).waves = s.waves := rfl
@[simp] theorem State.modGang_leads (s : State) (g : Nat) (f : Gang → Gang) : (s.modGang g f).leads = s.leads := rfl
@[simp] theorem State.modGang_crews (s : State) (g : Nat) (f : Gang → Gang) : (s.modGang g f).crews = s.crews := rfl
@[simp] theorem State.modGang_gangs (s : State) (g : Nat) (f : Gang → Gang) : (s.modGang g f).gangs = tabMod s.gangs g f := rfl
@[simp] theorem State.modGang_ops (s : State) (g : Nat) (f : Gang → Gang) : (s.modGang g f).ops = s.ops := rfl
@[simp] theorem State.modGang_subs (s : State) (g : Nat) (f : Gang → Gang) : (s.modGang g f).subs = s.subs := rfl
@[simp] theorem State.modGang_launches (s : State) (g : Nat) (f : Gang → Gang) : (s.modGang g f).launches = s.launches := rfl
@[simp] theorem State.modGang_waiters (s : State) (g : Nat) (f : Gang → Gang) : (s.modGang g f).waiters = s.waiters := rfl
@[simp] theorem State.modGang_seqMaps (s : State) (g : Nat) (f : Gang → Gang) : (s.modGang g f).seqMaps = s.seqMaps := rfl
@[simp] theorem State.modGang_queues (s : State) (g : Nat) (f : Gang → Gang) : (s.modGang g f).queues = s.queues := rfl
@[simp] theorem State.modGang_slots (s : State) (g : Nat) (f : Gang → Gang) : (s.modGang g f).slots = s.slots := rfl
@[simp] theorem State.modGang_counters (s : State) (g : Nat) (f : Gang → Gang) : (s.modGang g f).counters = s.counters := rfl
@[simp] theorem State.modGang_machines (s : State) (g : Nat) (f : Gang → Gang) : (s.modGang g f).machines = s.machines := rfl
@[simp] theorem State.modGang_regs (s : State) (g : Nat) (f : Gang → Gang) : (s.modGang g f).regs = s.regs := rfl
@[simp] theorem State.modGang_mgmt (s : State) (g : Nat) (f : Gang → Gang) : (s.modGang g f).mgmt = s.mgmt := rfl
@[simp] theorem State.modGang_peers (s : State) (g : Nat) (f : Gang → Gang) : (s.modGang g f).peers = s.peers := rfl
@[simp] theorem State.modGang_birth (s : State) (g : Nat) (f : Gang → Gang) : (s.modGang g f).birth = s.birth := rfl
@[simp] theorem State.modGang_drift (s : State) (g : Nat) (f : Gang → Gang) : (s.modGang g f).drift = s.drift := rfl
@[simp] theorem State.modGang_coreErrors (s : State) (g : Nat) (f : Gang → Gang) : (s.modGang g f).coreErrors = s.coreErrors := rfl
@[simp] theorem State.modGang_intent (s : State) (g : Nat) (f : Gang → Gang) : (s.modGang g f).intent = s.intent := rfl
@[simp] theorem State.modGang_mtime (s : State) (g : Nat) (f : Gang → Gang) : (s.modGang g f).mtime = s.mtime := rfl
@[simp] theorem State.modGang_ticks (s : State) (g : Nat) (f : Gang → Gang) : (s.modGang g f).ticks = s.ticks := rfl
@[simp] theorem State.modGang_tickedAt (s : State) (g : Nat) (f : Gang → Gang) : (s.modGang g f).tickedAt = s.tickedAt := rfl
@[simp] theorem State.modGang_outbox (s : State) (g : Nat) (f : Gang → Gang) : (s.modGang g f).outbox = s.outbox := rfl
@[simp] theorem State.modGang_late (s : State) (g : Nat) (f : Gang → Gang) : (s.modGang g f).late = s.late := rfl
@[simp] theorem State.modGang_recent (s : State) (g : Nat) (f : Gang → Gang) : (s.modGang g f).recent = s.recent := rfl
@[simp] theorem State.modGang_cur (s : State) (g : Nat) (f : Gang → Gang) : (s.modGang g f).cur = s.cur := rfl
@[simp] theorem State.modGang_agenda (s : State) (g : Nat) (f : Gang → Gang) : (s.modGang g f).agenda = s.agenda := rfl
@[simp] theorem State.modGang_free (s : State) (g : Nat) (f : Gang → Gang) : (s.modGang g f).free = s.free := rfl
@[simp] theorem State.modGang_nextId (s : State) (g : Nat) (f : Gang → Gang) : (s.modGang g f).nextId = s.nextId := rfl

@[simp] theorem State.modLaunch_mem (s : State) (q : DWord) (f : Launch → Launch) : (s.modLaunch q f).mem = s.mem := rfl
@[simp] theorem State.modLaunch_pages (s : State) (q : DWord) (f : Launch → Launch) : (s.modLaunch q f).pages = s.pages := rfl
@[simp] theorem State.modLaunch_touched (s : State) (q : DWord) (f : Launch → Launch) : (s.modLaunch q f).touched = s.touched := rfl
@[simp] theorem State.modLaunch_poison (s : State) (q : DWord) (f : Launch → Launch) : (s.modLaunch q f).poison = s.poison := rfl
@[simp] theorem State.modLaunch_codeObjs (s : State) (q : DWord) (f : Launch → Launch) : (s.modLaunch q f).codeObjs = s.codeObjs := rfl
@[simp] theorem State.modLaunch_waves (s : State) (q : DWord) (f : Launch → Launch) : (s.modLaunch q f).waves = s.waves := rfl
@[simp] theorem State.modLaunch_leads (s : State) (q : DWord) (f : Launch → Launch) : (s.modLaunch q f).leads = s.leads := rfl
@[simp] theorem State.modLaunch_crews (s : State) (q : DWord) (f : Launch → Launch) : (s.modLaunch q f).crews = s.crews := rfl
@[simp] theorem State.modLaunch_gangs (s : State) (q : DWord) (f : Launch → Launch) : (s.modLaunch q f).gangs = s.gangs := rfl
@[simp] theorem State.modLaunch_ops (s : State) (q : DWord) (f : Launch → Launch) : (s.modLaunch q f).ops = s.ops := rfl
@[simp] theorem State.modLaunch_subs (s : State) (q : DWord) (f : Launch → Launch) : (s.modLaunch q f).subs = s.subs := rfl
@[simp] theorem State.modLaunch_launches (s : State) (q : DWord) (f : Launch → Launch) : (s.modLaunch q f).launches = tabMod s.launches q f := rfl
@[simp] theorem State.modLaunch_waiters (s : State) (q : DWord) (f : Launch → Launch) : (s.modLaunch q f).waiters = s.waiters := rfl
@[simp] theorem State.modLaunch_seqMaps (s : State) (q : DWord) (f : Launch → Launch) : (s.modLaunch q f).seqMaps = s.seqMaps := rfl
@[simp] theorem State.modLaunch_queues (s : State) (q : DWord) (f : Launch → Launch) : (s.modLaunch q f).queues = s.queues := rfl
@[simp] theorem State.modLaunch_slots (s : State) (q : DWord) (f : Launch → Launch) : (s.modLaunch q f).slots = s.slots := rfl
@[simp] theorem State.modLaunch_counters (s : State) (q : DWord) (f : Launch → Launch) : (s.modLaunch q f).counters = s.counters := rfl
@[simp] theorem State.modLaunch_machines (s : State) (q : DWord) (f : Launch → Launch) : (s.modLaunch q f).machines = s.machines := rfl
@[simp] theorem State.modLaunch_regs (s : State) (q : DWord) (f : Launch → Launch) : (s.modLaunch q f).regs = s.regs := rfl
@[simp] theorem State.modLaunch_mgmt (s : State) (q : DWord) (f : Launch → Launch) : (s.modLaunch q f).mgmt = s.mgmt := rfl
@[simp] theorem State.modLaunch_peers (s : State) (q : DWord) (f : Launch → Launch) : (s.modLaunch q f).peers = s.peers := rfl
@[simp] theorem State.modLaunch_birth (s : State) (q : DWord) (f : Launch → Launch) : (s.modLaunch q f).birth = s.birth := rfl
@[simp] theorem State.modLaunch_drift (s : State) (q : DWord) (f : Launch → Launch) : (s.modLaunch q f).drift = s.drift := rfl
@[simp] theorem State.modLaunch_coreErrors (s : State) (q : DWord) (f : Launch → Launch) : (s.modLaunch q f).coreErrors = s.coreErrors := rfl
@[simp] theorem State.modLaunch_intent (s : State) (q : DWord) (f : Launch → Launch) : (s.modLaunch q f).intent = s.intent := rfl
@[simp] theorem State.modLaunch_mtime (s : State) (q : DWord) (f : Launch → Launch) : (s.modLaunch q f).mtime = s.mtime := rfl
@[simp] theorem State.modLaunch_ticks (s : State) (q : DWord) (f : Launch → Launch) : (s.modLaunch q f).ticks = s.ticks := rfl
@[simp] theorem State.modLaunch_tickedAt (s : State) (q : DWord) (f : Launch → Launch) : (s.modLaunch q f).tickedAt = s.tickedAt := rfl
@[simp] theorem State.modLaunch_outbox (s : State) (q : DWord) (f : Launch → Launch) : (s.modLaunch q f).outbox = s.outbox := rfl
@[simp] theorem State.modLaunch_late (s : State) (q : DWord) (f : Launch → Launch) : (s.modLaunch q f).late = s.late := rfl
@[simp] theorem State.modLaunch_recent (s : State) (q : DWord) (f : Launch → Launch) : (s.modLaunch q f).recent = s.recent := rfl
@[simp] theorem State.modLaunch_cur (s : State) (q : DWord) (f : Launch → Launch) : (s.modLaunch q f).cur = s.cur := rfl
@[simp] theorem State.modLaunch_agenda (s : State) (q : DWord) (f : Launch → Launch) : (s.modLaunch q f).agenda = s.agenda := rfl
@[simp] theorem State.modLaunch_free (s : State) (q : DWord) (f : Launch → Launch) : (s.modLaunch q f).free = s.free := rfl
@[simp] theorem State.modLaunch_nextId (s : State) (q : DWord) (f : Launch → Launch) : (s.modLaunch q f).nextId = s.nextId := rfl

@[simp] theorem State.spend_mem (s : State) : (s.spend).mem = s.mem := rfl
@[simp] theorem State.spend_pages (s : State) : (s.spend).pages = s.pages := rfl
@[simp] theorem State.spend_touched (s : State) : (s.spend).touched = s.touched := rfl
@[simp] theorem State.spend_poison (s : State) : (s.spend).poison = s.poison := rfl
@[simp] theorem State.spend_codeObjs (s : State) : (s.spend).codeObjs = s.codeObjs := rfl
@[simp] theorem State.spend_waves (s : State) : (s.spend).waves = s.waves := rfl
@[simp] theorem State.spend_leads (s : State) : (s.spend).leads = s.leads := rfl
@[simp] theorem State.spend_crews (s : State) : (s.spend).crews = s.crews := rfl
@[simp] theorem State.spend_gangs (s : State) : (s.spend).gangs = s.gangs := rfl
@[simp] theorem State.spend_ops (s : State) : (s.spend).ops = s.ops := rfl
@[simp] theorem State.spend_subs (s : State) : (s.spend).subs = s.subs := rfl
@[simp] theorem State.spend_launches (s : State) : (s.spend).launches = s.launches := rfl
@[simp] theorem State.spend_waiters (s : State) : (s.spend).waiters = s.waiters := rfl
@[simp] theorem State.spend_seqMaps (s : State) : (s.spend).seqMaps = s.seqMaps := rfl
@[simp] theorem State.spend_queues (s : State) : (s.spend).queues = s.queues := rfl
@[simp] theorem State.spend_slots (s : State) : (s.spend).slots = s.slots := rfl
@[simp] theorem State.spend_counters (s : State) : (s.spend).counters = s.counters := rfl
@[simp] theorem State.spend_machines (s : State) : (s.spend).machines = s.machines := rfl
@[simp] theorem State.spend_regs (s : State) : (s.spend).regs = s.regs := rfl
@[simp] theorem State.spend_mgmt (s : State) : (s.spend).mgmt = s.mgmt := rfl
@[simp] theorem State.spend_peers (s : State) : (s.spend).peers = s.peers := rfl
@[simp] theorem State.spend_birth (s : State) : (s.spend).birth = s.birth := rfl
@[simp] theorem State.spend_drift (s : State) : (s.spend).drift = s.drift := rfl
@[simp] theorem State.spend_coreErrors (s : State) : (s.spend).coreErrors = s.coreErrors := rfl
@[simp] theorem State.spend_intent (s : State) : (s.spend).intent = s.intent := rfl
@[simp] theorem State.spend_mtime (s : State) : (s.spend).mtime = s.mtime := rfl
@[simp] theorem State.spend_ticks (s : State) : (s.spend).ticks = s.ticks := rfl
@[simp] theorem State.spend_tickedAt (s : State) : (s.spend).tickedAt = s.tickedAt := rfl
@[simp] theorem State.spend_outbox (s : State) : (s.spend).outbox = s.outbox := rfl
@[simp] theorem State.spend_late (s : State) : (s.spend).late = s.late := rfl
@[simp] theorem State.spend_recent (s : State) : (s.spend).recent = s.recent := rfl
@[simp] theorem State.spend_cur (s : State) : (s.spend).cur = s.cur := rfl
@[simp] theorem State.spend_agenda (s : State) : (s.spend).agenda = s.agenda := rfl
@[simp] theorem State.spend_free (s : State) : (s.spend).free = s.free + 65536 := rfl
@[simp] theorem State.spend_nextId (s : State) : (s.spend).nextId = s.nextId := rfl

@[simp] theorem State.modSplit_mem (s : State) (c : WCtx) (f : Split → Split) : (s.modSplit c f).mem = s.mem := rfl
@[simp] theorem State.modSplit_pages (s : State) (c : WCtx) (f : Split → Split) : (s.modSplit c f).pages = s.pages := rfl
@[simp] theorem State.modSplit_touched (s : State) (c : WCtx) (f : Split → Split) : (s.modSplit c f).touched = s.touched := rfl
@[simp] theorem State.modSplit_poison (s : State) (c : WCtx) (f : Split → Split) : (s.modSplit c f).poison = s.poison := rfl
@[simp] theorem State.modSplit_codeObjs (s : State) (c : WCtx) (f : Split → Split) : (s.modSplit c f).codeObjs = s.codeObjs := rfl
@[simp] theorem State.modSplit_waves (s : State) (c : WCtx) (f : Split → Split) : (s.modSplit c f).waves = tabMod s.waves c.key fun w => w.setSlot c.slot ((w.slot c.slot).map f) := rfl
@[simp] theorem State.modSplit_leads (s : State) (c : WCtx) (f : Split → Split) : (s.modSplit c f).leads = s.leads := rfl
@[simp] theorem State.modSplit_crews (s : State) (c : WCtx) (f : Split → Split) : (s.modSplit c f).crews = s.crews := rfl
@[simp] theorem State.modSplit_gangs (s : State) (c : WCtx) (f : Split → Split) : (s.modSplit c f).gangs = s.gangs := rfl
@[simp] theorem State.modSplit_ops (s : State) (c : WCtx) (f : Split → Split) : (s.modSplit c f).ops = s.ops := rfl
@[simp] theorem State.modSplit_subs (s : State) (c : WCtx) (f : Split → Split) : (s.modSplit c f).subs = s.subs := rfl
@[simp] theorem State.modSplit_launches (s : State) (c : WCtx) (f : Split → Split) : (s.modSplit c f).launches = s.launches := rfl
@[simp] theorem State.modSplit_waiters (s : State) (c : WCtx) (f : Split → Split) : (s.modSplit c f).waiters = s.waiters := rfl
@[simp] theorem State.modSplit_seqMaps (s : State) (c : WCtx) (f : Split → Split) : (s.modSplit c f).seqMaps = s.seqMaps := rfl
@[simp] theorem State.modSplit_queues (s : State) (c : WCtx) (f : Split → Split) : (s.modSplit c f).queues = s.queues := rfl
@[simp] theorem State.modSplit_slots (s : State) (c : WCtx) (f : Split → Split) : (s.modSplit c f).slots = s.slots := rfl
@[simp] theorem State.modSplit_counters (s : State) (c : WCtx) (f : Split → Split) : (s.modSplit c f).counters = s.counters := rfl
@[simp] theorem State.modSplit_machines (s : State) (c : WCtx) (f : Split → Split) : (s.modSplit c f).machines = s.machines := rfl
@[simp] theorem State.modSplit_regs (s : State) (c : WCtx) (f : Split → Split) : (s.modSplit c f).regs = s.regs := rfl
@[simp] theorem State.modSplit_mgmt (s : State) (c : WCtx) (f : Split → Split) : (s.modSplit c f).mgmt = s.mgmt := rfl
@[simp] theorem State.modSplit_peers (s : State) (c : WCtx) (f : Split → Split) : (s.modSplit c f).peers = s.peers := rfl
@[simp] theorem State.modSplit_birth (s : State) (c : WCtx) (f : Split → Split) : (s.modSplit c f).birth = s.birth := rfl
@[simp] theorem State.modSplit_drift (s : State) (c : WCtx) (f : Split → Split) : (s.modSplit c f).drift = s.drift := rfl
@[simp] theorem State.modSplit_coreErrors (s : State) (c : WCtx) (f : Split → Split) : (s.modSplit c f).coreErrors = s.coreErrors := rfl
@[simp] theorem State.modSplit_intent (s : State) (c : WCtx) (f : Split → Split) : (s.modSplit c f).intent = s.intent := rfl
@[simp] theorem State.modSplit_mtime (s : State) (c : WCtx) (f : Split → Split) : (s.modSplit c f).mtime = s.mtime := rfl
@[simp] theorem State.modSplit_ticks (s : State) (c : WCtx) (f : Split → Split) : (s.modSplit c f).ticks = s.ticks := rfl
@[simp] theorem State.modSplit_tickedAt (s : State) (c : WCtx) (f : Split → Split) : (s.modSplit c f).tickedAt = s.tickedAt := rfl
@[simp] theorem State.modSplit_outbox (s : State) (c : WCtx) (f : Split → Split) : (s.modSplit c f).outbox = s.outbox := rfl
@[simp] theorem State.modSplit_late (s : State) (c : WCtx) (f : Split → Split) : (s.modSplit c f).late = s.late := rfl
@[simp] theorem State.modSplit_recent (s : State) (c : WCtx) (f : Split → Split) : (s.modSplit c f).recent = s.recent := rfl
@[simp] theorem State.modSplit_cur (s : State) (c : WCtx) (f : Split → Split) : (s.modSplit c f).cur = s.cur := rfl
@[simp] theorem State.modSplit_agenda (s : State) (c : WCtx) (f : Split → Split) : (s.modSplit c f).agenda = s.agenda := rfl
@[simp] theorem State.modSplit_free (s : State) (c : WCtx) (f : Split → Split) : (s.modSplit c f).free = s.free := rfl
@[simp] theorem State.modSplit_nextId (s : State) (c : WCtx) (f : Split → Split) : (s.modSplit c f).nextId = s.nextId := rfl

@[simp] theorem State.stallWave_mem (s : State) (c : WCtx) (w : SplitWait) : (s.stallWave c w).mem = s.mem := rfl
@[simp] theorem State.stallWave_pages (s : State) (c : WCtx) (w : SplitWait) : (s.stallWave c w).pages = s.pages := rfl
@[simp] theorem State.stallWave_touched (s : State) (c : WCtx) (w : SplitWait) : (s.stallWave c w).touched = s.touched := rfl
@[simp] theorem State.stallWave_poison (s : State) (c : WCtx) (w : SplitWait) : (s.stallWave c w).poison = s.poison := rfl
@[simp] theorem State.stallWave_codeObjs (s : State) (c : WCtx) (w : SplitWait) : (s.stallWave c w).codeObjs = s.codeObjs := rfl
@[simp] theorem State.stallWave_waves (s : State) (c : WCtx) (w : SplitWait) : (s.stallWave c w).waves = tabMod s.waves c.key fun x => x.setSlot c.slot ((x.slot c.slot).map fun p => { p with wait := w }) := rfl
@[simp] theorem State.stallWave_leads (s : State) (c : WCtx) (w : SplitWait) : (s.stallWave c w).leads = s.leads := rfl
@[simp] theorem State.stallWave_crews (s : State) (c : WCtx) (w : SplitWait) : (s.stallWave c w).crews = s.crews := rfl
@[simp] theorem State.stallWave_gangs (s : State) (c : WCtx) (w : SplitWait) : (s.stallWave c w).gangs = s.gangs := rfl
@[simp] theorem State.stallWave_ops (s : State) (c : WCtx) (w : SplitWait) : (s.stallWave c w).ops = s.ops := rfl
@[simp] theorem State.stallWave_subs (s : State) (c : WCtx) (w : SplitWait) : (s.stallWave c w).subs = s.subs := rfl
@[simp] theorem State.stallWave_launches (s : State) (c : WCtx) (w : SplitWait) : (s.stallWave c w).launches = s.launches := rfl
@[simp] theorem State.stallWave_waiters (s : State) (c : WCtx) (w : SplitWait) : (s.stallWave c w).waiters = s.waiters := rfl
@[simp] theorem State.stallWave_seqMaps (s : State) (c : WCtx) (w : SplitWait) : (s.stallWave c w).seqMaps = s.seqMaps := rfl
@[simp] theorem State.stallWave_queues (s : State) (c : WCtx) (w : SplitWait) : (s.stallWave c w).queues = s.queues := rfl
@[simp] theorem State.stallWave_slots (s : State) (c : WCtx) (w : SplitWait) : (s.stallWave c w).slots = s.slots := rfl
@[simp] theorem State.stallWave_counters (s : State) (c : WCtx) (w : SplitWait) : (s.stallWave c w).counters = s.counters := rfl
@[simp] theorem State.stallWave_machines (s : State) (c : WCtx) (w : SplitWait) : (s.stallWave c w).machines = s.machines := rfl
@[simp] theorem State.stallWave_regs (s : State) (c : WCtx) (w : SplitWait) : (s.stallWave c w).regs = s.regs := rfl
@[simp] theorem State.stallWave_mgmt (s : State) (c : WCtx) (w : SplitWait) : (s.stallWave c w).mgmt = s.mgmt := rfl
@[simp] theorem State.stallWave_peers (s : State) (c : WCtx) (w : SplitWait) : (s.stallWave c w).peers = s.peers := rfl
@[simp] theorem State.stallWave_birth (s : State) (c : WCtx) (w : SplitWait) : (s.stallWave c w).birth = s.birth := rfl
@[simp] theorem State.stallWave_drift (s : State) (c : WCtx) (w : SplitWait) : (s.stallWave c w).drift = s.drift := rfl
@[simp] theorem State.stallWave_coreErrors (s : State) (c : WCtx) (w : SplitWait) : (s.stallWave c w).coreErrors = s.coreErrors := rfl
@[simp] theorem State.stallWave_intent (s : State) (c : WCtx) (w : SplitWait) : (s.stallWave c w).intent = s.intent := rfl
@[simp] theorem State.stallWave_mtime (s : State) (c : WCtx) (w : SplitWait) : (s.stallWave c w).mtime = s.mtime := rfl
@[simp] theorem State.stallWave_ticks (s : State) (c : WCtx) (w : SplitWait) : (s.stallWave c w).ticks = s.ticks := rfl
@[simp] theorem State.stallWave_tickedAt (s : State) (c : WCtx) (w : SplitWait) : (s.stallWave c w).tickedAt = s.tickedAt := rfl
@[simp] theorem State.stallWave_outbox (s : State) (c : WCtx) (w : SplitWait) : (s.stallWave c w).outbox = s.outbox := rfl
@[simp] theorem State.stallWave_late (s : State) (c : WCtx) (w : SplitWait) : (s.stallWave c w).late = s.late := rfl
@[simp] theorem State.stallWave_recent (s : State) (c : WCtx) (w : SplitWait) : (s.stallWave c w).recent = s.recent := rfl
@[simp] theorem State.stallWave_cur (s : State) (c : WCtx) (w : SplitWait) : (s.stallWave c w).cur = s.cur := rfl
@[simp] theorem State.stallWave_agenda (s : State) (c : WCtx) (w : SplitWait) : (s.stallWave c w).agenda = s.agenda := rfl
@[simp] theorem State.stallWave_free (s : State) (c : WCtx) (w : SplitWait) : (s.stallWave c w).free = s.free := rfl
@[simp] theorem State.stallWave_nextId (s : State) (c : WCtx) (w : SplitWait) : (s.stallWave c w).nextId = s.nextId := rfl

@[simp] theorem State.stallLead_mem (s : State) (c : LCtx) (w : LeadWait) : (s.stallLead c w).mem = s.mem := rfl
@[simp] theorem State.stallLead_pages (s : State) (c : LCtx) (w : LeadWait) : (s.stallLead c w).pages = s.pages := rfl
@[simp] theorem State.stallLead_touched (s : State) (c : LCtx) (w : LeadWait) : (s.stallLead c w).touched = s.touched := rfl
@[simp] theorem State.stallLead_poison (s : State) (c : LCtx) (w : LeadWait) : (s.stallLead c w).poison = s.poison := rfl
@[simp] theorem State.stallLead_codeObjs (s : State) (c : LCtx) (w : LeadWait) : (s.stallLead c w).codeObjs = s.codeObjs := rfl
@[simp] theorem State.stallLead_waves (s : State) (c : LCtx) (w : LeadWait) : (s.stallLead c w).waves = s.waves := rfl
@[simp] theorem State.stallLead_leads (s : State) (c : LCtx) (w : LeadWait) : (s.stallLead c w).leads = tabMod s.leads c.key fun l => { l with wait := w } := rfl
@[simp] theorem State.stallLead_crews (s : State) (c : LCtx) (w : LeadWait) : (s.stallLead c w).crews = s.crews := rfl
@[simp] theorem State.stallLead_gangs (s : State) (c : LCtx) (w : LeadWait) : (s.stallLead c w).gangs = s.gangs := rfl
@[simp] theorem State.stallLead_ops (s : State) (c : LCtx) (w : LeadWait) : (s.stallLead c w).ops = s.ops := rfl
@[simp] theorem State.stallLead_subs (s : State) (c : LCtx) (w : LeadWait) : (s.stallLead c w).subs = s.subs := rfl
@[simp] theorem State.stallLead_launches (s : State) (c : LCtx) (w : LeadWait) : (s.stallLead c w).launches = s.launches := rfl
@[simp] theorem State.stallLead_waiters (s : State) (c : LCtx) (w : LeadWait) : (s.stallLead c w).waiters = s.waiters := rfl
@[simp] theorem State.stallLead_seqMaps (s : State) (c : LCtx) (w : LeadWait) : (s.stallLead c w).seqMaps = s.seqMaps := rfl
@[simp] theorem State.stallLead_queues (s : State) (c : LCtx) (w : LeadWait) : (s.stallLead c w).queues = s.queues := rfl
@[simp] theorem State.stallLead_slots (s : State) (c : LCtx) (w : LeadWait) : (s.stallLead c w).slots = s.slots := rfl
@[simp] theorem State.stallLead_counters (s : State) (c : LCtx) (w : LeadWait) : (s.stallLead c w).counters = s.counters := rfl
@[simp] theorem State.stallLead_machines (s : State) (c : LCtx) (w : LeadWait) : (s.stallLead c w).machines = s.machines := rfl
@[simp] theorem State.stallLead_regs (s : State) (c : LCtx) (w : LeadWait) : (s.stallLead c w).regs = s.regs := rfl
@[simp] theorem State.stallLead_mgmt (s : State) (c : LCtx) (w : LeadWait) : (s.stallLead c w).mgmt = s.mgmt := rfl
@[simp] theorem State.stallLead_peers (s : State) (c : LCtx) (w : LeadWait) : (s.stallLead c w).peers = s.peers := rfl
@[simp] theorem State.stallLead_birth (s : State) (c : LCtx) (w : LeadWait) : (s.stallLead c w).birth = s.birth := rfl
@[simp] theorem State.stallLead_drift (s : State) (c : LCtx) (w : LeadWait) : (s.stallLead c w).drift = s.drift := rfl
@[simp] theorem State.stallLead_coreErrors (s : State) (c : LCtx) (w : LeadWait) : (s.stallLead c w).coreErrors = s.coreErrors := rfl
@[simp] theorem State.stallLead_intent (s : State) (c : LCtx) (w : LeadWait) : (s.stallLead c w).intent = s.intent := rfl
@[simp] theorem State.stallLead_mtime (s : State) (c : LCtx) (w : LeadWait) : (s.stallLead c w).mtime = s.mtime := rfl
@[simp] theorem State.stallLead_ticks (s : State) (c : LCtx) (w : LeadWait) : (s.stallLead c w).ticks = s.ticks := rfl
@[simp] theorem State.stallLead_tickedAt (s : State) (c : LCtx) (w : LeadWait) : (s.stallLead c w).tickedAt = s.tickedAt := rfl
@[simp] theorem State.stallLead_outbox (s : State) (c : LCtx) (w : LeadWait) : (s.stallLead c w).outbox = s.outbox := rfl
@[simp] theorem State.stallLead_late (s : State) (c : LCtx) (w : LeadWait) : (s.stallLead c w).late = s.late := rfl
@[simp] theorem State.stallLead_recent (s : State) (c : LCtx) (w : LeadWait) : (s.stallLead c w).recent = s.recent := rfl
@[simp] theorem State.stallLead_cur (s : State) (c : LCtx) (w : LeadWait) : (s.stallLead c w).cur = s.cur := rfl
@[simp] theorem State.stallLead_agenda (s : State) (c : LCtx) (w : LeadWait) : (s.stallLead c w).agenda = s.agenda := rfl
@[simp] theorem State.stallLead_free (s : State) (c : LCtx) (w : LeadWait) : (s.stallLead c w).free = s.free := rfl
@[simp] theorem State.stallLead_nextId (s : State) (c : LCtx) (w : LeadWait) : (s.stallLead c w).nextId = s.nextId := rfl

@[simp] theorem State.wr_mem (s : State) (pa : Nat) (bs : List Byte) : (s.wr pa bs).mem = memWrites s.mem pa bs := rfl
@[simp] theorem State.wr_pages (s : State) (pa : Nat) (bs : List Byte) : (s.wr pa bs).pages = s.pages := rfl
@[simp] theorem State.wr_touched (s : State) (pa : Nat) (bs : List Byte) : (s.wr pa bs).touched = s.touched := rfl
@[simp] theorem State.wr_codeObjs (s : State) (pa : Nat) (bs : List Byte) : (s.wr pa bs).codeObjs = s.codeObjs := rfl
@[simp] theorem State.wr_waves (s : State) (pa : Nat) (bs : List Byte) : (s.wr pa bs).waves = s.waves := rfl
@[simp] theorem State.wr_leads (s : State) (pa : Nat) (bs : List Byte) : (s.wr pa bs).leads = s.leads := rfl
@[simp] theorem State.wr_crews (s : State) (pa : Nat) (bs : List Byte) : (s.wr pa bs).crews = s.crews := rfl
@[simp] theorem State.wr_ops (s : State) (pa : Nat) (bs : List Byte) : (s.wr pa bs).ops = s.ops := rfl
@[simp] theorem State.wr_subs (s : State) (pa : Nat) (bs : List Byte) : (s.wr pa bs).subs = s.subs := rfl
@[simp] theorem State.wr_launches (s : State) (pa : Nat) (bs : List Byte) : (s.wr pa bs).launches = s.launches := rfl
@[simp] theorem State.wr_seqMaps (s : State) (pa : Nat) (bs : List Byte) : (s.wr pa bs).seqMaps = s.seqMaps := rfl
@[simp] theorem State.wr_queues (s : State) (pa : Nat) (bs : List Byte) : (s.wr pa bs).queues = s.queues := rfl
@[simp] theorem State.wr_slots (s : State) (pa : Nat) (bs : List Byte) : (s.wr pa bs).slots = s.slots := rfl
@[simp] theorem State.wr_counters (s : State) (pa : Nat) (bs : List Byte) : (s.wr pa bs).counters = s.counters := rfl
@[simp] theorem State.wr_machines (s : State) (pa : Nat) (bs : List Byte) : (s.wr pa bs).machines = s.machines := rfl
@[simp] theorem State.wr_regs (s : State) (pa : Nat) (bs : List Byte) : (s.wr pa bs).regs = s.regs := rfl
@[simp] theorem State.wr_mgmt (s : State) (pa : Nat) (bs : List Byte) : (s.wr pa bs).mgmt = s.mgmt := rfl
@[simp] theorem State.wr_peers (s : State) (pa : Nat) (bs : List Byte) : (s.wr pa bs).peers = s.peers := rfl
@[simp] theorem State.wr_birth (s : State) (pa : Nat) (bs : List Byte) : (s.wr pa bs).birth = s.birth := rfl
@[simp] theorem State.wr_drift (s : State) (pa : Nat) (bs : List Byte) : (s.wr pa bs).drift = s.drift := rfl
@[simp] theorem State.wr_coreErrors (s : State) (pa : Nat) (bs : List Byte) : (s.wr pa bs).coreErrors = s.coreErrors := rfl
@[simp] theorem State.wr_intent (s : State) (pa : Nat) (bs : List Byte) : (s.wr pa bs).intent = s.intent := rfl
@[simp] theorem State.wr_mtime (s : State) (pa : Nat) (bs : List Byte) : (s.wr pa bs).mtime = s.mtime := rfl
@[simp] theorem State.wr_ticks (s : State) (pa : Nat) (bs : List Byte) : (s.wr pa bs).ticks = s.ticks := rfl
@[simp] theorem State.wr_tickedAt (s : State) (pa : Nat) (bs : List Byte) : (s.wr pa bs).tickedAt = s.tickedAt := rfl
@[simp] theorem State.wr_outbox (s : State) (pa : Nat) (bs : List Byte) : (s.wr pa bs).outbox = s.outbox := rfl
@[simp] theorem State.wr_recent (s : State) (pa : Nat) (bs : List Byte) : (s.wr pa bs).recent = s.recent := rfl
@[simp] theorem State.wr_cur (s : State) (pa : Nat) (bs : List Byte) : (s.wr pa bs).cur = s.cur := rfl
@[simp] theorem State.wr_agenda (s : State) (pa : Nat) (bs : List Byte) : (s.wr pa bs).agenda = s.agenda := rfl
@[simp] theorem State.wr_free (s : State) (pa : Nat) (bs : List Byte) : (s.wr pa bs).free = s.free := rfl
@[simp] theorem State.wr_nextId (s : State) (pa : Nat) (bs : List Byte) : (s.wr pa bs).nextId = s.nextId := rfl

end Sys2Proof.Machine
end

