-- ==== Sys2Proof/Laws/Table.lean ====
section
/-!
SUPPORT. Tables: what a lookup gives after a set, a deletion or a change, and that every operation keeps one entry for a key.
-/

namespace Sys2Proof.Machine

variable {κ α : Type} [DecidableEq κ]

@[simp] theorem tabGet_nil (k : κ) : tabGet ([] : List (κ × α)) k = none := rfl

theorem tabGet_cons (j k : κ) (a : α) (t : List (κ × α)) :
    tabGet ((j, a) :: t) k = if j = k then some a else tabGet t k := rfl

/-- A key that was set gives the value it was set to. -/
@[simp] theorem tabGet_tabSet_same (t : List (κ × α)) (k : κ) (a : α) : tabGet (tabSet t k a) k = some a := by
  induction t with
  | nil => simp [tabSet, tabGet]
  | cons e t ih =>
    simp only [tabSet]
    split
    · simp [tabGet]
    · simp [tabGet, *]

/-- Setting one key leaves the others. -/
theorem tabGet_tabSet_other (t : List (κ × α)) {j k : κ} (h : j ≠ k) (a : α) : tabGet (tabSet t j a) k = tabGet t k := by
  induction t with
  | nil => simp [tabSet, tabGet, h]
  | cons e t ih =>
    obtain ⟨i, b⟩ := e
    simp only [tabSet]
    split
    · subst i; simp [tabGet, h]
    · simp [tabGet, ih]

theorem tabGet_tabSet (t : List (κ × α)) (j k : κ) (a : α) :
    tabGet (tabSet t j a) k = if j = k then some a else tabGet t k := by
  by_cases h : j = k
  · subst h; simp
  · simp [h, tabGet_tabSet_other t h]

/-- A deleted key is gone, and the others stay. -/
theorem tabGet_tabDel (t : List (κ × α)) (j k : κ) : tabGet (tabDel t j) k = if j = k then none else tabGet t k := by
  induction t with
  | nil => simp [tabDel, tabGet]
  | cons e t ih =>
    obtain ⟨i, b⟩ := e
    simp only [tabDel, List.filter_cons] at ih ⊢
    by_cases hi : i = j
    · subst i; by_cases hk : j = k <;> simp_all [tabGet]
    · by_cases hk : i = k
      · have : j ≠ k := fun h => hi (hk.trans h.symm)
        simp_all [tabGet]
      · simp_all [tabGet]

/-- A change applies to the value under its key, if there is one. -/
theorem tabGet_tabMod (t : List (κ × α)) (j k : κ) (f : α → α) :
    tabGet (tabMod t j f) k = if j = k then (tabGet t k).map f else tabGet t k := by
  simp only [tabMod]
  split
  · rename_i h
    by_cases hj : j = k
    · subst hj; simp [h]
    · simp [hj]
  · rename_i a h
    by_cases hj : j = k
    · subst hj; simp [h]
    · simp [hj, tabGet_tabSet_other t hj]

@[simp] theorem tabGet_tabMod_same (t : List (κ × α)) (k : κ) (f : α → α) : tabGet (tabMod t k f) k = (tabGet t k).map f := by
  simp [tabGet_tabMod]

theorem tabGet_tabMod_other (t : List (κ × α)) {j k : κ} (h : j ≠ k) (f : α → α) : tabGet (tabMod t j f) k = tabGet t k := by
  simp [tabGet_tabMod, h]

/-- The later of two values under one key stands. -/
@[simp] theorem tabSet_tabSet (t : List (κ × α)) (k : κ) (a b : α) : tabSet (tabSet t k a) k b = tabSet t k b := by
  induction t with
  | nil => simp [tabSet]
  | cons e t ih =>
    obtain ⟨j, c⟩ := e
    by_cases h : j = k
    · simp [tabSet, h]
    · simp [tabSet, h, ih]

/-- What is in a table after a set was there before, or is what was set. -/
theorem mem_tabSet {t : List (κ × α)} {k : κ} {a : α} {e : κ × α} (h : e ∈ tabSet t k a) : e ∈ t ∨ e = (k, a) := by
  induction t with
  | nil => simpa [tabSet] using h
  | cons b t ih =>
    simp only [tabSet] at h
    split at h
    · rcases List.mem_cons.1 h with h | h
      · exact .inr h
      · exact .inl (List.mem_cons_of_mem _ h)
    · rcases List.mem_cons.1 h with h | h
      · exact .inl (h ▸ List.mem_cons_self)
      · exact (ih h).imp (List.mem_cons_of_mem _) id

/-- What a lookup gives is in the table. -/
theorem mem_of_tabGet {t : List (κ × α)} {k : κ} {a : α} (h : tabGet t k = some a) : (k, a) ∈ t := by
  induction t with
  | nil => simp [tabGet] at h
  | cons e t ih =>
    obtain ⟨i, b⟩ := e
    simp only [tabGet] at h
    split at h
    · rename_i hi; cases h; subst hi; exact List.mem_cons_self
    · exact List.mem_cons_of_mem _ (ih h)

theorem mem_tabMod {t : List (κ × α)} {k : κ} {f : α → α} {e : κ × α} (h : e ∈ tabMod t k f) :
    e ∈ t ∨ ∃ a, (k, a) ∈ t ∧ e = (k, f a) := by
  simp only [tabMod] at h
  split at h
  · exact .inl h
  · rename_i a ha
    exact (mem_tabSet h).imp id fun he => ⟨a, mem_of_tabGet ha, he⟩

/-- A set adds no key that was there. -/
theorem distinctKeys_tabSet {t : List (κ × α)} (h : distinctKeys t) (k : κ) (a : α) : distinctKeys (tabSet t k a) := by
  induction t with
  | nil => simp [distinctKeys, tabKeys, tabSet]
  | cons e t ih =>
    obtain ⟨i, b⟩ := e
    simp only [distinctKeys, tabKeys, List.map_cons, List.nodup_cons] at h ih
    simp only [tabSet]
    split
    · rename_i hi; subst hi; simpa [distinctKeys, tabKeys] using h
    · rename_i hi
      simp only [distinctKeys, tabKeys, List.map_cons, List.nodup_cons]
      refine ⟨fun hm => ?_, ih h.2⟩
      obtain ⟨x, hx, hxi⟩ := List.mem_map.1 hm
      rcases mem_tabSet hx with hx | hx
      · exact h.1 (List.mem_map.2 ⟨x, hx, hxi⟩)
      · subst hx; exact hi hxi.symm

theorem distinctKeys_tabDel {t : List (κ × α)} (h : distinctKeys t) (k : κ) : distinctKeys (tabDel t k) := by
  unfold distinctKeys tabKeys tabDel at *
  exact h.sublist (List.filter_sublist.map _)

theorem distinctKeys_tabMod {t : List (κ × α)} (h : distinctKeys t) (k : κ) (f : α → α) : distinctKeys (tabMod t k f) := by
  simp only [tabMod]
  split
  · exact h
  · exact distinctKeys_tabSet h _ _

end Sys2Proof.Machine
end

