-- ==== Sys2Proof/Laws/Ops.lean ====
section
/-!
SUPPORT. What each shared operation can do, said once: how a word of a wave or of a lead context runs, and all that its
completion changes.
-/

namespace Sys2Proof.Machine

/-! ### Contexts -/

/-- What `cur` names where a wave context issues. -/
theorem State.wctx_some {s : State} {c : WCtx} (h : s.wctx = some c) :
    s.cur = .split c.key c.slot ∧ s.wave c.key = some c.w ∧ s.crew (crewOf c.key) = some c.crew ∧ s.gang c.key.gang = some c.gang ∧
      c.w.slot c.slot = some c.sp ∧ c.w.ended = false := by
  unfold State.wctx at h
  split at h
  · split at h
    · split at h
      · split at h
        · cases h
        · cases h
          simp_all
      · cases h
    · cases h
  · cases h

/-- What `cur` names where a lead context issues. -/
theorem State.lctx_some {s : State} {c : LCtx} (h : s.lctx = some c) :
    s.cur = .lead c.key ∧ s.lead c.key = some c.l ∧ s.crew c.key = some c.crew ∧ s.gang c.key.gang = some c.gang ∧
      c.l.exited = false := by
  unfold State.lctx at h
  split at h
  · split at h
    · split at h
      · cases h
      · cases h
        simp_all
    · cases h
  · cases h

/-- A well-formed word has no field fault. -/
theorem leastFault_of_wf {i : Instr} (h : i.wf = true) : leastFault i = none := by
  unfold Instr.wf at h
  unfold leastFault
  rw [List.isEmpty_iff.mp h]

/-! ### The wrappers -/

/-- Nothing stands before a wave word that issues undisturbed. -/
theorem State.waveGate_issues {s : State} {c : WCtx} {i : Instr} (h : WaveIssues s c i) (n : Nat) : s.waveGate c i n = none := by
  obtain ⟨-, h2, h3, h4, h5⟩ := h
  simp [State.waveGate, leastFault_of_wf h2, h3, h4, h5]


/-- A wave word that issues undisturbed does what its body does. -/
theorem State.waveWord_issues {s : State} {c : WCtx} {i : Instr} (h : WaveIssues s c i) (z : Bool) (n : Nat) (body : WCtx → WaveRes) :
    s.waveWord i z n body = match body c with
      | .ok d => .next ((finishWave c z n d).useLines c.key (vUses i))
      | .error e => .next (s.stopWave c n e) := by
  simp only [State.waveWord, h.1, State.waveGate_issues h]
  all_goals cases body c <;> rfl

/-- A wave word that completes. -/
theorem State.waveWord_next {s : State} {c : WCtx} {i : Instr} (h : WaveIssues s c i) {z : Bool} {n : Nat} {body : WCtx → WaveRes} {d : Done}
    (hb : body c = .ok d) : s.waveWord i z n body = .next ((finishWave c z n d).useLines c.key (vUses i)) := by
  rw [State.waveWord_issues h, hb]

/-- A wave word that stops. -/
theorem State.waveWord_stop {s : State} {c : WCtx} {i : Instr} (h : WaveIssues s c i) {z : Bool} {n : Nat} {body : WCtx → WaveRes}
    {e : Stop SplitWait} (hb : body c = .error e) : s.waveWord i z n body = .next (s.stopWave c n e) := by
  rw [State.waveWord_issues h, hb]

/-- A wave word with a field that breaks a rule raises illegal_instruction at the lowest such position (R79). -/
theorem State.waveWord_illegal {s : State} {c : WCtx} {i : Instr} (h : s.wctx = some c) {aux : Nat} (hf : leastFault i = some aux)
    (z : Bool) (n : Nat) (body : WCtx → WaveRes) :
    s.waveWord i z n body = .next (s.raiseWave c (illegal aux) (pastWord c.sp.pc n)) := by
  simp only [State.waveWord, h, State.waveGate, hf, State.stopWave]

/-- A wave word never stops the machine where a split issues. -/
theorem State.waveWord_goesOn {s : State} {c : WCtx} (h : s.wctx = some c) (i : Instr) (z : Bool) (n : Nat) (body : WCtx → WaveRes) :
    goesOn (s.waveWord i z n body) := by
  simp only [State.waveWord, h]
  split
  · trivial
  · split <;> trivial

/-- A wave control word that issues undisturbed does what its body does. -/
theorem State.waveControl_issues {s : State} {c : WCtx} {i : Instr} (h : WaveIssues s c i) (z : Bool)
    (body : WCtx → Except (Stop SplitWait) State) :
    s.waveControl i z body = match body c with
      | .ok t =>
        let t := t.modWave c.key fun w => w.ranControl c z
        let t := if c.w.outstanding.isEmpty then t else { t with free := t.free + 65536 }
        .next ((t.useLines c.key (vUses i)).tidyWave c.key)
      | .error e => .next (s.stopWave c 1 e) := by
  simp only [State.waveControl, h.1, State.waveGate_issues h]
  all_goals cases body c <;> rfl

/-- A wave control word never stops the machine where a split issues. -/
theorem State.waveControl_goesOn {s : State} {c : WCtx} (h : s.wctx = some c) (i : Instr) (z : Bool)
    (body : WCtx → Except (Stop SplitWait) State) : goesOn (s.waveControl i z body) := by
  simp only [State.waveControl, h]
  split
  · trivial
  · split <;> trivial

/-- Where no token stands among the registers of a lead word, nothing holds it back. -/
theorem State.leadGate_issues {s : State} {c : LCtx} {i : Instr} (h : LeadIssues s c i) (n : Nat) : s.leadGate c i n = none := by
  obtain ⟨-, h2, h3⟩ := h
  have hp : c.l.pendingIn (xUses i) = none := by
    unfold Lead.pendingIn
    rw [List.find?_eq_none]
    intro r hr
    simp [h3 r hr]
  have hf : c.l.faultedIn (xUses i) = [] := by
    unfold Lead.faultedIn
    rw [List.filterMap_eq_nil_iff]
    intro r hr
    simp [h3 r hr]
  simp [State.leadGate, leastFault_of_wf h2, hp, hf, firstFaulted]

/-- A lead word that issues undisturbed does what its body does. -/
theorem State.leadWord_issues {s : State} {c : LCtx} {i : Instr} (h : LeadIssues s c i) (z : Bool) (n : Nat) (body : LCtx → LeadRes) :
    s.leadWord i z n body = match body c with
      | .ok d => .next ((finishLead c z n d).readTokens i)
      | .error e => .next (s.stopLead c n e) := by
  simp only [State.leadWord, h.1, State.leadGate_issues h]
  all_goals cases body c <;> rfl

/-- A lead word that completes. -/
theorem State.leadWord_next {s : State} {c : LCtx} {i : Instr} (h : LeadIssues s c i) {z : Bool} {n : Nat} {body : LCtx → LeadRes} {d : Done}
    (hb : body c = .ok d) : s.leadWord i z n body = .next ((finishLead c z n d).readTokens i) := by
  rw [State.leadWord_issues h, hb]

/-- A lead word that stops. -/
theorem State.leadWord_stop {s : State} {c : LCtx} {i : Instr} (h : LeadIssues s c i) {z : Bool} {n : Nat} {body : LCtx → LeadRes}
    {e : Stop LeadWait} (hb : body c = .error e) : s.leadWord i z n body = .next (s.stopLead c n e) := by
  rw [State.leadWord_issues h, hb]

/-- A lead word with a field that breaks a rule raises illegal_instruction at the lowest such position (R79). -/
theorem State.leadWord_illegal {s : State} {c : LCtx} {i : Instr} (h : s.lctx = some c) {aux : Nat} (hf : leastFault i = some aux)
    (z : Bool) (n : Nat) (body : LCtx → LeadRes) :
    s.leadWord i z n body = .next (s.raiseLead c (illegal aux) (pastWord c.l.pc n)) := by
  simp only [State.leadWord, h, State.leadGate, hf, State.stopLead]

/-- A lead word never stops the machine where a lead context issues. -/
theorem State.leadWord_goesOn {s : State} {c : LCtx} (h : s.lctx = some c) (i : Instr) (z : Bool) (n : Nat) (body : LCtx → LeadRes) :
    goesOn (s.leadWord i z n body) := by
  simp only [State.leadWord, h]
  split
  · trivial
  · split <;> trivial

/-- A lead control word that issues undisturbed does what its body does. -/
theorem State.leadControl_issues {s : State} {c : LCtx} {i : Instr} (h : LeadIssues s c i) (z : Bool)
    (body : LCtx → Except (Stop LeadWait) State) :
    s.leadControl i z body = match body c with
      | .ok t =>
        let t := t.modLead c.key fun l => l.ranControl c z
        .next ((if c.l.outstanding.isEmpty then t else { t with free := t.free + 65536 }).readTokens i)
      | .error e => .next (s.stopLead c 1 e) := by
  simp only [State.leadControl, h.1, State.leadGate_issues h]
  all_goals cases body c <;> rfl

/-- A lead control word never stops the machine where a lead context issues. -/
theorem State.leadControl_goesOn {s : State} {c : LCtx} (h : s.lctx = some c) (i : Instr) (z : Bool)
    (body : LCtx → Except (Stop LeadWait) State) : goesOn (s.leadControl i z body) := by
  simp only [State.leadControl, h]
  split
  · trivial
  · split <;> trivial

/-! ### Register writes -/

/-- What register writes change in a wave: the v and k lanes that they reach, those lanes' deadness, and the lines they make
dirty. -/
structure Puts (ws : List RegWrite) (w0 w : Wave) : Prop where
  v : ∀ (r : Fin 128) (l : Lane), w.v[r][l] = (writtenV ws r l).getD w0.v[r][l]
  unset : ∀ (r : Fin 128) (l : Lane), w.unset[r].getLsbD l.val = (w0.unset[r].getLsbD l.val && (writtenV ws r l).isNone)
  dirty : ∀ r : Fin 128, w.dirty.getLsbD r.val = (w0.dirty.getLsbD r.val || namesV ws r)
  k : ∀ (r : Fin 48) (l : Lane), w.k[r][l] = (writtenK ws r l).getD w0.k[r][l]
  bad : w.bad = w0.bad.filter fun e => !ws.any fun x => x.mends e
  same : w = { w0 with v := w.v, k := w.k, unset := w.unset, dirty := w.dirty, bad := w.bad }

/-- A bit of a power of two of 128 bits. -/
theorem getLsbD_bit128 (q r : Nat) (hq : q < 128) : (BitVec.ofNat 128 (2 ^ q)).getLsbD r = decide (q = r) := by
  have e : BitVec.ofNat 128 (2 ^ q) = BitVec.twoPow 128 q := by
    apply BitVec.eq_of_toNat_eq
    simp [BitVec.toNat_twoPow]
  rw [e, BitVec.getLsbD_twoPow]
  simp [hq]

/-- A test that all pass filters nothing out. -/
theorem filter_all {α : Type} (l : List α) : l = l.filter fun _ => true := (List.filter_eq_self.mpr fun _ _ => rfl).symm

theorem Wave.put_puts (w : Wave) (x : RegWrite) : Puts [x] w (w.put x) := by
  cases x with
  | v q lanes vals =>
    by_cases h : q < 128
    · constructor
      · intro r l
        by_cases e : q = r.val
        · subst e
          by_cases hl : lanes[l.val] = true <;> simp [Wave.put, writtenV, RegWrite.vAt, hl]
        · simp [Wave.put, h, writtenV, RegWrite.vAt, e, Vector.getElem_set_ne]
      · intro r l
        by_cases e : q = r.val
        · subst e
          by_cases hl : lanes[l.val] = true <;> simp [Wave.put, writtenV, RegWrite.vAt, hl]
        · simp [Wave.put, h, writtenV, RegWrite.vAt, e, Vector.getElem_set_ne]
      · intro r
        simp only [Wave.put, h, dite_true, BitVec.getLsbD_or, getLsbD_bit128 q r.val h, namesV, List.any_cons, List.any_nil, Bool.or_false]
        congr 1
      · intro r l
        simp [Wave.put, h, writtenK, RegWrite.kAt]
      · simp only [Wave.put, h, dite_true, RegWrite.mends, decide_true, Bool.true_and, List.any_cons, List.any_nil, Bool.or_false]
      · simp only [Wave.put, h, dite_true]
    · have e : ∀ r : Nat, r < 128 → q ≠ r := by omega
      constructor
      · intro r l
        simp [Wave.put, h, writtenV, RegWrite.vAt, e r.val r.isLt]
      · intro r l
        simp [Wave.put, h, writtenV, RegWrite.vAt, e r.val r.isLt]
      · intro r
        simp [Wave.put, h, namesV, e r.val r.isLt]
      · intro r l
        simp [Wave.put, h, writtenK, RegWrite.kAt]
      · simpa [Wave.put, h, RegWrite.mends] using filter_all w.bad
      · simp [Wave.put, h]
  | k q lanes vals =>
    by_cases h : q < 48
    · constructor
      · intro r l; simp [Wave.put, h, writtenV, RegWrite.vAt]
      · intro r l; simp [Wave.put, h, writtenV, RegWrite.vAt]
      · intro r; simp [Wave.put, h, namesV]
      · intro r l
        by_cases e : q = r.val
        · subst e
          by_cases hl : lanes[l.val] = true <;> simp [Wave.put, writtenK, RegWrite.kAt, hl]
        · simp [Wave.put, h, writtenK, RegWrite.kAt, e, Vector.getElem_set_ne]
      · simpa [Wave.put, h, RegWrite.mends] using filter_all w.bad
      · simp [Wave.put, h]
    · constructor
      · intro r l; simp [Wave.put, h, writtenV, RegWrite.vAt]
      · intro r l; simp [Wave.put, h, writtenV, RegWrite.vAt]
      · intro r; simp [Wave.put, h, namesV]
      · intro r l
        have e : q ≠ r.val := by omega
        simp [Wave.put, h, writtenK, RegWrite.kAt, e]
      · simpa [Wave.put, h, RegWrite.mends] using filter_all w.bad
      · simp [Wave.put, h]
  | x q v =>
    constructor
    · intro r l; simp [Wave.put, writtenV, RegWrite.vAt]
    · intro r l; simp [Wave.put, writtenV, RegWrite.vAt]
    · intro r; simp [Wave.put, namesV]
    · intro r l; simp [Wave.put, writtenK, RegWrite.kAt]
    · simpa [Wave.put, RegWrite.mends] using filter_all w.bad
    · simp [Wave.put]

theorem namesV_cons (w : RegWrite) (ws : List RegWrite) (r : Nat) : namesV (w :: ws) r = (namesV [w] r || namesV ws r) := by
  simp [namesV]

theorem Wave.puts_foldl (ws : List RegWrite) : ∀ w : Wave, Puts ws w (ws.foldl Wave.put w) := by
  induction ws with
  | nil =>
    intro w
    refine ⟨?_, ?_, ?_, ?_, filter_all w.bad, rfl⟩ <;> intros <;> simp [writtenV, writtenK, namesV]
  | cons x xs ih =>
    intro w
    have h1 := Wave.put_puts w x
    have h2 := ih (w.put x)
    constructor
    · intro r l
      rw [List.foldl_cons, h2.v, h1.v]
      cases h : writtenV xs r l <;> simp [writtenV, h]
    · intro r l
      rw [List.foldl_cons, h2.unset, h1.unset]
      cases h : writtenV xs r l <;> simp [writtenV, h]
    · intro r
      rw [List.foldl_cons, h2.dirty, h1.dirty, namesV_cons x xs, Bool.or_assoc]
    · intro r l
      rw [List.foldl_cons, h2.k, h1.k]
      cases h : writtenK xs r l <;> simp [writtenK, h]
    · rw [List.foldl_cons, h2.bad, h1.bad, List.filter_filter]
      congr 1
      funext e
      simp [Bool.and_comm]
    · rw [List.foldl_cons, h2.same, h1.same]

/-- What a lead context's register writes leave. -/
theorem Lead.puts_foldl (ws : List RegWrite) : ∀ l : Lead,
    (∀ r : Fin 64, (ws.foldl Lead.put l).x[r] = (writtenX ws r).getD l.x[r]) ∧
      ws.foldl Lead.put l = { l with x := (ws.foldl Lead.put l).x } := by
  induction ws with
  | nil =>
    intro l
    exact ⟨fun r => by simp [writtenX], rfl⟩
  | cons y ys ih =>
    intro l
    have one : (∀ r : Fin 64, (l.put y).x[r] = (writtenX [y] r).getD l.x[r]) ∧ l.put y = { l with x := (l.put y).x } := by
      cases y with
      | x q v =>
        by_cases h : q < 64
        · by_cases h0 : q = 0
          · refine ⟨fun r => ?_, ?_⟩
            · by_cases e : q = r.val
              · have : r.val = 0 := by omega
                simp [Lead.put, Lead.putX, h0, writtenX, RegWrite.xAt, this]
              · subst h0; simp [Lead.put, Lead.putX, writtenX, RegWrite.xAt, e]
            · simp [Lead.put, Lead.putX, h0]
          · refine ⟨fun r => ?_, ?_⟩
            · by_cases e : q = r.val
              · have : r.val ≠ 0 := by omega
                subst e
                simp [Lead.put, Lead.putX, this, writtenX, RegWrite.xAt]
              · simp [Lead.put, Lead.putX, h, h0, writtenX, RegWrite.xAt, e, Vector.getElem_set_ne]
            · simp [Lead.put, Lead.putX, h, h0]
        · refine ⟨fun r => ?_, ?_⟩
          · have e : q ≠ r.val := by omega
            simp [Lead.put, Lead.putX, h, writtenX, RegWrite.xAt, e]
          · simp [Lead.put, Lead.putX, h]
      | v q a b => exact ⟨fun r => by simp [Lead.put, writtenX, RegWrite.xAt], rfl⟩
      | k q a b => exact ⟨fun r => by simp [Lead.put, writtenX, RegWrite.xAt], rfl⟩
    obtain ⟨h1, h2⟩ := ih (l.put y)
    refine ⟨fun r => ?_, ?_⟩
    · rw [List.foldl_cons, h1, one.1]
      cases h : writtenX ys r <;> simp [writtenX, h]
    · rw [List.foldl_cons, h2, one.2]

/-! ### Completion -/

/-- Slots of a wave whose slots are those of another. -/
theorem Wave.slot_congr {w v : Wave} (h0 : w.slot0 = v.slot0) (h1 : w.slot1 = v.slot1) (i : Fin 2) : w.slot i = v.slot i := by
  simp [Wave.slot, h0, h1]

@[simp] theorem Wave.slot_setSlot (w : Wave) (i : Fin 2) (p : Option Split) : (w.setSlot i p).slot i = p := by
  unfold Wave.slot Wave.setSlot
  split <;> simp_all

@[simp] theorem Wave.slot_setSlot_other (w : Wave) (i : Fin 2) (p : Option Split) : (w.setSlot i p).slot (other i) = w.slot (other i) := by
  have h : i = 0 ∨ i = 1 := by omega
  rcases h with h | h <;> subst h <;> simp [Wave.slot, Wave.setSlot, other]

/-- A slot that is set leaves the rest of the wave. -/
theorem Wave.setSlot_same (w : Wave) (i : Fin 2) (p : Option Split) :
    w.setSlot i p = { w with slot0 := (w.setSlot i p).slot0, slot1 := (w.setSlot i p).slot1 } := by
  unfold Wave.setSlot
  split <;> rfl

/-- The results of a word: its writes at once, or an outstanding result; and its flags. -/
theorem Wave.results_puts (w : Wave) (d : Done) :
    Puts d.now { w with status := raiseFlags w.status d.flags,
                        outstanding := (if d.cat.isNone then underAll d.writes w.outstanding else w.outstanding) ++ d.later,
                        past := d.now.filterMap w.replaced ++ w.past } (w.results d) := by
  unfold Wave.results Done.now Done.later
  cases h : d.cat with
  | none =>
    have hrep : ({ w with status := raiseFlags w.status d.flags } : Wave).replaced = w.replaced := by
      funext x
      cases x <;> rfl
    have := Wave.puts_foldl d.writes { w with status := raiseFlags w.status d.flags, outstanding := underAll d.writes w.outstanding,
                                              past := d.writes.filterMap w.replaced ++ w.past }
    simpa only [Wave.putNow, hrep, Option.isNone_none, if_true, List.append_nil] using this
  | some k =>
    by_cases e : d.writes = [] ∧ d.needs = []
    · simp only [e.1, e.2, List.isEmpty_nil, Bool.and_self, if_true, Option.isNone_some, List.append_nil, Bool.false_eq_true, if_false,
        List.filterMap_nil, List.nil_append]
      refine ⟨?_, ?_, ?_, ?_, filter_all w.bad, rfl⟩ <;> intros <;> simp [writtenV, writtenK, namesV]
    · have e' : (d.writes.isEmpty && d.needs.isEmpty) = false := by
        simpa [Bool.and_eq_true, List.isEmpty_iff] using e
      simp only [e', Bool.false_eq_true, if_false, Option.isNone_some, List.filterMap_nil, List.nil_append]
      refine ⟨?_, ?_, ?_, ?_, filter_all w.bad, rfl⟩ <;> intros <;> simp [writtenV, writtenK, namesV]

/-- Popping a queue changes one count. -/
theorem Wave.popQueue_same (w : Wave) (q : Option Nat) : w.popQueue q = { w with popped := (w.popQueue q).popped } := by
  unfold Wave.popQueue
  split
  · rfl
  · split <;> rfl

theorem Wave.popQueue_popped (w : Wave) (q : Option Nat) (i : Fin 4) :
    (w.popQueue q).popped[i] = w.popped[i] + if q = some i.val then 1 else 0 := by
  unfold Wave.popQueue
  split
  · simp
  · rename_i q
    split
    · rename_i h
      by_cases e : q = i.val
      · subst e; simp
      · simp [e, Vector.getElem_set_ne]
    · rename_i h
      have e : q ≠ i.val := by omega
      simp [e]

/-- Parking touches the parked flag and the values that R57 lets reads see. -/
theorem Wave.parkIf_eq (w : Wave) (z : Bool) :
    w.parkIf z = { w with parked := w.parked || (z && !w.outstanding.isEmpty), past := if (z && w.outstanding.isEmpty) = true then [] else w.past } := by
  obtain ⟨_, _, _, _, _, _, _, _, _, o, _, _, _, _, _, _, _, _, _, _, _⟩ := w
  cases z <;> cases o <;> simp [Wave.parkIf]

/-- What the completion of a wave word does to its wave. -/
theorem Wave.finish_after (c : WCtx) (z : Bool) (n : Nat) (d : Done) (w0 : Wave) : WaveAfter c z n d w0 (w0.finish c z n d) := by
  have hr := Wave.results_puts w0 d
  unfold Wave.finish
  generalize hw : w0.results d = w1 at hr ⊢
  have hs := hr.same
  have hp := Wave.popQueue_same w1 d.pop
  have hq := Wave.popQueue_popped w1 d.pop
  generalize hw2 : w1.popQueue d.pop = w2 at hp hq ⊢
  have slots : ∀ i, (w2.noteRun c (some d.flags)).slot i = w0.slot i := by
    intro i
    refine Wave.slot_congr ?_ ?_ i
    · show w2.slot0 = _; rw [hp, hs]
    · show w2.slot1 = _; rw [hp, hs]
  simp only [slots]
  have hv : w2.v = w1.v := by rw [hp]
  have hk : w2.k = w1.k := by rw [hp]
  have hu : w2.unset = w1.unset := by rw [hp]
  have hd : w2.dirty = w1.dirty := by rw [hp]
  have hb : w2.bad = w1.bad := by rw [hp]
  have hq0 : w1.popped = w0.popped := by rw [hs]
  have hwr : w2 = { w0 with v := w2.v, k := w2.k, unset := w2.unset, dirty := w2.dirty, bad := w2.bad, popped := w2.popped,
                            status := raiseFlags w0.status d.flags,
                            outstanding := (if d.cat.isNone then underAll d.writes w0.outstanding else w0.outstanding) ++ d.later,
                            past := d.now.filterMap w0.replaced ++ w0.past } := by
    rw [hp, hs]
  cases hc : w0.slot c.slot with
  | none =>
    dsimp only
    constructor
    · intro r l; exact (congrArg (fun v : Vector (Vector Word 32) 128 => v[r][l]) hv).trans (hr.v r l)
    · intro r l; exact (congrArg (fun v : Vector LaneSet 128 => v[r].getLsbD l.val) hu).trans (hr.unset r l)
    · intro r; exact (congrArg (fun v : BitVec 128 => v.getLsbD r.val) hd).trans (hr.dirty r)
    · intro r l; exact (congrArg (fun v : Vector (Vector Trit 32) 48 => v[r][l]) hk).trans (hr.k r l)
    · show w2.status = _; rw [hwr]
    · rw [slots, hc]; rfl
    · exact slots _
    · intro q; rw [← hq0]; exact hq q
    · show w2.outstanding = _; rw [hwr]
    · show w2.parked = _; rw [hc]; simp [congrArg Wave.parked hwr]
    · show w2.past = _; rw [hc]; simp [congrArg Wave.past hwr]
    · show w2.bad = _; rw [hb]; exact hr.bad
    · show ranWord _ _ _ _ _ w2.ran = _; rw [congrArg Wave.ran hwr]
    · rfl
    · show w2.stack = _ ∧ w2.exited = _ ∧ w2.handling = _ ∧ w2.drain = _ ∧ w2.nt = _ ∧ w2.cached = _ ∧ w2.ended = _
      rw [hwr]; exact ⟨rfl, rfl, rfl, rfl, rfl, rfl, rfl⟩
  | some p =>
    dsimp only
    rw [Wave.parkIf_eq]
    have hset := Wave.setSlot_same (w2.noteRun c (some d.flags)) c.slot (some (p.step n).1)
    have sl := Wave.slot_setSlot (w2.noteRun c (some d.flags)) c.slot (some (p.step n).1)
    have so := Wave.slot_setSlot_other (w2.noteRun c (some d.flags)) c.slot (some (p.step n).1)
    generalize (w2.noteRun c (some d.flags)).setSlot c.slot (some (p.step n).1) = w3 at hset sl so ⊢
    constructor
    · intro r l; show w3.v[r][l] = _; rw [hset]; exact (congrArg (fun v : Vector (Vector Word 32) 128 => v[r][l]) hv).trans (hr.v r l)
    · intro r l; show w3.unset[r].getLsbD l.val = _; rw [hset]
      exact (congrArg (fun v : Vector LaneSet 128 => v[r].getLsbD l.val) hu).trans (hr.unset r l)
    · intro r; show w3.dirty.getLsbD r.val = _; rw [hset]; exact (congrArg (fun v : BitVec 128 => v.getLsbD r.val) hd).trans (hr.dirty r)
    · intro r l; show w3.k[r][l] = _; rw [hset]; exact (congrArg (fun v : Vector (Vector Trit 32) 48 => v[r][l]) hk).trans (hr.k r l)
    · show w3.status = _; rw [hset]; show w2.status = _; rw [hwr]
    · rw [hc]; exact (Wave.slot_congr rfl rfl _).trans sl
    · exact ((Wave.slot_congr rfl rfl _).trans so).trans (slots _)
    · intro q; show w3.popped[q] = _; rw [hset, ← hq0]; exact hq q
    · show w3.outstanding = _; rw [hset]; show w2.outstanding = _; rw [hwr]
    · show (w3.parked || (z && (p.step n).2 && !w3.outstanding.isEmpty)) = _
      have e : w3.parked = w0.parked := by rw [hset]; show w2.parked = _; rw [hwr]
      rw [hc, e]
      rfl
    · show (if (z && (p.step n).2 && w3.outstanding.isEmpty) = true then [] else w3.past) = _
      have e : w3.past = d.now.filterMap w0.replaced ++ w0.past := by rw [hset]; show w2.past = _; rw [hwr]
      rw [hc, e]
      rfl
    · show w3.bad = _; rw [hset]; show w2.bad = _; rw [hb]; exact hr.bad
    · show w3.ran = _; rw [hset]; show ranWord _ _ _ _ _ w2.ran = _; rw [congrArg Wave.ran hwr]
    · show w3.just = _; rw [hset]; rfl
    · show w3.stack = _ ∧ w3.exited = _ ∧ w3.handling = _ ∧ w3.drain = _ ∧ w3.nt = _ ∧ w3.cached = _ ∧ w3.ended = _
      rw [hset]
      show w2.stack = _ ∧ w2.exited = _ ∧ w2.handling = _ ∧ w2.drain = _ ∧ w2.nt = _ ∧ w2.cached = _ ∧ w2.ended = _
      rw [hwr]; exact ⟨rfl, rfl, rfl, rfl, rfl, rfl, rfl⟩

/-- Retiring queue entries touches one crew. -/
theorem State.retireQueues_eq (s : State) (k : CrewKey) : s.retireQueues k = { s with crews := (s.retireQueues k).crews } := rfl

theorem State.retireQueues_other (s : State) {j k : CrewKey} (h : j ≠ k) : (s.retireQueues k).crew j = s.crew j := by
  unfold State.retireQueues State.crew State.modCrew
  exact tabGet_tabMod_other _ (Ne.symm h) _

/-- What chains learn leaves every late write as it shows. -/
theorem State.learn_sameLate (s : State) (f : Late → List Holder) : sameLate s (s.learn f) := by
  simp [sameLate, State.learn]

theorem sameLate.trans {s t u : State} (h : sameLate s t) (k : sameLate t u) : sameLate s u := Eq.trans k h

theorem sameLate.of_eq {s t : State} (h : t.late = s.late) : sameLate s t := by
  unfold sameLate
  rw [h]

/-- The lines that a wave uses leave the order of the others. -/
theorem State.useLines_recent (s : State) (k : WaveKey) (rs : List Nat) :
    ((s.useLines k rs).recent.filter fun e => e.1 != k) = s.recent.filter fun e => e.1 != k := by
  simp only [State.useLines, List.filter_append, List.filter_filter]
  have h1 : (rs.map fun r => (k, r)).filter (fun e => e.1 != k) = [] := by
    rw [List.filter_eq_nil_iff]
    intro e he
    obtain ⟨r, -, rfl⟩ := List.mem_map.mp he
    simp
  rw [h1, List.nil_append]
  congr 1
  funext e
  by_cases h : e.1 = k <;> simp [h]

/-- Everything that the completion of a wave word does. -/
theorem finishWave_effect {c : WCtx} {d : Done} {w0 : Wave} (h : d.s.wave c.key = some w0) (z : Bool) (n : Nat) (rs : List Nat) :
    WaveEffect c z n d ((finishWave c z n d).useLines c.key rs) := by
  have hw : (finishWave c z n d).waves = tabMod d.s.waves c.key (fun w => w.finish c z n d) := by
    unfold finishWave
    cases d.pop <;> cases c.w.outstanding <;> rfl
  have hrec : (finishWave c z n d).recent = d.s.recent := by
    unfold finishWave
    cases d.pop <;> cases c.w.outstanding <;> rfl
  refine ⟨⟨w0, _, h, ?_, Wave.finish_after c z n d w0⟩, ?_, ?_, ?_, ?_, ⟨?_, ?_⟩, ?_, ?_⟩
  · show tabGet (finishWave c z n d).waves c.key = _
    rw [hw, tabGet_tabMod_same]
    unfold State.wave at h
    rw [h]
    rfl
  · intro k hk
    show tabGet (finishWave c z n d).waves k = _
    rw [hw]
    exact tabGet_tabMod_other _ (Ne.symm hk) _
  · intro hp
    unfold finishWave
    rw [hp]
    cases c.w.outstanding <;> rfl
  · intro k hk
    show (finishWave c z n d).crew k = _
    unfold finishWave
    cases hp : d.pop <;> cases c.w.outstanding <;> simp only [Option.isSome_none, Option.isSome_some, Bool.false_eq_true, if_true, if_false, List.isEmpty_nil, List.isEmpty_cons]
    · rfl
    · rfl
    · exact State.retireQueues_other ((d.s.modWave c.key _).popAcquire c _) hk
    · exact State.retireQueues_other ((d.s.modWave c.key _).popAcquire c _) hk
  · intro ho
    show (finishWave c z n d).free = _
    unfold finishWave
    rw [ho]
    cases d.pop <;> rfl
  · intro hp
    show (finishWave c z n d).late = _
    unfold finishWave
    rw [hp]
    cases c.w.outstanding <;> rfl
  · unfold finishWave
    cases hp : d.pop with
    | none => cases c.w.outstanding <;> exact sameLate.of_eq rfl
    | some q =>
      have := State.learn_sameLate (d.s.modWave c.key fun w => w.finish c z n d)
        (fun r => if r.known.contains (.pushed (crewOf c.key) q (c.w.popped.toList.getD q 0)) then [.actor c.actor] else [])
      cases c.w.outstanding <;> exact this
  · rw [State.useLines_recent, hrec]
  · unfold finishWave
    cases d.pop <;> cases c.w.outstanding <;> rfl

/-- Everything that the completion of a wave word does where its other effects leave its wave as it was. -/
theorem finishWave_ctx {s : State} {c : WCtx} (h : s.wctx = some c) {d : Done} (hd : d.s.waves = s.waves) (z : Bool) (n : Nat)
    (rs : List Nat) : WaveEffect c z n d ((finishWave c z n d).useLines c.key rs) := by
  have hw := (State.wctx_some h).2.1
  exact finishWave_effect (w0 := c.w) (by unfold State.wave at *; rw [hd]; exact hw) z n rs

/-- A write of a j register. -/
theorem Lead.putJ_same (l : Lead) (o : Option (Nat × Trit)) :
    (∀ r : Fin 16, (l.putJ o).j[r] = match o with
      | some (q, val) => if q = r.val then val else l.j[r]
      | none => l.j[r]) ∧ l.putJ o = { l with j := (l.putJ o).j } := by
  cases o with
  | none => exact ⟨fun r => rfl, rfl⟩
  | some e =>
    obtain ⟨q, val⟩ := e
    by_cases h : q < 16
    · refine ⟨fun r => ?_, ?_⟩
      · by_cases e : q = r.val
        · subst e; simp [Lead.putJ]
        · simp [Lead.putJ, h, e, Vector.getElem_set_ne]
      · simp [Lead.putJ, h]
    · refine ⟨fun r => ?_, ?_⟩
      · have e : q ≠ r.val := by omega
        simp [Lead.putJ, h, e]
      · simp [Lead.putJ, h]

/-- The results of a lead word. -/
theorem Lead.results_puts (l : Lead) (d : Done) :
    (∀ r : Fin 64, (l.results d).x[r] = (writtenX d.now r).getD l.x[r]) ∧
    (∀ r : Fin 16, (l.results d).j[r] = match d.j with
      | some (q, val) => if q = r.val then val else l.j[r]
      | none => l.j[r]) ∧
    l.results d = { l with x := (l.results d).x, j := (l.results d).j, status := raiseFlags l.status d.flags,
                           outstanding := (if d.cat.isNone then underAll d.writes l.outstanding else l.outstanding) ++ d.laterLead,
                           past := d.now.filterMap l.replaced ++ l.past } := by
  obtain ⟨hja, hjb⟩ := Lead.putJ_same { l with status := raiseFlags l.status d.flags } d.j
  unfold Lead.results Done.now Done.laterLead
  generalize Lead.putJ { l with status := raiseFlags l.status d.flags } d.j = l2 at hja hjb
  have hx2 : l2.x = l.x := by rw [hjb]
  cases h : d.cat with
  | none =>
    have hrep : l2.replaced = l.replaced := by
      funext y
      cases y <;> simp only [Lead.replaced, hx2]
    obtain ⟨p1, p2⟩ := Lead.puts_foldl d.writes { l2 with outstanding := underAll d.writes l2.outstanding,
                                                          past := d.writes.filterMap l2.replaced ++ l2.past }
    simp only [Lead.putNow, Option.isNone_none, if_true, List.append_nil]
    refine ⟨?_, ?_, ?_⟩
    · intro r; rw [p1]; simp only [hx2]
    · intro r
      have := congrArg Lead.j p2
      simp only [this]
      exact hja r
    · rw [p2, hrep, hjb]
  | some k =>
    by_cases e : d.writes = []
    · simp only [e, List.isEmpty_nil, if_true, Option.isNone_some, Bool.false_eq_true, if_false, List.append_nil, List.filterMap_nil,
        List.nil_append]
      refine ⟨?_, hja, ?_⟩
      · intro r; simp [writtenX, hx2]
      · rw [hjb]
    · have e' : d.writes.isEmpty = false := by simpa [List.isEmpty_iff] using e
      simp only [e', Bool.false_eq_true, if_false, Option.isNone_some, List.filterMap_nil, List.nil_append]
      refine ⟨?_, hja, ?_⟩
      · intro r; simp [writtenX, hx2]
      · rw [hjb]

/-- A lead context's next place touches nothing but the place. -/
theorem Lead.step_same (l : Lead) (n : Nat) :
    (l.step n).1 = { l with pc := (l.step n).1.pc, rep := (l.step n).1.rep, reps := (l.step n).1.reps, wait := .none } := by
  unfold Lead.step
  split
  · split <;> rfl
  · rfl

/-- The next place of a lead context depends on its place alone. -/
theorem Lead.step_congr {l m : Lead} (hp : l.pc = m.pc) (hr : l.rep = m.rep) (hs : l.reps = m.reps) (n : Nat) :
    (l.step n).1.pc = (m.step n).1.pc ∧ (l.step n).1.rep = (m.step n).1.rep ∧ (l.step n).1.reps = (m.step n).1.reps ∧
      (l.step n).2 = (m.step n).2 := by
  unfold Lead.step
  rw [hp, hr, hs]
  split
  · split <;> simp_all
  · simp_all

/-- Parking touches the parked flag and the values that R57 lets reads see. -/
theorem Lead.parkIf_eq (l : Lead) (z : Bool) :
    l.parkIf z = { l with parked := l.parked || (z && !l.outstanding.isEmpty), past := if (z && l.outstanding.isEmpty) = true then [] else l.past } := by
  obtain ⟨_, _, _, _, _, _, _, _, o, _, _, _, _, _⟩ := l
  cases z <;> cases o <;> simp [Lead.parkIf]

/-- What the completion of a lead word does to its context. -/
theorem Lead.finish_after (c : LCtx) (z : Bool) (n : Nat) (d : Done) (l0 : Lead) : LeadAfter c z n d l0 (l0.finish c z n d) := by
  unfold Lead.finish
  obtain ⟨hx, hj, hs⟩ := Lead.results_puts (l0.noteRun c) d
  have hrep : (l0.noteRun c).replaced = l0.replaced := by
    funext y
    cases y <;> rfl
  generalize (l0.noteRun c).results d = l1 at hx hj hs
  have hstep := Lead.step_same l1 n
  obtain ⟨c1, c2, c3, c4⟩ := Lead.step_congr (l := l1) (m := l0) (by rw [hs]; rfl) (by rw [hs]; rfl) (by rw [hs]; rfl) n
  have ho : (l1.step n).1.outstanding = (if d.cat.isNone then underAll d.writes l0.outstanding else l0.outstanding) ++ d.laterLead := by
    rw [hstep, hs]; rfl
  dsimp only
  rw [Lead.parkIf_eq]
  refine ⟨?_, ?_, ⟨c1, c2, c3, ?_⟩, ?_, ?_, ?_, ?_, ?_, ?_⟩
  · intro r; show (l1.step n).1.x[r] = _; rw [hstep]; exact hx r
  · intro r; show (l1.step n).1.j[r] = _; rw [hstep]; exact hj r
  · show (l1.step n).1.wait = _; rw [hstep]
  · show (l1.step n).1.status = _; rw [hstep, hs]; rfl
  · exact ho
  · show ((l1.step n).1.parked || (z && (l1.step n).2 && !(l1.step n).1.outstanding.isEmpty)) = _
    rw [c4, hstep, hs]; rfl
  · show (if (z && (l1.step n).2 && (l1.step n).1.outstanding.isEmpty) = true then [] else (l1.step n).1.past) = _
    rw [c4, hstep, hs, hrep]; rfl
  · show (l1.step n).1.ran = _; rw [hstep, hs]; rfl
  · show (l1.step n).1.handling = _ ∧ (l1.step n).1.tokens = _ ∧ (l1.step n).1.exited = _
    rw [hstep, hs]; exact ⟨rfl, rfl, rfl⟩

/-- Reading tokens moves chains on and nothing else. -/
theorem State.readTokens_rest (s : State) (i : Instr) : sameLate s (s.readTokens i) ∧ s.readTokens i = { s with late := (s.readTokens i).late } := by
  unfold State.readTokens
  split
  · rename_i k _
    suffices h : ∀ (rs : List Nat) (t : State), sameLate t (rs.foldl (fun s r => s.acquire (.token k r) (.lead k)) t) ∧
        rs.foldl (fun s r => s.acquire (.token k r) (.lead k)) t =
          { t with late := (rs.foldl (fun s r => s.acquire (.token k r) (.lead k)) t).late } from h _ _
    intro rs
    induction rs with
    | nil => intro t; exact ⟨rfl, rfl⟩
    | cons r rs ih =>
      intro t
      obtain ⟨h1, h2⟩ := ih (t.acquire (.token k r) (.lead k))
      refine ⟨sameLate.trans (State.learn_sameLate t _) h1, ?_⟩
      rw [List.foldl_cons, h2]
      rfl
  · exact ⟨rfl, rfl⟩

/-- Everything that the completion of a lead word does. -/
theorem finishLead_effect {c : LCtx} {d : Done} {l0 : Lead} (h : d.s.lead c.key = some l0) (z : Bool) (n : Nat) (i : Instr) :
    LeadEffect c z n d ((finishLead c z n d).readTokens i) := by
  have hw : (finishLead c z n d).leads = tabMod d.s.leads c.key (fun l => l.finish c z n d) := by
    unfold finishLead
    cases c.l.outstanding <;> rfl
  have hl : (finishLead c z n d).late = d.s.late := by
    unfold finishLead
    cases c.l.outstanding <;> rfl
  obtain ⟨ht1, ht2⟩ := State.readTokens_rest (finishLead c z n d) i
  have hl2 : ((finishLead c z n d).readTokens i).leads = (finishLead c z n d).leads := by rw [ht2]
  refine ⟨⟨l0, _, h, ?_, Lead.finish_after c z n d l0⟩, ?_, ?_, ?_, ?_⟩
  · unfold State.lead
    rw [hl2, hw, tabGet_tabMod_same]
    unfold State.lead at h
    rw [h]
    rfl
  · intro k hk
    unfold State.lead
    rw [hl2, hw]
    exact tabGet_tabMod_other _ (Ne.symm hk) _
  · intro ho
    rw [ht2]
    show (finishLead c z n d).free = _
    unfold finishLead
    rw [ho]
    rfl
  · exact sameLate.trans (sameLate.of_eq hl) ht1
  · rw [ht2]
    unfold finishLead
    cases c.l.outstanding <;> rfl

/-- Everything that the completion of a lead word does where its other effects leave its context as it was. -/
theorem finishLead_ctx {s : State} {c : LCtx} (h : s.lctx = some c) {d : Done} (hd : d.s.leads = s.leads) (z : Bool) (n : Nat) (i : Instr) :
    LeadEffect c z n d ((finishLead c z n d).readTokens i) := by
  have hw := (State.lctx_some h).2.1
  exact finishLead_effect (l0 := c.l) (by unfold State.lead at *; rw [hd]; exact hw) z n i

/-! ### Words that move their context -/

/-- After a split has moved, nothing else follows where its wave neither stands at a barrier as a whole nor has ended. -/
theorem State.tidyWave_quiet (s : State) (k : WaveKey) (w : Wave) (hb : (Wave.refill w).atBarriers = none)
    (he : (Wave.refill w).exited ≠ BitVec.allOnes 32) : (s.setWave k w).tidyWave k = s.setWave k w.refill := by
  have h1 : (s.setWave k w).modWave k Wave.refill = s.setWave k w.refill := by
    unfold State.setWave State.modWave
    simp [tabMod, tabSet_tabSet]
  have h2 : (s.setWave k w.refill).wave k = some w.refill := by simp [State.wave, State.setWave]
  unfold State.tidyWave
  rw [h1]
  have h3 : (s.setWave k w.refill).barArrive k = s.setWave k w.refill := by
    unfold State.barArrive
    rw [h2]
    cases (s.setWave k w.refill).gang k.gang <;> simp [hb]
  rw [h3]
  unfold State.endWave
  rw [h2]
  exact if_neg fun h => he h.1

/-- A control word that moves its split and no more. -/
theorem State.waveControl_moved {s : State} {c : WCtx} {i : Instr} (h : WaveIssues s c i) {z : Bool}
    {body : WCtx → Except (Stop SplitWait) State} {w : Wave} (hb : body c = .ok (s.setWave c.key w))
    (hq : (w.ranControl c z).refill.atBarriers = none) (he : (w.ranControl c z).refill.exited ≠ BitVec.allOnes 32) :
    s.waveControl i z body = .next (movedWave s c i z w) := by
  rw [State.waveControl_issues h, hb]
  have h1 : ((s.setWave c.key w).modWave c.key fun w => w.ranControl c z) = s.setWave c.key (w.ranControl c z) := by
    unfold State.setWave State.modWave
    simp [tabMod, tabSet_tabSet]
  simp only [h1]
  unfold movedWave
  cases c.w.outstanding with
  | nil =>
    simp only [List.isEmpty_nil, if_true]
    exact congrArg _ (State.tidyWave_quiet (s.useLines c.key (vUses i)) c.key _ hq he)
  | cons x xs =>
    simp only [List.isEmpty_cons, Bool.false_eq_true, if_false]
    exact congrArg _ (State.tidyWave_quiet (State.useLines { s with free := s.free + 65536 } c.key (vUses i)) c.key _ hq he)

/-- A control word that moves its lead context. -/
theorem State.leadControl_moved {s : State} {c : LCtx} {i : Instr} (h : LeadIssues s c i) {z : Bool}
    {body : LCtx → Except (Stop LeadWait) State} {l : Lead} (hb : body c = .ok (s.setLead c.key l)) :
    s.leadControl i z body = .next (movedLead s c i z l) := by
  rw [State.leadControl_issues h, hb]
  have h1 : ((s.setLead c.key l).modLead c.key fun l => l.ranControl c z) = s.setLead c.key (l.ranControl c z) := by
    unfold State.setLead State.modLead
    simp [tabMod, tabSet_tabSet]
  simp only [h1]
  rfl

/-! ### Completing with an effect -/

/-- A wave word that issues undisturbed and whose body gives `d` completes with `d`. -/
theorem State.waveWord_completes {s : State} {c : WCtx} {i : Instr} (h : WaveIssues s c i) {z : Bool} {n : Nat} {body : WCtx → WaveRes}
    {d : Done} (hb : body c = .ok d) (hd : d.s.waves = s.waves) : completes c z n d (s.waveWord i z n body) :=
  ⟨_, State.waveWord_next h hb, finishWave_ctx h.1 hd z n _⟩

/-- A lead word that issues undisturbed and whose body gives `d` completes with `d`. -/
theorem State.leadWord_completes {s : State} {c : LCtx} {i : Instr} (h : LeadIssues s c i) {z : Bool} {n : Nat} {body : LCtx → LeadRes}
    {d : Done} (hb : body c = .ok d) (hd : d.s.leads = s.leads) : leadCompletes c z n d (s.leadWord i z n body) :=
  ⟨_, State.leadWord_next h hb, finishLead_ctx h.1 hd z n i⟩

/-- The effect of a lanewise word, lane by lane. -/
theorem lanewise_eq (s : State) (c : WCtx) (w : Bool) (d : BitVec 7) (pop : Option Nat) (f : Lane → Nat × Flags) :
    lanewise s c w d pop f = elementwise s c w d pop f := by
  have h1 : (Vector.ofFn f).map Prod.fst = Vector.ofFn fun l => (f l).1 := by
    ext i hi
    simp
  have h2 : ∀ l : Lane, (Vector.ofFn f)[l] = f l := fun l => by simp
  simp only [lanewise, elementwise, laneFlags, h1, h2]

theorem kwise_eq (s : State) (c : WCtx) (d : BitVec 7) (pop : Option Nat) (f : Lane → Trit × Flags) :
    kwise s c d pop f = tritwise s c d pop f := by
  have h1 : (Vector.ofFn f).map Prod.fst = Vector.ofFn fun l => (f l).1 := by
    ext i hi
    simp
  have h2 : ∀ l : Lane, (Vector.ofFn f)[l] = f l := fun l => by simp
  simp only [kwise, tritwise, laneFlags, h1, h2]

/-- Taking the results of an `Except` computation apart. -/
theorem bind_ok {ε α β : Type} (a : α) (f : α → Except ε β) : (Except.ok a >>= f) = f a := rfl

theorem bind_error {ε α β : Type} (e : ε) (f : α → Except ε β) : (Except.error e >>= f) = .error e := rfl

theorem pure_ok {ε α : Type} (a : α) : (pure a : Except ε α) = .ok a := rfl

/-! ### Moving a split -/

theorem Wave.setSlot_exited (w : Wave) (i : Fin 2) (p : Option Split) : (w.setSlot i p).exited = w.exited := by
  unfold Wave.setSlot
  split <;> rfl

theorem Wave.refillSlot_exited (w : Wave) (i : Fin 2) : (w.refillSlot i).exited = w.exited := by
  unfold Wave.refillSlot
  split
  · rfl
  · split
    · rw [Wave.setSlot_exited]
    · rfl

@[simp] theorem Wave.refill_exited (w : Wave) : w.refill.exited = w.exited := by
  unfold Wave.refill
  rw [Wave.refillSlot_exited, Wave.refillSlot_exited]

theorem Wave.refillSlot_keeps {w : Wave} {i : Fin 2} {p : Split} (h : w.slot i = some p) (k : Fin 2) : (w.refillSlot k).slot i = some p := by
  unfold Wave.refillSlot
  split
  · exact h
  · rename_i hn
    split
    · have hk : i ≠ k := by
        intro e
        subst e
        simp [h] at hn
      have ho : i = other k := by
        have h1 : i = 0 ∨ i = 1 := by omega
        have h2 : k = 0 ∨ k = 1 := by omega
        rcases h1 with h1 | h1 <;> rcases h2 with h2 | h2 <;> subst h1 <;> subst h2 <;> simp_all [other]
      subst ho
      rw [Wave.slot_setSlot_other]
      exact h
    · exact h

/-- A live split keeps its slot as free slots refill. -/
theorem Wave.refill_keeps {w : Wave} {i : Fin 2} {p : Split} (h : w.slot i = some p) : w.refill.slot i = some p := by
  unfold Wave.refill
  refine Wave.refillSlot_keeps (Wave.refillSlot_keeps ?_ 0) 1
  exact h

/-- A wave with a live split that waits at no barrier stands at none as a whole (R192). -/
theorem Wave.atBarriers_none {w : Wave} {i : Fin 2} {p : Split} (h : w.slot i = some p) (hp : p.state ≠ .barrier ∨ ∀ b, p.wait ≠ .bar b) :
    w.atBarriers = none := by
  have h1 : i = 0 ∨ i = 1 := by omega
  obtain ⟨pc, lanes, link, rep, reps, state, wait⟩ := p
  have hb : state = .barrier → ∀ b, wait ≠ .bar b := by
    intro e b
    rcases hp with hp | hp
    · exact absurd e hp
    · exact hp b
  unfold Wave.atBarriers
  rcases h1 with e | e
  · subst e
    have h0 : w.slot0 = some ⟨pc, lanes, link, rep, reps, state, wait⟩ := h
    rw [h0]
    cases state <;> cases wait <;> first | rfl | exact absurd rfl (hb rfl _)
  · subst e
    have h0 : w.slot1 = some ⟨pc, lanes, link, rep, reps, state, wait⟩ := h
    rw [h0]
    generalize w.slot0 = o
    cases state <;> cases wait <;> first | exact absurd rfl (hb rfl _) | (dsimp only; split <;> simp_all)

/-- A control word that moves its split to a place where it waits at no barrier completes as a moved wave. -/
theorem State.waveControl_to {s : State} {c : WCtx} {i : Instr} (h : WaveIssues s c i) {z : Bool}
    {body : WCtx → Except (Stop SplitWait) State} {w : Wave} (hb : body c = .ok (s.setWave c.key w))
    {n : Fin 2} {p : Split} (hs : w.slot n = some p) (hp : p.state ≠ .barrier ∨ ∀ b, p.wait ≠ .bar b) (he : w.exited ≠ BitVec.allOnes 32) :
    s.waveControl i z body = .next (movedWave s c i z w) := by
  have e : (w.ranControl c z).slot n = w.slot n ∧ (w.ranControl c z).exited = w.exited := by
    unfold Wave.ranControl
    rw [Wave.parkIf_eq]
    exact ⟨Wave.slot_congr rfl rfl n, rfl⟩
  refine State.waveControl_moved h hb ?_ ?_
  · exact Wave.atBarriers_none (i := n) (p := p) (Wave.refill_keeps (e.1.trans hs)) hp
  · rw [Wave.refill_exited, e.2]
    exact he

/-- A control word that stops. -/
theorem State.waveControl_stop {s : State} {c : WCtx} {i : Instr} (h : WaveIssues s c i) {z : Bool}
    {body : WCtx → Except (Stop SplitWait) State} {e : Stop SplitWait} (hb : body c = .error e) :
    s.waveControl i z body = .next (s.stopWave c 1 e) := by
  rw [State.waveControl_issues h, hb]

end Sys2Proof.Machine
end

