-- ==== Sys2Proof/Laws/Memory.lean ====
section
/-!
SUPPORT. Memory: reads after writes, and the canonical form, which every memory operation keeps and reset memory has.
-/

namespace Sys2Proof.Machine

/-! ### The canonical form -/

theorem memAbove_le {lo hi : Nat} (h : lo ≤ hi) {m : List Host.Cell} (hm : memAbove hi m = true) : memAbove lo m = true := by
  cases m with
  | nil => rfl
  | cons c m =>
    simp only [memAbove, Bool.and_eq_true, decide_eq_true_eq] at hm ⊢
    exact ⟨⟨Nat.le_trans h hm.1.1, hm.1.2⟩, hm.2⟩

theorem memAbove_cons {lo a : Nat} {b : Byte} {m : List Host.Cell} (h : lo ≤ a) (hm : memAbove (a + 1) m = true) :
    memAbove lo (memCons a b m) = true := by
  simp only [memCons]
  split
  · exact memAbove_le (by omega) hm
  · simp [memAbove, *]

/-- Writing at or above a bound keeps every cell at or above it. -/
theorem memAbove_memWrite {lo a : Nat} {b : Byte} {m : List Host.Cell} (h : lo ≤ a) (hm : memAbove lo m = true) :
    memAbove lo (memWrite m a b) = true := by
  induction m generalizing lo with
  | nil => exact memAbove_cons h rfl
  | cons c m ih =>
    simp only [memAbove, Bool.and_eq_true, decide_eq_true_eq] at hm
    simp only [memWrite]
    split
    · refine memAbove_cons h ?_
      simp only [memAbove, Bool.and_eq_true, decide_eq_true_eq]
      exact ⟨⟨by omega, hm.1.2⟩, hm.2⟩
    · split
      · rename_i hc; subst hc; exact memAbove_cons h hm.2
      · simp only [memAbove, Bool.and_eq_true, decide_eq_true_eq]
        exact ⟨hm.1, ih (by omega) hm.2⟩

theorem Memory.wf_nil : Memory.wf [] = true := rfl

theorem Memory.wf_write {m : List Host.Cell} (h : Memory.wf m = true) (a : Nat) (b : Byte) : Memory.wf (memWrite m a b) = true :=
  memAbove_memWrite (Nat.zero_le a) h

theorem Memory.wf_writes {m : List Host.Cell} (h : Memory.wf m = true) (a : Nat) (bs : List Byte) :
    Memory.wf (memWrites m a bs) = true := by
  induction bs generalizing m a with
  | nil => exact h
  | cons b bs ih => exact ih (Memory.wf_write h a b) (a + 1)

/-- Reset memory has the form. -/
theorem Memory.wf_reset : Memory.wf State.reset.mem = true := rfl

theorem State.wr_wf {s : State} (h : Memory.wf s.mem = true) (pa : Nat) (bs : List Byte) : Memory.wf (s.wr pa bs).mem = true :=
  Memory.wf_writes h pa bs

theorem State.wrNat_wf {s : State} (h : Memory.wf s.mem = true) (pa n v : Nat) : Memory.wf (s.wrNat pa n v).mem = true :=
  State.wr_wf h pa _

theorem State.wrPieces_wf {s : State} (h : Memory.wf s.mem = true) (ps : List (Nat × Nat)) (bs : List Byte) :
    Memory.wf (s.wrPieces ps bs).mem = true := by
  induction ps generalizing s bs with
  | nil => simpa [State.wrPieces] using h
  | cons p ps ih => exact ih (State.wr_wf h _ _) _

/-! ### Reads after writes -/

/-- In a canonical list nothing below the bound is listed. -/
theorem memRead_below {lo a : Nat} {m : List Host.Cell} (hm : memAbove lo m = true) (h : a < lo) : memRead m a = memDefault := by
  induction m generalizing lo with
  | nil => rfl
  | cons c m ih =>
    simp only [memAbove, Bool.and_eq_true, decide_eq_true_eq] at hm
    simp only [memRead]
    rw [if_neg (by omega), ih hm.2 (by omega)]

theorem memRead_memCons {lo a x : Nat} {b : Byte} {m : List Host.Cell} (hm : memAbove lo m = true) (h : a < lo) :
    memRead (memCons a b m) x = if x = a then b else memRead m x := by
  simp only [memCons]
  split
  · rename_i hb
    split
    · subst_vars; exact memRead_below hm h
    · rfl
  · simp only [memRead]
    by_cases hx : x = a
    · simp [hx]
    · rw [if_neg (fun e => hx e.symm), if_neg hx]

/-- A byte that was written reads as written, and the others as before. -/
theorem memRead_memWrite_above {lo : Nat} {m : List Host.Cell} (hm : memAbove lo m = true) (a x : Nat) (b : Byte) :
    memRead (memWrite m a b) x = if x = a then b else memRead m x := by
  induction m generalizing lo with
  | nil =>
    have := memRead_memCons (lo := a + 1) (x := x) (b := b) (m := []) rfl (Nat.lt_succ_self a)
    simpa [memWrite] using this
  | cons c m ih =>
    simp only [memAbove, Bool.and_eq_true, decide_eq_true_eq] at hm
    simp only [memWrite]
    split
    · rename_i hac
      refine memRead_memCons (lo := c.1) ?_ hac
      simp only [memAbove, Bool.and_eq_true, decide_eq_true_eq]
      exact ⟨⟨Nat.le_refl _, hm.1.2⟩, hm.2⟩
    · split
      · rename_i hac hc
        rw [memRead_memCons hm.2 (by omega)]
        by_cases hx : x = a
        · simp [hx]
        · simp only [hx, if_false, memRead]; rw [if_neg (by omega)]
      · rename_i hac hc
        simp only [memRead, ih hm.2]
        by_cases hx : x = a
        · subst hx; rw [if_neg (fun e => hc e.symm), if_pos rfl, if_pos rfl]
        · simp [hx]

theorem memRead_memWrite {m : List Host.Cell} (h : Memory.wf m = true) (a x : Nat) (b : Byte) :
    memRead (memWrite m a b) x = if x = a then b else memRead m x := memRead_memWrite_above h a x b

/-- A run of bytes that was written reads as written, and every byte outside it as before. -/
theorem memRead_memWrites {m : List Host.Cell} (h : Memory.wf m = true) (a x : Nat) (bs : List Byte) :
    memRead (memWrites m a bs) x = if a ≤ x ∧ x < a + bs.length then bs.getD (x - a) 0 else memRead m x := by
  induction bs generalizing m a with
  | nil => simp [memWrites] <;> omega
  | cons b bs ih =>
    simp only [memWrites, ih (Memory.wf_write h a b), memRead_memWrite h, List.length_cons]
    by_cases hx : x = a
    · subst hx
      rw [if_neg (by omega), if_pos (by omega)]
      simp
    · by_cases hr : a ≤ x ∧ x < a + (bs.length + 1)
      · rw [if_pos (by omega), if_pos hr]
        have : x - a = (x - (a + 1)) + 1 := by omega
        simp [this]
      · rw [if_neg (by omega), if_neg hr, if_neg hx]

/-- What a write of bytes does to every byte of memory. -/
theorem State.wr_rd {s : State} (h : Memory.wf s.mem = true) (pa x : Nat) (bs : List Byte) :
    (s.wr pa bs).rd x = if pa ≤ x ∧ x < pa + bs.length then bs.getD (x - pa) 0 else s.rd x := memRead_memWrites h pa x bs

end Sys2Proof.Machine
end

