-- ==== Sys2Proof/Laws/Bits.lean ====
section
/-!
SUPPORT. Lane sets, little-endian bytes, and runs of writes.
-/

namespace Sys2Proof.Machine

/-! ### Lane sets -/

/-- Numbers that share no bit add as they combine. -/
theorem add_eq_or {a b : Nat} (h : a &&& b = 0) : a + b = a ||| b := by
  have hs : a + b < 2 ^ (a + b) := Nat.lt_two_pow_self
  have ha : a < 2 ^ (a + b) := by omega
  have hb : b < 2 ^ (a + b) := by omega
  have hz : BitVec.ofNat (a + b) a &&& BitVec.ofNat (a + b) b = 0#(a + b) := by
    apply BitVec.eq_of_toNat_eq
    simp [Nat.mod_eq_of_lt ha, Nat.mod_eq_of_lt hb, h]
  have := congrArg BitVec.toNat (BitVec.add_eq_or_of_and_eq_zero _ _ hz)
  simpa [Nat.mod_eq_of_lt ha, Nat.mod_eq_of_lt hb, Nat.mod_eq_of_lt hs] using this

theorem foldl_lanes_testBit (p : Lane → Bool) (ls : List Lane) (hn : ls.Nodup) (a : Nat) (ha : ∀ l ∈ ls, a.testBit l.val = false) (i : Nat) :
    (ls.foldl (fun n l => if p l then n ||| 2 ^ l.val else n) a).testBit i = (a.testBit i || ls.any fun l => l.val == i && p l) := by
  induction ls generalizing a with
  | nil => simp
  | cons l ls ih =>
    simp only [List.nodup_cons] at hn
    have hd : ∀ m ∈ ls, m.val ≠ l.val := fun m hm e => hn.1 (Fin.ext e ▸ hm)
    simp only [List.foldl_cons]
    rw [ih hn.2]
    · by_cases h : p l = true
      · simp only [h, if_true, Nat.testBit_or, Nat.testBit_two_pow, List.any_cons, Bool.and_true, Bool.or_assoc]
        congr 2
      · simp [h]
    · intro m hm
      have := ha m (by simp [hm])
      by_cases h : p l = true
      · simp [h, Nat.testBit_or, this, (hd m hm).symm]
      · simp [h, this]

theorem foldl_lanes_add (p : Lane → Bool) (ls : List Lane) (hn : ls.Nodup) (a : Nat) (ha : ∀ l ∈ ls, a.testBit l.val = false) :
    ls.foldl (fun n l => if p l then n + 2 ^ l.val else n) a = ls.foldl (fun n l => if p l then n ||| 2 ^ l.val else n) a := by
  induction ls generalizing a with
  | nil => rfl
  | cons l ls ih =>
    simp only [List.nodup_cons] at hn
    have hd : ∀ m ∈ ls, m.val ≠ l.val := fun m hm e => hn.1 (Fin.ext e ▸ hm)
    have e : a + 2 ^ l.val = a ||| 2 ^ l.val := by
      have hb := ha l (by simp)
      have hz : a &&& 2 ^ l.val = 0 := by
        apply Nat.eq_of_testBit_eq
        intro i
        by_cases hi : l.val = i
        · subst hi; simp [hb]
        · simp [hi]
      exact add_eq_or hz
    simp only [List.foldl_cons, e]
    rw [ih hn.2]
    intro m hm
    have := ha m (by simp [hm])
    by_cases h : p l = true
    · simp [h, Nat.testBit_or, this, (hd m hm).symm]
    · simp [h, this]

/-- A lane set holds the lanes that satisfy its test. -/
@[simp] theorem getLsbD_laneSet (p : Lane → Bool) (l : Lane) : (laneSet p).getLsbD l.val = p l := by
  unfold laneSet
  rw [foldl_lanes_add p _ (List.nodup_finRange 32) 0 (by simp), BitVec.getLsbD_ofNat,
    foldl_lanes_testBit p _ (List.nodup_finRange 32) 0 (by simp)]
  simp only [Nat.zero_testBit, Bool.false_or, l.isLt, decide_true, Bool.true_and]
  by_cases h : p l = true
  · rw [h, List.any_eq_true]
    exact ⟨l, List.mem_finRange l, by simp [h]⟩
  · simp only [h]
    rw [List.any_eq_false]
    intro m _
    by_cases e : m.val = l.val
    · have : m = l := Fin.ext e
      subst this; simp [h]
    · simp [e]

theorem lanesOf_laneSet (p : Lane → Bool) : lanesOf (laneSet p) = (List.finRange 32).filter p := by
  unfold lanesOf
  congr 1
  funext l
  exact getLsbD_laneSet p l

@[simp] theorem mem_lanesOf (s : LaneSet) (l : Lane) : l ∈ lanesOf s ↔ s.getLsbD l.val = true := by
  simp [lanesOf]

theorem laneSet_eq_zero (p : Lane → Bool) : laneSet p = 0 ↔ ∀ l, p l = false := by
  constructor
  · intro h l
    rw [← getLsbD_laneSet p l, h]
    simp
  · intro h
    apply BitVec.eq_of_getLsbD_eq
    intro i hi
    have := getLsbD_laneSet p ⟨i, hi⟩
    simp only [h] at this
    simpa using this

theorem laneSet_congr {p q : Lane → Bool} (h : ∀ l, p l = q l) : laneSet p = laneSet q := by
  have : p = q := funext h
  rw [this]

/-! ### Bytes -/

@[simp] theorem toBytes_length (n v : Nat) : (toBytes n v).length = n := by
  induction n generalizing v with
  | zero => rfl
  | succ n ih => simp [toBytes, ih]

/-- Byte `i` of a little-endian number. -/
theorem toBytes_getD (n v i : Nat) (h : i < n) : (toBytes n v).getD i 0 = BitVec.ofNat 8 (v / 2 ^ (8 * i)) := by
  induction n generalizing v i with
  | zero => omega
  | succ n ih =>
    cases i with
    | zero => simp [toBytes]
    | succ i =>
      simp only [toBytes, List.getD_cons_succ, ih (v / 256) i (by omega)]
      congr 1
      rw [Nat.div_div_eq_div_mul]
      congr 1
      rw [show 8 * (i + 1) = 8 + 8 * i by omega, Nat.pow_add]

end Sys2Proof.Machine
end

