-- ==== Sys2Proof/Laws/Paths.lean ====
section
/-!
SUPPORT. What a write does to memory and to what every path shows of it: only its own bytes change (R33, R34).
-/

namespace Sys2Proof.Machine

/-! ### A byte as a path shows it -/

/-- A byte and whether a later write that shows has written it, below some late writes of which `sh` tells which show. -/
def seenAt (sh : Late → Bool) (x : Nat) : List Late → Byte × Bool → Byte × Bool
  | [], e => e
  | r :: rs, e => seenAt sh x rs (match r.former with
      | .mem old =>
        if sh r then (e.1, (old.map Prod.fst).contains x || e.2)
        else if e.2 then e else (old.foldl (fun b c => if c.1 = x then c.2 else b) e.1, e.2)
      | _ => e)

theorem memRead_putBack {m : List Host.Cell} (h : Memory.wf m = true) (newer : List Nat) (old : List Host.Cell) (x : Nat) :
    Memory.wf (putBack newer m old) = true ∧
      memRead (putBack newer m old) x =
        if newer.contains x then memRead m x else old.foldl (fun b c => if c.1 = x then c.2 else b) (memRead m x) := by
  unfold putBack
  induction old generalizing m with
  | nil => exact ⟨h, by simp⟩
  | cons c old ih =>
    rw [List.foldl_cons, List.foldl_cons]
    by_cases hc : newer.contains c.1 = true
    · rw [if_pos hc]
      obtain ⟨h1, h2⟩ := ih h
      refine ⟨h1, h2.trans ?_⟩
      by_cases hx : newer.contains x = true
      · rw [if_pos hx, if_pos hx]
      · have : c.1 ≠ x := fun e => hx (e ▸ hc)
        rw [if_neg hx, if_neg hx, if_neg this]
    · rw [if_neg hc]
      obtain ⟨h1, h2⟩ := ih (Memory.wf_write h c.1 c.2)
      refine ⟨h1, h2.trans ?_⟩
      rw [memRead_memWrite h]
      by_cases hx : newer.contains x = true
      · have : x ≠ c.1 := fun e => hc (e ▸ hx)
        rw [if_pos hx, if_pos hx, if_neg this]
      · rw [if_neg hx, if_neg hx]
        by_cases e : c.1 = x
        · rw [if_pos e, if_pos e.symm]
        · rw [if_neg e, if_neg fun k => e k.symm]

/-- What shows depends on the crews alone. -/
theorem State.shows_congr {s t : State} (h : t.crews = s.crews) (q : Path) (a : Actor) : t.shows q a = s.shows q a := by
  funext r
  simp only [State.shows, State.share, State.crewsShare, h]

theorem State.unwrite_fold {s : State} (q : Path) (a : Actor) (x : Nat) (rs : List Late) :
    ∀ (e : State × Newer), Memory.wf e.1.mem = true → e.1.crews = s.crews →
      (rs.foldl (State.unwrite q a) e).1.rd x = (seenAt (s.shows q a) x rs (e.1.rd x, e.2.mem.contains x)).1 := by
  induction rs with
  | nil => intro e _ _; rfl
  | cons r rs ih =>
    intro e hw hc
    rw [List.foldl_cons, seenAt]
    have hs : e.1.shows q a r = s.shows q a r := congrFun (State.shows_congr hc q a) r
    obtain ⟨t, n⟩ := e
    dsimp only at hw hc hs ⊢
    cases hf : r.former with
    | mem old =>
      simp only [State.unwrite, hf, hs]
      by_cases hsh : s.shows q a r = true
      · simp only [hsh, if_true]
        rw [ih _ hw hc]
        simp only [List.contains_eq_mem, List.mem_append, Bool.decide_or]
      · simp only [hsh]
        obtain ⟨h1, h2⟩ := memRead_putBack hw n.mem old x
        rw [ih _ h1 hc]
        simp only [State.rd, h2, Bool.false_eq_true, if_false]
        split <;> rfl
    | tile g k old =>
      simp only [State.unwrite, hf, hs]
      split
      · exact ih _ hw hc
      · split
        · exact ih _ hw hc
        · exact ih _ hw hc
    | handle g k old =>
      simp only [State.unwrite, hf, hs]
      split
      · exact ih _ hw hc
      · split
        · exact ih _ hw hc
        · exact ih _ hw hc

/-- A byte as a path shows it. -/
theorem State.on_rd {s : State} (h : Memory.wf s.mem = true) (q : Path) (a : Actor) (x : Nat) :
    (s.on q a).rd x = (seenAt (s.shows q a) x s.late (s.rd x, false)).1 := by
  unfold State.on
  rw [State.unwrite_fold (s := s) q a x s.late _ h rfl]
  rfl

/-- With no late write every path shows memory as it is. -/
theorem State.on_none {s : State} (h : s.late = []) (q : Path) (a : Actor) : s.on q a = s := by
  unfold State.on
  rw [h]
  rfl

/-! ### What changes of the late writes leave as it shows -/

theorem seenAt_covered (sh : Late → Bool) (x : Nat) (rs : List Late) (b : Byte) : (seenAt sh x rs (b, true)).1 = b := by
  induction rs with
  | nil => rfl
  | cons r rs ih =>
    rw [seenAt]
    cases r.former with
    | mem old =>
      dsimp only
      split
      · rw [Bool.or_true]; exact ih
      · exact ih
    | tile g h old => exact ih
    | handle g h old => exact ih

/-- Changes that leave each write's bytes and whether it shows. -/
theorem seenAt_map (sh : Late → Bool) (x : Nat) (g : Late → Late) (hf : ∀ r, (g r).former = r.former) (hs : ∀ r, sh (g r) = sh r) (rs : List Late) :
    ∀ e, seenAt sh x (rs.map g) e = seenAt sh x rs e := by
  induction rs with
  | nil => intro e; rfl
  | cons r rs ih => intro e; rw [List.map_cons, seenAt, seenAt, hf, hs, ih]

theorem foldl_at_filter (old : List Host.Cell) (p : Host.Cell → Bool) (x : Nat) (h : ∀ c ∈ old, c.1 = x → p c = true) :
    ∀ b : Byte, (old.filter p).foldl (fun b c => if c.1 = x then c.2 else b) b = old.foldl (fun b c => if c.1 = x then c.2 else b) b := by
  induction old with
  | nil => intro b; rfl
  | cons c old ih =>
    intro b
    have ih := ih fun d hd => h d (by simp [hd])
    by_cases hp : p c = true
    · rw [List.filter_cons_of_pos hp, List.foldl_cons, List.foldl_cons, ih]
    · rw [List.filter_cons_of_neg hp, List.foldl_cons, ih]
      have : c.1 ≠ x := fun e => hp (h c (by simp) e)
      rw [if_neg this]

theorem foldl_at_none (old : List Host.Cell) (x : Nat) (h : ∀ c ∈ old, c.1 ≠ x) (b : Byte) :
    old.foldl (fun b c => if c.1 = x then c.2 else b) b = b := by
  induction old generalizing b with
  | nil => rfl
  | cons c old ih =>
    rw [List.foldl_cons, if_neg (h c (by simp))]
    exact ih (fun d hd => h d (by simp [hd])) b

/-- Cells of an earlier write that a later one leaves standing. -/
def restOf (old new : List Host.Cell) : List Host.Cell := old.filter fun c => !new.any fun d => d.1 == c.1

theorem Former.beneath_mem (new old : List Host.Cell) :
    (Former.mem new).beneath (.mem old) = if (restOf old new).isEmpty then none else some (.mem (restOf old new)) := rfl

theorem Late.with_former {r : Late} {f : Former} (h : r.former = f) : { r with former := f } = r := by
  subst h
  rfl

theorem seenAt_beneath_mem (sh : Late → Bool) (x : Nat) (new : List Host.Cell) (hx : x ∈ new.map Prod.fst)
    (rs : List Late) : ∀ e, seenAt sh x (rs.filterMap fun y => ((Former.mem new).beneath y.former).map fun f => { y with former := f }) e = e := by
  induction rs with
  | nil => intro e; rfl
  | cons r rs ih =>
    intro e
    cases hf : r.former with
    | mem old =>
      by_cases he : (restOf old new).isEmpty = true
      · rw [List.filterMap_cons_none (by simp [hf, Former.beneath_mem, he])]
        exact ih e
      · rw [List.filterMap_cons_some (b := { r with former := .mem (restOf old new) }) (by simp [hf, Former.beneath_mem, he]), seenAt]
        have hn : ∀ c ∈ restOf old new, c.1 ≠ x := by
          intro c hc e
          simp only [restOf, List.mem_filter, Bool.not_eq_true', List.any_eq_false, beq_iff_eq] at hc
          obtain ⟨d, hd, hd2⟩ := List.mem_map.mp hx
          exact hc.2 d hd (hd2.trans e.symm)
        have hk : ((restOf old new).map Prod.fst).contains x = false := by
          rw [List.contains_eq_mem, decide_eq_false_iff_not]
          intro h
          obtain ⟨d, hd, hd2⟩ := List.mem_map.mp h
          exact hn d hd hd2
        dsimp only
        rw [hk, foldl_at_none _ x hn]
        simp only [Bool.false_or, ite_self]
        exact ih e
    | tile g h old =>
      rw [List.filterMap_cons_some (b := r) (by rw [hf]; exact congrArg some (Late.with_former hf)), seenAt]
      simp only [hf]
      exact ih e
    | handle g h old =>
      rw [List.filterMap_cons_some (b := r) (by rw [hf]; exact congrArg some (Late.with_former hf)), seenAt]
      simp only [hf]
      exact ih e

/-- A write whose bytes do not hold an address leaves that byte of the writes beneath it. -/
theorem seenAt_beneath (sh : Late → Bool) (hsh : ∀ r f, sh { r with former := f } = sh r) (x : Nat) (top : Former)
    (hx : ∀ new, top = .mem new → x ∉ new.map Prod.fst) (rs : List Late) :
    ∀ e, seenAt sh x (rs.filterMap fun y => (top.beneath y.former).map fun f => { y with former := f }) e = seenAt sh x rs e := by
  induction rs with
  | nil => intro e; rfl
  | cons r rs ih =>
    intro e
    rw [seenAt]
    cases hf : r.former with
    | mem old =>
      cases top with
      | mem new =>
        have hx := hx new rfl
        have hkeep : ∀ c ∈ old, c.1 = x → (!new.any fun d => d.1 == c.1) = true := by
          intro c _ hc
          rw [Bool.not_eq_true', List.any_eq_false]
          intro d hd
          rw [hc]
          simp only [beq_iff_eq]
          exact fun e => hx (List.mem_map.mpr ⟨d, hd, e⟩)
        have hfold := foldl_at_filter old (fun c => !new.any fun d => d.1 == c.1) x hkeep
        have hcon : ((restOf old new).map Prod.fst).contains x = (old.map Prod.fst).contains x := by
          rw [List.contains_eq_mem, List.contains_eq_mem, decide_eq_decide]
          constructor
          · intro h
            obtain ⟨d, hd, hd2⟩ := List.mem_map.mp h
            exact List.mem_map.mpr ⟨d, (List.mem_filter.mp hd).1, hd2⟩
          · intro h
            obtain ⟨d, hd, hd2⟩ := List.mem_map.mp h
            exact List.mem_map.mpr ⟨d, List.mem_filter.mpr ⟨hd, hkeep d hd hd2⟩, hd2⟩
        by_cases he : (restOf old new).isEmpty = true
        · rw [List.filterMap_cons_none (by simp [hf, Former.beneath_mem, he]), ih]
          have hnil : restOf old new = [] := List.isEmpty_iff.mp he
          have h1 : (old.map Prod.fst).contains x = false := by rw [← hcon, hnil]; rfl
          have h2 : ∀ b, old.foldl (fun b c => if c.1 = x then c.2 else b) b = b := by
            intro b
            rw [← hfold b]
            show (restOf old new).foldl _ b = b
            rw [hnil]
            rfl
          dsimp only
          rw [h1, h2]
          simp only [Bool.false_or, ite_self]
        · rw [List.filterMap_cons_some (b := { r with former := .mem (restOf old new) }) (by simp [hf, Former.beneath_mem, he]), seenAt, ih]
          dsimp only
          rw [hsh, hcon, show (restOf old new).foldl _ e.1 = _ from hfold e.1]
      | tile g h new =>
        rw [List.filterMap_cons_some (b := r) (by rw [hf]; exact congrArg some (Late.with_former hf)), seenAt, hf, ih]
      | handle g h new =>
        rw [List.filterMap_cons_some (b := r) (by rw [hf]; exact congrArg some (Late.with_former hf)), seenAt, hf, ih]
    | tile g h old =>
      dsimp only
      cases hb : top.beneath (.tile g h old) with
      | none => rw [List.filterMap_cons_none (by simp [hf, hb]), ih]
      | some f =>
        rw [List.filterMap_cons_some (b := { r with former := f }) (by simp [hf, hb]), seenAt, ih]
        cases f with
        | mem o =>
          exfalso
          cases top <;> simp only [Former.beneath] at hb
          · cases hb
          · split at hb
            · split at hb <;> cases hb
            · cases hb
          · split at hb <;> cases hb
        | tile g h o => rfl
        | handle g h o => rfl
    | handle g h old =>
      dsimp only
      cases hb : top.beneath (.handle g h old) with
      | none => rw [List.filterMap_cons_none (by simp [hf, hb]), ih]
      | some f =>
        rw [List.filterMap_cons_some (b := { r with former := f }) (by simp [hf, hb]), seenAt, ih]
        cases f with
        | mem o =>
          exfalso
          cases top <;> simp only [Former.beneath] at hb
          · cases hb
          · cases hb
          · split at hb <;> cases hb
        | tile g h o => rfl
        | handle g h o => rfl

/-- Dropping the writes that every path shows leaves what every path shows. -/
theorem seenAt_dropShown (sh : Late → Bool) (hsh : ∀ r f, sh { r with former := f } = sh r) (hall : ∀ r, r.lasts = false → sh r = true) (x : Nat)
    (rs : List Late) : ∀ e, (seenAt sh x (dropShown rs) e).1 = (seenAt sh x rs e).1 := by
  induction rs with
  | nil => intro e; rfl
  | cons r rs ih =>
    intro e
    rw [dropShown]
    by_cases hl : r.lasts = true
    · simp only [hl, if_true]
      rw [seenAt, seenAt]
      exact ih _
    · have hs := hall r (Bool.eq_false_iff.mpr hl)
      simp only [hl, Bool.false_eq_true, if_false]
      by_cases hx : ∃ new, r.former = .mem new ∧ x ∈ new.map Prod.fst
      · obtain ⟨new, hf, hx⟩ := hx
        rw [hf, seenAt_beneath_mem sh x new hx, seenAt, hf]
        simp only [hs, if_true]
        rw [List.contains_eq_mem, decide_eq_true hx, Bool.true_or, seenAt_covered]
      · rw [seenAt_beneath sh hsh x r.former (fun new hn h => hx ⟨new, hn, h⟩), ih, seenAt]
        cases hf : r.former with
        | mem new =>
          have h : (new.map Prod.fst).contains x = false := by
            rw [List.contains_eq_mem, decide_eq_false_iff_not]
            exact fun h => hx ⟨new, hf, h⟩
          simp only [hs, if_true, h, Bool.false_or]
        | tile g h o => rfl
        | handle g h o => rfl

theorem State.shows_lasts (s : State) (q : Path) (a : Actor) (r : Late) (h : r.lasts = false) : s.shows q a r = true := by
  have h : (allPaths.all fun q => r.seen.contains q) = true := by simpa [Late.lasts] using h
  rw [List.all_eq_true] at h
  have hq : r.seen.contains q = true := h q (by cases q <;> decide)
  simp only [State.shows, hq, Bool.true_or]

/-- What chains learn leaves what shows. -/
theorem State.learn_seen (s t : State) (f : Late → List Holder) (q : Path) (b : Actor) (x : Nat) (e : Byte × Bool) :
    seenAt (s.shows q b) x (t.learn f).late e = seenAt (s.shows q b) x t.late e :=
  seenAt_map (s.shows q b) x (fun r => { r with known := (f r).filter (fun h => !r.known.contains h) ++ r.known }) (fun _ => rfl) (fun _ => rfl) _ e

theorem State.unlearn_seen (s t : State) (p : Holder → Bool) (q : Path) (b : Actor) (x : Nat) (e : Byte × Bool) :
    seenAt (s.shows q b) x (t.unlearn p).late e = seenAt (s.shows q b) x t.late e :=
  seenAt_map (s.shows q b) x (fun r => { r with known := r.known.filter fun h => !p h }) (fun _ => rfl) (fun _ => rfl) _ e

theorem State.overwrite_seen (s t : State) (ht : t.late = s.late) (q : Path) (b : Actor) (x : Nat) (a : Actor) (ps : List Spot) (e : Byte × Bool) :
    seenAt (s.shows q b) x (t.overwrite a ps).late e = seenAt (s.shows q b) x s.late e := by
  rw [← ht]
  unfold State.overwrite
  rw [State.learn_seen, State.unlearn_seen]

/-! ### One write of a party -/

@[simp] theorem State.wrAs_mem (s : State) (q : Path) (a : Actor) (nt : Option Nat) (pa : Nat) (bs : List Byte) (rmw : Bool) :
    (s.wrAs q a nt pa bs rmw).mem = memWrites s.mem pa bs := rfl

theorem State.wrAs_wf {s : State} (h : Memory.wf s.mem = true) (q : Path) (a : Actor) (nt : Option Nat) (pa : Nat) (bs : List Byte) (rmw : Bool) :
    Memory.wf (s.wrAs q a nt pa bs rmw).mem = true := Memory.wf_writes h pa bs

/-- What a party's write does to every byte of memory. -/
theorem State.wrAs_rd {s : State} (h : Memory.wf s.mem = true) (q : Path) (a : Actor) (nt : Option Nat) (pa : Nat) (bs : List Byte) (rmw : Bool) (x : Nat) :
    (s.wrAs q a nt pa bs rmw).rd x = if pa ≤ x ∧ x < pa + bs.length then bs.getD (x - pa) 0 else s.rd x := memRead_memWrites h pa x bs

theorem State.wrAs_rest (s : State) (q : Path) (a : Actor) (nt : Option Nat) (pa : Nat) (bs : List Byte) (rmw : Bool) :
    s.wrAs q a nt pa bs rmw = { s with
      mem := (s.wrAs q a nt pa bs rmw).mem, gangs := (s.wrAs q a nt pa bs rmw).gangs, poison := (s.wrAs q a nt pa bs rmw).poison,
      waiters := (s.wrAs q a nt pa bs rmw).waiters, late := (s.wrAs q a nt pa bs rmw).late, free := (s.wrAs q a nt pa bs rmw).free } := rfl

theorem memReads_congr {m k : List Host.Cell} (n a : Nat) (h : ∀ x, covers n a x → memRead m x = memRead k x) : memReads m a n = memReads k a n := by
  induction n generalizing a with
  | zero => rfl
  | succ n ih =>
    rw [memReads, memReads, h a ⟨by omega, by omega⟩, ih (a + 1) fun x hx => h x ⟨by have := hx.1; omega, by have := hx.2; omega⟩]

/-- Without an open checkpoint a write leaves the gangs. -/
theorem State.wr_gangs {s : State} (h : ∀ e ∈ s.gangs, e.2.ckpt = none) (pa : Nat) (bs : List Byte) : (s.wr pa bs).gangs = s.gangs := by
  have : (s.gangs.any fun e => e.2.ckpt.isSome) = false := by
    rw [List.any_eq_false]
    intro e he
    simp [h e he]
  simp [State.wr, this]

theorem mem_upFrom {a n x : Nat} : x ∈ upFrom a n ↔ a ≤ x ∧ x < a + n := by
  induction n generalizing a with
  | zero => simp [upFrom]
  | succ n ih => simp only [upFrom, List.mem_cons, ih]; omega

/-- A party's write reaches its bytes alone. -/
theorem State.wrAs_only {s : State} (h : Memory.wf s.mem = true) (q : Path) (a : Actor) (nt : Option Nat) (pa : Nat) (bs : List Byte) (rmw : Bool) :
    WroteOnly s (covers bs.length pa) (s.wrAs q a nt pa bs rmw) := by
  constructor
  · intro x hx
    rw [State.wrAs_rd h, if_neg hx]
  · intro p b x hx
    rw [State.on_rd (State.wrAs_wf h q a nt pa bs rmw), State.on_rd h, State.wrAs_rd h, if_neg hx,
      State.shows_congr (s := s) (t := s.wrAs q a nt pa bs rmw) rfl]
    show (seenAt _ x (dropShown (_ :: (State.overwrite _ a _).late)) _).1 = _
    rw [seenAt_dropShown (s.shows p b) (fun _ _ => rfl) (State.shows_lasts s p b), seenAt]
    have hk : ((cellsAt s.mem pa bs.length).map Prod.fst).contains x = false := by
      rw [List.contains_eq_mem, decide_eq_false_iff_not]
      intro hm
      simp only [cellsAt, List.map_map, List.mem_map, Function.comp, exists_eq_right] at hm
      exact hx (mem_upFrom.mp hm)
    have hn : ∀ c ∈ cellsAt s.mem pa bs.length, c.1 ≠ x := by
      intro c hc e
      rw [List.contains_eq_mem, decide_eq_false_iff_not] at hk
      exact hk (List.mem_map.mpr ⟨c, hc, e⟩)
    dsimp only
    rw [hk, foldl_at_none _ x hn]
    simp only [Bool.false_or, ite_self]
    exact congrArg Prod.fst (State.overwrite_seen s { s.wr pa bs with late := s.late } rfl p b x a (memSpots pa bs.length) _)
  · refine ⟨List.filter_sublist, fun w hw hx => ?_⟩
    show w ∈ s.waiters.filter _
    refine List.mem_filter.mpr ⟨hw, ?_⟩
    rw [Bool.not_eq_true', Waiter.ends, List.any_eq_false]
    intro p hp
    simp only [bne_iff_ne, ne_eq, Decidable.not_not]
    refine memReads_congr p.2 p.1 fun x hc => ?_
    rw [memRead_memWrites h, if_neg (hx p hp x hc)]
  · intro hg
    exact State.wr_gangs hg pa bs
  · exact State.wrAs_rest s q a nt pa bs rmw

/-! ### Runs of writes -/

end Sys2Proof.Machine

namespace Sys2Proof

open Machine

theorem WroteOnly.refl (s : State) : WroteOnly s (fun _ => False) s :=
  ⟨fun _ _ => rfl, fun _ _ _ _ => rfl, ⟨List.Sublist.refl _, fun _ h _ => h⟩, fun _ => rfl, rfl⟩

theorem WroteOnly.mono {s u : State} {P Q : Nat → Prop} (h : WroteOnly s P u) (hp : ∀ x, P x → Q x) : WroteOnly s Q u :=
  ⟨fun x hx => h.outside x fun k => hx (hp x k), fun q a x hx => h.paths q a x fun k => hx (hp x k),
    ⟨h.waits.1, fun w hw hx => h.waits.2 w hw fun p hp1 x hc k => hx p hp1 x hc (hp x k)⟩, h.logs, h.rest⟩

theorem WroteOnly.trans {s t u : State} {P Q : Nat → Prop} (h : WroteOnly s P t) (k : WroteOnly t Q u) : WroteOnly s (fun x => P x ∨ Q x) u where
  outside x hx := (k.outside x fun e => hx (.inr e)).trans (h.outside x fun e => hx (.inl e))
  paths q a x hx := (k.paths q a x fun e => hx (.inr e)).trans (h.paths q a x fun e => hx (.inl e))
  waits := ⟨k.waits.1.trans h.waits.1, fun w hw hx => k.waits.2 w (h.waits.2 w hw fun p hp x hc e => hx p hp x hc (.inl e))
    fun p hp x hc e => hx p hp x hc (.inr e)⟩
  logs hg := by
    have h1 := h.logs hg
    exact (k.logs (by rw [h1]; exact hg)).trans h1
  rest := by rw [k.rest, h.rest]

end Sys2Proof

namespace Sys2Proof.Machine

theorem State.wrAllBy_wf {s : State} (h : Memory.wf s.mem = true) (q : Path) (a : Actor) (ws : List (Nat × List Byte)) :
    Memory.wf (s.wrAllBy q a ws).mem = true := by
  unfold State.wrAllBy
  induction ws generalizing s with
  | nil => exact h
  | cons w ws ih => exact ih (State.wrAs_wf h q a none w.1 w.2 false)

/-- A run of writes reaches its bytes alone. -/
theorem State.wrAllBy_only (q : Path) (a : Actor) (ws : List (Nat × List Byte)) :
    ∀ {s : State}, Memory.wf s.mem = true → WroteOnly s (fun x => ∃ w ∈ ws, covers w.2.length w.1 x) (s.wrAllBy q a ws) := by
  unfold State.wrAllBy
  induction ws with
  | nil => intro s _; exact (WroteOnly.refl s).mono fun x h => h.elim
  | cons w ws ih =>
    intro s h
    have h1 := State.wrAs_only h q a none w.1 w.2 false
    have h2 := ih (s := s.wrBy q a w.1 w.2) (State.wrAs_wf h q a none w.1 w.2 false)
    refine (h1.trans h2).mono ?_
    rintro x (hx | ⟨v, hv, hx⟩)
    · exact ⟨w, by simp, hx⟩
    · exact ⟨v, by simp [hv], hx⟩

/-- What a run of writes leaves at a byte that its last write there covers. -/
theorem State.wrAllBy_rd_inside {s : State} (h : Memory.wf s.mem = true) (q : Path) (a : Actor) {before after : List (Nat × List Byte)}
    {w : Nat × List Byte} {x : Nat} (hc : covers w.2.length w.1 x) (hx : ∀ v ∈ after, ¬covers v.2.length v.1 x) :
    (s.wrAllBy q a (before ++ w :: after)).rd x = w.2.getD (x - w.1) 0 := by
  have e : s.wrAllBy q a (before ++ w :: after) = ((s.wrAllBy q a before).wrBy q a w.1 w.2).wrAllBy q a after := by
    simp [State.wrAllBy, List.foldl_append]
  have hb := State.wrAllBy_wf h q a before
  have ho := (State.wrAllBy_only q a after (s := (s.wrAllBy q a before).wrBy q a w.1 w.2) (State.wrAs_wf hb q a none w.1 w.2 false)).outside x
    fun ⟨v, hv, k⟩ => hx v hv k
  rw [e, ho]
  show (State.wrAs _ q a none w.1 w.2 false).rd x = _
  rw [State.wrAs_rd hb, if_pos hc]

end Sys2Proof.Machine
end

