-- ==== Sys2Proof/Laws/Accesses.lean ====
section
/-!
SUPPORT. Accesses of wave words: what each lane meets, what an access gives where nothing holds it back, and what faults it.
-/

namespace Sys2Proof.Machine

/-- What a lane of an access meets, by its home. -/
theorem State.laneAccs_get (s : State) (ks : List AccKind) (part : Vector (Option Nat) 32) (l : Lane) :
    (s.laneAccs ks part)[l] = match part[l], s.homeOf ks part l with
      | none, _ => .out
      | some _, some pa => .ok pa
      | some _, none => .failed := by
  simp only [State.laneAccs, State.homeOf, Fin.getElem_fin, Vector.getElem_map]
  cases h : part[l.val] with
  | none => rfl
  | some a =>
    simp only [Option.bind_some]
    cases s.translateAll a ks <;> rfl

/-- A lane has a home only where it takes part. -/
theorem State.homeOf_part {s : State} {ks : List AccKind} {part : Vector (Option Nat) 32} {l : Lane} (h : part[l] = none) :
    s.homeOf ks part l = none := by
  simp [State.homeOf, h]

theorem misalignedAt_none {n : Nat} {part : Vector (Option Nat) 32} (h : ∀ (l : Lane) (a : Nat), part[l] = some a → a % n = 0) :
    misalignedAt n part = none := by
  unfold misalignedAt laneFault
  have : lanesWhere part (fun a => a % n != 0) = 0 := by
    rw [lanesWhere, laneSet_eq_zero]
    intro l
    cases e : part[l] with
    | none => rfl
    | some a => simp [h l a e]
  simp [this]

/-- An access that nothing holds back. -/
theorem State.access_ok {s : State} {ks : List AccKind} {must : Bool} {n : Nat} {part : Vector (Option Nat) 32}
    (ha : ∀ (l : Lane) (a : Nat), part[l] = some a → a % n = 0)
    (hr : must = true → ∀ (l : Lane) (a : Nat), part[l] = some a → (s.homeOf ks part l).isSome) :
    s.access ks must n part = .ok (s.laneAccs ks part) := by
  unfold State.access
  rw [misalignedAt_none ha]
  simp only
  by_cases hm : must = true
  · have : laneSet (fun l => (s.laneAccs ks part)[l] == LaneAcc.failed) = 0 := by
      rw [laneSet_eq_zero]
      intro l
      rw [State.laneAccs_get]
      cases e : part[l] with
      | none => rfl
      | some a =>
        have := hr hm l a e
        cases f : s.homeOf ks part l with
        | none => simp [f] at this
        | some pa => rfl
    rw [this]
    simp
  · simp [hm]

/-- The lanes that are performed, with their homes. -/
theorem State.performedOf_eq (s : State) (ks : List AccKind) (part : Vector (Option Nat) 32) :
    performedOf part (s.laneAccs ks part) = (List.finRange 32).filterMap fun l => (s.homeOf ks part l).map fun pa => (l, part[l].getD 0, pa) := by
  unfold performedOf
  congr 1
  funext l
  rw [State.laneAccs_get]
  cases e : part[l] with
  | none => rw [State.homeOf_part e]; rfl
  | some a => cases f : s.homeOf ks part l <;> rfl

theorem State.accTrits_eq (s : State) (ks : List AccKind) (part : Vector (Option Nat) 32) :
    accTrits (s.laneAccs ks part) = Vector.ofFn (residency part (s.homeOf ks part)) := by
  unfold accTrits
  ext i hi
  simp only [Vector.getElem_map, Vector.getElem_ofFn]
  have := State.laneAccs_get s ks part ⟨i, hi⟩
  simp only [Fin.getElem_fin] at this
  rw [this, residency]
  simp only [Fin.getElem_fin]
  cases e : part[i] with
  | none => rfl
  | some a => cases f : s.homeOf ks part ⟨i, hi⟩ <;> rfl

/-- The residency predicate of an access. -/
theorem State.resWrites_eq (s : State) (c : WCtx) (ks : List AccKind) (part : Vector (Option Nat) 32) (ext : Option MemExt) :
    resWrites c ext (accTrits (s.laneAccs ks part)) = residencyWrites c ext part (s.homeOf ks part) := by
  unfold resWrites residencyWrites
  rw [State.accTrits_eq]
  all_goals cases ext <;> rfl

theorem State.room_ok {s : State} {c : WCtx} {n : Nat} (h : n = 0 ∨ s.entriesOn c.crew.place.core + n ≤ 4096) : s.room c n = .ok () := by
  unfold State.room collectorSize
  rw [if_pos h]

theorem State.noPoison_ok {s : State} {n : Nat} {ks : List AccKind} {part : Vector (Option Nat) 32} (h : cleanLanes s n (s.homeOf ks part)) :
    s.noPoison n (performedOf part (s.laneAccs ks part)) = .ok () := by
  unfold State.noPoison
  rw [State.performedOf_eq]
  have : (((List.finRange 32).filterMap fun l => (s.homeOf ks part l).map fun pa => (l, part[l].getD 0, pa)).any
      fun p => s.poisoned p.2.2 n) = false := by
    rw [List.any_eq_false]
    intro p hp
    simp only [List.mem_filterMap, Option.map_eq_some_iff] at hp
    obtain ⟨l, -, pa, hl, rfl⟩ := hp
    simp [h l pa hl]
  rw [this]
  rfl

/-- The collector entries of an access (R263). -/
theorem State.entriesOf_eq (s : State) (ks : List AccKind) (part : Vector (Option Nat) 32) :
    entriesOf part (performedOf part (s.laneAccs ks part)) = entriesFor part (s.homeOf ks part) := by
  unfold entriesOf entriesFor performedLanes
  have h : (performedOf part (s.laneAccs ks part)).isEmpty = true ↔ (laneSet fun l => (s.homeOf ks part l).isSome) = 0 := by
    rw [State.performedOf_eq, laneSet_eq_zero, List.isEmpty_iff, List.filterMap_eq_nil_iff]
    constructor
    · intro h l
      have := h l (List.mem_finRange l)
      cases e : s.homeOf ks part l <;> simp_all
    · intro h l _
      have := h l
      cases e : s.homeOf ks part l <;> simp_all
  by_cases e : (performedOf part (s.laneAccs ks part)).isEmpty = true
  · rw [if_pos e, if_pos (h.mp e)]
  · rw [if_neg e, if_neg fun k => e (h.mpr k)]

/-! ### What a word that reads leaves and finds -/

theorem State.learn_heard (s : State) (f : Late → List Holder) : Heard s (s.learn f) := rfl

theorem State.hear_heard (s : State) (q : Path) : Heard s (s.hear q) := rfl

theorem heard_trans {s t u : State} (h : Heard s t) (k : Heard t u) : Heard s u := by
  unfold Heard at *
  rw [k, h]

/-- Outside a pair a memory word that begins moves chains on and nothing else. -/
theorem State.begins_single {s : State} {c : WCtx} (h : c.gang.pair = none) (part : Vector (Option Nat) 32) :
    s.begins c part = s.together265 c.actor := by
  simp [State.begins, State.notePages, h]

theorem State.met_heard {s : State} {c : WCtx} (h : c.gang.pair = none) (part : Vector (Option Nat) 32) :
    Heard s ((s.begins c part).hear .w) := by
  rw [State.begins_single h]
  exact heard_trans (State.learn_heard s _) (State.hear_heard _ _)

theorem State.readAs_heard (s : State) (c : WCtx) (ext : Option MemExt) (n : Nat) (ps : List (Lane × Nat × Nat)) : Heard s (s.readAs c ext n ps) := by
  unfold State.readAs
  split <;> exact State.learn_heard s _

/-- The mem, waves, crews and gangs that a word that reads leaves. -/
theorem Heard.waves {s u : State} (h : Heard s u) : u.waves = s.waves := by rw [h]

theorem seenAt_shown (sh : Late → Bool) (x : Nat) (rs : List Late)
    (h : ∀ r ∈ rs, ∀ old, r.former = .mem old → sh r = true ∨ ∀ c ∈ old, c.1 ≠ x) : ∀ e, (seenAt sh x rs e).1 = e.1 := by
  induction rs with
  | nil => intro e; rfl
  | cons r rs ih =>
    intro e
    have ih := ih fun q hq => h q (by simp [hq])
    rw [seenAt, ih]
    cases hf : r.former with
    | mem old =>
      dsimp only
      rcases h r (by simp) old hf with hs | hn
      · rw [if_pos hs]
      · rw [foldl_at_none _ x hn]
        split
        · rfl
        · split <;> rfl
    | tile g k o => rfl
    | handle g k o => rfl

/-- Where no write is late at an address the path shows memory as it is. -/
theorem State.on_rd_of {s : State} (h : Memory.wf s.mem = true) {q : Path} {x : Nat} (hx : ¬s.lateAt q x) (a : Actor) : (s.on q a).rd x = s.rd x := by
  rw [State.on_rd h, seenAt_shown]
  intro r hr old ho
  by_cases hc : r.seen.contains q = true
  · left
    simp only [State.shows, hc, Bool.true_or]
  · right
    intro c hc1 e
    exact hx ⟨r, hr, Bool.eq_false_iff.mpr hc, old, ho, c, hc1, e⟩

/-- What a load that nothing holds back gives. -/
theorem State.loadWord_ok {s : State} {c : WCtx} {ty : MemTy} {d : BitVec 7} {part : Vector (Option Nat) 32} {ext : Option MemExt}
    (ha : Accesses s c [.read] ext ty.bytes (entriesFor part (s.homeOf [.read] part)) part) (hc : cleanLanes s ty.bytes (s.homeOf [.read] part)) :
    s.loadWord ty d part ext c = .ok
      { s := ((s.begins c part).hear .w).readAs c ext ty.bytes (performedOf part (s.laneAccs [.read] part)),
        writes := vWritesN ty.regs d.toNat c.sp.lanes (laneValues (s.homeOf [.read] part) (fun pa => ty.load ((s.waveView c part).rdNat pa ty.bytes)) ty.fill) ++ residencyWrites c ext part (s.homeOf [.read] part),
        cat := some .load, entries := entriesFor part (s.homeOf [.read] part) } := by
  have hf : loadForwarded s c ext = false := by simp [loadForwarded, ha.single]
  have hv : (s.laneAccs [.read] part).map (fun a => match a with
      | .ok pa => ty.load (ofBytes ((((s.begins c part).hear .w).onW c).rdOwn c.gang pa ty.bytes))
      | _ => ty.fill) = laneValues (s.homeOf [.read] part) (fun pa => ty.load ((s.waveView c part).rdNat pa ty.bytes)) ty.fill := by
    unfold laneValues State.waveView
    ext i hi
    simp only [Vector.getElem_map, Vector.getElem_ofFn]
    have := State.laneAccs_get s [.read] part ⟨i, hi⟩
    simp only [Fin.getElem_fin] at this
    rw [this]
    simp only [State.rdOwn, ha.single, State.rdNat]
    cases e : part[i] with
    | none => rw [State.homeOf_part (l := ⟨i, hi⟩) e]; rfl
    | some v => cases s.homeOf [.read] part ⟨i, hi⟩ <;> rfl
  have hw : s.room c (entriesOf part (performedOf part (s.laneAccs [.read] part))) = .ok () := by
    rw [State.entriesOf_eq]; exact State.room_ok ha.room
  have hn := State.noPoison_ok hc
  have hr := State.resWrites_eq s c [.read] part ext
  rw [← hr, ← hv, ← State.entriesOf_eq]
  unfold State.loadWord
  rw [State.access_ok ha.aligned ha.reach, bind_ok, hf]
  unfold State.perhapsForwarded
  rw [if_neg (by decide)]
  dsimp only
  rw [hw, bind_ok, hn, bind_ok, pure_ok]
  all_goals rfl

/-- The runs of bytes that a store writes. -/
def storeRuns (n : Nat) (home : Lane → Option Nat) (val : Lane → Nat) : List (Nat × List Byte) :=
  (List.finRange 32).filterMap fun l => (home l).map fun pa => (pa, toBytes n (val l))

/-- What chains learn reaches no byte. -/
theorem State.learn_only {s : State} (h : Memory.wf s.mem = true) (f : Late → List Holder) : WroteOnly s (fun _ => False) (s.learn f) := by
  refine ⟨fun _ _ => rfl, fun q a x _ => ?_, ⟨List.Sublist.refl _, fun _ h _ => h⟩, fun _ => rfl, rfl⟩
  rw [State.on_rd h, State.on_rd (s := s.learn f) h, State.shows_congr (s := s) (t := s.learn f) rfl, State.learn_seen]
  rfl

/-- What the runs of a store leave, where chains move on before and after it. -/
theorem storeRuns_stored {s : State} (hw : Memory.wf s.mem = true) (q : Path) (a : Actor) (n : Nat) (home : Lane → Option Nat) (val : Lane → Nat)
    (f g : Late → List Holder) : StoredBy s n home val (((s.learn f).wrAllBy q a (storeRuns n home val)).learn g) := by
  have hm : ∀ w ∈ storeRuns n home val, ∃ l pa, home l = some pa ∧ w = (pa, toBytes n (val l)) := by
    intro w hw
    simp only [storeRuns, List.mem_filterMap, Option.map_eq_some_iff] at hw
    obtain ⟨l, -, pa, hl, rfl⟩ := hw
    exact ⟨l, pa, hl, rfl⟩
  have h1 := State.wrAllBy_only q a (storeRuns n home val) (s := s.learn f) hw
  have hwf := State.wrAllBy_wf (s := s.learn f) hw q a (storeRuns n home val)
  constructor
  · refine (((State.learn_only hw f).trans h1).trans (State.learn_only hwf g)).mono ?_
    rintro x ((hx | ⟨w, hw1, hx⟩) | hx)
    · exact hx.elim
    · obtain ⟨l, pa, hl, rfl⟩ := hm w hw1
      exact ⟨l, pa, hl, by simpa using hx⟩
    · exact hx.elim
  · intro l pa x hl hc hmax
    show ((s.learn f).wrAllBy q a (storeRuns n home val)).rd x = _
    unfold storeRuns
    obtain ⟨pre, post, hs⟩ := List.append_of_mem (List.mem_finRange l)
    have hp : ∀ m ∈ post, l < m := by
      have : (pre ++ l :: post).Pairwise (· < ·) := by
        rw [← hs]; exact List.pairwise_lt_finRange 32
      rw [List.pairwise_append] at this
      exact fun m hm => (List.pairwise_cons.mp this.2.1).1 m hm
    rw [hs, List.filterMap_append, List.filterMap_cons_some (b := (pa, toBytes n (val l))) (by simp [hl])]
    rw [State.wrAllBy_rd_inside (s := s.learn f) hw q a (by simpa using hc)]
    · have := hc.2
      exact toBytes_getD n _ _ (by omega)
    · intro v hv
      simp only [List.mem_filterMap, Option.map_eq_some_iff] at hv
      obtain ⟨m, hm1, q, hq, rfl⟩ := hv
      simpa using hmax m (hp m hm1) q hq

theorem State.wroteAs_learn (s : State) (c : WCtx) (ext : Option MemExt) (n : Nat) (ps : List (Lane × Nat × Nat)) :
    ∃ f, s.wroteAs c ext n ps = s.learn f := by
  unfold State.wroteAs
  split
  · exact ⟨_, rfl⟩
  · refine ⟨fun _ => [], ?_⟩
    have : (fun (r : Late) => ({ r with known := ([] : List Holder).filter (fun h => !r.known.contains h) ++ r.known } : Late)) = id := by
      funext r
      simp
    unfold State.learn
    rw [this, List.map_id]

/-- What a store that nothing holds back gives. -/
theorem State.storeWord_ok {s : State} {c : WCtx} {ty : MemTy} {skip : Bool} {d : BitVec 7} {part live : Vector (Option Nat) 32}
    {ext : Option MemExt} (hl : skipLanes skip ty (s.vData c.w ty.regs d.toNat ty.fill) part = live)
    (ha : Accesses s c [.write] ext ty.bytes (entriesFor live (s.homeOf [.write] live)) live) :
    s.storeWord ty skip d part ext c = .ok
      { s := ((s.together265 c.actor).wrAllBy .w c.actor
          (storeRuns ty.bytes (s.homeOf [.write] live) fun l => (ty.store (s.vData c.w ty.regs d.toNat ty.fill)[l]).1)).wroteAs c ext ty.bytes
            (performedOf live (s.laneAccs [.write] live)),
        writes := residencyWrites c ext live (s.homeOf [.write] live),
        flags := laneFlags (performedLanes (s.homeOf [.write] live)) fun l => (ty.store (s.vData c.w ty.regs d.toNat ty.fill)[l]).2,
        cat := some .load } := by
  have hi : ∀ ds, s.injected c ds = ds := by
    intro ds
    unfold State.injected
    rw [ha.single]
  have hg : ∀ (t : State) recs ws, t.storeGate c recs ws = .ok (t.wrAllBy .w c.actor ws) := by
    intro t recs ws
    simp [State.storeGate, ha.single]
  have hp : ∀ k recs cat perform, s.atPoint c k recs cat perform = perform s := by
    intro _ _ _ _
    simp [State.atPoint, ha.single]
  unfold State.storeWord
  generalize s.vData c.w ty.regs d.toNat ty.fill = vals at hl ⊢
  have e : List.zip ((performedOf live (s.laneAccs [.write] live)).map fun p => p.2.2)
      ((performedOf live (s.laneAccs [.write] live)).map fun p => toBytes ty.bytes (ty.store vals[p.1]).1) =
      storeRuns ty.bytes (s.homeOf [.write] live) fun l => (ty.store vals[l]).1 := by
    rw [List.zip_map', State.performedOf_eq, List.map_filterMap]
    unfold storeRuns
    congr 1
    funext l
    cases s.homeOf [.write] live l <;> rfl
  have hf : (performedOf live (s.laneAccs [.write] live)).foldl (fun f p => f ||| (ty.store vals[p.1]).2) Flags.none =
      laneFlags (performedLanes (s.homeOf [.write] live)) fun l => (ty.store vals[l]).2 := by
    unfold laneFlags performedLanes
    rw [lanesOf_laneSet, State.performedOf_eq, List.foldl_filterMap, List.foldl_filter]
    congr 1
    funext f l
    cases s.homeOf [.write] live l <;> rfl
  rw [← hf, ← e, ← State.resWrites_eq]
  dsimp only
  rw [hl, State.access_ok ha.aligned ha.reach, bind_ok, State.entriesOf_eq, State.room_ok ha.room, bind_ok, hi]
  by_cases h : (isRel (orderOf ext) && widerThanGang (scopeOf 0 ext)) = true
  · rw [if_pos h, hp, State.begins_single ha.single]
  · rw [if_neg h, State.begins_single ha.single, hg, bind_ok, pure_ok]

/-- What is kept of late writes goes back to one of them: as seen as it was, hiding no more than it did. -/
theorem dropShown_mem (rs : List Late) : ∀ r' ∈ dropShown rs, ∃ r ∈ rs, r'.seen = r.seen ∧ ∀ old', r'.former = .mem old' → ∃ old, r.former = .mem old ∧ ∀ e ∈ old', e ∈ old := by
  induction rs with
  | nil => intro r h; simp [dropShown] at h
  | cons r rs ih =>
    intro r' h
    rw [dropShown] at h
    split at h
    · rcases List.mem_cons.mp h with rfl | h
      · exact ⟨r', by simp, rfl, fun o ho => ⟨o, ho, fun _ h => h⟩⟩
      · obtain ⟨q, hq, h1, h2⟩ := ih r' h
        exact ⟨q, by simp [hq], h1, h2⟩
    · rw [List.mem_filterMap] at h
      obtain ⟨x, hx, he⟩ := h
      obtain ⟨q, hq, h1, h2⟩ := ih x hx
      cases hb : r.former.beneath x.former with
      | none => simp [hb] at he
      | some f =>
        simp only [hb, Option.map_some, Option.some.injEq] at he
        subst he
        refine ⟨q, by simp [hq], h1, ?_⟩
        intro old' ho
        dsimp only at ho
        subst ho
        have : ∃ old, x.former = .mem old ∧ ∀ e ∈ old', e ∈ old := by
          cases hr : r.former <;> cases hx : x.former <;> simp only [hr, hx, Former.beneath] at hb
          all_goals first
            | (split at hb <;> first | (cases hb; exact ⟨_, rfl, fun e he => (List.mem_filter.mp he).1⟩) | cases hb | (split at hb <;> cases hb))
            | (cases hb; exact ⟨_, rfl, fun _ h => h⟩)
            | cases hb
            | skip
        obtain ⟨o, ho, hs⟩ := this
        obtain ⟨o2, ho2, hs2⟩ := h2 o ho
        exact ⟨o2, ho2, fun e he => hs2 e (hs e he)⟩

/-- A write that is not late on a path is not late there after anything is heard. -/
theorem State.hear_lateAt {s : State} {q p : Path} {x : Nat} (h : ¬s.lateAt q x) : ¬(s.hear p).lateAt q x := by
  rintro ⟨r, hr, hs, old, ho, e, he, hx⟩
  obtain ⟨r1, hr1, h1, h2⟩ := dropShown_mem _ r hr
  obtain ⟨o, ho, hsub⟩ := h2 old ho
  rw [List.mem_mapIdx] at hr1
  obtain ⟨i, hi, e1⟩ := hr1
  have : s.late[i].former = r1.former ∧ (r1.seen.contains q = false → s.late[i].seen.contains q = false) := by
    rw [← e1]
    split
    · exact ⟨rfl, fun h => by simp only [List.contains_cons, Bool.or_eq_false_iff] at h; exact h.2⟩
    · exact ⟨rfl, id⟩
  exact h ⟨s.late[i], List.getElem_mem hi, this.2 (h1 ▸ hs), o, this.1.trans ho, e, hsub e he, hx⟩

/-- Nor after chains grow. -/
theorem State.learn_lateAt {s : State} {q : Path} {x : Nat} (f : Late → List Holder) (h : ¬s.lateAt q x) : ¬(s.learn f).lateAt q x := by
  rintro ⟨r, hr, hs, old, ho, e, he, hx⟩
  obtain ⟨r1, hr1, rfl⟩ := List.mem_map.mp hr
  exact h ⟨r1, hr1, hs, old, ho, e, he, hx⟩

/-- Where no write that reaches an address is late on W, a memory word of a split finds memory there. -/
theorem State.waveView_rd {s : State} {c : WCtx} (hp : c.gang.pair = none) (part : Vector (Option Nat) 32) (hw : Memory.wf s.mem = true)
    {x : Nat} (hx : ¬s.lateAt .w x) : (s.waveView c part).rd x = s.rd x := by
  unfold State.waveView State.onW
  rw [State.begins_single hp]
  have h : ¬((s.together265 c.actor).hear .w).lateAt .w x := State.hear_lateAt (State.learn_lateAt _ hx)
  rw [State.on_rd_of (s := ((s.together265 c.actor).hear .w)) hw h]
  rfl

/-- The same of a lead word, on L. -/
theorem State.leadView_rd {s : State} {c : LCtx} (hp : c.gang.pair = none) (va : Nat) (hw : Memory.wf s.mem = true) {x : Nat}
    (hx : ¬s.lateAt .l x) : (s.leadView c va).rd x = s.rd x := by
  have hn : s.beginsLead c va = s.hear .l := by simp [State.beginsLead, State.notePages, hp]
  unfold State.leadView
  rw [hn, State.on_rd_of (s := s.hear .l) hw (State.hear_lateAt hx)]
  rfl

/-- Outside a redundant pair a word's data is injected with nothing. -/
theorem State.injected_single {s : State} {c : WCtx} (h : c.gang.pair = none) (ds : List (List Byte)) : s.injected c ds = ds := by
  unfold State.injected
  rw [h]

/-- Outside a redundant pair a compare point is the plain action. -/
theorem State.atPoint_single {s : State} {c : WCtx} (h : c.gang.pair = none) (k : Nat) (recs : List (List Byte)) (cat : Option Cat)
    (perform : State → WaveRes) : s.atPoint c k recs cat perform = perform s := by
  unfold State.atPoint
  rw [h]

/-- Little-endian bytes hold the low bits of their number. -/
theorem ofBytes_toBytes (n v : Nat) : ofBytes (toBytes n v) = v % 2 ^ (8 * n) := by
  induction n generalizing v with
  | zero => simp [toBytes, ofBytes, Nat.mod_one]
  | succ n ih =>
    simp only [toBytes, ofBytes, ih, BitVec.toNat_ofNat]
    rw [show 8 * (n + 1) = 8 + 8 * n by omega, Nat.pow_add, Nat.mod_mul]

/-- One read-modify-write of a lane (R252 to R254): it finds the ones before it at its location. -/
def rmwOne (a : Actor) (n : Nat) (new : Nat → Nat → Nat × Flags) (data : Lane → Nat) (r : State × Vector Nat 32 × Flags) (l : Lane) (pa : Nat) :
    State × Vector Nat 32 × Flags :=
  let u := r.1.meetRmw .w pa n
  let old := (u.on .w a).rdNat pa n
  let q := new old (data l)
  (u.wrRmw .w a pa n q.1, r.2.1.set l old, r.2.2 ||| q.2)

/-- One read-modify-write per performed lane, as a fold over the lanes. -/
def rmwFold (s : State) (a : Actor) (n : Nat) (new : Nat → Nat → Nat × Flags) (home : Lane → Option Nat) (data : Lane → Nat) (fill : Nat) :
    State × Vector Nat 32 × Flags :=
  (List.finRange 32).foldl (fun r l => ((home l).map (rmwOne a n new data r l)).getD r) (s, Vector.replicate 32 fill, Flags.none)

theorem State.rmwLanes_eq (a : Actor) (n : Nat) (new : Nat → Nat → Nat × Flags) (home va : Lane → Option Nat) (data : Lane → Nat) (ls : List Lane) :
    ∀ (s : State) (olds : Vector Nat 32) (f : Flags),
      s.rmwLanes a n new (ls.filterMap fun l => (home l).map fun pa => (l, (va l).getD 0, pa))
        ((ls.filterMap fun l => (home l).map fun pa => (l, (va l).getD 0, pa)).map fun p => data p.1) olds f =
      ls.foldl (fun r l => ((home l).map (rmwOne a n new data r l)).getD r) (s, olds, f) := by
  induction ls with
  | nil => intro s olds f; rfl
  | cons l ls ih =>
    intro s olds f
    cases h : home l with
    | none =>
      rw [List.filterMap_cons_none (by simp [h]), List.foldl_cons, ih]
      simp [h]
    | some pa =>
      rw [List.filterMap_cons_some (b := (l, (va l).getD 0, pa)) (by simp [h]), List.foldl_cons, List.map_cons, State.rmwLanes]
      simp only [ih, h, Option.map_some, Option.getD_some, rmwOne]

/-- What an atomic that nothing holds back gives, where each lane's data fits its bytes. -/
theorem State.rmwWord_ok {s : State} {c : WCtx} {kind n size fill : Nat} {datas : Vector Nat 32} {new : Nat → Nat → Nat × Flags} {d : BitVec 7}
    {part : Vector (Option Nat) 32} {ext : Option MemExt} (hd : ∀ l : Lane, datas[l] < 2 ^ (8 * size))
    (ha : Accesses s c [.read, .write] ext n (entriesFor part (s.homeOf [.read, .write] part)) part)
    (hc : cleanLanes s n (s.homeOf [.read, .write] part)) :
    let ps := performedOf part (s.laneAccs [.read, .write] part)
    let done := rmwFold (((s.begins c part).hear .w).readAs c ext n ps) c.actor n new (s.homeOf [.read, .write] part) (fun l => datas[l]) fill
    s.rmwWord kind n size fill datas new d part ext c = .ok
      { s := done.1.wroteAs c ext n ps,
        writes := vWritesN (n / 4) d.toNat c.sp.lanes done.2.1 ++ residencyWrites c ext part (s.homeOf [.read, .write] part),
        flags := done.2.2, cat := some .load, entries := entriesFor part (s.homeOf [.read, .write] part) } := by
  intro ps done
  unfold State.rmwWord rdWr
  rw [State.access_ok ha.aligned ha.reach, bind_ok]
  dsimp only
  rw [State.injected_single ha.single, State.atPoint_single ha.single]
  rw [State.entriesOf_eq, State.room_ok ha.room, bind_ok, State.noPoison_ok hc, bind_ok, State.resWrites_eq, List.map_map]
  have e : (performedOf part (s.laneAccs [.read, .write] part)).map (ofBytes ∘ fun p => toBytes size datas[p.1]) =
      (performedOf part (s.laneAccs [.read, .write] part)).map fun p => datas[p.1] := by
    apply List.map_congr_left
    intro p _
    simp only [Function.comp, ofBytes_toBytes]
    exact Nat.mod_eq_of_lt (hd p.1)
  rw [e]
  have r := State.rmwLanes_eq c.actor n new (s.homeOf [.read, .write] part) (fun l => part[l]) (fun l => datas[l]) (List.finRange 32)
    (((s.begins c part).hear .w).readAs c ext n ps) (Vector.replicate 32 fill) Flags.none
  have hps : ps = (List.finRange 32).filterMap fun l => (s.homeOf [.read, .write] part l).map fun pa => (l, part[l].getD 0, pa) :=
    State.performedOf_eq s [.read, .write] part
  rw [← hps] at r
  dsimp only [ps] at r
  rw [r]
  rfl

/-- Every byte that no lane of an atomic reaches reads as before. -/
theorem rmwFold_outside {s : State} (hw : Memory.wf s.mem = true) (a : Actor) (n : Nat) (new : Nat → Nat → Nat × Flags) (home : Lane → Option Nat)
    (data : Lane → Nat) (fill x : Nat) (hx : ∀ l pa, home l = some pa → ¬covers n pa x) : (rmwFold s a n new home data fill).1.rd x = s.rd x := by
  unfold rmwFold
  suffices h : ∀ (ls : List Lane) (r : State × Vector Nat 32 × Flags), Memory.wf r.1.mem = true →
      (ls.foldl (fun r l => ((home l).map (rmwOne a n new data r l)).getD r) r).1.rd x = r.1.rd x from h _ _ hw
  intro ls
  induction ls with
  | nil => intro r _; rfl
  | cons l ls ih =>
    intro r hr
    rw [List.foldl_cons]
    cases h : home l with
    | none => simpa [h] using ih r hr
    | some pa =>
      have hm : Memory.wf (rmwOne a n new data r l pa).1.mem = true := Memory.wf_writes (m := r.1.mem) hr pa _
      simp only [Option.map_some, Option.getD_some]
      rw [ih _ hm]
      show (State.wrAs (r.1.meetRmw .w pa n) .w a none pa _ true).rd x = _
      rw [State.wrAs_rd (s := r.1.meetRmw .w pa n) hr, if_neg (by simpa using hx l pa h)]
      rfl

/-- A word with a misaligned lane is faulted before anything else. -/
theorem State.access_misaligned {s : State} {ks : List AccKind} {must : Bool} {n : Nat} {part : Vector (Option Nat) 32}
    (h : (laneSet fun l => (part[l].map fun v => v % n != 0).getD false) ≠ 0) :
    s.access ks must n part = .error (.fault (Raised.lanes .misaligned 0
      (part[lowestLane (laneSet fun l => (part[l].map fun v => v % n != 0).getD false)].getD 0)
      (laneSet fun l => (part[l].map fun v => v % n != 0).getD false))) := by
  unfold State.access misalignedAt laneFault lanesWhere lowestAddr
  dsimp only
  rw [if_neg h]

/-- A word under .must with a lane that cannot be accessed is faulted. -/
theorem State.access_lost {s : State} {ks : List AccKind} {must : Bool} {n : Nat} {part : Vector (Option Nat) 32}
    (h0 : (laneSet fun l => (part[l].map fun v => v % n != 0).getD false) = 0) (hm : must = true)
    (h : (laneSet fun l => (part[l].map fun _ => (s.homeOf ks part l).isNone).getD false) ≠ 0) :
    s.access ks must n part = .error (.fault (Raised.lanes .elementAccess 0
      (part[lowestLane (laneSet fun l => (part[l].map fun _ => (s.homeOf ks part l).isNone).getD false)].getD 0)
      (laneSet fun l => (part[l].map fun _ => (s.homeOf ks part l).isNone).getD false))) := by
  have e : (laneSet fun l => (s.laneAccs ks part)[l] == .failed) =
      laneSet fun l => (part[l].map fun _ => (s.homeOf ks part l).isNone).getD false := by
    apply laneSet_congr
    intro l
    rw [State.laneAccs_get]
    cases h1 : part[l] with
    | none => rfl
    | some a => cases s.homeOf ks part l <;> rfl
  have hn : misalignedAt n part = none := by
    unfold misalignedAt laneFault lanesWhere
    dsimp only
    rw [if_pos h0]
  unfold State.access lowestAddr
  rw [hn]
  dsimp only
  rw [e, if_pos (by simpa [hm] using h)]

/-- Without a misaligned lane and with every page at hand, a word outside the residency policy meets no obstacle (R256). -/
theorem State.accessWait_ok {s : State} {n : Nat} {part : Vector (Option Nat) 32}
    (h : ∀ (l : Lane) (v : Nat), part[l] = some v → v % n = 0 ∧ (s.homeOf [.read] part l).isSome) :
    s.accessWait n part = .ok (s.laneAccs [.read] part) := by
  unfold State.accessWait
  rw [misalignedAt_none fun l a e => (h l a e).1]
  have h1 : (laneFault .elementAccess 0 part fun a => s.translate .read a == .bad) = none := by
    unfold laneFault
    have : lanesWhere part (fun a => s.translate .read a == .bad) = 0 := by
      rw [lanesWhere, laneSet_eq_zero]
      intro l
      cases e : part[l] with
      | none => rfl
      | some a =>
        have := (h l a e).2
        simp only [State.homeOf, e, Option.bind_some, State.translateAll] at this
        simp only [Option.map_some, Option.getD_some]
        cases q : s.translate .read a <;> simp_all [Tr.pa]
    rw [this]
    rfl
  have h2 : (laneSet fun l => (s.laneAccs [.read] part)[l] == .failed) = 0 := by
    rw [laneSet_eq_zero]
    intro l
    rw [State.laneAccs_get]
    cases e : part[l] with
    | none => rfl
    | some a =>
      have := (h l a e).2
      cases q : s.homeOf [.read] part l with
      | none => simp [q] at this
      | some pa => rfl
  rw [h1]
  dsimp only
  rw [h2]
  rfl

end Sys2Proof.Machine
end

