-- ==== Sys2Proof/Laws/Exec.lean ====
section
/-!
SUPPORT. Each instruction's execution is its meaning.
-/

namespace Sys2Proof.Machine

@[simp] theorem exec_add (z : Bool) (w : Bool) (d : BitVec 7) (a : BitVec 7) (b : BitVec 7) (x : Bool) (t : BitVec 2) (s : State) :
    exec (.add z w d a b x t) s = execAdd z w d a b x t s := rfl
@[simp] theorem exec_addImm (z : Bool) (w : Bool) (d : BitVec 7) (a : BitVec 7) (i : BitVec 8) (t : BitVec 2) (s : State) :
    exec (.addImm z w d a i t) s = execAddImm z w d a i t s := rfl
@[simp] theorem exec_sub (z : Bool) (w : Bool) (d : BitVec 7) (a : BitVec 7) (b : BitVec 7) (x : Bool) (t : BitVec 2) (s : State) :
    exec (.sub z w d a b x t) s = execSub z w d a b x t s := rfl
@[simp] theorem exec_subImm (z : Bool) (w : Bool) (d : BitVec 7) (a : BitVec 7) (i : BitVec 8) (t : BitVec 2) (s : State) :
    exec (.subImm z w d a i t) s = execSubImm z w d a i t s := rfl
@[simp] theorem exec_mul (z : Bool) (w : Bool) (d : BitVec 7) (a : BitVec 7) (b : BitVec 7) (x : Bool) (t : BitVec 2) (s : State) :
    exec (.mul z w d a b x t) s = execMul z w d a b x t s := rfl
@[simp] theorem exec_mulImm (z : Bool) (w : Bool) (d : BitVec 7) (a : BitVec 7) (i : BitVec 8) (t : BitVec 2) (s : State) :
    exec (.mulImm z w d a i t) s = execMulImm z w d a i t s := rfl
@[simp] theorem exec_mulh (z : Bool) (w : Bool) (d : BitVec 7) (a : BitVec 7) (b : BitVec 7) (x : Bool) (t : BitVec 2) (s : State) :
    exec (.mulh z w d a b x t) s = execMulh z w d a b x t s := rfl
@[simp] theorem exec_mad (z : Bool) (w : Bool) (d : BitVec 7) (a : BitVec 7) (b : BitVec 7) (x : Bool) (t : BitVec 2) (s : State) :
    exec (.mad z w d a b x t) s = execMad z w d a b x t s := rfl
@[simp] theorem exec_abs (z : Bool) (w : Bool) (d : BitVec 7) (a : BitVec 7) (s : State) :
    exec (.abs z w d a) s = execAbs z w d a s := rfl
@[simp] theorem exec_neg (z : Bool) (w : Bool) (d : BitVec 7) (a : BitVec 7) (t : BitVec 2) (s : State) :
    exec (.neg z w d a t) s = execNeg z w d a t s := rfl
@[simp] theorem exec_min (z : Bool) (w : Bool) (d : BitVec 7) (a : BitVec 7) (b : BitVec 7) (x : Bool) (t : BitVec 2) (s : State) :
    exec (.min z w d a b x t) s = execMin z w d a b x t s := rfl
@[simp] theorem exec_minImm (z : Bool) (w : Bool) (d : BitVec 7) (a : BitVec 7) (i : BitVec 8) (t : BitVec 2) (s : State) :
    exec (.minImm z w d a i t) s = execMinImm z w d a i t s := rfl
@[simp] theorem exec_max (z : Bool) (w : Bool) (d : BitVec 7) (a : BitVec 7) (b : BitVec 7) (x : Bool) (t : BitVec 2) (s : State) :
    exec (.max z w d a b x t) s = execMax z w d a b x t s := rfl
@[simp] theorem exec_maxImm (z : Bool) (w : Bool) (d : BitVec 7) (a : BitVec 7) (i : BitVec 8) (t : BitVec 2) (s : State) :
    exec (.maxImm z w d a i t) s = execMaxImm z w d a i t s := rfl
@[simp] theorem exec_and (z : Bool) (w : Bool) (d : BitVec 7) (a : BitVec 7) (b : BitVec 7) (x : Bool) (s : State) :
    exec (.and z w d a b x) s = execAnd z w d a b x s := rfl
@[simp] theorem exec_andImm (z : Bool) (w : Bool) (d : BitVec 7) (a : BitVec 7) (i : BitVec 8) (s : State) :
    exec (.andImm z w d a i) s = execAndImm z w d a i s := rfl
@[simp] theorem exec_or (z : Bool) (w : Bool) (d : BitVec 7) (a : BitVec 7) (b : BitVec 7) (x : Bool) (s : State) :
    exec (.or z w d a b x) s = execOr z w d a b x s := rfl
@[simp] theorem exec_orImm (z : Bool) (w : Bool) (d : BitVec 7) (a : BitVec 7) (i : BitVec 8) (s : State) :
    exec (.orImm z w d a i) s = execOrImm z w d a i s := rfl
@[simp] theorem exec_xor (z : Bool) (w : Bool) (d : BitVec 7) (a : BitVec 7) (b : BitVec 7) (x : Bool) (s : State) :
    exec (.xor z w d a b x) s = execXor z w d a b x s := rfl
@[simp] theorem exec_xorImm (z : Bool) (w : Bool) (d : BitVec 7) (a : BitVec 7) (i : BitVec 8) (s : State) :
    exec (.xorImm z w d a i) s = execXorImm z w d a i s := rfl
@[simp] theorem exec_not (z : Bool) (w : Bool) (d : BitVec 7) (a : BitVec 7) (s : State) :
    exec (.not z w d a) s = execNot z w d a s := rfl
@[simp] theorem exec_shl (z : Bool) (w : Bool) (d : BitVec 7) (a : BitVec 7) (b : BitVec 7) (x : Bool) (s : State) :
    exec (.shl z w d a b x) s = execShl z w d a b x s := rfl
@[simp] theorem exec_shlImm (z : Bool) (w : Bool) (d : BitVec 7) (a : BitVec 7) (i : BitVec 8) (s : State) :
    exec (.shlImm z w d a i) s = execShlImm z w d a i s := rfl
@[simp] theorem exec_shr (z : Bool) (w : Bool) (d : BitVec 7) (a : BitVec 7) (b : BitVec 7) (x : Bool) (s : State) :
    exec (.shr z w d a b x) s = execShr z w d a b x s := rfl
@[simp] theorem exec_shrImm (z : Bool) (w : Bool) (d : BitVec 7) (a : BitVec 7) (i : BitVec 8) (s : State) :
    exec (.shrImm z w d a i) s = execShrImm z w d a i s := rfl
@[simp] theorem exec_sar (z : Bool) (w : Bool) (d : BitVec 7) (a : BitVec 7) (b : BitVec 7) (x : Bool) (s : State) :
    exec (.sar z w d a b x) s = execSar z w d a b x s := rfl
@[simp] theorem exec_sarImm (z : Bool) (w : Bool) (d : BitVec 7) (a : BitVec 7) (i : BitVec 8) (s : State) :
    exec (.sarImm z w d a i) s = execSarImm z w d a i s := rfl
@[simp] theorem exec_rot (z : Bool) (w : Bool) (d : BitVec 7) (a : BitVec 7) (b : BitVec 7) (x : Bool) (s : State) :
    exec (.rot z w d a b x) s = execRot z w d a b x s := rfl
@[simp] theorem exec_rotImm (z : Bool) (w : Bool) (d : BitVec 7) (a : BitVec 7) (i : BitVec 8) (s : State) :
    exec (.rotImm z w d a i) s = execRotImm z w d a i s := rfl
@[simp] theorem exec_clz (z : Bool) (w : Bool) (d : BitVec 7) (a : BitVec 7) (s : State) :
    exec (.clz z w d a) s = execClz z w d a s := rfl
@[simp] theorem exec_popc (z : Bool) (w : Bool) (d : BitVec 7) (a : BitVec 7) (s : State) :
    exec (.popc z w d a) s = execPopc z w d a s := rfl
@[simp] theorem exec_bfe (z : Bool) (w : Bool) (d : BitVec 7) (a : BitVec 7) (b : BitVec 7) (x : Bool) (s : State) :
    exec (.bfe z w d a b x) s = execBfe z w d a b x s := rfl
@[simp] theorem exec_bfi (z : Bool) (w : Bool) (d : BitVec 7) (a : BitVec 7) (b : BitVec 7) (x : Bool) (s : State) :
    exec (.bfi z w d a b x) s = execBfi z w d a b x s := rfl
@[simp] theorem exec_fadd (z : Bool) (d : BitVec 7) (a : BitVec 7) (b : BitVec 7) (x : Bool) (s : State) :
    exec (.fadd z d a b x) s = execFadd z d a b x s := rfl
@[simp] theorem exec_faddImm (z : Bool) (d : BitVec 7) (a : BitVec 7) (i : BitVec 8) (s : State) :
    exec (.faddImm z d a i) s = execFaddImm z d a i s := rfl
@[simp] theorem exec_fsub (z : Bool) (d : BitVec 7) (a : BitVec 7) (b : BitVec 7) (x : Bool) (s : State) :
    exec (.fsub z d a b x) s = execFsub z d a b x s := rfl
@[simp] theorem exec_fsubImm (z : Bool) (d : BitVec 7) (a : BitVec 7) (i : BitVec 8) (s : State) :
    exec (.fsubImm z d a i) s = execFsubImm z d a i s := rfl
@[simp] theorem exec_fmul (z : Bool) (d : BitVec 7) (a : BitVec 7) (b : BitVec 7) (x : Bool) (s : State) :
    exec (.fmul z d a b x) s = execFmul z d a b x s := rfl
@[simp] theorem exec_fmulImm (z : Bool) (d : BitVec 7) (a : BitVec 7) (i : BitVec 8) (s : State) :
    exec (.fmulImm z d a i) s = execFmulImm z d a i s := rfl
@[simp] theorem exec_fma (z : Bool) (d : BitVec 7) (a : BitVec 7) (b : BitVec 7) (x : Bool) (s : State) :
    exec (.fma z d a b x) s = execFma z d a b x s := rfl
@[simp] theorem exec_fmin (z : Bool) (d : BitVec 7) (a : BitVec 7) (b : BitVec 7) (x : Bool) (s : State) :
    exec (.fmin z d a b x) s = execFmin z d a b x s := rfl
@[simp] theorem exec_fminImm (z : Bool) (d : BitVec 7) (a : BitVec 7) (i : BitVec 8) (s : State) :
    exec (.fminImm z d a i) s = execFminImm z d a i s := rfl
@[simp] theorem exec_fmax (z : Bool) (d : BitVec 7) (a : BitVec 7) (b : BitVec 7) (x : Bool) (s : State) :
    exec (.fmax z d a b x) s = execFmax z d a b x s := rfl
@[simp] theorem exec_fmaxImm (z : Bool) (d : BitVec 7) (a : BitVec 7) (i : BitVec 8) (s : State) :
    exec (.fmaxImm z d a i) s = execFmaxImm z d a i s := rfl
@[simp] theorem exec_fabs (z : Bool) (d : BitVec 7) (a : BitVec 7) (s : State) :
    exec (.fabs z d a) s = execFabs z d a s := rfl
@[simp] theorem exec_fneg (z : Bool) (d : BitVec 7) (a : BitVec 7) (s : State) :
    exec (.fneg z d a) s = execFneg z d a s := rfl
@[simp] theorem exec_frnd (z : Bool) (d : BitVec 7) (a : BitVec 7) (r : BitVec 7) (s : State) :
    exec (.frnd z d a r) s = execFrnd z d a r s := rfl
@[simp] theorem exec_cmp (z : Bool) (w : Bool) (c : BitVec 3) (d : BitVec 7) (a : BitVec 7) (b : BitVec 7) (x : Bool) (t : BitVec 2) (s : State) :
    exec (.cmp z w c d a b x t) s = execCmp z w c d a b x t s := rfl
@[simp] theorem exec_cmpImm (z : Bool) (w : Bool) (c : BitVec 3) (d : BitVec 7) (a : BitVec 7) (i : BitVec 8) (t : BitVec 2) (s : State) :
    exec (.cmpImm z w c d a i t) s = execCmpImm z w c d a i t s := rfl
@[simp] theorem exec_fcmp (z : Bool) (c : BitVec 3) (d : BitVec 7) (a : BitVec 7) (b : BitVec 7) (x : Bool) (s : State) :
    exec (.fcmp z c d a b x) s = execFcmp z c d a b x s := rfl
@[simp] theorem exec_fcmpImm (z : Bool) (c : BitVec 3) (d : BitVec 7) (a : BitVec 7) (i : BitVec 8) (s : State) :
    exec (.fcmpImm z c d a i) s = execFcmpImm z c d a i s := rfl
@[simp] theorem exec_kand (z : Bool) (d : BitVec 7) (a : BitVec 7) (b : BitVec 7) (s : State) :
    exec (.kand z d a b) s = execKand z d a b s := rfl
@[simp] theorem exec_kor (z : Bool) (d : BitVec 7) (a : BitVec 7) (b : BitVec 7) (s : State) :
    exec (.kor z d a b) s = execKor z d a b s := rfl
@[simp] theorem exec_kxor (z : Bool) (d : BitVec 7) (a : BitVec 7) (b : BitVec 7) (s : State) :
    exec (.kxor z d a b) s = execKxor z d a b s := rfl
@[simp] theorem exec_knot (z : Bool) (d : BitVec 7) (a : BitVec 7) (s : State) :
    exec (.knot z d a) s = execKnot z d a s := rfl
@[simp] theorem exec_kis (z : Bool) (d : BitVec 7) (a : BitVec 7) (t : BitVec 2) (s : State) :
    exec (.kis z d a t) s = execKis z d a t s := rfl
@[simp] theorem exec_isabs (z : Bool) (d : BitVec 7) (a : BitVec 7) (t : BitVec 2) (s : State) :
    exec (.isabs z d a t) s = execIsabs z d a t s := rfl
@[simp] theorem exec_isabs64 (z : Bool) (d : BitVec 7) (a : BitVec 7) (t : BitVec 2) (s : State) :
    exec (.isabs64 z d a t) s = execIsabs64 z d a t s := rfl
@[simp] theorem exec_coal (z : Bool) (d : BitVec 7) (a : BitVec 7) (b : BitVec 7) (x : Bool) (t : BitVec 2) (s : State) :
    exec (.coal z d a b x t) s = execCoal z d a b x t s := rfl
@[simp] theorem exec_coal64 (z : Bool) (d : BitVec 7) (a : BitVec 7) (b : BitVec 7) (x : Bool) (t : BitVec 2) (s : State) :
    exec (.coal64 z d a b x t) s = execCoal64 z d a b x t s := rfl
@[simp] theorem exec_mkabs (z : Bool) (d : BitVec 7) (a : BitVec 7) (b : BitVec 7) (x : Bool) (t : BitVec 2) (s : State) :
    exec (.mkabs z d a b x t) s = execMkabs z d a b x t s := rfl
@[simp] theorem exec_mkabs64 (z : Bool) (d : BitVec 7) (a : BitVec 7) (b : BitVec 7) (x : Bool) (t : BitVec 2) (s : State) :
    exec (.mkabs64 z d a b x t) s = execMkabs64 z d a b x t s := rfl
@[simp] theorem exec_nullif (z : Bool) (d : BitVec 7) (a : BitVec 7) (b : BitVec 7) (x : Bool) (t : BitVec 2) (s : State) :
    exec (.nullif z d a b x t) s = execNullif z d a b x t s := rfl
@[simp] theorem exec_nullif64 (z : Bool) (d : BitVec 7) (a : BitVec 7) (b : BitVec 7) (x : Bool) (t : BitVec 2) (s : State) :
    exec (.nullif64 z d a b x t) s = execNullif64 z d a b x t s := rfl
@[simp] theorem exec_sel (z : Bool) (d : BitVec 7) (a : BitVec 7) (b : BitVec 7) (x : Bool) (t : BitVec 2) (s : State) :
    exec (.sel z d a b x t) s = execSel z d a b x t s := rfl
@[simp] theorem exec_sel64 (z : Bool) (d : BitVec 7) (a : BitVec 7) (b : BitVec 7) (x : Bool) (t : BitVec 2) (s : State) :
    exec (.sel64 z d a b x t) s = execSel64 z d a b x t s := rfl
@[simp] theorem exec_cvt (z : Bool) (d a : BitVec 7) (ext : CvtExt) (s : State) :
    exec (.cvt z d a ext) s = execCvt z d a ext s := rfl
@[simp] theorem exec_rsum (z : Bool) (w : Bool) (d : BitVec 7) (a : BitVec 7) (b : BitVec 7) (x : Bool) (t : BitVec 2) (s : State) :
    exec (.rsum z w d a b x t) s = execRsum z w d a b x t s := rfl
@[simp] theorem exec_rmin (z : Bool) (w : Bool) (d : BitVec 7) (a : BitVec 7) (b : BitVec 7) (x : Bool) (t : BitVec 2) (s : State) :
    exec (.rmin z w d a b x t) s = execRmin z w d a b x t s := rfl
@[simp] theorem exec_rmax (z : Bool) (w : Bool) (d : BitVec 7) (a : BitVec 7) (b : BitVec 7) (x : Bool) (t : BitVec 2) (s : State) :
    exec (.rmax z w d a b x t) s = execRmax z w d a b x t s := rfl
@[simp] theorem exec_rcnt (z : Bool) (w : Bool) (d : BitVec 7) (a : BitVec 7) (t : BitVec 2) (s : State) :
    exec (.rcnt z w d a t) s = execRcnt z w d a t s := rfl
@[simp] theorem exec_scan (z : Bool) (w : Bool) (d : BitVec 7) (a : BitVec 7) (b : BitVec 7) (x : Bool) (t : BitVec 2) (s : State) :
    exec (.scan z w d a b x t) s = execScan z w d a b x t s := rfl
@[simp] theorem exec_shfl (z : Bool) (d : BitVec 7) (a : BitVec 7) (b : BitVec 7) (x : Bool) (o : BitVec 2) (s : State) :
    exec (.shfl z d a b x o) s = execShfl z d a b x o s := rfl
@[simp] theorem exec_shflImm (z : Bool) (d : BitVec 7) (a : BitVec 7) (i : BitVec 8) (o : BitVec 2) (s : State) :
    exec (.shflImm z d a i o) s = execShflImm z d a i o s := rfl
@[simp] theorem exec_bcastImm (z : Bool) (d : BitVec 7) (a : BitVec 7) (i : BitVec 8) (s : State) :
    exec (.bcastImm z d a i) s = execBcastImm z d a i s := rfl
@[simp] theorem exec_bcast (z : Bool) (d : BitVec 7) (a : BitVec 7) (b : BitVec 7) (x : Bool) (s : State) :
    exec (.bcast z d a b x) s = execBcast z d a b x s := rfl
@[simp] theorem exec_vote (z : Bool) (d : BitVec 7) (a : BitVec 7) (o : BitVec 2) (s : State) :
    exec (.vote z d a o) s = execVote z d a o s := rfl
@[simp] theorem exec_dot4 (z : Bool) (d : BitVec 7) (a : BitVec 7) (b : BitVec 7) (x : Bool) (t : BitVec 2) (s : State) :
    exec (.dot4 z d a b x t) s = execDot4 z d a b x t s := rfl
@[simp] theorem exec_dot8 (z : Bool) (d : BitVec 7) (a : BitVec 7) (b : BitVec 7) (x : Bool) (t : BitVec 2) (s : State) :
    exec (.dot8 z d a b x t) s = execDot8 z d a b x t s := rfl
@[simp] theorem exec_dot2 (z : Bool) (d : BitVec 7) (a : BitVec 7) (b : BitVec 7) (x : Bool) (s : State) :
    exec (.dot2 z d a b x) s = execDot2 z d a b x s := rfl
@[simp] theorem exec_scale (z : Bool) (d : BitVec 7) (a : BitVec 7) (b : BitVec 7) (x : Bool) (s : State) :
    exec (.scale z d a b x) s = execScale z d a b x s := rfl
@[simp] theorem exec_pack (z : Bool) (d : BitVec 7) (a : BitVec 7) (b : BitVec 7) (x : Bool) (t : BitVec 2) (s : State) :
    exec (.pack z d a b x t) s = execPack z d a b x t s := rfl
@[simp] theorem exec_unpk (z : Bool) (d : BitVec 7) (a : BitVec 7) (b : BitVec 7) (x : Bool) (t : BitVec 2) (s : State) :
    exec (.unpk z d a b x t) s = execUnpk z d a b x t s := rfl
@[simp] theorem exec_xfRcp (z : Bool) (d : BitVec 7) (a : BitVec 7) (s : State) :
    exec (.xfRcp z d a) s = execXfRcp z d a s := rfl
@[simp] theorem exec_xfRsqrt (z : Bool) (d : BitVec 7) (a : BitVec 7) (s : State) :
    exec (.xfRsqrt z d a) s = execXfRsqrt z d a s := rfl
@[simp] theorem exec_xfSqrt (z : Bool) (d : BitVec 7) (a : BitVec 7) (s : State) :
    exec (.xfSqrt z d a) s = execXfSqrt z d a s := rfl
@[simp] theorem exec_xfExp2 (z : Bool) (d : BitVec 7) (a : BitVec 7) (s : State) :
    exec (.xfExp2 z d a) s = execXfExp2 z d a s := rfl
@[simp] theorem exec_xfLog2 (z : Bool) (d : BitVec 7) (a : BitVec 7) (s : State) :
    exec (.xfLog2 z d a) s = execXfLog2 z d a s := rfl
@[simp] theorem exec_xfSin (z : Bool) (d : BitVec 7) (a : BitVec 7) (s : State) :
    exec (.xfSin z d a) s = execXfSin z d a s := rfl
@[simp] theorem exec_xfCos (z : Bool) (d : BitVec 7) (a : BitVec 7) (s : State) :
    exec (.xfCos z d a) s = execXfCos z d a s := rfl
@[simp] theorem exec_xfTanh (z : Bool) (d : BitVec 7) (a : BitVec 7) (s : State) :
    exec (.xfTanh z d a) s = execXfTanh z d a s := rfl
@[simp] theorem exec_xfErf (z : Bool) (d : BitVec 7) (a : BitVec 7) (s : State) :
    exec (.xfErf z d a) s = execXfErf z d a s := rfl
@[simp] theorem exec_xfQsb8 (z : Bool) (d : BitVec 7) (a : BitVec 7) (b : BitVec 7) (s : State) :
    exec (.xfQsb8 z d a b) s = execXfQsb8 z d a b s := rfl
@[simp] theorem exec_xfXpose (z : Bool) (d : BitVec 7) (a : BitVec 7) (s : State) :
    exec (.xfXpose z d a) s = execXfXpose z d a s := rfl
@[simp] theorem exec_xfSort (z : Bool) (d : BitVec 7) (a : BitVec 7) (b : BitVec 7) (t : BitVec 2) (s : State) :
    exec (.xfSort z d a b t) s = execXfSort z d a b t s := rfl
@[simp] theorem exec_ld (z : Bool) (t : BitVec 4) (d : BitVec 7) (a : BitVec 7) (b : BitVec 7) (x : Bool) (f : Bool) (ext : Option MemExt) (s : State) :
    exec (.ld z t d a b x f ext) s = execLd z t d a b x f ext s := rfl
@[simp] theorem exec_st (z : Bool) (t : BitVec 4) (d : BitVec 7) (a : BitVec 7) (b : BitVec 7) (x : Bool) (f : Bool) (ext : Option MemExt) (s : State) :
    exec (.st z t d a b x f ext) s = execSt z t d a b x f ext s := rfl
@[simp] theorem exec_stSk (z : Bool) (t : BitVec 4) (d : BitVec 7) (a : BitVec 7) (b : BitVec 7) (x : Bool) (f : Bool) (ext : Option MemExt) (s : State) :
    exec (.stSk z t d a b x f ext) s = execStSk z t d a b x f ext s := rfl
@[simp] theorem exec_stnt (z : Bool) (t : BitVec 3) (d : BitVec 7) (a : BitVec 7) (b : BitVec 7) (x : Bool) (f : Bool) (ext : Option MemExt) (s : State) :
    exec (.stnt z t d a b x f ext) s = execStnt z t d a b x f ext s := rfl
@[simp] theorem exec_ntdrain (z : Bool) (ext : MemExt) (s : State) :
    exec (.ntdrain z ext) s = execNtdrain z ext s := rfl
@[simp] theorem exec_touch (z : Bool) (a : BitVec 7) (b : BitVec 7) (x : Bool) (f : Bool) (ext : Option MemExt) (s : State) :
    exec (.touch z a b x f ext) s = execTouch z a b x f ext s := rfl
@[simp] theorem exec_fence (z : Bool) (ext : MemExt) (s : State) :
    exec (.fence z ext) s = execFence z ext s := rfl
@[simp] theorem exec_xfence (z : Bool) (d a : BitVec 7) (ext : MemExt) (s : State) :
    exec (.xfence z d a ext) s = execXfence z d a ext s := rfl
@[simp] theorem exec_post (z : Bool) (d : BitVec 7) (s : State) :
    exec (.post z d) s = execPost z d s := rfl
@[simp] theorem exec_bwait (z : Bool) (d : BitVec 7) (a : BitVec 7) (b : BitVec 7) (x : Bool) (f : Bool) (ext : Option MemExt) (s : State) :
    exec (.bwait z d a b x f ext) s = execBwait z d a b x f ext s := rfl
@[simp] theorem exec_wake (z : Bool) (d : BitVec 7) (a : BitVec 7) (b : BitVec 7) (x : Bool) (f : Bool) (ext : Option MemExt) (s : State) :
    exec (.wake z d a b x f ext) s = execWake z d a b x f ext s := rfl
@[simp] theorem exec_atomAdd (z : Bool) (t : BitVec 3) (d : BitVec 7) (a : BitVec 7) (b : BitVec 7) (x : Bool) (f : Bool) (ext : Option MemExt) (s : State) :
    exec (.atomAdd z t d a b x f ext) s = execAtomAdd z t d a b x f ext s := rfl
@[simp] theorem exec_atomMin (z : Bool) (t : BitVec 2) (d : BitVec 7) (a : BitVec 7) (b : BitVec 7) (x : Bool) (f : Bool) (ext : Option MemExt) (s : State) :
    exec (.atomMin z t d a b x f ext) s = execAtomMin z t d a b x f ext s := rfl
@[simp] theorem exec_atomMax (z : Bool) (t : BitVec 2) (d : BitVec 7) (a : BitVec 7) (b : BitVec 7) (x : Bool) (f : Bool) (ext : Option MemExt) (s : State) :
    exec (.atomMax z t d a b x f ext) s = execAtomMax z t d a b x f ext s := rfl
@[simp] theorem exec_atomAnd (z : Bool) (w : Bool) (d : BitVec 7) (a : BitVec 7) (b : BitVec 7) (x : Bool) (f : Bool) (ext : Option MemExt) (s : State) :
    exec (.atomAnd z w d a b x f ext) s = execAtomAnd z w d a b x f ext s := rfl
@[simp] theorem exec_atomOr (z : Bool) (w : Bool) (d : BitVec 7) (a : BitVec 7) (b : BitVec 7) (x : Bool) (f : Bool) (ext : Option MemExt) (s : State) :
    exec (.atomOr z w d a b x f ext) s = execAtomOr z w d a b x f ext s := rfl
@[simp] theorem exec_atomXor (z : Bool) (w : Bool) (d : BitVec 7) (a : BitVec 7) (b : BitVec 7) (x : Bool) (f : Bool) (ext : Option MemExt) (s : State) :
    exec (.atomXor z w d a b x f ext) s = execAtomXor z w d a b x f ext s := rfl
@[simp] theorem exec_atomXchg (z : Bool) (w : Bool) (d : BitVec 7) (a : BitVec 7) (b : BitVec 7) (x : Bool) (f : Bool) (ext : Option MemExt) (s : State) :
    exec (.atomXchg z w d a b x f ext) s = execAtomXchg z w d a b x f ext s := rfl
@[simp] theorem exec_cas (z : Bool) (w : Bool) (d : BitVec 7) (a : BitVec 7) (b : BitVec 7) (x : Bool) (f : Bool) (ext : Option MemExt) (s : State) :
    exec (.cas z w d a b x f ext) s = execCas z w d a b x f ext s := rfl
@[simp] theorem exec_waita (z : Bool) (w : Bool) (d : BitVec 7) (a : BitVec 7) (b : BitVec 7) (x : Bool) (f : Bool) (ext : Option MemExt) (s : State) :
    exec (.waita z w d a b x f ext) s = execWaita z w d a b x f ext s := rfl
@[simp] theorem exec_gath (z : Bool) (d : BitVec 7) (a : BitVec 7) (b : BitVec 7) (ext : Option MemExt) (s : State) :
    exec (.gath z d a b ext) s = execGath z d a b ext s := rfl
@[simp] theorem exec_scat (z : Bool) (d : BitVec 7) (a : BitVec 7) (b : BitVec 7) (ext : Option MemExt) (s : State) :
    exec (.scat z d a b ext) s = execScat z d a b ext s := rfl
@[simp] theorem exec_scadd (z : Bool) (d : BitVec 7) (a : BitVec 7) (b : BitVec 7) (ext : Option MemExt) (s : State) :
    exec (.scadd z d a b ext) s = execScadd z d a b ext s := rfl
@[simp] theorem exec_confd (z : Bool) (d : BitVec 7) (a : BitVec 7) (s : State) :
    exec (.confd z d a) s = execConfd z d a s := rfl
@[simp] theorem exec_tld (z : Bool) (t : BitVec 2) (d : BitVec 7) (a : BitVec 7) (h : BitVec 8) (ext : Option MemExt) (s : State) :
    exec (.tld z t d a h ext) s = execTld z t d a h ext s := rfl
@[simp] theorem exec_tst (z : Bool) (t : BitVec 2) (d : BitVec 7) (a : BitVec 7) (h : BitVec 8) (ext : Option MemExt) (s : State) :
    exec (.tst z t d a h ext) s = execTst z t d a h ext s := rfl
@[simp] theorem exec_tstSk (z : Bool) (t : BitVec 2) (d : BitVec 7) (a : BitVec 7) (h : BitVec 8) (ext : Option MemExt) (s : State) :
    exec (.tstSk z t d a h ext) s = execTstSk z t d a h ext s := rfl
@[simp] theorem exec_br (z : Bool) (p : BitVec 6) (u : BitVec 2) (o : BitVec 8) (j : BitVec 8) (s : State) :
    exec (.br z p u o j) s = execBr z p u o j s := rfl
@[simp] theorem exec_brc (z : Bool) (p : BitVec 6) (u : BitVec 2) (o : BitVec 8) (j : BitVec 8) (s : State) :
    exec (.brc z p u o j) s = execBrc z p u o j s := rfl
@[simp] theorem exec_brq (z : Bool) (q : BitVec 2) (o : BitVec 8) (s : State) :
    exec (.brq z q o) s = execBrq z q o s := rfl
@[simp] theorem exec_join (z : Bool) (s : State) :
    exec (.join z) s = execJoin z s := rfl
@[simp] theorem exec_call (z : Bool) (o : BitVec 8) (s : State) :
    exec (.call z o) s = execCall z o s := rfl
@[simp] theorem exec_ret (z : Bool) (s : State) :
    exec (.ret z) s = execRet z s := rfl
@[simp] theorem exec_jmpx (z : Bool) (a : BitVec 7) (g : BitVec 6) (s : State) :
    exec (.jmpx z a g) s = execJmpx z a g s := rfl
@[simp] theorem exec_callx (z : Bool) (a : BitVec 7) (g : BitVec 6) (s : State) :
    exec (.callx z a g) s = execCallx z a g s := rfl
@[simp] theorem exec_exit (z : Bool) (s : State) :
    exec (.exit z) s = execExit z s := rfl
@[simp] theorem exec_bar (z : Bool) (i : BitVec 4) (a : BitVec 7) (l : Bool) (s : State) :
    exec (.bar z i a l) s = execBar z i a l s := rfl
@[simp] theorem exec_live (z : Bool) (a : BitVec 7) (s : State) :
    exec (.live z a) s = execLive z a s := rfl
@[simp] theorem exec_savept (z : Bool) (i : BitVec 8) (s : State) :
    exec (.savept z i) s = execSavept z i s := rfl
@[simp] theorem exec_trap (z : Bool) (i : BitVec 8) (s : State) :
    exec (.trap z i) s = execTrap z i s := rfl
@[simp] theorem exec_rdstat (z : Bool) (d : BitVec 7) (s : State) :
    exec (.rdstat z d) s = execRdstat z d s := rfl
@[simp] theorem exec_wrstat (z : Bool) (a : BitVec 7) (s : State) :
    exec (.wrstat z a) s = execWrstat z a s := rfl
@[simp] theorem exec_rtf (z : Bool) (r : Bool) (s : State) :
    exec (.rtf z r) s = execRtf z r s := rfl
@[simp] theorem exec_yield (z : Bool) (s : State) :
    exec (.yield z) s = execYield z s := rfl
@[simp] theorem exec_leadAdd (z : Bool) (d : BitVec 6) (a : BitVec 6) (b : BitVec 6) (y : BitVec 2) (c32 : Bool) (t : BitVec 2) (s : State) :
    exec (.leadAdd z d a b y c32 t) s = execLeadAdd z d a b y c32 t s := rfl
@[simp] theorem exec_leadAddImm (z : Bool) (d : BitVec 6) (a : BitVec 6) (i : BitVec 8) (t : BitVec 2) (s : State) :
    exec (.leadAddImm z d a i t) s = execLeadAddImm z d a i t s := rfl
@[simp] theorem exec_leadSub (z : Bool) (d : BitVec 6) (a : BitVec 6) (b : BitVec 6) (y : BitVec 2) (c32 : Bool) (t : BitVec 2) (s : State) :
    exec (.leadSub z d a b y c32 t) s = execLeadSub z d a b y c32 t s := rfl
@[simp] theorem exec_leadSubImm (z : Bool) (d : BitVec 6) (a : BitVec 6) (i : BitVec 8) (t : BitVec 2) (s : State) :
    exec (.leadSubImm z d a i t) s = execLeadSubImm z d a i t s := rfl
@[simp] theorem exec_leadMul (z : Bool) (d : BitVec 6) (a : BitVec 6) (b : BitVec 6) (y : BitVec 2) (c32 : Bool) (t : BitVec 2) (s : State) :
    exec (.leadMul z d a b y c32 t) s = execLeadMul z d a b y c32 t s := rfl
@[simp] theorem exec_leadMulImm (z : Bool) (d : BitVec 6) (a : BitVec 6) (i : BitVec 8) (t : BitVec 2) (s : State) :
    exec (.leadMulImm z d a i t) s = execLeadMulImm z d a i t s := rfl
@[simp] theorem exec_leadMulh (z : Bool) (d : BitVec 6) (a : BitVec 6) (b : BitVec 6) (y : BitVec 2) (c32 : Bool) (t : BitVec 2) (s : State) :
    exec (.leadMulh z d a b y c32 t) s = execLeadMulh z d a b y c32 t s := rfl
@[simp] theorem exec_div (z : Bool) (d : BitVec 6) (a : BitVec 6) (b : BitVec 6) (y : BitVec 2) (c32 : Bool) (t : BitVec 2) (s : State) :
    exec (.div z d a b y c32 t) s = execDiv z d a b y c32 t s := rfl
@[simp] theorem exec_rem (z : Bool) (d : BitVec 6) (a : BitVec 6) (b : BitVec 6) (y : BitVec 2) (c32 : Bool) (t : BitVec 2) (s : State) :
    exec (.rem z d a b y c32 t) s = execRem z d a b y c32 t s := rfl
@[simp] theorem exec_leadAnd (z : Bool) (d : BitVec 6) (a : BitVec 6) (b : BitVec 6) (y : BitVec 2) (c32 : Bool) (s : State) :
    exec (.leadAnd z d a b y c32) s = execLeadAnd z d a b y c32 s := rfl
@[simp] theorem exec_leadAndImm (z : Bool) (d : BitVec 6) (a : BitVec 6) (i : BitVec 8) (s : State) :
    exec (.leadAndImm z d a i) s = execLeadAndImm z d a i s := rfl
@[simp] theorem exec_leadOr (z : Bool) (d : BitVec 6) (a : BitVec 6) (b : BitVec 6) (y : BitVec 2) (c32 : Bool) (s : State) :
    exec (.leadOr z d a b y c32) s = execLeadOr z d a b y c32 s := rfl
@[simp] theorem exec_leadOrImm (z : Bool) (d : BitVec 6) (a : BitVec 6) (i : BitVec 8) (s : State) :
    exec (.leadOrImm z d a i) s = execLeadOrImm z d a i s := rfl
@[simp] theorem exec_leadXor (z : Bool) (d : BitVec 6) (a : BitVec 6) (b : BitVec 6) (y : BitVec 2) (c32 : Bool) (s : State) :
    exec (.leadXor z d a b y c32) s = execLeadXor z d a b y c32 s := rfl
@[simp] theorem exec_leadXorImm (z : Bool) (d : BitVec 6) (a : BitVec 6) (i : BitVec 8) (s : State) :
    exec (.leadXorImm z d a i) s = execLeadXorImm z d a i s := rfl
@[simp] theorem exec_leadShl (z : Bool) (d : BitVec 6) (a : BitVec 6) (b : BitVec 6) (y : BitVec 2) (c32 : Bool) (s : State) :
    exec (.leadShl z d a b y c32) s = execLeadShl z d a b y c32 s := rfl
@[simp] theorem exec_leadShlImm (z : Bool) (d : BitVec 6) (a : BitVec 6) (i : BitVec 8) (s : State) :
    exec (.leadShlImm z d a i) s = execLeadShlImm z d a i s := rfl
@[simp] theorem exec_leadShr (z : Bool) (d : BitVec 6) (a : BitVec 6) (b : BitVec 6) (y : BitVec 2) (c32 : Bool) (s : State) :
    exec (.leadShr z d a b y c32) s = execLeadShr z d a b y c32 s := rfl
@[simp] theorem exec_leadShrImm (z : Bool) (d : BitVec 6) (a : BitVec 6) (i : BitVec 8) (s : State) :
    exec (.leadShrImm z d a i) s = execLeadShrImm z d a i s := rfl
@[simp] theorem exec_leadSar (z : Bool) (d : BitVec 6) (a : BitVec 6) (b : BitVec 6) (y : BitVec 2) (c32 : Bool) (s : State) :
    exec (.leadSar z d a b y c32) s = execLeadSar z d a b y c32 s := rfl
@[simp] theorem exec_leadSarImm (z : Bool) (d : BitVec 6) (a : BitVec 6) (i : BitVec 8) (s : State) :
    exec (.leadSarImm z d a i) s = execLeadSarImm z d a i s := rfl
@[simp] theorem exec_leadMin (z : Bool) (d : BitVec 6) (a : BitVec 6) (b : BitVec 6) (y : BitVec 2) (c32 : Bool) (t : BitVec 2) (s : State) :
    exec (.leadMin z d a b y c32 t) s = execLeadMin z d a b y c32 t s := rfl
@[simp] theorem exec_leadMax (z : Bool) (d : BitVec 6) (a : BitVec 6) (b : BitVec 6) (y : BitVec 2) (c32 : Bool) (t : BitVec 2) (s : State) :
    exec (.leadMax z d a b y c32 t) s = execLeadMax z d a b y c32 t s := rfl
@[simp] theorem exec_leadCmp (z : Bool) (c : BitVec 3) (d : BitVec 6) (a : BitVec 6) (b : BitVec 6) (y : BitVec 2) (c32 : Bool) (t : BitVec 2) (s : State) :
    exec (.leadCmp z c d a b y c32 t) s = execLeadCmp z c d a b y c32 t s := rfl
@[simp] theorem exec_leadCmpImm (z : Bool) (c : BitVec 3) (d : BitVec 6) (a : BitVec 6) (i : BitVec 8) (t : BitVec 2) (s : State) :
    exec (.leadCmpImm z c d a i t) s = execLeadCmpImm z c d a i t s := rfl
@[simp] theorem exec_leadSel (z : Bool) (d : BitVec 6) (a : BitVec 6) (b : BitVec 6) (y : BitVec 2) (c32 : Bool) (t : BitVec 2) (s : State) :
    exec (.leadSel z d a b y c32 t) s = execLeadSel z d a b y c32 t s := rfl
@[simp] theorem exec_movi (z : Bool) (d : BitVec 6) (i : BitVec 8) (t : BitVec 2) (s : State) :
    exec (.movi z d i t) s = execMovi z d i t s := rfl
@[simp] theorem exec_movc (z : Bool) (d : BitVec 6) (a : BitVec 6) (w : Bool) (s : State) :
    exec (.movc z d a w) s = execMovc z d a w s := rfl
@[simp] theorem exec_ldx (z : Bool) (t : BitVec 2) (d : BitVec 6) (a : BitVec 6) (i : BitVec 8) (s : State) :
    exec (.ldx z t d a i) s = execLdx z t d a i s := rfl
@[simp] theorem exec_stx (z : Bool) (t : BitVec 2) (d : BitVec 6) (a : BitVec 6) (i : BitVec 8) (s : State) :
    exec (.stx z t d a i) s = execStx z t d a i s := rfl
@[simp] theorem exec_atomxAdd (z : Bool) (t : BitVec 2) (d : BitVec 6) (a : BitVec 6) (b : BitVec 6) (p : BitVec 4) (o : BitVec 2) (s : State) :
    exec (.atomxAdd z t d a b p o) s = execAtomxAdd z t d a b p o s := rfl
@[simp] theorem exec_atomxMinI64 (z : Bool) (d : BitVec 6) (a : BitVec 6) (b : BitVec 6) (p : BitVec 4) (o : BitVec 2) (s : State) :
    exec (.atomxMinI64 z d a b p o) s = execAtomxMinI64 z d a b p o s := rfl
@[simp] theorem exec_atomxMinN64 (z : Bool) (d : BitVec 6) (a : BitVec 6) (b : BitVec 6) (p : BitVec 4) (o : BitVec 2) (s : State) :
    exec (.atomxMinN64 z d a b p o) s = execAtomxMinN64 z d a b p o s := rfl
@[simp] theorem exec_atomxMaxI64 (z : Bool) (d : BitVec 6) (a : BitVec 6) (b : BitVec 6) (p : BitVec 4) (o : BitVec 2) (s : State) :
    exec (.atomxMaxI64 z d a b p o) s = execAtomxMaxI64 z d a b p o s := rfl
@[simp] theorem exec_atomxMaxN64 (z : Bool) (d : BitVec 6) (a : BitVec 6) (b : BitVec 6) (p : BitVec 4) (o : BitVec 2) (s : State) :
    exec (.atomxMaxN64 z d a b p o) s = execAtomxMaxN64 z d a b p o s := rfl
@[simp] theorem exec_atomxAnd (z : Bool) (d : BitVec 6) (a : BitVec 6) (b : BitVec 6) (p : BitVec 4) (o : BitVec 2) (s : State) :
    exec (.atomxAnd z d a b p o) s = execAtomxAnd z d a b p o s := rfl
@[simp] theorem exec_atomxOr (z : Bool) (d : BitVec 6) (a : BitVec 6) (b : BitVec 6) (p : BitVec 4) (o : BitVec 2) (s : State) :
    exec (.atomxOr z d a b p o) s = execAtomxOr z d a b p o s := rfl
@[simp] theorem exec_atomxXor (z : Bool) (d : BitVec 6) (a : BitVec 6) (b : BitVec 6) (p : BitVec 4) (o : BitVec 2) (s : State) :
    exec (.atomxXor z d a b p o) s = execAtomxXor z d a b p o s := rfl
@[simp] theorem exec_atomxXchg (z : Bool) (d : BitVec 6) (a : BitVec 6) (b : BitVec 6) (p : BitVec 4) (o : BitVec 2) (s : State) :
    exec (.atomxXchg z d a b p o) s = execAtomxXchg z d a b p o s := rfl
@[simp] theorem exec_atomxCas (z : Bool) (d : BitVec 6) (a : BitVec 6) (b : BitVec 6) (p : BitVec 4) (o : BitVec 2) (s : State) :
    exec (.atomxCas z d a b p o) s = execAtomxCas z d a b p o s := rfl
@[simp] theorem exec_leadBr (z : Bool) (p : BitVec 6) (u : BitVec 2) (o : BitVec 8) (s : State) :
    exec (.leadBr z p u o) s = execLeadBr z p u o s := rfl
@[simp] theorem exec_leadBrc (z : Bool) (p : BitVec 6) (u : BitVec 2) (o : BitVec 8) (s : State) :
    exec (.leadBrc z p u o) s = execLeadBrc z p u o s := rfl
@[simp] theorem exec_leadCall (z : Bool) (p : BitVec 6) (u : BitVec 2) (o : BitVec 8) (s : State) :
    exec (.leadCall z p u o) s = execLeadCall z p u o s := rfl
@[simp] theorem exec_leadRet (z : Bool) (s : State) :
    exec (.leadRet z) s = execLeadRet z s := rfl
@[simp] theorem exec_dqpush (z : Bool) (d : BitVec 6) (a : BitVec 6) (s : State) :
    exec (.dqpush z d a) s = execDqpush z d a s := rfl
@[simp] theorem exec_rqpop (z : Bool) (d : BitVec 6) (s : State) :
    exec (.rqpop z d) s = execRqpop z d s := rfl
@[simp] theorem exec_qpush (z : Bool) (d : BitVec 6) (a : BitVec 6) (b : BitVec 6) (p : BitVec 4) (s : State) :
    exec (.qpush z d a b p) s = execQpush z d a b p s := rfl
@[simp] theorem exec_qpop (z : Bool) (d : BitVec 6) (a : BitVec 6) (p : BitVec 4) (s : State) :
    exec (.qpop z d a p) s = execQpop z d a p s := rfl
@[simp] theorem exec_leadWaita (z : Bool) (d : BitVec 6) (a : BitVec 6) (b : BitVec 6) (p : BitVec 4) (w : BitVec 2) (s : State) :
    exec (.leadWaita z d a b p w) s = execLeadWaita z d a b p w s := rfl
@[simp] theorem exec_leadWake (z : Bool) (d : BitVec 6) (a : BitVec 6) (b : BitVec 6) (p : BitVec 4) (s : State) :
    exec (.leadWake z d a b p) s = execLeadWake z d a b p s := rfl
@[simp] theorem exec_leadFence (z : Bool) (p : BitVec 4) (o : BitVec 2) (s : State) :
    exec (.leadFence z p o) s = execLeadFence z p o s := rfl
@[simp] theorem exec_leadXfence (z : Bool) (d : BitVec 6) (a : BitVec 6) (p : BitVec 4) (s : State) :
    exec (.leadXfence z d a p) s = execLeadXfence z d a p s := rfl
@[simp] theorem exec_mzero (z : Bool) (d : BitVec 6) (unit : BitVec 2) (acc : BitVec 4) (ty : Bool) (s : State) :
    exec (.mzero z d unit acc ty) s = execMzero z d unit acc ty s := rfl
@[simp] theorem exec_mma (z : Bool) (d a b : BitVec 6) (unit : BitVec 2) (acc : BitVec 4) (k : BitVec 8) (strict : Bool) (s : State) :
    exec (.mma z d a b unit acc k strict) s = execMma z d a b unit acc k strict s := rfl
@[simp] theorem exec_mmc (z : Bool) (d b : BitVec 6) (unit : BitVec 2) (acc src : BitVec 4) (fmt : BitVec 5) (strict : Bool) (s : State) :
    exec (.mmc z d b unit acc src fmt strict) s = execMmc z d b unit acc src fmt strict s := rfl
@[simp] theorem exec_mmw (z : Bool) (d a : BitVec 6) (unit : BitVec 2) (acc : BitVec 4) (h : BitVec 8) (strict : Bool) (s : State) :
    exec (.mmw z d a unit acc h strict) s = execMmw z d a unit acc h strict s := rfl
@[simp] theorem exec_mdrain (z : Bool) (d a b : BitVec 6) (unit : BitVec 2) (acc : BitVec 4) (s : State) :
    exec (.mdrain z d a b unit acc) s = execMdrain z d a b unit acc s := rfl
@[simp] theorem exec_mload (z : Bool) (d a : BitVec 6) (unit : BitVec 2) (acc : BitVec 4) (ty : Bool) (s : State) :
    exec (.mload z d a unit acc ty) s = execMload z d a unit acc ty s := rfl
@[simp] theorem exec_talloc (z : Bool) (d a b : BitVec 6) (h : BitVec 8) (fmt : BitVec 5) (slice packed : Bool) (s : State) :
    exec (.talloc z d a b h fmt slice packed) s = execTalloc z d a b h fmt slice packed s := rfl
@[simp] theorem exec_tfree (z : Bool) (d : BitVec 6) (h : BitVec 8) (s : State) :
    exec (.tfree z d h) s = execTfree z d h s := rfl
@[simp] theorem exec_tbind (z : Bool) (d a : BitVec 6) (h : BitVec 8) (s : State) :
    exec (.tbind z d a h) s = execTbind z d a h s := rfl
@[simp] theorem exec_tdry (z : Bool) (d : BitVec 6) (h : BitVec 8) (s : State) :
    exec (.tdry z d h) s = execTdry z d h s := rfl
@[simp] theorem exec_tstat (z : Bool) (d a : BitVec 6) (h : BitVec 8) (s : State) :
    exec (.tstat z d a h) s = execTstat z d a h s := rfl
@[simp] theorem exec_abind (z : Bool) (d a : BitVec 6) (h : BitVec 8) (slice : Bool) (s : State) :
    exec (.abind z d a h slice) s = execAbind z d a h slice s := rfl
@[simp] theorem exec_seek (z : Bool) (d a b : BitVec 6) (unit : BitVec 2) (ka mc : BitVec 3) (n : BitVec 8) (s : State) :
    exec (.seek z d a b unit ka mc n) s = execSeek z d a b unit ka mc n s := rfl
@[simp] theorem exec_proj (z : Bool) (d a b : BitVec 6) (unit : BitVec 2) (s : State) :
    exec (.proj z d a b unit) s = execProj z d a b unit s := rfl
@[simp] theorem exec_copy (z : Bool) (d a : BitVec 6) (tile : Bool) (h : BitVec 8) (s : State) :
    exec (.copy z d a tile h) s = execCopy z d a tile h s := rfl
@[simp] theorem exec_pcopy (z : Bool) (d a b : BitVec 6) (scope : BitVec 4) (n : BitVec 16) (s : State) :
    exec (.pcopy z d a b scope n) s = execPcopy z d a b scope n s := rfl
@[simp] theorem exec_binit (z : Bool) (a b : BitVec 6) (tile : Bool) (h : BitVec 8) (scope : BitVec 4) (s : State) :
    exec (.binit z a b tile h scope) s = execBinit z a b tile h scope s := rfl
@[simp] theorem exec_barr (z : Bool) (d a b : BitVec 6) (tile : Bool) (h : BitVec 8) (scope : BitVec 4) (s : State) :
    exec (.barr z d a b tile h scope) s = execBarr z d a b tile h scope s := rfl
@[simp] theorem exec_leadBwait (z : Bool) (d a b : BitVec 6) (tile : Bool) (h : BitVec 8) (scope : BitVec 4) (s : State) :
    exec (.leadBwait z d a b tile h scope) s = execLeadBwait z d a b tile h scope s := rfl
@[simp] theorem exec_smapLook (z : Bool) (d a b : BitVec 6) (s : State) :
    exec (.smapLook z d a b) s = execSmapLook z d a b s := rfl
@[simp] theorem exec_smapAppend (z : Bool) (d a b : BitVec 6) (s : State) :
    exec (.smapAppend z d a b) s = execSmapAppend z d a b s := rfl
@[simp] theorem exec_smapShare (z : Bool) (d a b : BitVec 6) (s : State) :
    exec (.smapShare z d a b) s = execSmapShare z d a b s := rfl
@[simp] theorem exec_smapLen (z : Bool) (d a b : BitVec 6) (s : State) :
    exec (.smapLen z d a b) s = execSmapLen z d a b s := rfl
@[simp] theorem exec_smapEvict (z : Bool) (d a b : BitVec 6) (s : State) :
    exec (.smapEvict z d a b) s = execSmapEvict z d a b s := rfl
@[simp] theorem exec_chase (z : Bool) (d a b : BitVec 6) (q : BitVec 2) (lim : BitVec 16) (s : State) :
    exec (.chase z d a b q lim) s = execChase z d a b q lim s := rfl
@[simp] theorem exec_launch (z : Bool) (d : BitVec 6) (a : BitVec 6) (p : BitVec 4) (s : State) :
    exec (.launch z d a p) s = execLaunch z d a p s := rfl
@[simp] theorem exec_mark (z : Bool) (d : BitVec 6) (a : BitVec 6) (b : BitVec 6) (s : State) :
    exec (.mark z d a b) s = execMark z d a b s := rfl
@[simp] theorem exec_snap (z : Bool) (s : State) :
    exec (.snap z) s = execSnap z s := rfl
@[simp] theorem exec_rollbk (z : Bool) (s : State) :
    exec (.rollbk z) s = execRollbk z s := rfl
@[simp] theorem exec_commit (z : Bool) (s : State) :
    exec (.commit z) s = execCommit z s := rfl
@[simp] theorem exec_leadTrap (z : Bool) (b : BitVec 6) (s : State) :
    exec (.leadTrap z b) s = execLeadTrap z b s := rfl
@[simp] theorem exec_leadRdstat (z : Bool) (d : BitVec 6) (s : State) :
    exec (.leadRdstat z d) s = execLeadRdstat z d s := rfl
@[simp] theorem exec_leadWrstat (z : Bool) (a : BitVec 6) (s : State) :
    exec (.leadWrstat z a) s = execLeadWrstat z a s := rfl
@[simp] theorem exec_leadRtf (z : Bool) (r : Bool) (s : State) :
    exec (.leadRtf z r) s = execLeadRtf z r s := rfl
@[simp] theorem exec_leadSavept (z : Bool) (i : BitVec 6) (h : BitVec 2) (s : State) :
    exec (.leadSavept z i h) s = execLeadSavept z i h s := rfl
@[simp] theorem exec_leadExit (z : Bool) (s : State) :
    exec (.leadExit z) s = execLeadExit z s := rfl
@[simp] theorem exec_rep (n : BitVec 6) (k : BitVec 3) (t : Bool) (s : State) :
    exec (.rep n k t) s = execRep n k t s := rfl
@[simp] theorem exec_unlistedOpcode (w : BitVec 32) (s : State) :
    exec (.unlistedOpcode w) s = execUnlistedOpcode w s := rfl
@[simp] theorem exec_clauseFetch (s : State) :
    exec (.clauseFetch) s = execClauseFetch s := rfl
@[simp] theorem exec_resultReturn (c : Ctx) (n : Nat) (s : State) :
    exec (.resultReturn c n) s = execResultReturn c n s := rfl
@[simp] theorem exec_regcacheFill (k : WaveKey) (r : Nat) (victim : Option (WaveKey × Nat)) (s : State) :
    exec (.regcacheFill k r victim) s = execRegcacheFill k r victim s := rfl
@[simp] theorem exec_xfReply (k : WaveKey) (s : State) :
    exec (.xfReply k) s = execXfReply k s := rfl
@[simp] theorem exec_memoryReply (k : WaveKey) (n : Nat) (s : State) :
    exec (.memoryReply k n) s = execMemoryReply k n s := rfl
@[simp] theorem exec_collectorRoom (c : Ctx) (s : State) :
    exec (.collectorRoom c) s = execCollectorRoom c s := rfl
@[simp] theorem exec_queueStallRelease (c : Ctx) (s : State) :
    exec (.queueStallRelease c) s = execQueueStallRelease c s := rfl
@[simp] theorem exec_waitEnd (c : Ctx) (cause : WaitCause) (s : State) :
    exec (.waitEnd c cause) s = execWaitEnd c cause s := rfl
@[simp] theorem exec_waitTimeout (c : Ctx) (s : State) :
    exec (.waitTimeout c) s = execWaitTimeout c s := rfl
@[simp] theorem exec_bwaitResume (c : Ctx) (s : State) :
    exec (.bwaitResume c) s = execBwaitResume c s := rfl
@[simp] theorem exec_pageResident (va : Nat) (s : State) :
    exec (.pageResident va) s = execPageResident va s := rfl
@[simp] theorem exec_tileFill (g h sb : Nat) (s : State) :
    exec (.tileFill g h sb) s = execTileFill g h sb s := rfl
@[simp] theorem exec_tileEvict (g h sb : Nat) (s : State) :
    exec (.tileEvict g h sb) s = execTileEvict g h sb s := rfl
@[simp] theorem exec_matrixKStep (op : Nat) (s : State) :
    exec (.matrixKStep op) s = execMatrixKStep op s := rfl
@[simp] theorem exec_matrixOpComplete (op : Nat) (s : State) :
    exec (.matrixOpComplete op) s = execMatrixOpComplete op s := rfl
@[simp] theorem exec_chunkDeliver (op n : Nat) (s : State) :
    exec (.chunkDeliver op n) s = execChunkDeliver op n s := rfl
@[simp] theorem exec_pcopyComplete (op : Nat) (s : State) :
    exec (.pcopyComplete op) s = execPcopyComplete op s := rfl
@[simp] theorem exec_chasePage (op : Nat) (s : State) :
    exec (.chasePage op) s = execChasePage op s := rfl
@[simp] theorem exec_sqDoorbell (q : Nat) (v : BitVec 32) (s : State) :
    exec (.sqDoorbell q v) s = execSqDoorbell q v s := rfl
@[simp] theorem exec_queueEnable (q : Nat) (s : State) :
    exec (.queueEnable q) s = execQueueEnable q s := rfl
@[simp] theorem exec_queueDisable (q : Nat) (s : State) :
    exec (.queueDisable q) s = execQueueDisable q s := rfl
@[simp] theorem exec_cancel (seq : BitVec 64) (s : State) :
    exec (.cancel seq) s = execCancel seq s := rfl
@[simp] theorem exec_cancelAll (s : State) :
    exec (.cancelAll) s = execCancelAll s := rfl
@[simp] theorem exec_retire (n : BitVec 32) (s : State) :
    exec (.retire n) s = execRetire n s := rfl
@[simp] theorem exec_registerWrite (off size : Nat) (v : BitVec 64) (s : State) :
    exec (.registerWrite off size v) s = execRegisterWrite off size v s := rfl
@[simp] theorem exec_recordConsume (q : Nat) (choice : Admit) (s : State) :
    exec (.recordConsume q choice) s = execRecordConsume q choice s := rfl
@[simp] theorem exec_launchAccept (sub : Nat) (choice : Admit) (s : State) :
    exec (.launchAccept sub choice) s = execLaunchAccept sub choice s := rfl
@[simp] theorem exec_gangBind (seq : BitVec 64) (places : List GangPlace) (s : State) :
    exec (.gangBind seq places) s = execGangBind seq places s := rfl
@[simp] theorem exec_crewStart (k : CrewKey) (s : State) :
    exec (.crewStart k) s = execCrewStart k s := rfl
@[simp] theorem exec_boundOverrun (seq : BitVec 64) (s : State) :
    exec (.boundOverrun seq) s = execBoundOverrun seq s := rfl
@[simp] theorem exec_preemptRequest (seq : BitVec 64) (plans : List Victim) (s : State) :
    exec (.preemptRequest seq plans) s = execPreemptRequest seq plans s := rfl
@[simp] theorem exec_saveComplete (g : Nat) (s : State) :
    exec (.saveComplete g) s = execSaveComplete g s := rfl
@[simp] theorem exec_saveTimeout (g : Nat) (s : State) :
    exec (.saveTimeout g) s = execSaveTimeout g s := rfl
@[simp] theorem exec_gangRestore (g : Nat) (places : List GangPlace) (s : State) :
    exec (.gangRestore g places) s = execGangRestore g places s := rfl
@[simp] theorem exec_gangRelaunch (g : Nat) (s : State) :
    exec (.gangRelaunch g) s = execGangRelaunch g s := rfl
@[simp] theorem exec_comparePoint (g : Nat) (p : Party) (s : State) :
    exec (.comparePoint g p) s = execComparePoint g p s := rfl
@[simp] theorem exec_unitCompare (g : Nat) (s : State) :
    exec (.unitCompare g) s = execUnitCompare g s := rfl
@[simp] theorem exec_pairFaultMatch (g : Nat) (p : Party) (s : State) :
    exec (.pairFaultMatch g p) s = execPairFaultMatch g p s := rfl
@[simp] theorem exec_uncorrectableError (g : Nat) (core : Option Nat) (s : State) :
    exec (.uncorrectableError g core) s = execUncorrectableError g core s := rfl
@[simp] theorem exec_scrub (unit : Storage) (found : Finding) (s : State) :
    exec (.scrub unit found) s = execScrub unit found s := rfl
@[simp] theorem exec_ageingMeasure (cl freq : Nat) (s : State) :
    exec (.ageingMeasure cl freq) s = execAgeingMeasure cl freq s := rfl
@[simp] theorem exec_clockLimitApply (cl : ClockDrop) (s : State) :
    exec (.clockLimitApply cl) s = execClockLimitApply cl s := rfl
@[simp] theorem exec_machineDissent (m : Nat) (differ : List Nat) (s : State) :
    exec (.machineDissent m differ) s = execMachineDissent m differ s := rfl
@[simp] theorem exec_machineResync (m copy : Nat) (s : State) :
    exec (.machineResync m copy) s = execMachineResync m copy s := rfl
@[simp] theorem exec_powerControl (draw : PowerReading) (s : State) :
    exec (.powerControl draw) s = execPowerControl draw s := rfl
@[simp] theorem exec_hostMemoryAccess (acc : OuterAccess) (s : State) :
    exec (.hostMemoryAccess acc) s = execHostMemoryAccess acc s := rfl
@[simp] theorem exec_podAccess (acc : OuterAccess) (s : State) :
    exec (.podAccess acc) s = execPodAccess acc s := rfl
@[simp] theorem exec_linkReplay (link : Nat) (s : State) :
    exec (.linkReplay link) s = execLinkReplay link s := rfl
@[simp] theorem exec_linkFailure (link : Nat) (s : State) :
    exec (.linkFailure link) s = execLinkFailure link s := rfl
@[simp] theorem exec_routeChange (r : Route) (s : State) :
    exec (.routeChange r) s = execRouteChange r s := rfl
@[simp] theorem exec_powerOn (s : State) :
    exec (.powerOn) s = execPowerOn s := rfl
@[simp] theorem exec_deviceReset (s : State) :
    exec (.deviceReset) s = execDeviceReset s := rfl
@[simp] theorem exec_imageCheck (s : State) :
    exec (.imageCheck) s = execImageCheck s := rfl
@[simp] theorem exec_dieBringUp (ok : Bool) (freqs : List Nat) (s : State) :
    exec (.dieBringUp ok freqs) s = execDieBringUp ok freqs s := rfl
@[simp] theorem exec_memoryTraining (ok : Bool) (s : State) :
    exec (.memoryTraining ok) s = execMemoryTraining ok s := rfl
@[simp] theorem exec_schedulerStart (s : State) :
    exec (.schedulerStart) s = execSchedulerStart s := rfl
@[simp] theorem exec_getMeasurements (ix : Nat) (s : State) :
    exec (.getMeasurements ix) s = execGetMeasurements ix s := rfl
@[simp] theorem exec_challenge (nonce : BitVec 256) (s : State) :
    exec (.challenge nonce) s = execChallenge nonce s := rfl
@[simp] theorem exec_pldmFirmwareUpdate (image : Image) (s : State) :
    exec (.pldmFirmwareUpdate image) s = execPldmFirmwareUpdate image s := rfl
@[simp] theorem exec_pldmSetCap (v : BitVec 16) (s : State) :
    exec (.pldmSetCap v) s = execPldmSetCap v s := rfl
@[simp] theorem exec_pldmSensors (s : State) :
    exec (.pldmSensors) s = execPldmSensors s := rfl
@[simp] theorem exec_pageDemotion (va : Nat) (unmap : Bool) (s : State) :
    exec (.pageDemotion va unmap) s = execPageDemotion va unmap s := rfl

end Sys2Proof.Machine
end

