-- ==== Sys2Proof/Laws/PerInstr.lean ====
section
/-!
SUPPORT. What holds of the encoding of every instruction, one lemma for each constructor.
-/

namespace Sys2Proof.Laws.Encoding

/-- A word of a clause class has one encoded word or two; a step of the device has no encoding of a class (R44, R49). -/
def Statement (i : Instr) : Prop :=
  if classOf i < 14 then 1 ≤ (encode i).length ∧ (encode i).length ≤ 2 else (encode i).length ≤ 1

theorem one {i : Instr} {w : Word} (he : encode i = [w]) : Statement i := by
  simp [Statement, he]

theorem two {i : Instr} {v w : Word} (hc : decide (classOf i < 14) = true) (he : encode i = [v, w]) : Statement i := by
  simp_all [Statement]

theorem memory {i : Instr} {n : Nat} {ext : Option MemExt} (hc : decide (classOf i < 14) = true) (he : encode i = withMem n ext) :
    Statement i := by
  cases ext <;> simp_all [Statement, withMem]

theorem none {i : Instr} (hc : decide (classOf i < 14) = false) (he : encode i = []) : Statement i := by
  simp_all [Statement]

theorem add (z : Bool) (w : Bool) (d : BitVec 7) (a : BitVec 7) (b : BitVec 7) (x : Bool) (t : BitVec 2) : Statement (.add z w d a b x t) := one rfl
theorem addImm (z : Bool) (w : Bool) (d : BitVec 7) (a : BitVec 7) (i : BitVec 8) (t : BitVec 2) : Statement (.addImm z w d a i t) := one rfl
theorem sub (z : Bool) (w : Bool) (d : BitVec 7) (a : BitVec 7) (b : BitVec 7) (x : Bool) (t : BitVec 2) : Statement (.sub z w d a b x t) := one rfl
theorem subImm (z : Bool) (w : Bool) (d : BitVec 7) (a : BitVec 7) (i : BitVec 8) (t : BitVec 2) : Statement (.subImm z w d a i t) := one rfl
theorem mul (z : Bool) (w : Bool) (d : BitVec 7) (a : BitVec 7) (b : BitVec 7) (x : Bool) (t : BitVec 2) : Statement (.mul z w d a b x t) := one rfl
theorem mulImm (z : Bool) (w : Bool) (d : BitVec 7) (a : BitVec 7) (i : BitVec 8) (t : BitVec 2) : Statement (.mulImm z w d a i t) := one rfl
theorem mulh (z : Bool) (w : Bool) (d : BitVec 7) (a : BitVec 7) (b : BitVec 7) (x : Bool) (t : BitVec 2) : Statement (.mulh z w d a b x t) := one rfl
theorem mad (z : Bool) (w : Bool) (d : BitVec 7) (a : BitVec 7) (b : BitVec 7) (x : Bool) (t : BitVec 2) : Statement (.mad z w d a b x t) := one rfl
theorem abs (z : Bool) (w : Bool) (d : BitVec 7) (a : BitVec 7) : Statement (.abs z w d a) := one rfl
theorem neg (z : Bool) (w : Bool) (d : BitVec 7) (a : BitVec 7) (t : BitVec 2) : Statement (.neg z w d a t) := one rfl
theorem min (z : Bool) (w : Bool) (d : BitVec 7) (a : BitVec 7) (b : BitVec 7) (x : Bool) (t : BitVec 2) : Statement (.min z w d a b x t) := one rfl
theorem minImm (z : Bool) (w : Bool) (d : BitVec 7) (a : BitVec 7) (i : BitVec 8) (t : BitVec 2) : Statement (.minImm z w d a i t) := one rfl
theorem max (z : Bool) (w : Bool) (d : BitVec 7) (a : BitVec 7) (b : BitVec 7) (x : Bool) (t : BitVec 2) : Statement (.max z w d a b x t) := one rfl
theorem maxImm (z : Bool) (w : Bool) (d : BitVec 7) (a : BitVec 7) (i : BitVec 8) (t : BitVec 2) : Statement (.maxImm z w d a i t) := one rfl
theorem and (z : Bool) (w : Bool) (d : BitVec 7) (a : BitVec 7) (b : BitVec 7) (x : Bool) : Statement (.and z w d a b x) := one rfl
theorem andImm (z : Bool) (w : Bool) (d : BitVec 7) (a : BitVec 7) (i : BitVec 8) : Statement (.andImm z w d a i) := one rfl
theorem or (z : Bool) (w : Bool) (d : BitVec 7) (a : BitVec 7) (b : BitVec 7) (x : Bool) : Statement (.or z w d a b x) := one rfl
theorem orImm (z : Bool) (w : Bool) (d : BitVec 7) (a : BitVec 7) (i : BitVec 8) : Statement (.orImm z w d a i) := one rfl
theorem xor (z : Bool) (w : Bool) (d : BitVec 7) (a : BitVec 7) (b : BitVec 7) (x : Bool) : Statement (.xor z w d a b x) := one rfl
theorem xorImm (z : Bool) (w : Bool) (d : BitVec 7) (a : BitVec 7) (i : BitVec 8) : Statement (.xorImm z w d a i) := one rfl
theorem not (z : Bool) (w : Bool) (d : BitVec 7) (a : BitVec 7) : Statement (.not z w d a) := one rfl
theorem shl (z : Bool) (w : Bool) (d : BitVec 7) (a : BitVec 7) (b : BitVec 7) (x : Bool) : Statement (.shl z w d a b x) := one rfl
theorem shlImm (z : Bool) (w : Bool) (d : BitVec 7) (a : BitVec 7) (i : BitVec 8) : Statement (.shlImm z w d a i) := one rfl
theorem shr (z : Bool) (w : Bool) (d : BitVec 7) (a : BitVec 7) (b : BitVec 7) (x : Bool) : Statement (.shr z w d a b x) := one rfl
theorem shrImm (z : Bool) (w : Bool) (d : BitVec 7) (a : BitVec 7) (i : BitVec 8) : Statement (.shrImm z w d a i) := one rfl
theorem sar (z : Bool) (w : Bool) (d : BitVec 7) (a : BitVec 7) (b : BitVec 7) (x : Bool) : Statement (.sar z w d a b x) := one rfl
theorem sarImm (z : Bool) (w : Bool) (d : BitVec 7) (a : BitVec 7) (i : BitVec 8) : Statement (.sarImm z w d a i) := one rfl
theorem rot (z : Bool) (w : Bool) (d : BitVec 7) (a : BitVec 7) (b : BitVec 7) (x : Bool) : Statement (.rot z w d a b x) := one rfl
theorem rotImm (z : Bool) (w : Bool) (d : BitVec 7) (a : BitVec 7) (i : BitVec 8) : Statement (.rotImm z w d a i) := one rfl
theorem clz (z : Bool) (w : Bool) (d : BitVec 7) (a : BitVec 7) : Statement (.clz z w d a) := one rfl
theorem popc (z : Bool) (w : Bool) (d : BitVec 7) (a : BitVec 7) : Statement (.popc z w d a) := one rfl
theorem bfe (z : Bool) (w : Bool) (d : BitVec 7) (a : BitVec 7) (b : BitVec 7) (x : Bool) : Statement (.bfe z w d a b x) := one rfl
theorem bfi (z : Bool) (w : Bool) (d : BitVec 7) (a : BitVec 7) (b : BitVec 7) (x : Bool) : Statement (.bfi z w d a b x) := one rfl
theorem fadd (z : Bool) (d : BitVec 7) (a : BitVec 7) (b : BitVec 7) (x : Bool) : Statement (.fadd z d a b x) := one rfl
theorem faddImm (z : Bool) (d : BitVec 7) (a : BitVec 7) (i : BitVec 8) : Statement (.faddImm z d a i) := one rfl
theorem fsub (z : Bool) (d : BitVec 7) (a : BitVec 7) (b : BitVec 7) (x : Bool) : Statement (.fsub z d a b x) := one rfl
theorem fsubImm (z : Bool) (d : BitVec 7) (a : BitVec 7) (i : BitVec 8) : Statement (.fsubImm z d a i) := one rfl
theorem fmul (z : Bool) (d : BitVec 7) (a : BitVec 7) (b : BitVec 7) (x : Bool) : Statement (.fmul z d a b x) := one rfl
theorem fmulImm (z : Bool) (d : BitVec 7) (a : BitVec 7) (i : BitVec 8) : Statement (.fmulImm z d a i) := one rfl
theorem fma (z : Bool) (d : BitVec 7) (a : BitVec 7) (b : BitVec 7) (x : Bool) : Statement (.fma z d a b x) := one rfl
theorem fmin (z : Bool) (d : BitVec 7) (a : BitVec 7) (b : BitVec 7) (x : Bool) : Statement (.fmin z d a b x) := one rfl
theorem fminImm (z : Bool) (d : BitVec 7) (a : BitVec 7) (i : BitVec 8) : Statement (.fminImm z d a i) := one rfl
theorem fmax (z : Bool) (d : BitVec 7) (a : BitVec 7) (b : BitVec 7) (x : Bool) : Statement (.fmax z d a b x) := one rfl
theorem fmaxImm (z : Bool) (d : BitVec 7) (a : BitVec 7) (i : BitVec 8) : Statement (.fmaxImm z d a i) := one rfl
theorem fabs (z : Bool) (d : BitVec 7) (a : BitVec 7) : Statement (.fabs z d a) := one rfl
theorem fneg (z : Bool) (d : BitVec 7) (a : BitVec 7) : Statement (.fneg z d a) := one rfl
theorem frnd (z : Bool) (d : BitVec 7) (a : BitVec 7) (r : BitVec 7) : Statement (.frnd z d a r) := one rfl
theorem cmp (z : Bool) (w : Bool) (c : BitVec 3) (d : BitVec 7) (a : BitVec 7) (b : BitVec 7) (x : Bool) (t : BitVec 2) : Statement (.cmp z w c d a b x t) := one rfl
theorem cmpImm (z : Bool) (w : Bool) (c : BitVec 3) (d : BitVec 7) (a : BitVec 7) (i : BitVec 8) (t : BitVec 2) : Statement (.cmpImm z w c d a i t) := one rfl
theorem fcmp (z : Bool) (c : BitVec 3) (d : BitVec 7) (a : BitVec 7) (b : BitVec 7) (x : Bool) : Statement (.fcmp z c d a b x) := one rfl
theorem fcmpImm (z : Bool) (c : BitVec 3) (d : BitVec 7) (a : BitVec 7) (i : BitVec 8) : Statement (.fcmpImm z c d a i) := one rfl
theorem kand (z : Bool) (d : BitVec 7) (a : BitVec 7) (b : BitVec 7) : Statement (.kand z d a b) := one rfl
theorem kor (z : Bool) (d : BitVec 7) (a : BitVec 7) (b : BitVec 7) : Statement (.kor z d a b) := one rfl
theorem kxor (z : Bool) (d : BitVec 7) (a : BitVec 7) (b : BitVec 7) : Statement (.kxor z d a b) := one rfl
theorem knot (z : Bool) (d : BitVec 7) (a : BitVec 7) : Statement (.knot z d a) := one rfl
theorem kis (z : Bool) (d : BitVec 7) (a : BitVec 7) (t : BitVec 2) : Statement (.kis z d a t) := one rfl
theorem isabs (z : Bool) (d : BitVec 7) (a : BitVec 7) (t : BitVec 2) : Statement (.isabs z d a t) := one rfl
theorem isabs64 (z : Bool) (d : BitVec 7) (a : BitVec 7) (t : BitVec 2) : Statement (.isabs64 z d a t) := one rfl
theorem coal (z : Bool) (d : BitVec 7) (a : BitVec 7) (b : BitVec 7) (x : Bool) (t : BitVec 2) : Statement (.coal z d a b x t) := one rfl
theorem coal64 (z : Bool) (d : BitVec 7) (a : BitVec 7) (b : BitVec 7) (x : Bool) (t : BitVec 2) : Statement (.coal64 z d a b x t) := one rfl
theorem mkabs (z : Bool) (d : BitVec 7) (a : BitVec 7) (b : BitVec 7) (x : Bool) (t : BitVec 2) : Statement (.mkabs z d a b x t) := one rfl
theorem mkabs64 (z : Bool) (d : BitVec 7) (a : BitVec 7) (b : BitVec 7) (x : Bool) (t : BitVec 2) : Statement (.mkabs64 z d a b x t) := one rfl
theorem nullif (z : Bool) (d : BitVec 7) (a : BitVec 7) (b : BitVec 7) (x : Bool) (t : BitVec 2) : Statement (.nullif z d a b x t) := one rfl
theorem nullif64 (z : Bool) (d : BitVec 7) (a : BitVec 7) (b : BitVec 7) (x : Bool) (t : BitVec 2) : Statement (.nullif64 z d a b x t) := one rfl
theorem sel (z : Bool) (d : BitVec 7) (a : BitVec 7) (b : BitVec 7) (x : Bool) (t : BitVec 2) : Statement (.sel z d a b x t) := one rfl
theorem sel64 (z : Bool) (d : BitVec 7) (a : BitVec 7) (b : BitVec 7) (x : Bool) (t : BitVec 2) : Statement (.sel64 z d a b x t) := one rfl
theorem cvt (z : Bool) (d a : BitVec 7) (ext : CvtExt) : Statement (.cvt z d a ext) := two rfl rfl
theorem rsum (z : Bool) (w : Bool) (d : BitVec 7) (a : BitVec 7) (b : BitVec 7) (x : Bool) (t : BitVec 2) : Statement (.rsum z w d a b x t) := one rfl
theorem rmin (z : Bool) (w : Bool) (d : BitVec 7) (a : BitVec 7) (b : BitVec 7) (x : Bool) (t : BitVec 2) : Statement (.rmin z w d a b x t) := one rfl
theorem rmax (z : Bool) (w : Bool) (d : BitVec 7) (a : BitVec 7) (b : BitVec 7) (x : Bool) (t : BitVec 2) : Statement (.rmax z w d a b x t) := one rfl
theorem rcnt (z : Bool) (w : Bool) (d : BitVec 7) (a : BitVec 7) (t : BitVec 2) : Statement (.rcnt z w d a t) := one rfl
theorem scan (z : Bool) (w : Bool) (d : BitVec 7) (a : BitVec 7) (b : BitVec 7) (x : Bool) (t : BitVec 2) : Statement (.scan z w d a b x t) := one rfl
theorem shfl (z : Bool) (d : BitVec 7) (a : BitVec 7) (b : BitVec 7) (x : Bool) (o : BitVec 2) : Statement (.shfl z d a b x o) := one rfl
theorem shflImm (z : Bool) (d : BitVec 7) (a : BitVec 7) (i : BitVec 8) (o : BitVec 2) : Statement (.shflImm z d a i o) := one rfl
theorem bcastImm (z : Bool) (d : BitVec 7) (a : BitVec 7) (i : BitVec 8) : Statement (.bcastImm z d a i) := one rfl
theorem bcast (z : Bool) (d : BitVec 7) (a : BitVec 7) (b : BitVec 7) (x : Bool) : Statement (.bcast z d a b x) := one rfl
theorem vote (z : Bool) (d : BitVec 7) (a : BitVec 7) (o : BitVec 2) : Statement (.vote z d a o) := one rfl
theorem dot4 (z : Bool) (d : BitVec 7) (a : BitVec 7) (b : BitVec 7) (x : Bool) (t : BitVec 2) : Statement (.dot4 z d a b x t) := one rfl
theorem dot8 (z : Bool) (d : BitVec 7) (a : BitVec 7) (b : BitVec 7) (x : Bool) (t : BitVec 2) : Statement (.dot8 z d a b x t) := one rfl
theorem dot2 (z : Bool) (d : BitVec 7) (a : BitVec 7) (b : BitVec 7) (x : Bool) : Statement (.dot2 z d a b x) := one rfl
theorem scale (z : Bool) (d : BitVec 7) (a : BitVec 7) (b : BitVec 7) (x : Bool) : Statement (.scale z d a b x) := one rfl
theorem pack (z : Bool) (d : BitVec 7) (a : BitVec 7) (b : BitVec 7) (x : Bool) (t : BitVec 2) : Statement (.pack z d a b x t) := one rfl
theorem unpk (z : Bool) (d : BitVec 7) (a : BitVec 7) (b : BitVec 7) (x : Bool) (t : BitVec 2) : Statement (.unpk z d a b x t) := one rfl
theorem xfRcp (z : Bool) (d : BitVec 7) (a : BitVec 7) : Statement (.xfRcp z d a) := one rfl
theorem xfRsqrt (z : Bool) (d : BitVec 7) (a : BitVec 7) : Statement (.xfRsqrt z d a) := one rfl
theorem xfSqrt (z : Bool) (d : BitVec 7) (a : BitVec 7) : Statement (.xfSqrt z d a) := one rfl
theorem xfExp2 (z : Bool) (d : BitVec 7) (a : BitVec 7) : Statement (.xfExp2 z d a) := one rfl
theorem xfLog2 (z : Bool) (d : BitVec 7) (a : BitVec 7) : Statement (.xfLog2 z d a) := one rfl
theorem xfSin (z : Bool) (d : BitVec 7) (a : BitVec 7) : Statement (.xfSin z d a) := one rfl
theorem xfCos (z : Bool) (d : BitVec 7) (a : BitVec 7) : Statement (.xfCos z d a) := one rfl
theorem xfTanh (z : Bool) (d : BitVec 7) (a : BitVec 7) : Statement (.xfTanh z d a) := one rfl
theorem xfErf (z : Bool) (d : BitVec 7) (a : BitVec 7) : Statement (.xfErf z d a) := one rfl
theorem xfQsb8 (z : Bool) (d : BitVec 7) (a : BitVec 7) (b : BitVec 7) : Statement (.xfQsb8 z d a b) := one rfl
theorem xfXpose (z : Bool) (d : BitVec 7) (a : BitVec 7) : Statement (.xfXpose z d a) := one rfl
theorem xfSort (z : Bool) (d : BitVec 7) (a : BitVec 7) (b : BitVec 7) (t : BitVec 2) : Statement (.xfSort z d a b t) := one rfl
theorem ld (z : Bool) (t : BitVec 4) (d : BitVec 7) (a : BitVec 7) (b : BitVec 7) (x : Bool) (f : Bool) (ext : Option MemExt) : Statement (.ld z t d a b x f ext) := memory rfl rfl
theorem st (z : Bool) (t : BitVec 4) (d : BitVec 7) (a : BitVec 7) (b : BitVec 7) (x : Bool) (f : Bool) (ext : Option MemExt) : Statement (.st z t d a b x f ext) := memory rfl rfl
theorem stSk (z : Bool) (t : BitVec 4) (d : BitVec 7) (a : BitVec 7) (b : BitVec 7) (x : Bool) (f : Bool) (ext : Option MemExt) : Statement (.stSk z t d a b x f ext) := memory rfl rfl
theorem stnt (z : Bool) (t : BitVec 3) (d : BitVec 7) (a : BitVec 7) (b : BitVec 7) (x : Bool) (f : Bool) (ext : Option MemExt) : Statement (.stnt z t d a b x f ext) := memory rfl rfl
theorem ntdrain (z : Bool) (ext : MemExt) : Statement (.ntdrain z ext) := two rfl rfl
theorem touch (z : Bool) (a : BitVec 7) (b : BitVec 7) (x : Bool) (f : Bool) (ext : Option MemExt) : Statement (.touch z a b x f ext) := memory rfl rfl
theorem fence (z : Bool) (ext : MemExt) : Statement (.fence z ext) := two rfl rfl
theorem xfence (z : Bool) (d a : BitVec 7) (ext : MemExt) : Statement (.xfence z d a ext) := two rfl rfl
theorem post (z : Bool) (d : BitVec 7) : Statement (.post z d) := one rfl
theorem bwait (z : Bool) (d : BitVec 7) (a : BitVec 7) (b : BitVec 7) (x : Bool) (f : Bool) (ext : Option MemExt) : Statement (.bwait z d a b x f ext) := memory rfl rfl
theorem wake (z : Bool) (d : BitVec 7) (a : BitVec 7) (b : BitVec 7) (x : Bool) (f : Bool) (ext : Option MemExt) : Statement (.wake z d a b x f ext) := memory rfl rfl
theorem atomAdd (z : Bool) (t : BitVec 3) (d : BitVec 7) (a : BitVec 7) (b : BitVec 7) (x : Bool) (f : Bool) (ext : Option MemExt) : Statement (.atomAdd z t d a b x f ext) := memory rfl rfl
theorem atomMin (z : Bool) (t : BitVec 2) (d : BitVec 7) (a : BitVec 7) (b : BitVec 7) (x : Bool) (f : Bool) (ext : Option MemExt) : Statement (.atomMin z t d a b x f ext) := memory rfl rfl
theorem atomMax (z : Bool) (t : BitVec 2) (d : BitVec 7) (a : BitVec 7) (b : BitVec 7) (x : Bool) (f : Bool) (ext : Option MemExt) : Statement (.atomMax z t d a b x f ext) := memory rfl rfl
theorem atomAnd (z : Bool) (w : Bool) (d : BitVec 7) (a : BitVec 7) (b : BitVec 7) (x : Bool) (f : Bool) (ext : Option MemExt) : Statement (.atomAnd z w d a b x f ext) := memory rfl rfl
theorem atomOr (z : Bool) (w : Bool) (d : BitVec 7) (a : BitVec 7) (b : BitVec 7) (x : Bool) (f : Bool) (ext : Option MemExt) : Statement (.atomOr z w d a b x f ext) := memory rfl rfl
theorem atomXor (z : Bool) (w : Bool) (d : BitVec 7) (a : BitVec 7) (b : BitVec 7) (x : Bool) (f : Bool) (ext : Option MemExt) : Statement (.atomXor z w d a b x f ext) := memory rfl rfl
theorem atomXchg (z : Bool) (w : Bool) (d : BitVec 7) (a : BitVec 7) (b : BitVec 7) (x : Bool) (f : Bool) (ext : Option MemExt) : Statement (.atomXchg z w d a b x f ext) := memory rfl rfl
theorem cas (z : Bool) (w : Bool) (d : BitVec 7) (a : BitVec 7) (b : BitVec 7) (x : Bool) (f : Bool) (ext : Option MemExt) : Statement (.cas z w d a b x f ext) := memory rfl rfl
theorem waita (z : Bool) (w : Bool) (d : BitVec 7) (a : BitVec 7) (b : BitVec 7) (x : Bool) (f : Bool) (ext : Option MemExt) : Statement (.waita z w d a b x f ext) := memory rfl rfl
theorem gath (z : Bool) (d : BitVec 7) (a : BitVec 7) (b : BitVec 7) (ext : Option MemExt) : Statement (.gath z d a b ext) := memory rfl rfl
theorem scat (z : Bool) (d : BitVec 7) (a : BitVec 7) (b : BitVec 7) (ext : Option MemExt) : Statement (.scat z d a b ext) := memory rfl rfl
theorem scadd (z : Bool) (d : BitVec 7) (a : BitVec 7) (b : BitVec 7) (ext : Option MemExt) : Statement (.scadd z d a b ext) := memory rfl rfl
theorem confd (z : Bool) (d : BitVec 7) (a : BitVec 7) : Statement (.confd z d a) := one rfl
theorem tld (z : Bool) (t : BitVec 2) (d : BitVec 7) (a : BitVec 7) (h : BitVec 8) (ext : Option MemExt) : Statement (.tld z t d a h ext) := memory rfl rfl
theorem tst (z : Bool) (t : BitVec 2) (d : BitVec 7) (a : BitVec 7) (h : BitVec 8) (ext : Option MemExt) : Statement (.tst z t d a h ext) := memory rfl rfl
theorem tstSk (z : Bool) (t : BitVec 2) (d : BitVec 7) (a : BitVec 7) (h : BitVec 8) (ext : Option MemExt) : Statement (.tstSk z t d a h ext) := memory rfl rfl
theorem br (z : Bool) (p : BitVec 6) (u : BitVec 2) (o : BitVec 8) (j : BitVec 8) : Statement (.br z p u o j) := one rfl
theorem brc (z : Bool) (p : BitVec 6) (u : BitVec 2) (o : BitVec 8) (j : BitVec 8) : Statement (.brc z p u o j) := one rfl
theorem brq (z : Bool) (q : BitVec 2) (o : BitVec 8) : Statement (.brq z q o) := one rfl
theorem join (z : Bool) : Statement (.join z) := one rfl
theorem call (z : Bool) (o : BitVec 8) : Statement (.call z o) := one rfl
theorem ret (z : Bool) : Statement (.ret z) := one rfl
theorem jmpx (z : Bool) (a : BitVec 7) (g : BitVec 6) : Statement (.jmpx z a g) := one rfl
theorem callx (z : Bool) (a : BitVec 7) (g : BitVec 6) : Statement (.callx z a g) := one rfl
theorem exit (z : Bool) : Statement (.exit z) := one rfl
theorem bar (z : Bool) (i : BitVec 4) (a : BitVec 7) (l : Bool) : Statement (.bar z i a l) := one rfl
theorem live (z : Bool) (a : BitVec 7) : Statement (.live z a) := one rfl
theorem savept (z : Bool) (i : BitVec 8) : Statement (.savept z i) := one rfl
theorem trap (z : Bool) (i : BitVec 8) : Statement (.trap z i) := one rfl
theorem rdstat (z : Bool) (d : BitVec 7) : Statement (.rdstat z d) := one rfl
theorem wrstat (z : Bool) (a : BitVec 7) : Statement (.wrstat z a) := one rfl
theorem rtf (z : Bool) (r : Bool) : Statement (.rtf z r) := one rfl
theorem yield (z : Bool) : Statement (.yield z) := one rfl
theorem leadAdd (z : Bool) (d : BitVec 6) (a : BitVec 6) (b : BitVec 6) (y : BitVec 2) (c32 : Bool) (t : BitVec 2) : Statement (.leadAdd z d a b y c32 t) := one rfl
theorem leadAddImm (z : Bool) (d : BitVec 6) (a : BitVec 6) (i : BitVec 8) (t : BitVec 2) : Statement (.leadAddImm z d a i t) := one rfl
theorem leadSub (z : Bool) (d : BitVec 6) (a : BitVec 6) (b : BitVec 6) (y : BitVec 2) (c32 : Bool) (t : BitVec 2) : Statement (.leadSub z d a b y c32 t) := one rfl
theorem leadSubImm (z : Bool) (d : BitVec 6) (a : BitVec 6) (i : BitVec 8) (t : BitVec 2) : Statement (.leadSubImm z d a i t) := one rfl
theorem leadMul (z : Bool) (d : BitVec 6) (a : BitVec 6) (b : BitVec 6) (y : BitVec 2) (c32 : Bool) (t : BitVec 2) : Statement (.leadMul z d a b y c32 t) := one rfl
theorem leadMulImm (z : Bool) (d : BitVec 6) (a : BitVec 6) (i : BitVec 8) (t : BitVec 2) : Statement (.leadMulImm z d a i t) := one rfl
theorem leadMulh (z : Bool) (d : BitVec 6) (a : BitVec 6) (b : BitVec 6) (y : BitVec 2) (c32 : Bool) (t : BitVec 2) : Statement (.leadMulh z d a b y c32 t) := one rfl
theorem div (z : Bool) (d : BitVec 6) (a : BitVec 6) (b : BitVec 6) (y : BitVec 2) (c32 : Bool) (t : BitVec 2) : Statement (.div z d a b y c32 t) := one rfl
theorem rem (z : Bool) (d : BitVec 6) (a : BitVec 6) (b : BitVec 6) (y : BitVec 2) (c32 : Bool) (t : BitVec 2) : Statement (.rem z d a b y c32 t) := one rfl
theorem leadAnd (z : Bool) (d : BitVec 6) (a : BitVec 6) (b : BitVec 6) (y : BitVec 2) (c32 : Bool) : Statement (.leadAnd z d a b y c32) := one rfl
theorem leadAndImm (z : Bool) (d : BitVec 6) (a : BitVec 6) (i : BitVec 8) : Statement (.leadAndImm z d a i) := one rfl
theorem leadOr (z : Bool) (d : BitVec 6) (a : BitVec 6) (b : BitVec 6) (y : BitVec 2) (c32 : Bool) : Statement (.leadOr z d a b y c32) := one rfl
theorem leadOrImm (z : Bool) (d : BitVec 6) (a : BitVec 6) (i : BitVec 8) : Statement (.leadOrImm z d a i) := one rfl
theorem leadXor (z : Bool) (d : BitVec 6) (a : BitVec 6) (b : BitVec 6) (y : BitVec 2) (c32 : Bool) : Statement (.leadXor z d a b y c32) := one rfl
theorem leadXorImm (z : Bool) (d : BitVec 6) (a : BitVec 6) (i : BitVec 8) : Statement (.leadXorImm z d a i) := one rfl
theorem leadShl (z : Bool) (d : BitVec 6) (a : BitVec 6) (b : BitVec 6) (y : BitVec 2) (c32 : Bool) : Statement (.leadShl z d a b y c32) := one rfl
theorem leadShlImm (z : Bool) (d : BitVec 6) (a : BitVec 6) (i : BitVec 8) : Statement (.leadShlImm z d a i) := one rfl
theorem leadShr (z : Bool) (d : BitVec 6) (a : BitVec 6) (b : BitVec 6) (y : BitVec 2) (c32 : Bool) : Statement (.leadShr z d a b y c32) := one rfl
theorem leadShrImm (z : Bool) (d : BitVec 6) (a : BitVec 6) (i : BitVec 8) : Statement (.leadShrImm z d a i) := one rfl
theorem leadSar (z : Bool) (d : BitVec 6) (a : BitVec 6) (b : BitVec 6) (y : BitVec 2) (c32 : Bool) : Statement (.leadSar z d a b y c32) := one rfl
theorem leadSarImm (z : Bool) (d : BitVec 6) (a : BitVec 6) (i : BitVec 8) : Statement (.leadSarImm z d a i) := one rfl
theorem leadMin (z : Bool) (d : BitVec 6) (a : BitVec 6) (b : BitVec 6) (y : BitVec 2) (c32 : Bool) (t : BitVec 2) : Statement (.leadMin z d a b y c32 t) := one rfl
theorem leadMax (z : Bool) (d : BitVec 6) (a : BitVec 6) (b : BitVec 6) (y : BitVec 2) (c32 : Bool) (t : BitVec 2) : Statement (.leadMax z d a b y c32 t) := one rfl
theorem leadCmp (z : Bool) (c : BitVec 3) (d : BitVec 6) (a : BitVec 6) (b : BitVec 6) (y : BitVec 2) (c32 : Bool) (t : BitVec 2) : Statement (.leadCmp z c d a b y c32 t) := one rfl
theorem leadCmpImm (z : Bool) (c : BitVec 3) (d : BitVec 6) (a : BitVec 6) (i : BitVec 8) (t : BitVec 2) : Statement (.leadCmpImm z c d a i t) := one rfl
theorem leadSel (z : Bool) (d : BitVec 6) (a : BitVec 6) (b : BitVec 6) (y : BitVec 2) (c32 : Bool) (t : BitVec 2) : Statement (.leadSel z d a b y c32 t) := one rfl
theorem movi (z : Bool) (d : BitVec 6) (i : BitVec 8) (t : BitVec 2) : Statement (.movi z d i t) := one rfl
theorem movc (z : Bool) (d : BitVec 6) (a : BitVec 6) (w : Bool) : Statement (.movc z d a w) := one rfl
theorem ldx (z : Bool) (t : BitVec 2) (d : BitVec 6) (a : BitVec 6) (i : BitVec 8) : Statement (.ldx z t d a i) := one rfl
theorem stx (z : Bool) (t : BitVec 2) (d : BitVec 6) (a : BitVec 6) (i : BitVec 8) : Statement (.stx z t d a i) := one rfl
theorem atomxAdd (z : Bool) (t : BitVec 2) (d : BitVec 6) (a : BitVec 6) (b : BitVec 6) (p : BitVec 4) (o : BitVec 2) : Statement (.atomxAdd z t d a b p o) := one rfl
theorem atomxMinI64 (z : Bool) (d : BitVec 6) (a : BitVec 6) (b : BitVec 6) (p : BitVec 4) (o : BitVec 2) : Statement (.atomxMinI64 z d a b p o) := one rfl
theorem atomxMinN64 (z : Bool) (d : BitVec 6) (a : BitVec 6) (b : BitVec 6) (p : BitVec 4) (o : BitVec 2) : Statement (.atomxMinN64 z d a b p o) := one rfl
theorem atomxMaxI64 (z : Bool) (d : BitVec 6) (a : BitVec 6) (b : BitVec 6) (p : BitVec 4) (o : BitVec 2) : Statement (.atomxMaxI64 z d a b p o) := one rfl
theorem atomxMaxN64 (z : Bool) (d : BitVec 6) (a : BitVec 6) (b : BitVec 6) (p : BitVec 4) (o : BitVec 2) : Statement (.atomxMaxN64 z d a b p o) := one rfl
theorem atomxAnd (z : Bool) (d : BitVec 6) (a : BitVec 6) (b : BitVec 6) (p : BitVec 4) (o : BitVec 2) : Statement (.atomxAnd z d a b p o) := one rfl
theorem atomxOr (z : Bool) (d : BitVec 6) (a : BitVec 6) (b : BitVec 6) (p : BitVec 4) (o : BitVec 2) : Statement (.atomxOr z d a b p o) := one rfl
theorem atomxXor (z : Bool) (d : BitVec 6) (a : BitVec 6) (b : BitVec 6) (p : BitVec 4) (o : BitVec 2) : Statement (.atomxXor z d a b p o) := one rfl
theorem atomxXchg (z : Bool) (d : BitVec 6) (a : BitVec 6) (b : BitVec 6) (p : BitVec 4) (o : BitVec 2) : Statement (.atomxXchg z d a b p o) := one rfl
theorem atomxCas (z : Bool) (d : BitVec 6) (a : BitVec 6) (b : BitVec 6) (p : BitVec 4) (o : BitVec 2) : Statement (.atomxCas z d a b p o) := one rfl
theorem leadBr (z : Bool) (p : BitVec 6) (u : BitVec 2) (o : BitVec 8) : Statement (.leadBr z p u o) := one rfl
theorem leadBrc (z : Bool) (p : BitVec 6) (u : BitVec 2) (o : BitVec 8) : Statement (.leadBrc z p u o) := one rfl
theorem leadCall (z : Bool) (p : BitVec 6) (u : BitVec 2) (o : BitVec 8) : Statement (.leadCall z p u o) := one rfl
theorem leadRet (z : Bool) : Statement (.leadRet z) := one rfl
theorem dqpush (z : Bool) (d : BitVec 6) (a : BitVec 6) : Statement (.dqpush z d a) := one rfl
theorem rqpop (z : Bool) (d : BitVec 6) : Statement (.rqpop z d) := one rfl
theorem qpush (z : Bool) (d : BitVec 6) (a : BitVec 6) (b : BitVec 6) (p : BitVec 4) : Statement (.qpush z d a b p) := one rfl
theorem qpop (z : Bool) (d : BitVec 6) (a : BitVec 6) (p : BitVec 4) : Statement (.qpop z d a p) := one rfl
theorem leadWaita (z : Bool) (d : BitVec 6) (a : BitVec 6) (b : BitVec 6) (p : BitVec 4) (w : BitVec 2) : Statement (.leadWaita z d a b p w) := one rfl
theorem leadWake (z : Bool) (d : BitVec 6) (a : BitVec 6) (b : BitVec 6) (p : BitVec 4) : Statement (.leadWake z d a b p) := one rfl
theorem leadFence (z : Bool) (p : BitVec 4) (o : BitVec 2) : Statement (.leadFence z p o) := one rfl
theorem leadXfence (z : Bool) (d : BitVec 6) (a : BitVec 6) (p : BitVec 4) : Statement (.leadXfence z d a p) := one rfl
theorem mzero (z : Bool) (d : BitVec 6) (unit : BitVec 2) (acc : BitVec 4) (ty : Bool) : Statement (.mzero z d unit acc ty) := two rfl rfl
theorem mma (z : Bool) (d a b : BitVec 6) (unit : BitVec 2) (acc : BitVec 4) (k : BitVec 8) (strict : Bool) : Statement (.mma z d a b unit acc k strict) := two rfl rfl
theorem mmc (z : Bool) (d b : BitVec 6) (unit : BitVec 2) (acc src : BitVec 4) (fmt : BitVec 5) (strict : Bool) : Statement (.mmc z d b unit acc src fmt strict) := two rfl rfl
theorem mmw (z : Bool) (d a : BitVec 6) (unit : BitVec 2) (acc : BitVec 4) (h : BitVec 8) (strict : Bool) : Statement (.mmw z d a unit acc h strict) := two rfl rfl
theorem mdrain (z : Bool) (d a b : BitVec 6) (unit : BitVec 2) (acc : BitVec 4) : Statement (.mdrain z d a b unit acc) := two rfl rfl
theorem mload (z : Bool) (d a : BitVec 6) (unit : BitVec 2) (acc : BitVec 4) (ty : Bool) : Statement (.mload z d a unit acc ty) := two rfl rfl
theorem talloc (z : Bool) (d a b : BitVec 6) (h : BitVec 8) (fmt : BitVec 5) (slice packed : Bool) : Statement (.talloc z d a b h fmt slice packed) := two rfl rfl
theorem tfree (z : Bool) (d : BitVec 6) (h : BitVec 8) : Statement (.tfree z d h) := two rfl rfl
theorem tbind (z : Bool) (d a : BitVec 6) (h : BitVec 8) : Statement (.tbind z d a h) := two rfl rfl
theorem tdry (z : Bool) (d : BitVec 6) (h : BitVec 8) : Statement (.tdry z d h) := two rfl rfl
theorem tstat (z : Bool) (d a : BitVec 6) (h : BitVec 8) : Statement (.tstat z d a h) := two rfl rfl
theorem abind (z : Bool) (d a : BitVec 6) (h : BitVec 8) (slice : Bool) : Statement (.abind z d a h slice) := two rfl rfl
theorem seek (z : Bool) (d a b : BitVec 6) (unit : BitVec 2) (ka mc : BitVec 3) (n : BitVec 8) : Statement (.seek z d a b unit ka mc n) := two rfl rfl
theorem proj (z : Bool) (d a b : BitVec 6) (unit : BitVec 2) : Statement (.proj z d a b unit) := two rfl rfl
theorem copy (z : Bool) (d a : BitVec 6) (tile : Bool) (h : BitVec 8) : Statement (.copy z d a tile h) := two rfl rfl
theorem pcopy (z : Bool) (d a b : BitVec 6) (scope : BitVec 4) (n : BitVec 16) : Statement (.pcopy z d a b scope n) := two rfl rfl
theorem binit (z : Bool) (a b : BitVec 6) (tile : Bool) (h : BitVec 8) (scope : BitVec 4) : Statement (.binit z a b tile h scope) := two rfl rfl
theorem barr (z : Bool) (d a b : BitVec 6) (tile : Bool) (h : BitVec 8) (scope : BitVec 4) : Statement (.barr z d a b tile h scope) := two rfl rfl
theorem leadBwait (z : Bool) (d a b : BitVec 6) (tile : Bool) (h : BitVec 8) (scope : BitVec 4) : Statement (.leadBwait z d a b tile h scope) := two rfl rfl
theorem smapLook (z : Bool) (d a b : BitVec 6) : Statement (.smapLook z d a b) := two rfl rfl
theorem smapAppend (z : Bool) (d a b : BitVec 6) : Statement (.smapAppend z d a b) := two rfl rfl
theorem smapShare (z : Bool) (d a b : BitVec 6) : Statement (.smapShare z d a b) := two rfl rfl
theorem smapLen (z : Bool) (d a b : BitVec 6) : Statement (.smapLen z d a b) := two rfl rfl
theorem smapEvict (z : Bool) (d a b : BitVec 6) : Statement (.smapEvict z d a b) := two rfl rfl
theorem chase (z : Bool) (d a b : BitVec 6) (q : BitVec 2) (lim : BitVec 16) : Statement (.chase z d a b q lim) := two rfl rfl
theorem launch (z : Bool) (d : BitVec 6) (a : BitVec 6) (p : BitVec 4) : Statement (.launch z d a p) := one rfl
theorem mark (z : Bool) (d : BitVec 6) (a : BitVec 6) (b : BitVec 6) : Statement (.mark z d a b) := one rfl
theorem snap (z : Bool) : Statement (.snap z) := one rfl
theorem rollbk (z : Bool) : Statement (.rollbk z) := one rfl
theorem commit (z : Bool) : Statement (.commit z) := one rfl
theorem leadTrap (z : Bool) (b : BitVec 6) : Statement (.leadTrap z b) := one rfl
theorem leadRdstat (z : Bool) (d : BitVec 6) : Statement (.leadRdstat z d) := one rfl
theorem leadWrstat (z : Bool) (a : BitVec 6) : Statement (.leadWrstat z a) := one rfl
theorem leadRtf (z : Bool) (r : Bool) : Statement (.leadRtf z r) := one rfl
theorem leadSavept (z : Bool) (i : BitVec 6) (h : BitVec 2) : Statement (.leadSavept z i h) := one rfl
theorem leadExit (z : Bool) : Statement (.leadExit z) := one rfl
theorem rep (n : BitVec 6) (k : BitVec 3) (t : Bool) : Statement (.rep n k t) := one rfl
theorem unlistedOpcode (w : BitVec 32) : Statement (.unlistedOpcode w) := one rfl
theorem clauseFetch : Statement (.clauseFetch) := none rfl rfl
theorem resultReturn (c : Ctx) (n : Nat) : Statement (.resultReturn c n) := none rfl rfl
theorem regcacheFill (k : WaveKey) (r : Nat) (victim : Option (WaveKey × Nat)) : Statement (.regcacheFill k r victim) := none rfl rfl
theorem xfReply (k : WaveKey) : Statement (.xfReply k) := none rfl rfl
theorem memoryReply (k : WaveKey) (n : Nat) : Statement (.memoryReply k n) := none rfl rfl
theorem collectorRoom (c : Ctx) : Statement (.collectorRoom c) := none rfl rfl
theorem queueStallRelease (c : Ctx) : Statement (.queueStallRelease c) := none rfl rfl
theorem waitEnd (c : Ctx) (cause : WaitCause) : Statement (.waitEnd c cause) := none rfl rfl
theorem waitTimeout (c : Ctx) : Statement (.waitTimeout c) := none rfl rfl
theorem bwaitResume (c : Ctx) : Statement (.bwaitResume c) := none rfl rfl
theorem pageResident (va : Nat) : Statement (.pageResident va) := none rfl rfl
theorem tileFill (g h sb : Nat) : Statement (.tileFill g h sb) := none rfl rfl
theorem tileEvict (g h sb : Nat) : Statement (.tileEvict g h sb) := none rfl rfl
theorem matrixKStep (op : Nat) : Statement (.matrixKStep op) := none rfl rfl
theorem matrixOpComplete (op : Nat) : Statement (.matrixOpComplete op) := none rfl rfl
theorem chunkDeliver (op n : Nat) : Statement (.chunkDeliver op n) := none rfl rfl
theorem pcopyComplete (op : Nat) : Statement (.pcopyComplete op) := none rfl rfl
theorem chasePage (op : Nat) : Statement (.chasePage op) := none rfl rfl
theorem sqDoorbell (q : Nat) (v : BitVec 32) : Statement (.sqDoorbell q v) := none rfl rfl
theorem queueEnable (q : Nat) : Statement (.queueEnable q) := none rfl rfl
theorem queueDisable (q : Nat) : Statement (.queueDisable q) := none rfl rfl
theorem cancel (seq : BitVec 64) : Statement (.cancel seq) := none rfl rfl
theorem cancelAll : Statement (.cancelAll) := none rfl rfl
theorem retire (n : BitVec 32) : Statement (.retire n) := none rfl rfl
theorem registerWrite (off size : Nat) (v : BitVec 64) : Statement (.registerWrite off size v) := none rfl rfl
theorem recordConsume (q : Nat) (choice : Admit) : Statement (.recordConsume q choice) := none rfl rfl
theorem launchAccept (sub : Nat) (choice : Admit) : Statement (.launchAccept sub choice) := none rfl rfl
theorem gangBind (seq : BitVec 64) (places : List GangPlace) : Statement (.gangBind seq places) := none rfl rfl
theorem crewStart (k : CrewKey) : Statement (.crewStart k) := none rfl rfl
theorem boundOverrun (seq : BitVec 64) : Statement (.boundOverrun seq) := none rfl rfl
theorem preemptRequest (seq : BitVec 64) (plans : List Victim) : Statement (.preemptRequest seq plans) := none rfl rfl
theorem saveComplete (g : Nat) : Statement (.saveComplete g) := none rfl rfl
theorem saveTimeout (g : Nat) : Statement (.saveTimeout g) := none rfl rfl
theorem gangRestore (g : Nat) (places : List GangPlace) : Statement (.gangRestore g places) := none rfl rfl
theorem gangRelaunch (g : Nat) : Statement (.gangRelaunch g) := none rfl rfl
theorem comparePoint (g : Nat) (p : Party) : Statement (.comparePoint g p) := none rfl rfl
theorem unitCompare (g : Nat) : Statement (.unitCompare g) := none rfl rfl
theorem pairFaultMatch (g : Nat) (p : Party) : Statement (.pairFaultMatch g p) := none rfl rfl
theorem uncorrectableError (g : Nat) (core : Option Nat) : Statement (.uncorrectableError g core) := none rfl rfl
theorem scrub (unit : Storage) (found : Finding) : Statement (.scrub unit found) := none rfl rfl
theorem ageingMeasure (cl freq : Nat) : Statement (.ageingMeasure cl freq) := none rfl rfl
theorem clockLimitApply (cl : ClockDrop) : Statement (.clockLimitApply cl) := none rfl rfl
theorem machineDissent (m : Nat) (differ : List Nat) : Statement (.machineDissent m differ) := none rfl rfl
theorem machineResync (m copy : Nat) : Statement (.machineResync m copy) := none rfl rfl
theorem powerControl (draw : PowerReading) : Statement (.powerControl draw) := none rfl rfl
theorem hostMemoryAccess (acc : OuterAccess) : Statement (.hostMemoryAccess acc) := none rfl rfl
theorem podAccess (acc : OuterAccess) : Statement (.podAccess acc) := none rfl rfl
theorem linkReplay (link : Nat) : Statement (.linkReplay link) := none rfl rfl
theorem linkFailure (link : Nat) : Statement (.linkFailure link) := none rfl rfl
theorem routeChange (r : Route) : Statement (.routeChange r) := none rfl rfl
theorem powerOn : Statement (.powerOn) := none rfl rfl
theorem deviceReset : Statement (.deviceReset) := none rfl rfl
theorem imageCheck : Statement (.imageCheck) := none rfl rfl
theorem dieBringUp (ok : Bool) (freqs : List Nat) : Statement (.dieBringUp ok freqs) := none rfl rfl
theorem memoryTraining (ok : Bool) : Statement (.memoryTraining ok) := none rfl rfl
theorem schedulerStart : Statement (.schedulerStart) := none rfl rfl
theorem getMeasurements (ix : Nat) : Statement (.getMeasurements ix) := none rfl rfl
theorem challenge (nonce : BitVec 256) : Statement (.challenge nonce) := none rfl rfl
theorem pldmFirmwareUpdate (image : Image) : Statement (.pldmFirmwareUpdate image) := none rfl rfl
theorem pldmSetCap (v : BitVec 16) : Statement (.pldmSetCap v) := none rfl rfl
theorem pldmSensors : Statement (.pldmSensors) := none rfl rfl
theorem pageDemotion (va : Nat) (unmap : Bool) : Statement (.pageDemotion va unmap) := none rfl rfl

end Sys2Proof.Laws.Encoding
end

