-- ==== Sys2Proof/Tests/Slice0.lean ====
section
/-!
SUPPORT. Tests: words of the spec's encoding tables and worked examples, a word that each check of well-formedness refuses, single
steps on small states, and for each statement a state and operands that meet its hypotheses.
-/

namespace Sys2Proof.Tests

set_option Elab.async false

open Sys2Proof Sys2Proof.Machine

/-! ### Well-formedness -/

/-- An extension word with nothing chosen. -/
def plain : MemExt := { limit := 127, res := 63, must := false, scope := 0, order := 0, cache := 0, off := 0 }

/-- Each check refuses a word: operands of wave words, at the position that R79 puts into aux. -/
theorem test_wf_wave_operands : ([
    (.add false false 0 0 0 false 3, 0), (.min false false 0 0 0 false 2, 0), (.neg false false 0 0 1, 0), (.add false true 1 0 0 false 0, 17),
    (.add false true 0 1 0 false 0, 10), (.add false true 0 0 1 false 0, 3), (.add false true 0 0 63 true 0, 3), (.fadd false 0 0 74 true, 3),
    (.frnd false 0 0 5, 3), (.cmp false false 6 0 0 0 false 0, 24), (.cmp false false 0 48 0 0 false 0, 17), (.kand false 0 0 48, 3),
    (.kand false 0 48 0, 10), (.kis false 0 0 3, 0), (.isabs64 false 0 0 2, 0), (.isabs64 false 0 1 0, 10), (.sel false 0 48 0 false 0, 10),
    (.cvt false 0 1 { target := 0, source := 3, rnd := 0 }, 10), (.cvt false 1 0 { target := 3, source := 0, rnd := 0 }, 17),
    (.cvt false 0 0 { target := 1, source := 0, rnd := 5 }, 35), (.cvt false 0 0 { target := 1, source := 1, rnd := 0 }, 38),
    (.cvt false 0 0 { target := 8, source := 2, rnd := 0 }, 38), (.cvt false 0 0 { target := 20, source := 0, rnd := 0 }, 43),
    (.rsum false false 0 0 1 true 0, 3), (.rsum false false 2 0 2 false 0, 3), (.rsum false true 2 0 3 false 0, 3), (.scan false true 0 0 4 false 2, 0),
    (.shflImm false 0 0 32 0, 2), (.bcastImm false 0 0 32, 2), (.vote false 0 0 3, 0), (.vote false 0 48 0, 10), (.dot4 false 0 0 0 false 2, 0),
    (.pack false 0 0 0 false 3, 0), (.xfQsb8 false 2 0 2, 3), (.xfSort false 2 0 2 0, 3), (.xfSort false 2 0 3 3, 0)] : List (Instr × Nat)).all
      (fun p => !p.1.wf && (Machine.fieldFaults p.1).head? == some p.2) = true := by decide +kernel

/-- The same for memory, tile and control words of a wave. -/
theorem test_wf_wave_access : ([
    (.ld false 9 0 0 0 true false none, 24), (.ld false 3 1 0 0 true false none, 17), (.ld false 4 2 0 0 true false none, 17),
    (.ld false 0 0 0 0 false false none, 1), (.ld false 0 0 0 64 true false none, 3), (.ld false 0 0 0 2 false true none, 3),
    (.ld false 0 0 1 0 false true none, 10), (.ld false 0 0 2 0 true true none, 10), (.stSk false 7 1 0 0 true false none, 17),
    (.stnt false 5 0 0 0 true false none, 24), (.ld false 0 0 0 0 true false (some { plain with order := 2, scope := 8 }), 42),
    (.st false 0 0 0 0 true false (some { plain with order := 1, scope := 8 }), 42), (.ld false 0 0 0 0 true false (some { plain with scope := 8 }), 44),
    (.ld false 0 0 0 0 true false (some { plain with order := 1 }), 44), (.ld false 0 0 0 0 true false (some { plain with order := 1, scope := 11 }), 44),
    (.ld false 0 0 0 0 true false (some { plain with cache := 3 }), 40), (.touch false 0 0 true false (some { plain with cache := 1 }), 40),
    (.ld false 0 0 0 0 true false (some { plain with must := true, res := 3 }), 49), (.bwait false 0 0 0 true false (some { plain with order := 1, scope := 8, must := true }), 49),
    (.ld false 0 0 0 0 true false (some { plain with res := 48 }), 50), (.wake false 0 0 0 true false (some { plain with res := 3 }), 50),
    (.ld false 0 0 0 0 true false (some { plain with limit := 65 }), 56), (.ntdrain false { plain with order := 2, scope := 8, limit := 8 }, 56),
    (.ntdrain false { plain with order := 2, scope := 8, off := 1 }, 32), (.fence false plain, 42), (.xfence false 0 0 { plain with order := 3, scope := 4 }, 10),
    (.xfence false 4 0 { plain with order := 3, scope := 4 }, 17), (.post false 1, 17), (.atomAdd false 7 0 0 0 true false none, 24),
    (.atomAdd false 4 1 0 0 true false none, 17), (.atomMin false 2 1 0 0 true false none, 17), (.cas false true 2 0 0 true false none, 17),
    (.cas false false 1 0 0 true false none, 17), (.gath false 0 0 64 none, 3), (.scadd false 0 0 1 none, 3), (.tld false 3 0 0 0 none, 24),
    (.tld false 2 2 0 0 none, 17), (.br false 48 0 0 0, 18), (.br false 63 1 0 0, 16), (.br false 63 0 0 1, 0), (.br false 0 2 0 0, 0),
    (.jmpx false 1 0, 10), (.bar false 0 2 false, 10), (.bar false 0 64 false, 10), (.live false 6, 10), (.trap false 62, 2), (.rdstat false 1, 17)] :
      List (Instr × Nat)).all (fun p => !p.1.wf && (Machine.fieldFaults p.1).contains p.2) = true := by decide +kernel

/-- The same for words of a lead context. -/
theorem test_wf_lead : ([
    (.leadAdd false 0 0 0 0 false 3, 0), (.div false 0 0 0 0 false 2, 0), (.leadAdd false 0 0 0 3 false 0, 4), (.leadAdd false 0 0 0 0 true 0, 2),
    (.leadAdd false 0 0 1 1 false 0, 6), (.leadAdd false 0 0 6 2 false 0, 6), (.leadCmp false 6 0 0 0 0 false 0, 24), (.leadCmp false 0 16 0 0 0 false 0, 18),
    (.leadSel false 0 16 0 0 false 0, 12), (.movi false 0 0 3, 0), (.movc false 1 0 true, 18), (.atomxAdd false 3 0 0 0 8 0, 24),
    (.atomxAnd false 0 0 0 0 0, 2), (.atomxAnd false 0 0 0 11 0, 2), (.leadBr false 16 0 0, 18), (.leadBr false 0 2 0, 16), (.leadBr false 63 1 0, 16),
    (.dqpush false 4 0, 18), (.leadWaita false 0 0 0 8 2, 0), (.leadFence false 8 0, 0), (.leadXfence false 0 0 8, 12), (.leadXfence false 4 0 8, 18),
    (.mzero false 0 0 0 false, 18), (.mmc false 1 0 0 0 1 1 false, 48), (.mmc false 1 0 0 1 1 0 false, 53), (.talloc false 1 0 0 0 22 false false, 50),
    (.seek false 1 0 0 0 4 0 0, 58), (.seek false 1 0 0 0 0 5 0, 55), (.copy false 1 0 false 1, 54), (.pcopy false 1 0 0 0 0, 48),
    (.binit false 0 0 false 0 11, 50), (.binit false 0 0 false 1 8, 54), (.chase false 0 0 0 0 0, 18), (.launch false 0 0 8, 18), (.launch false 1 0 0, 2),
    (.mark false 16 0 0, 18), (.leadTrap false 62, 6)] : List (Instr × Nat)).all
      (fun p => !p.1.wf && (Machine.fieldFaults p.1).contains p.2) = true := by decide +kernel

/-- One word of each row of class 0: integer and bit words. -/
theorem test_decode_class0 : ([
    (0x80041030, .add true false 2 4 6 false 0),
    (0x01041014, .addImm false false 2 4 5 0),
    (0x82041030, .sub true false 2 4 6 false 0),
    (0x03041014, .subImm false false 2 4 5 0),
    (0x84041030, .mul true false 2 4 6 false 0),
    (0x05041014, .mulImm false false 2 4 5 0),
    (0x86041030, .mulh true false 2 4 6 false 0),
    (0x07041030, .mad false false 2 4 6 false 0),
    (0x88041000, .abs true false 2 4),
    (0x09041000, .neg false false 2 4 0),
    (0x8A041030, .min true false 2 4 6 false 0),
    (0x0B041014, .minImm false false 2 4 5 0),
    (0x8C041030, .max true false 2 4 6 false 0),
    (0x0D041014, .maxImm false false 2 4 5 0),
    (0x8E041032, .and true false 2 4 6 false),
    (0x0F041016, .andImm false false 2 4 5),
    (0x90041032, .or true false 2 4 6 false),
    (0x11041016, .orImm false false 2 4 5),
    (0x92041032, .xor true false 2 4 6 false),
    (0x13041016, .xorImm false false 2 4 5),
    (0x94041002, .not true false 2 4),
    (0x15041032, .shl false false 2 4 6 false),
    (0x96041016, .shlImm true false 2 4 5),
    (0x17041032, .shr false false 2 4 6 false),
    (0x98041016, .shrImm true false 2 4 5),
    (0x19041032, .sar false false 2 4 6 false),
    (0x9A041016, .sarImm true false 2 4 5),
    (0x1B041032, .rot false false 2 4 6 false),
    (0x9C041016, .rotImm true false 2 4 5),
    (0x1D041002, .clz false false 2 4),
    (0x9E041002, .popc true false 2 4),
    (0x1F041032, .bfe false false 2 4 6 false),
    (0xA0041032, .bfi true false 2 4 6 false)] : List (Word × Instr)).all (fun p => decodeWord 0 p.1 none == .ok p.2 1) = true := by decide +kernel

/-- One word of each row of class 1: floating words. -/
theorem test_decode_class1 : ([
    (0x00041030, .fadd false 2 4 6 false),
    (0x81041014, .faddImm true 2 4 5),
    (0x02041030, .fsub false 2 4 6 false),
    (0x83041014, .fsubImm true 2 4 5),
    (0x04041030, .fmul false 2 4 6 false),
    (0x85041014, .fmulImm true 2 4 5),
    (0x06041030, .fma false 2 4 6 false),
    (0x87041030, .fmin true 2 4 6 false),
    (0x08041014, .fminImm false 2 4 5),
    (0x89041030, .fmax true 2 4 6 false),
    (0x0A041014, .fmaxImm false 2 4 5),
    (0x8B041000, .fabs true 2 4),
    (0x0C041000, .fneg false 2 4),
    (0x8D041010, .frnd true 2 4 2)] : List (Word × Instr)).all (fun p => decodeWord 1 p.1 none == .ok p.2 1) = true := by decide +kernel

/-- One word of each row of class 2: compare, trit and absent words. -/
theorem test_decode_class2 : ([
    (0x01041030, .cmp false false 1 2 4 6 false 0),
    (0x89041014, .cmpImm true false 1 2 4 5 0),
    (0x21041030, .fcmp false 1 2 4 6 false),
    (0xA9041014, .fcmpImm true 1 2 4 5),
    (0x30041030, .kand false 2 4 6),
    (0xB1041030, .kor true 2 4 6),
    (0x32041030, .kxor false 2 4 6),
    (0xB3041000, .knot true 2 4),
    (0x34041000, .kis false 2 4 0),
    (0xB8041000, .isabs true 2 4 0),
    (0x40041000, .isabs64 false 2 4 0),
    (0xB9041030, .coal true 2 4 6 false 0),
    (0x41041030, .coal64 false 2 4 6 false 0),
    (0xBA041030, .mkabs true 2 4 6 false 0),
    (0x42041030, .mkabs64 false 2 4 6 false 0),
    (0xBB041030, .nullif true 2 4 6 false 0),
    (0x43041030, .nullif64 false 2 4 6 false 0),
    (0xBC041030, .sel true 2 4 6 false 0),
    (0x44041030, .sel64 false 2 4 6 false 0)] : List (Word × Instr)).all (fun p => decodeWord 2 p.1 none == .ok p.2 1) = true := by decide +kernel

/-- One word of each row of class 3: cross-lane words. -/
theorem test_decode_class3 : ([
    (0x80041030, .rsum true false 2 4 6 false 0),
    (0x01041030, .rmin false false 2 4 6 false 0),
    (0x82041030, .rmax true false 2 4 6 false 0),
    (0x03041000, .rcnt false false 2 4 0),
    (0x84041030, .scan true false 2 4 6 false 0),
    (0x10041031, .shfl false 2 4 6 false 1),
    (0x91041015, .shflImm true 2 4 5 1),
    (0x12041014, .bcastImm false 2 4 5),
    (0x93041030, .bcast true 2 4 6 false),
    (0x14041001, .vote false 2 4 1),
    (0x98041030, .dot4 true 2 4 6 false 0),
    (0x19041030, .dot8 false 2 4 6 false 0),
    (0x9A041030, .dot2 true 2 4 6 false),
    (0x1B041030, .scale false 2 4 6 false),
    (0x9C041030, .pack true 2 4 6 false 0),
    (0x1D041030, .unpk false 2 4 6 false 0)] : List (Word × Instr)).all (fun p => decodeWord 3 p.1 none == .ok p.2 1) = true := by decide +kernel

/-- One word of each row of class 4: memory words. -/
theorem test_decode_class4 : ([
    (0x80041002, .ld true 0 2 4 0 false true none),
    (0x10041002, .st false 0 2 4 0 false true none),
    (0xA0041002, .stSk true 0 2 4 0 false true none),
    (0x30041002, .stnt false 0 2 4 0 false true none),
    (0xB9001002, .touch true 4 0 false true none),
    (0x3C040000, .post false 2),
    (0xBD041002, .bwait true 2 4 0 false true none),
    (0x3E041002, .wake false 2 4 0 false true none),
    (0xC0041002, .atomAdd true 0 2 4 0 false true none),
    (0x48041002, .atomMin false 0 2 4 0 false true none),
    (0xCC041002, .atomMax true 0 2 4 0 false true none),
    (0x50041002, .atomAnd false false 2 4 0 false true none),
    (0xD2041002, .atomOr true false 2 4 0 false true none),
    (0x54041002, .atomXor false false 2 4 0 false true none),
    (0xD6041002, .atomXchg true false 2 4 0 false true none),
    (0x58041002, .cas false false 2 4 0 false true none),
    (0xDA041002, .waita true false 2 4 0 false true none),
    (0x60041034, .gath false 2 4 6 none),
    (0xE1041034, .scat true 2 4 6 none),
    (0x62041034, .scadd false 2 4 6 none),
    (0xE3041000, .confd true 2 4)] : List (Word × Instr)).all (fun p => decodeWord 4 p.1 none == .ok p.2 1) = true := by decide +kernel

/-- One word of each row of class 5: tile words. -/
theorem test_decode_class5 : ([
    (0x00041024, .tld false 0 2 4 9 none),
    (0x88041024, .tst true 0 2 4 9 none),
    (0x0C041024, .tstSk false 0 2 4 9 none)] : List (Word × Instr)).all (fun p => decodeWord 5 p.1 none == .ok p.2 1) = true := by decide +kernel

/-- One word of each row of class 6: control words. -/
theorem test_decode_class6 : ([
    (0x80090103, .br true 2 1 1 3),
    (0x01090103, .brc false 2 1 1 3),
    (0x82040100, .brq true 1 1),
    (0x03000000, .join false),
    (0x84FC0100, .call true 1),
    (0x05000000, .ret false),
    (0x86001050, .jmpx true 4 5),
    (0x07001050, .callx false 4 5),
    (0x88000000, .exit true),
    (0x090A1001, .bar false 5 4 true),
    (0x8A001000, .live true 4),
    (0x0B000014, .savept false 5),
    (0x8C000014, .trap true 5),
    (0x0C0400F8, .rdstat false 2),
    (0x8C0010FC, .wrstat true 4),
    (0x0D000000, .rtf false false),
    (0x8E000000, .yield true)] : List (Word × Instr)).all (fun p => decodeWord 6 p.1 none == .ok p.2 1) = true := by decide +kernel

/-- One word of each row of class 7: transform words. -/
theorem test_decode_class7 : ([
    (0x80041000, .xfRcp true 2 4),
    (0x01041000, .xfRsqrt false 2 4),
    (0x82041000, .xfSqrt true 2 4),
    (0x03041000, .xfExp2 false 2 4),
    (0x84041000, .xfLog2 true 2 4),
    (0x05041000, .xfSin false 2 4),
    (0x86041000, .xfCos true 2 4),
    (0x07041000, .xfTanh false 2 4),
    (0x88041000, .xfErf true 2 4),
    (0x09041030, .xfQsb8 false 2 4 6),
    (0x8A041000, .xfXpose true 2 4),
    (0x0B041030, .xfSort false 2 4 6 0)] : List (Word × Instr)).all (fun p => decodeWord 7 p.1 none == .ok p.2 1) = true := by decide +kernel

/-- One word of each row of class 8: lead integer words. -/
theorem test_decode_class8 : ([
    (0x00084180, .leadAdd false 2 4 6 0 false 0),
    (0x81084050, .leadAddImm true 2 4 5 0),
    (0x02084180, .leadSub false 2 4 6 0 false 0),
    (0x83084050, .leadSubImm true 2 4 5 0),
    (0x04084180, .leadMul false 2 4 6 0 false 0),
    (0x85084050, .leadMulImm true 2 4 5 0),
    (0x06084180, .leadMulh false 2 4 6 0 false 0),
    (0x87084180, .div true 2 4 6 0 false 0),
    (0x08084180, .rem false 2 4 6 0 false 0),
    (0x89084182, .leadAnd true 2 4 6 0 false),
    (0x0A084052, .leadAndImm false 2 4 5),
    (0x8B084182, .leadOr true 2 4 6 0 false),
    (0x0C084052, .leadOrImm false 2 4 5),
    (0x8D084182, .leadXor true 2 4 6 0 false),
    (0x0E084052, .leadXorImm false 2 4 5),
    (0x8F084182, .leadShl true 2 4 6 0 false),
    (0x10084052, .leadShlImm false 2 4 5),
    (0x91084182, .leadShr true 2 4 6 0 false),
    (0x12084052, .leadShrImm false 2 4 5),
    (0x93084182, .leadSar true 2 4 6 0 false),
    (0x14084052, .leadSarImm false 2 4 5),
    (0x95084180, .leadMin true 2 4 6 0 false 0),
    (0x16084180, .leadMax false 2 4 6 0 false 0),
    (0x99084180, .leadCmp true 1 2 4 6 0 false 0),
    (0x21084050, .leadCmpImm false 1 2 4 5 0),
    (0x9E084180, .leadSel true 2 4 6 0 false 0),
    (0x1F080050, .movi false 2 5 0),
    (0xA6084000, .movc true 2 4 false),
    (0x28084050, .ldx false 0 2 4 5),
    (0xAC084050, .stx true 0 2 4 5),
    (0x30084191, .atomxAdd false 0 2 4 6 4 1),
    (0xB3084191, .atomxMinI64 true 2 4 6 4 1),
    (0x34084191, .atomxMinN64 false 2 4 6 4 1),
    (0xB5084191, .atomxMaxI64 true 2 4 6 4 1),
    (0x36084191, .atomxMaxN64 false 2 4 6 4 1),
    (0xB7084191, .atomxAnd true 2 4 6 4 1),
    (0x38084191, .atomxOr false 2 4 6 4 1),
    (0xB9084191, .atomxXor true 2 4 6 4 1),
    (0x3A084191, .atomxXchg false 2 4 6 4 1),
    (0xBB084191, .atomxCas true 2 4 6 4 1)] : List (Word × Instr)).all (fun p => decodeWord 8 p.1 none == .ok p.2 1) = true := by decide +kernel

/-- One word of each row of class 9: lead control words. -/
theorem test_decode_class9 : ([
    (0x000D0100, .leadBr false 3 1 1),
    (0x810D0100, .leadBrc true 3 1 1),
    (0x020D0100, .leadCall false 3 1 1),
    (0x83000000, .leadRet true),
    (0x080C4000, .dqpush false 3 4),
    (0x89080000, .rqpop true 2),
    (0x0A084190, .qpush false 2 4 6 4),
    (0x8B084010, .qpop true 2 4 4),
    (0x0C084190, .leadWaita false 2 4 6 4 0),
    (0x8D084190, .leadWake true 2 4 6 4),
    (0x0E000011, .leadFence false 4 1),
    (0x8F042010, .leadXfence true 1 2 4)] : List (Word × Instr)).all (fun p => decodeWord 9 p.1 none == .ok p.2 1) = true := by decide +kernel

/-- One word of each row of class 12: launch, checkpoint and system words. -/
theorem test_decode_class12 : ([
    (0x00084020, .launch false 2 4 8),
    (0x84084180, .mark true 2 4 6),
    (0x05000000, .snap false),
    (0x86000000, .rollbk true),
    (0x07000000, .commit false),
    (0x88000180, .leadTrap true 6),
    (0x08080F80, .leadRdstat false 2),
    (0x88004FC0, .leadWrstat true 4),
    (0x09000000, .leadRtf false false),
    (0x8A000141, .leadSavept true 5 1),
    (0x0B000000, .leadExit false)] : List (Word × Instr)).all (fun p => decodeWord 12 p.1 none == .ok p.2 1) = true := by decide +kernel

/-- One word of each row of class 13: REP words. -/
theorem test_decode_class13 : ([
    (0x001C8000, .rep 7 1 false)] : List (Word × Instr)).all (fun p => decodeWord 13 p.1 none == .ok p.2 1) = true := by decide +kernel

/-- One word and its extension word of each row that needs one. -/
theorem test_decode_extended : ([
    (10, 0x000C0000, 0x4B000000, .mzero false 3 2 5 true),
    (10, 0x010C4140, 0x2A3F0000, .mma false 3 4 5 1 5 31 true),
    (10, 0x030C4000, 0x2A130000, .mmw false 3 4 1 5 9 true),
    (10, 0x040C4140, 0x2C000000, .mdrain false 3 4 5 1 6),
    (10, 0x050C4000, 0x2D000000, .mload false 3 4 1 6 true),
    (10, 0x080C4140, 0x04A20000, .talloc false 3 4 5 9 8 true false),
    (10, 0x090C0000, 0x04800000, .tfree false 3 9),
    (10, 0x0A0C4000, 0x04800000, .tbind false 3 4 9),
    (10, 0x0B0C0000, 0x04800000, .tdry false 3 9),
    (10, 0x0C0C4000, 0x04800000, .tstat false 3 4 9),
    (10, 0x100C4000, 0x04820000, .abind false 3 4 9 true),
    (10, 0x110C4140, 0x299F8000, .seek false 3 4 5 1 2 3 63),
    (10, 0x120C4140, 0x20000000, .proj false 3 4 5 1),
    (11, 0x00244000, 0x00000000, .copy false 9 4 false 0),
    (11, 0x00244000, 0x41400000, .copy false 9 4 true 5),
    (11, 0x01244140, 0x00080014, .pcopy false 9 4 5 8 20),
    (11, 0x02004140, 0x00200000, .binit false 4 5 false 0 8),
    (11, 0x03244140, 0x41600000, .barr false 9 4 5 true 5 8),
    (11, 0x04244140, 0x00200000, .leadBwait false 9 4 5 false 0 8),
    (11, 0x08244140, 0x00000000, .smapLook false 9 4 5),
    (11, 0x08244140, 0x00000001, .smapAppend false 9 4 5),
    (11, 0x08244140, 0x00000002, .smapShare false 9 4 5),
    (11, 0x08244140, 0x00000003, .smapLen false 9 4 5),
    (11, 0x08244000, 0x00000004, .smapEvict false 9 4 0),
    (11, 0x09244140, 0x00030064, .chase false 9 4 5 3 100),
    (10, 0x020C0140, 0x2ACE8000, .mmc false 3 5 1 5 6 14 true),
    (2, 0x480A1800, 0x00009808, .cvt false 5 6 ⟨19, 0, 1⟩),
    (4, 0x38000001, 0x7FFC8800, .ntdrain false ⟨127, 63, false, 8, 2, 0, 0⟩),
    (4, 0x3A000001, 0x7FFC4800, .fence false ⟨127, 63, false, 4, 2, 0, 0⟩),
    (4, 0x3B000801, 0x7FFC4C00, .xfence false 0 2 ⟨127, 63, false, 4, 3, 0, 0⟩)] : List (Nat × Word × Word × Instr)).all (fun p => decodeWord p.1 p.2.1 (some p.2.2.1) == .ok p.2.2.2 2) = true := by decide +kernel

/-- Worked examples of the chapters on clauses, wave state, arithmetic and the lead strand: words without an extension. -/
theorem test_decode_examples : ([
    (0, 0x0008_0818, .add false false 4 2 3 false 0), (0, 0x0008_081A, .add false false 4 2 3 false 2),
    (0, 0x0008_082C, .add false false 4 2 5 true 0), (0, 0x4008_1840, .add false true 4 6 8 false 0),
    (0, 0x030E_1C05, .subImm false false 7 7 1 1), (0, 0x0714_0818, .mad false false 10 2 3 false 0),
    (0, 0x160A_140E, .shlImm false false 5 5 3), (1, 0x0612_0818, .fma false 9 2 3 false),
    (1, 0x0108_10C0, .faddImm false 4 4 0x30), (1, 0x0B0C_1800, .fabs false 6 6), (1, 0x0D06_0810, .frnd false 3 2 2),
    (2, 0x2204_1028, .fcmp false 2 2 4 5 false), (2, 0x3008_0818, .kand false 4 2 3), (2, 0x3408_0C02, .kis false 4 3 2),
    (2, 0x380A_1800, .isabs false 5 6 0), (2, 0x390C_143A, .coal false 6 5 7 false 2), (2, 0x3A04_0836, .mkabs false 2 2 6 true 2),
    (2, 0x3C10_0C48, .sel false 8 3 9 false 0), (3, 0x0008_084A, .rsum false false 4 2 9 false 2),
    (3, 0x0008_0806, .rsum false false 4 2 0 true 2), (3, 0x110A_1007, .shflImm false 5 4 1 3), (3, 0x120C_1400, .bcastImm false 6 5 0),
    (3, 0x140E_0802, .vote false 7 2 2), (3, 0x1814_0818, .dot4 false 10 2 3 false 0), (3, 0x1A16_0818, .dot2 false 11 2 3 false),
    (3, 0x1B10_1838, .scale false 8 6 7 false), (3, 0x1C12_0819, .pack false 9 2 3 false 1), (4, 0x020A_0824, .ld false 2 5 2 4 true false none),
    (4, 0x4206_0824, .atomAdd false 2 3 2 4 true false none), (4, 0x3D12_0824, .bwait false 9 2 4 true false none),
    (5, 0x080C_0824, .tst false 0 6 2 9 none), (5, 0x0E0C_0824, .tstSk false 2 6 2 9 none), (6, 0x0105_0600, .brc false 1 1 6 0),
    (6, 0x00FC_0300, .br false 63 0 3 0), (6, 0x0204_0200, .brq false 1 2), (6, 0x0300_0000, .join false), (6, 0x0600_2050, .jmpx false 8 5),
    (6, 0x0700_2050, .callx false 8 5), (6, 0x0906_2001, .bar false 3 8 true), (6, 0x0A00_3000, .live false 12), (6, 0x0B00_001C, .savept false 7),
    (6, 0x0C00_0014, .trap false 5), (6, 0x0C14_00F8, .rdstat false 10), (6, 0x0C00_0CFC, .wrstat false 3), (6, 0x0E00_0000, .yield false),
    (7, 0x090C_1038, .xfQsb8 false 6 4 7), (8, 0x0014_61C0, .leadAdd false 5 6 7 0 false 0), (8, 0x0014_6110, .leadAdd false 5 6 4 1 false 0),
    (8, 0x2614_9000, .movc false 5 9 false), (8, 0x2A14_3100, .ldx false 2 5 3 16), (8, 0x2F1C_3080, .stx false 3 7 3 8),
    (9, 0x0804_5000, .dqpush false 1 5), (9, 0x0924_0000, .rqpop false 9), (9, 0x0F04_000C, .leadXfence false 1 0 3),
    (12, 0x001C_4020, .launch false 7 4 8)] : List (Nat × Word × Instr)).all
      (fun p => decodeWord p.1 p.2.1 none == .ok p.2.2 1) = true := by decide +kernel

/-- Worked examples with an extension word, of the chapters on memory, tiles, matrices, Accords and copies. -/
theorem test_decode_extended_examples :
    let m (off : BitVec 8) : MemExt := { limit := 127, res := 63, must := false, scope := 0, order := 0, cache := 0, off }
    ([(4, 0x020A_1803, 0x7FFC_0010, .ld false 2 5 6 0 false true (some (m 16))), (4, 0x020A_0027, 0x7FFC_0010, .ld false 2 5 0 4 true true (some (m 16))),
      (4, 0x020A_0825, 0x0808_0000, .ld false 2 5 2 4 true false (some { m 0 with limit := 8, res := 2 })),
      (4, 0x120C_0825, 0x7FFC_0010, .st false 2 6 2 4 true false (some (m 16))),
      (4, 0x3900_0825, 0x7F0C_0000, .touch false 2 4 true false (some { m 0 with res := 3 })),
      (4, 0x1210_0805, 0x7FFC_3808, .st false 2 8 2 0 true false (some { m 8 with scope := 3, order := 2 })),
      (4, 0x5808_0825, 0x7FFC_8400, .cas false false 4 2 4 true false (some { m 0 with scope := 8, order := 1 })),
      (4, 0x5A08_0825, 0x7FFC_8408, .waita false false 4 2 4 true false (some { m 8 with scope := 8, order := 1 })),
      (4, 0x3E0E_0825, 0x7FFC_0008, .wake false 7 2 4 true false (some (m 8))),
      (4, 0x620A_0C05, 0x7FFE_0000, .scadd false 5 3 0 (some { m 0 with must := true })),
      (4, 0x831C_2803, 0x7FFC_0030, .ld true 3 14 10 0 false true (some (m 48))), (5, 0x000A_0825, 0x7FFC_0010, .tld false 0 5 2 9 (some (m 16))),
      (10, 0x0024_0000, 0x2600_0000, .mzero false 9 1 3 false), (10, 0x0124_4140, 0x2603_0000, .mma false 9 4 5 1 3 1 true),
      (10, 0x0224_0140, 0x486E_0000, .mmc false 9 5 2 4 3 14 false), (10, 0x0428_61C0, 0x2600_0000, .mdrain false 10 6 7 1 3),
      (10, 0x0524_6000, 0x0400_0000, .mload false 9 6 0 2 false), (10, 0x0824_20C0, 0x0251_0000, .talloc false 9 2 3 4 20 false true),
      (10, 0x0A24_3000, 0x0200_0000, .tbind false 9 3 4), (10, 0x0C2C_3000, 0x0200_0000, .tstat false 11 3 4),
      (10, 0x1024_3000, 0x0382_0000, .abind false 9 3 7 true), (10, 0x0324_4000, 0x260F_0000, .mmw false 9 4 1 3 7 true),
      (10, 0x1124_4140, 0x44FF_8000, .seek false 9 4 5 2 1 1 255), (10, 0x1228_4180, 0, .proj false 10 4 6 0),
      (11, 0x0024_4000, 0x4140_0000, .copy false 9 4 true 5), (11, 0x0200_4140, 0x0020_0000, .binit false 4 5 false 0 8),
      (11, 0x0318_4140, 0x0020_0000, .barr false 6 4 5 false 0 8), (11, 0x0418_4140, 0x40A0_0000, .leadBwait false 6 4 5 true 2 8)] :
      List (Nat × Word × Word × Instr)).all (fun p => decodeWord p.1 p.2.1 (some p.2.2.1) == .ok p.2.2.2 2) = true := by decide +kernel

/-! ### Small states -/

/-- The wave, the crew and the split of the tests; the crew's lead context has the same key. -/
def tKey : WaveKey := { gang := 0, crew := 0, wave := 0 }
def tCrewKey : CrewKey := { gang := 0, crew := 0 }
def tSplit : Split := Split.ready 0x10004 (BitVec.allOnes 32) none

/-- A v register given lane by lane, and a k register. -/
def withV (w : Wave) (r : Nat) (f : Lane → Nat) : Wave := w.putNow [.v r (BitVec.allOnes 32) (Vector.ofFn fun l => BitVec.ofNat 32 (f l))]
def withK (w : Wave) (r : Nat) (f : Lane → Trit) : Wave := w.putNow [.k r (BitVec.allOnes 32) (Vector.ofFn f)]

/-- A wave of one split of every lane: v2 and v3 an address for each lane, v4 and v5 small numbers, v6 an index, v8 a tile offset, v10 and
v11 all ones; k0 true, k1 true in the lower half, k2 unknown, k3 false, k4 and k5 false and true but for an unknown lane 0. -/
def tWave : Wave :=
  let w := { Wave.start 0x10004 0x11C with slot0 := some tSplit, cached := BitVec.allOnes 128 }
  let w := withV (withV w 2 fun l => 0x11000 + 16 * l.val) 3 fun _ => 0
  let w := withV (withV w 4 fun _ => 1) 5 fun l => l.val + 2
  let w := withV (withV w 6 fun l => l.val / 2) 8 fun l => 16 * l.val
  let w := withV (withV w 10 fun _ => 0xFFFF_FFFF) 11 fun _ => 0xFFFF_FFFF
  let w := withK (withK (withK w 0 fun _ => .t) 1 fun l => if l.val < 16 then .t else .f) 3 fun _ => .f
  withK (withK w 4 fun l => if l.val = 0 then .u else .f) 5 fun l => if l.val = 0 then .u else .t

/-- A lead context: x1 an address, x2 a number, x3 and x6 all ones; j0 true, j1 false, j2 unknown. -/
def tLead : Lead :=
  let l := Lead.start 0x10104 0x11D
  { l with x := (((l.x.set 1 0x11000).set 2 7).set 3 (BitVec.allOnes 64)).set 6 (BitVec.allOnes 64), j := (l.j.set 0 .t).set 1 .f }

/-- A crew: c0 the base address, c4 that of a barrier object, c8 a quad that names wave 0, an entry in queue 0. -/
def tCrew : Crew :=
  let c := Crew.start placeCrew 0 1 16 ((((Vector.replicate 64 0).set 0 0x11000).set 4 0x11800).set 8 1)
  { c with dq := c.dq.set 0 { entries := [(5, none)], retired := 0 } }

/-- A gang with tile h9 of 32 by 32 .b32 elements and an Accord at h7. -/
def tGang : Gang := { placeGang 1 with handles := [(7, .accord false []), (9, .tile (Tile.alloc 32 32 10 false false))] }

def tLaunch : Launch :=
  { record := placeRecord, retained := 0x200000, origin := .host 0, scope := 8, accepted := 0, next := 1, again := [], endedOk := 0, failed := none,
    done := none, table := [], mismatches := [], errors := [], reruns := 0, plan := [], victims := [], pages := [] }

/-- Pages: one that allows everything, one that is away, one that may only be read. -/
def tPages : List Page :=
  [{ base := 0x10000, size := 0x10000, r := true, w := true, x := true, resident := true, pa := 0x10000 },
   { base := 0x30000, size := 0x10000, r := true, w := true, x := true, resident := false, pa := 0x30000 },
   { base := 0x50000, size := 0x10000, r := true, w := false, x := false, resident := true, pa := 0x50000 }]

/-- Code: wave clauses of one control word at 0x10000 and 0x10008, a landing pad with tag 5 at 0x10010, a clause of two words at
0x10018, a lead class at 0x10020, an add at 0x10028; lead clauses at 0x10100 and 0x10108, a wave class at 0x10110, an add at
0x10118. In data, a barrier object of phase 0 that expects one arrival at 0x11800. -/
def tCode : CodeObj :=
  { addr := 0x10000, lead := { base := 0x10100, size := 0x100, headers := [0x10100, 0x10108, 0x10110, 0x10118], handler := none },
    wave := { base := 0x10000, size := 0x100, headers := [0x10000, 0x10008, 0x10010, 0x10018, 0x10020, 0x10028], handler := none },
    live := [BitVec.ofNat 256 (7 + 100 * 2 ^ 48), BitVec.ofNat 256 (7 + 2 ^ 8 + 100 * 2 ^ 48)] }

def tMem : List Host.Cell :=
  let m := memWrites (memWrites [] 0x10000 (toBytes 4 0x61000000)) 0x10008 (toBytes 4 0x61000000)
  let m := memWrites (memWrites m 0x10010 (toBytes 4 0x618A0000)) 0x10018 (toBytes 4 0x62000000)
  let m := memWrites (memWrites m 0x10020 (toBytes 4 0x81000000)) 0x10028 (toBytes 4 0x01000000)
  let m := memWrites (memWrites m 0x10110 (toBytes 4 0x01000000)) 0x10118 (toBytes 4 0x81000000)
  let m := memWrites (memWrites m 0x10100 (toBytes 4 0x91000000)) 0x10108 (toBytes 4 0x92000000)
  memWrites m 0x11800 (toBytes 16 (2 ^ 32 + 2 ^ 64))

/-- The state around a wave, a lead context, a crew and a gang, with `cur` the context that moves. -/
def world (w : Wave) (l : Lead) (c : Crew) (g : Gang) (cur : Ctx) : State :=
  { State.reset with
    mem := tMem, pages := tPages, codeObjs := [tCode], waves := [(tKey, w)], leads := [(tCrewKey, l)], crews := [(tCrewKey, c)],
    gangs := [(0, g)], launches := [(1, tLaunch)], cur, nextId := 8 }

/-- A wave's state and context, and a lead context's. -/
def atWave (w : Wave) (c : Crew) (g : Gang) : State := world w tLead c g (.split tKey 0)
def atLead (l : Lead) (c : Crew) (g : Gang) : State := world tWave l c g (.lead tCrewKey)
def wctxOf (w : Wave) (c : Crew) (g : Gang) (sp : Split) : WCtx := { key := tKey, slot := 0, w, sp, crew := c, gang := g }
def lctxOf (l : Lead) (c : Crew) (g : Gang) : LCtx := { key := tCrewKey, l, crew := c, gang := g }

def W : State := atWave tWave tCrew tGang
def wc : WCtx := wctxOf tWave tCrew tGang tSplit
def L : State := atLead tLead tCrew tGang
def lc : LCtx := lctxOf tLead tCrew tGang

theorem wctx_world {w : Wave} {l : Lead} {c : Crew} {g : Gang} {sp : Split} (h : w.slot0 = some sp) (he : w.ended = false) :
    (world w l c g (.split tKey 0)).wctx = some (wctxOf w c g sp) := by
  simp [world, State.wctx, State.wave, State.crew, State.gang, tabGet, crewOf, tKey, tCrewKey, Wave.slot, h, he, wctxOf]

theorem lctx_world {w : Wave} {l : Lead} {c : Crew} {g : Gang} (he : l.exited = false) :
    (world w l c g (.lead tCrewKey)).lctx = some (lctxOf l c g) := by
  simp [world, State.lctx, State.lead, State.crew, State.gang, tabGet, tCrewKey, he, lctxOf]

/-- A word that is well-formed and finds its lines in the register cache, as a check. -/
def readyWave (w : Wave) (i : Instr) : Bool := i.wf && (missing w i).isNone && (awaited w i).isNone && w.bad.isEmpty
def readyLead (l : Lead) (i : Instr) : Bool := i.wf && (xUses i).all fun r => (tabGet l.tokens r).isNone

theorem issues_wave {w : Wave} {l : Lead} {c : Crew} {g : Gang} {sp : Split} {i : Instr} (h : w.slot0 = some sp) (he : w.ended = false)
    (hr : readyWave w i = true) : WaveIssues (world w l c g (.split tKey 0)) (wctxOf w c g sp) i := by
  simp only [readyWave, Bool.and_eq_true, Option.isNone_iff_eq_none] at hr
  obtain ⟨⟨⟨hw, hm⟩, ha⟩, hb⟩ := hr
  exact ⟨wctx_world h he, hw, hm, ha, by simp [WCtx.readsPoison, wctxOf, List.isEmpty_iff.mp hb]⟩

theorem issues_lead {w : Wave} {l : Lead} {c : Crew} {g : Gang} {i : Instr} (he : l.exited = false) (hr : readyLead l i = true) :
    LeadIssues (world w l c g (.lead tCrewKey)) (lctxOf l c g) i := by
  simp only [readyLead, Bool.and_eq_true, List.all_eq_true, Option.isNone_iff_eq_none] at hr
  exact ⟨lctx_world he, hr.1, hr.2⟩

theorem tWave_slot : tWave.slot0 = some tSplit := by decide +kernel
theorem tWave_live : tWave.ended = false := by decide +kernel
theorem tLead_live : tLead.exited = false := by decide +kernel

/-- Every word of a list issues undisturbed in the wave of the tests, or in its lead context. -/
theorem all_issue {is : List Instr} (h : is.all (readyWave tWave) = true) : ∀ i ∈ is, WaveIssues W wc i := by
  unfold W wc atWave
  exact fun i hi => issues_wave (l := tLead) (c := tCrew) (g := tGang) tWave_slot tWave_live (List.all_eq_true.mp h i hi)

theorem all_lead {is : List Instr} (h : is.all (readyLead tLead) = true) : ∀ i ∈ is, LeadIssues L lc i := by
  unfold L lc atLead
  exact fun i hi => issues_lead (w := tWave) (c := tCrew) (g := tGang) tLead_live (List.all_eq_true.mp h i hi)

/-- A source can be read: some operand stands there. -/
def reads (s : State) (c : WCtx) (wide : Bool) (fill : Nat) (b : Src) : Prop := ∃ vb pop, s.src c wide fill b = .ok (vb, pop)

theorem reads_of {s : State} {c : WCtx} {wide : Bool} {fill : Nat} {b : Src}
    (h : (match s.src c wide fill b with | .ok _ => true | .error _ => false) = true) : reads s c wide fill b := by
  unfold reads
  generalize s.src c wide fill b = r at h ⊢
  cases r with
  | error e => simp at h
  | ok r => exact ⟨r.1, r.2, rfl⟩

/-- What holds of every address of a lane, as a check. -/
theorem forall_part {v : Vector (Option Nat) 32} {P : Nat → Bool} (h : (v.toList.all fun o => o.all P) = true) :
    ∀ (l : Lane) (a : Nat), v[l] = some a → P a = true := by
  intro l a ha
  have := List.all_eq_true.mp h v[l] (by simp)
  simpa [ha] using this

/-- The conditions of an access, as checks. -/
theorem accesses_of {s : State} {c : WCtx} {ks : List AccKind} {ext : Option MemExt} {n entries : Nat} {part : Vector (Option Nat) 32}
    (hp : c.gang.pair = none) (ha : (part.toList.all fun o => o.all fun a => a % n == 0) = true)
    (hr : (!mustOf ext || (List.finRange 32).all fun l => part[l].isNone || (s.homeOf ks part l).isSome) = true)
    (he : s.entriesOn c.crew.place.core + entries ≤ 4096) : Accesses s c ks ext n entries part := by
  refine ⟨hp, fun l a h => by simpa using forall_part ha l a h, fun hm l a h => ?_, .inr he⟩
  simp only [hm, Bool.not_true, Bool.false_or, List.all_eq_true] at hr
  simpa [h] using hr l (List.mem_finRange l)

theorem clean_of {s : State} {n : Nat} {home : Lane → Option Nat} (h : s.poison = []) : cleanLanes s n home :=
  fun _ _ _ => by simp [State.poisoned, h]

/-! ### Hypotheses met: words of a wave -/

/-- Sources of each kind: a register, a uniform register, a queue, a special operand, an immediate. -/
theorem witness_sources : ∀ p ∈ ([(false, .field 4 false), (true, .field 4 false), (false, .field 0 true), (true, .field 0 true), (false, .field 64 true),
      (true, .field 64 true), (false, .field 68 true), (false, .field 73 true), (true, .imm 5)] : List (Bool × Src)),
    ∀ fill ∈ [0x8000_0000, 0xFFFF_FFFF, 2 ^ 63, 2 ^ 64 - 1, 0x8888_8888, 0x8080_8080], reads W wc p.1 fill p.2 := by
  intro p hp fill hf
  refine reads_of ?_
  revert p fill
  decide +kernel

theorem witness_WaveArithmetic : ∀ i ∈ ([.add false false 12 4 5 false 0, .add true true 12 4 64 true 1, .addImm false false 12 4 255 0, .sub false false 4 4 4 false 2,
    .subImm false true 12 4 1 0, .mul false false 12 4 5 false 0, .mulImm false false 12 4 5 1, .min false false 12 4 5 false 0, .minImm false false 12 4 5 1,
    .max false true 12 4 2 false 0, .maxImm false false 12 4 5 0, .mulh false true 12 4 2 false 2, .mad false false 12 4 5 false 0, .abs false false 12 4,
    .abs false true 12 4, .neg false false 12 4 0, .neg false true 12 4 2] : List Instr), WaveIssues W wc i := all_issue (by decide +kernel)

theorem witness_WaveBitOperations : ∀ i ∈ ([.and false false 12 4 5 false, .andImm false true 12 4 255, .or false false 12 4 0 true, .orImm false false 12 4 1,
    .xor false false 12 4 5 false, .xorImm false false 12 4 1, .shl false false 12 4 5 false, .shlImm false false 12 4 31, .shr false true 12 4 2 false,
    .shrImm false false 12 4 1, .sar false false 12 4 5 false, .sarImm false false 12 4 255, .rot false false 12 4 5 false, .rotImm false true 12 4 63,
    .bfe false false 12 4 5 false, .bfi false true 12 4 2 false, .not false false 12 4, .clz false true 12 4, .popc false false 12 4] : List Instr),
    WaveIssues W wc i := all_issue (by decide +kernel)

theorem witness_WaveFloating : (∀ i ∈ ([.fadd false 12 4 5 false, .faddImm false 12 4 0x30, .fsub false 12 4 5 false, .fsubImm false 12 4 0, .fmul false 12 4 0 true,
    .fmulImm false 12 4 0x7F, .fmin false 12 4 5 false, .fminImm false 12 4 0, .fmax false 12 4 5 false, .fmaxImm false 12 4 255, .fma false 12 4 5 false,
    .fabs false 12 4, .fneg false 12 4, .frnd false 12 4 0, .frnd false 12 4 4, .cvt false 12 4 ⟨3, 12, 1⟩, .cvt false 12 4 ⟨19, 0, 0⟩] : List Instr),
    WaveIssues W wc i) ∧ (Fmt.ofCode 3).isSome ∧ (Fmt.ofCode 12).isSome ∧ (Fmt.ofCode 19).isSome ∧ (Fmt.ofCode 0).isSome :=
  ⟨all_issue (by decide +kernel), by decide⟩

/-- Operands of R99 and R100: numbers with a sum, a difference and a fused sum that are not zero, an absent element, NaNs; a number that f32
holds, one that is rounded, one that lies beyond the range. -/
theorem witness_WaveFloating_numbers :
    let one := 0x3F80_0000
    let three := 0x4040_0000
    (FFmt.f32.decode one = .num false (2 ^ 23) (-23) ∧ FFmt.f32.decode three = .num false (3 * 2 ^ 22) (-22) ∧ FFmt.f32.decode 0xFFFF_FFFF = .absent ∧
      FFmt.f32.decode 0x7FC0_0000 = .nan false ∧ FFmt.f32.decode 0x7F80_0001 = .nan true) ∧
    ((2 ^ 23 + 3 * 2 ^ 23 : Int) ≠ 0 ∧ (2 ^ 23 - 3 * 2 ^ 23 : Int) ≠ 0) ∧
    (∀ p ∈ ([(3, 0, true, true), (2 ^ 25 + 1, 0, false, true), (1, 200, true, false)] : List (Nat × Int × Bool × Bool)),
      let low : Int := 1 - (FFmt.f32.bias : Int) - FFmt.f32.frac
      let q := max (p.2.1 + p.1.log2 - FFmt.f32.frac) low
      (0 < p.1 ∧ (decide (q ≤ p.2.1) = true ∨ p.2.2.1 = false) ∧ (p.2.2.2 = true ∨ FFmt.f32.maxCode < (q - low).toNat * 2 ^ FFmt.f32.frac)) ∧
        (p.2.2.1 = false → p.2.1 < q)) := by
  decide +kernel

theorem witness_WaveCompares : ∀ i ∈ ([.cmp false false 0 47 4 5 false 0, .cmp false true 5 7 4 2 false 2, .cmpImm false false 2 7 4 0x80 0, .fcmp false 1 7 4 5 false,
    .fcmpImm false 5 7 4 255, .kand false 7 0 1, .kor false 7 1 2, .kxor false 7 2 3, .knot false 7 2, .kis false 7 2 0, .kis false 7 2 1, .kis false 7 2 2,
    .isabs false 7 4 0, .isabs64 false 7 4 1] : List Instr), WaveIssues W wc i := all_issue (by decide +kernel)

theorem witness_WaveAbsentWords : ∀ i ∈ ([.coal false 12 4 5 false 0, .coal64 false 12 4 2 false 1, .mkabs false 12 4 0 true 2, .mkabs64 false 12 4 2 false 0,
    .nullif false 12 4 4 false 2, .nullif64 false 12 4 4 false 0, .sel false 12 1 4 false 0, .sel64 false 12 2 4 false 1] : List Instr), WaveIssues W wc i :=
  all_issue (by decide +kernel)

/-- With types of each kind: integers, and t = 2. -/
theorem witness_WaveReductions : ∀ i ∈ ([.rsum false false 12 4 13 false 0, .rsum false true 12 4 0 true 1, .rsum false false 12 4 13 false 2, .rmin false false 12 4 13 false 0,
    .rmin false false 12 4 0 true 2, .rmax false true 12 4 14 false 1, .rmax false false 12 4 13 false 2, .rcnt false false 12 4 0, .scan false false 12 4 13 false 0,
    .scan false false 12 4 0 true 2] : List Instr), WaveIssues W wc i := all_issue (by decide +kernel)

theorem witness_WaveLaneMoves : ∀ i ∈ ([.shfl false 12 4 5 false 0, .shfl false 12 4 5 false 3, .shflImm false 12 4 31 1, .shflImm false 12 4 1 2, .bcast false 12 4 5 false,
    .bcastImm false 12 4 31, .vote false 12 1 0, .vote false 12 2 1, .vote false 12 1 2, .xfXpose false 12 4] : List Instr), WaveIssues W wc i :=
  all_issue (by decide +kernel)

theorem witness_WaveDots : ∀ i ∈ ([.dot4 false 12 4 5 false 0, .dot4 false 12 4 5 false 1, .dot8 false 12 4 5 false 0, .dot2 false 12 4 5 false, .scale false 12 4 5 false,
    .pack false 12 4 5 false 0, .pack false 12 4 5 false 2, .unpk false 12 4 0 true 1] : List Instr), WaveIssues W wc i := all_issue (by decide +kernel)

theorem witness_WaveTransform : ∀ i ∈ ([.xfRcp false 12 4, .xfRsqrt false 12 4, .xfSqrt false 12 4, .xfExp2 false 12 4, .xfLog2 false 12 4, .xfSin false 12 4, .xfCos false 12 4,
    .xfTanh false 12 4, .xfErf false 12 4, .xfQsb8 false 12 4 13, .xfSort false 12 4 13 0, .xfSort false 12 4 13 2] : List Instr), WaveIssues W wc i :=
  all_issue (by decide +kernel)

/-- Operands that R231 treats apart: exact cases, signs, results beyond the range and below it, arguments beyond 2^20. -/
theorem witness_WaveTransform_numbers :
    ([1, 0x4040_0000, 0x4300_0000, 0xC348_0000, 0x4000_0000, 0x3FC0_0000, 0x7F7F_FFFF].map FFmt.f32.decode =
      [.num false 1 (-149), .num false 12582912 (-22), .num false 8388608 (-16), .num true 13107200 (-16), .num false 8388608 (-22),
        .num false 12582912 (-23), .num false 16777215 104]) ∧
    (1 * 2 ^ ((-149 : Int) + 149).toNat ≤ 2 ^ 21 ∧ 2 ^ 21 < 12582912 * 2 ^ ((-22 : Int) + 149).toNat ∧ 12582912 ≠ 2 ^ Nat.log2 12582912 ∧
      8388608 = 2 ^ Nat.log2 8388608 ∧ (7 : Int) ≤ -16 + Nat.log2 8388608 ∧ (-22 : Int) + Nat.log2 12582912 < 7 ∧ (-23 : Int) + Nat.log2 12582912 = 0) ∧
    ((12582912 : Int) * 2 ^ ((-22 : Int) - min (-22) 0).toNat = 3 * 2 ^ (-min (-22 : Int) 0).toNat ∧
      ∀ i : Int, -1 * (13107200 * 2 ^ ((-16 : Int) - min (-16) 0).toNat : Nat) = i * 2 ^ (-min (-16 : Int) 0).toNat → i < -149) ∧
    2 ^ 169 < 16777215 * 2 ^ ((104 : Int) + 149).toNat := by
  refine ⟨by decide +kernel, by decide +kernel, ⟨by decide +kernel, fun i h => ?_⟩, by decide +kernel⟩
  have h1 : ((13107200 * 2 ^ ((-16 : Int) - min (-16) 0).toNat : Nat) : Int) = 13107200 := by decide +kernel
  have h2 : (2 : Int) ^ (-min (-16 : Int) 0).toNat = 65536 := by decide +kernel
  rw [h1, h2] at h
  omega

/-- Extension words of the tests: plain, with .must, with a limit of zero, acquire at device scope, and one byte off. -/
def eMust : Option MemExt := some { plain with must := true }
def eNone : Option MemExt := some { plain with limit := 16 }
def eAcq : Option MemExt := some { plain with order := 1, scope := 8 }
def eOdd : Option MemExt := some { plain with off := 1 }
def eRes : Option MemExt := some { plain with res := 7 }

/-- An access of the wave of the tests that nothing holds back, with the entries that it takes. -/
def canAccess (ks : List AccKind) (ext : Option MemExt) (n : Nat) (part : Vector (Option Nat) 32) : Prop :=
  Accesses W wc ks ext n (entriesFor part (W.homeOf ks part)) part

/-- No write is late in a state that has none. -/
theorem timely {s : State} (h : s.late = []) (q : Path) (x : Nat) : ¬s.lateAt q x := by
  rintro ⟨r, hr, -⟩
  exact absurd (h ▸ hr) List.not_mem_nil

theorem W_mem : Memory.wf W.mem = true := by decide +kernel

theorem witness_WaveLoads : (∀ i ∈ ([.ld false 2 12 8 0 true false none, .ld false 4 12 2 0 false true eMust, .ld false 5 12 0 0 true true eRes, .gath false 12 6 0 eAcq] : List Instr),
      WaveIssues W wc i) ∧
    canAccess [.read] none 4 (partAddrs wc none 4 (W.addrs wc 8 0 true false none)) ∧
    canAccess [.read] eMust 16 (partAddrs wc eMust 16 (W.addrs wc 2 0 false true eMust)) ∧
    canAccess [.read] eRes 1 (partAddrs wc eRes 1 (W.addrs wc 0 0 true true eRes)) ∧
    canAccess [.read] eAcq 4 (partAddrs wc eAcq 4 (W.elemAddrs wc 6 0 eAcq)) ∧
    countPart (partAddrs wc none 4 (W.addrs wc 8 0 true false none)) = 32 ∧
    (∀ n home, cleanLanes W n home) ∧ ∀ x, ¬W.lateAt .w x :=
  ⟨all_issue (by decide +kernel), accesses_of rfl (by decide +kernel) (by decide +kernel) (by decide +kernel),
    accesses_of rfl (by decide +kernel) (by decide +kernel) (by decide +kernel), accesses_of rfl (by decide +kernel) (by decide +kernel) (by decide +kernel),
    accesses_of rfl (by decide +kernel) (by decide +kernel) (by decide +kernel), by decide +kernel, fun _ _ => clean_of rfl, timely rfl .w⟩

theorem witness_WaveStores : (∀ i ∈ ([.st false 2 4 8 0 true false none, .stSk false 2 4 2 0 false true none, .scat false 4 6 0 none, .stnt false 2 4 8 0 true false none,
      .ntdrain false { plain with order := 2, scope := 8 }] : List Instr), WaveIssues W wc i) ∧
    canAccess [.write] none 4 (partAddrs wc none 4 (W.addrs wc 8 0 true false none)) ∧
    (let ty := skTy 2
      let part := partAddrs wc none ty.bytes (W.addrs wc 2 0 false true none)
      canAccess [.write] none ty.bytes (skipLanes true ty (W.vData wc.w ty.regs 4 ty.fill) part)) ∧
    canAccess [.write] none 4 (partAddrs wc none 4 (W.elemAddrs wc 6 0 none)) ∧ Memory.wf W.mem = true ∧ wc.gang.pair = none :=
  ⟨all_issue (by decide +kernel), accesses_of rfl (by decide +kernel) (by decide +kernel) (by decide +kernel),
    accesses_of rfl (by decide +kernel) (by decide +kernel) (by decide +kernel), accesses_of rfl (by decide +kernel) (by decide +kernel) (by decide +kernel), W_mem, rfl⟩

/-- The same for STNT and NTDRAIN. -/
theorem witness_WaveNonTemporal : WaveIssues W wc (.stnt false 2 4 8 0 true false none) ∧
    canAccess [.write] none (ldTy 2).bytes (partAddrs wc none (ldTy 2).bytes (W.addrs wc 8 0 true false none)) ∧
    WaveIssues W wc (.ntdrain false { plain with order := 2, scope := 8 }) ∧ wc.gang.pair = none ∧ Memory.wf W.mem = true ∧
    (let w := { tWave with nt := [(0x11000, 5)] };
      WaveIssues (atWave w tCrew tGang) (wctxOf w tCrew tGang tSplit) (.ntdrain false { plain with order := 2, scope := 8 }) ∧ w.nt = [] ++ (0x11000, 5) :: []) :=
  ⟨witness_WaveStores.1 _ (by simp), witness_WaveStores.2.1, witness_WaveStores.1 _ (by simp), rfl, W_mem, issues_wave tWave_slot tWave_live (by decide +kernel), rfl⟩

theorem witness_WaveAtomics : (∀ i ∈ ([.atomAdd false 0 4 8 0 true false none, .atomAdd false 3 4 8 0 true false none, .atomMin false 0 4 8 0 true false none,
      .atomMax false 3 4 8 0 true false none, .atomAnd false false 4 8 0 true false none, .atomOr false true 4 8 0 true false none, .atomXor false false 4 8 0 true false none,
      .atomXchg false false 4 8 0 true false none, .cas false false 4 8 0 true false none, .cas false true 4 8 0 true false none] : List Instr), WaveIssues W wc i) ∧
    (∀ n ∈ [4, 8], canAccess [.read, .write] none n (partAddrs wc none n (W.addrs wc 8 0 true false none))) ∧
    (∀ n ∈ [4, 8], countPart (partAddrs wc none n (W.addrs wc 8 0 true false none)) = 32) ∧ ∀ n home, cleanLanes W n home := by
  refine ⟨all_issue (by decide +kernel), fun n hn => accesses_of rfl ?_ ?_ ?_, ?_, fun _ _ => clean_of rfl⟩
  · revert n; decide +kernel
  · revert n; decide +kernel
  · revert n; decide +kernel
  · decide +kernel

theorem witness_WaveScatterAdd : WaveIssues W wc (.confd false 12 6) ∧ WaveIssues W wc (.scadd false 4 6 0 none) ∧
    (let part := partAddrs wc none 4 (W.elemAddrs wc 6 0 none)
      let vals := W.v32 wc.w 4 FFmt.f32.absent
      let live : Vector (Option Nat) 32 := Vector.ofFn fun l => if vals[l] = FFmt.f32.absent then none else part[l]
      let groups := groupsOf wc.sp.lanes (W.v32 wc.w 6 0x8000_0000) vals part (W.laneAccs [.read, .write] live)
      Accesses W wc [.read, .write] none 4 groups.length live ∧ groups ≠ [] ∧ ∀ g ∈ groups, W.poisoned g.pa 4 = false) :=
  ⟨all_issue (is := [.confd false 12 6]) (by decide +kernel) _ (by simp), all_issue (is := [.scadd false 4 6 0 none]) (by decide +kernel) _ (by simp),
    accesses_of rfl (by decide +kernel) (by decide +kernel) (by decide +kernel), by decide +kernel, fun _ _ => rfl⟩

/-- Lanes off their alignment, and under .must lanes at an address that maps no page. -/
theorem witness_WaveAccessFaults : (∀ i ∈ ([.ld false 2 12 8 0 true false eOdd, .st false 2 4 8 0 true false eOdd, .atomAdd false 0 4 8 0 true false eOdd, .ld false 2 12 8 16 true false eMust,
      .gath false 12 6 16 eMust, .st false 2 4 8 16 true false eMust, .scat false 4 6 16 eMust, .stnt false 2 4 8 16 true false eMust, .atomMin false 0 4 8 16 true false eMust,
      .atomMax false 0 4 8 16 true false eMust, .atomAnd false false 4 8 16 true false eMust, .atomOr false false 4 8 16 true false eMust,
      .atomXor false false 4 8 16 true false eMust, .atomXchg false false 4 8 16 true false eMust, .cas false false 4 8 16 true false eMust] : List Instr), WaveIssues W wc i) ∧
    (laneSet fun l => ((partAddrs wc eOdd 4 (W.addrs wc 8 0 true false eOdd))[l].map fun v => v % 4 != 0).getD false) ≠ 0 ∧
    (let part := partAddrs wc eMust 4 (W.addrs wc 8 16 true false eMust);
      (laneSet fun l => (part[l].map fun v => v % 4 != 0).getD false) = 0 ∧ mustOf eMust = true ∧
        (laneSet fun l => (part[l].map fun _ => (W.homeOf [.read, .write] part l).isNone).getD false) ≠ 0) ∧
    (let part := partAddrs wc eMust 4 (W.elemAddrs wc 6 16 eMust);
      (laneSet fun l => (part[l].map fun v => v % 4 != 0).getD false) = 0 ∧
        (laneSet fun l => (part[l].map fun _ => (W.homeOf [.read] part l).isNone).getD false) ≠ 0) :=
  ⟨all_issue (by decide +kernel), by decide +kernel, by decide +kernel, by decide +kernel⟩

/-- One word that issues in the wave of the tests. -/
theorem one_issue {i : Instr} (h : readyWave tWave i = true) : WaveIssues W wc i := all_issue (is := [i]) (by simpa using h) i (by simp)

theorem W_not_exited : wc.w.exited ≠ BitVec.allOnes 32 := by decide +kernel

/-- WAITA whose lanes differ from the expected value, whose lanes are equal to it, and without a lane; BWAIT on an object in another phase;
WAKE. -/
theorem witness_WaveWaits :
    (WaveIssues W wc (.waita false false 4 8 0 true false eAcq) ∧ WaveIssues W wc (.waita false false 3 8 0 true false eAcq) ∧
      WaveIssues W wc (.waita false false 3 8 0 true false (some { plain with limit := 16, order := 1, scope := 8 })) ∧
      WaveIssues W wc (.bwait false 4 0 4 true true eAcq) ∧ WaveIssues W wc (.wake false 4 8 0 true false none)) ∧
    wc.gang.pair = none ∧
    (let part := partAddrs wc eAcq 4 (W.addrs wc 8 0 true false eAcq);
      let home := W.homeOf [.read] part
      (∀ (l : Lane) (v : Nat), part[l] = some v → (v % 4 == 0 && (W.translateAll v [.read]).pa.isSome) = true) ∧
        (home 0 = some 0x11000 ∧ W.rdNat 0x11000 4 ≠ (W.vReg wc.w false 4 (2 ^ 32 - 1))[0]) ∧
        ((List.finRange 32).all fun l => (home l).all fun pa => W.rdNat pa 4 == (W.vReg wc.w false 3 (2 ^ 32 - 1))[l]) = true) ∧
    (let e := some { plain with limit := 16, order := 1, scope := 8 };
      (List.finRange 32).all (fun l => (W.homeOf [.read] (partAddrs wc e 4 (W.addrs wc 8 0 true false e)) l).isNone) = true) ∧
    (let part := partAddrs wc eAcq 16 (W.addrs wc 0 4 true true eAcq);
      let home := W.homeOf [.read] part
      (∀ (l : Lane) (v : Nat), part[l] = some v → (v % 16 == 0 && (W.translateAll v [.read]).pa.isSome) = true) ∧
        (home 0 = some 0x11800 ∧ (List.finRange 32).all fun l => (home l).all fun pa =>
          W.rdNat (pa + 12) 4 == 0 && W.rdNat (pa + 8) 4 != 0 && W.rdNat pa 4 != (W.v32 wc.w 4 0xFFFF_FFFF)[l]) = true) ∧
    (∀ (l : Lane) (v : Nat), (partAddrs wc none 1 (W.addrs wc 8 0 true false none))[l] = some v → (W.translateAll v [.read]).pa.isSome = true) := by
  refine ⟨⟨one_issue ?_, one_issue ?_, one_issue ?_, one_issue ?_, one_issue ?_⟩, rfl, ⟨forall_part ?_, ?_, ?_⟩, ?_, ⟨forall_part ?_, ?_⟩, ?_⟩
  all_goals first | exact forall_part (P := fun v => (W.translateAll v [.read]).pa.isSome) (by decide +kernel) | decide +kernel

/-- Fences, a touch of resident pages and of one that is away, posts with and without a lead context. -/
theorem witness_WaveOrderingWords :
    (∀ i ∈ ([.fence false { plain with order := 2, scope := 4 }, .xfence false 0 2 { plain with order := 3, scope := 4 }, .touch false 8 0 true false none,
      .touch false 8 0 true false eMust, .post false 4] : List Instr), WaveIssues W wc i) ∧ wc.gang.pair = none ∧
    (∀ (l : Lane) (v : Nat), (partAddrs wc eMust 1 (W.addrs wc 8 0 true false eMust))[l] = some v →
      (decide (v < 2 ^ 57) && (pageAt W.pages v).isSome) = true) ∧
    (W.leadExited (crewOf wc.key) = false ∧ wc.crew.rq.length < 64 ∧ wc.crew.rqDue = []) ∧
    (let l := { tLead with exited := true };
      WaveIssues (world tWave l tCrew tGang (.split tKey 0)) wc (.post false 4) ∧ (world tWave l tCrew tGang (.split tKey 0)).leadExited (crewOf wc.key) = true) :=
  ⟨all_issue (by decide +kernel), rfl, forall_part (by decide +kernel), by decide +kernel,
    issues_wave tWave_slot tWave_live (by decide +kernel), by decide +kernel⟩

/-- The tile of h9, the Accord of h7, and a handle that names nothing. -/
theorem witness_WaveTileAccess :
    (∀ i ∈ ([.tld false 0 12 8 9 none, .tld false 2 12 8 9 none, .tst false 0 4 8 9 none, .tstSk false 0 4 8 9 none, .tld false 0 12 8 1 none,
      .tst false 0 4 8 7 none, .tstSk false 2 4 8 7 none, .tld false 0 12 8 7 none] : List Instr), WaveIssues W wc i) ∧
    (let tl := Tile.alloc 32 32 10 false false;
      tabGet wc.gang.handles 9 = some (.tile tl) ∧
      (∀ n ∈ [4, 16], let live := tilePart wc tl none n (W.tileOffs wc 8 none)
        (live.toList.all fun o => o.all fun off => off % n == 0 && (tl.unfilledAt n off).isNone) = true ∧ W.entriesOn wc.crew.place.core + countPart live ≤ 4096) ∧
      (let part := tilePart wc tl none 4 (W.tileOffs wc 8 none);
        let live := skipLanes true (tskTy 0) (W.vData wc.w (tskTy 0).regs 4 (tskTy 0).fill) part
        (live.toList.all fun o => o.all fun off => off % 4 == 0 && (tl.unfilledAt 4 off).isNone) = true ∧ W.entriesOn wc.crew.place.core + countPart live ≤ 4096)) ∧
    tabGet wc.gang.handles 1 = none ∧ tabGet wc.gang.handles 7 = some (.accord false []) :=
  ⟨all_issue (by decide +kernel), ⟨rfl, by decide +kernel, by decide +kernel⟩, rfl, rfl⟩

/-- A wave whose stack is full. -/
def tFull : Wave := { tWave with stack := List.replicate 64 (.join { pc := 0, lanes := 0, arrived := 0, parked := 0, link := none }) }

/-- What a branch makes of its lanes: those that it takes, lets fall through, parks, and those with an unknown condition. -/
def branchSets (c : WCtx) (k : Vector Trit 32) (p : BitVec 6) (u : BitVec 2) (want : Trit) : LaneSet × LaneSet × LaneSet × LaneSet :=
  let here (l : Lane) : Bool := c.sp.lanes.getLsbD l.val
  let every := p.toNat = 63
  (laneSet fun l => here l && (decide every || k[l] == want || (k[l] == .u && u == 1)),
    laneSet fun l => here l && !decide every && ((k[l] != want && k[l] != .u) || (k[l] == .u && u == 0)),
    laneSet fun l => here l && !decide every && k[l] == .u && u == 2, laneSet fun l => here l && !decide every && k[l] == .u && u == 3)

/-- One branch for each clause: unknown under .ux, all taken, none taken, divided without and with a join, parked beside lanes of one arm,
all parked, and divided over a full stack; and the branch that is always taken. -/
theorem witness_WaveBranches :
    (∀ i ∈ ([.br false 2 3 4 0, .br false 0 0 4 0, .br false 3 0 4 0, .br false 1 0 4 0, .br false 1 0 4 9, .br false 4 2 4 9, .br false 5 2 4 9, .br false 2 2 4 9,
      .br false 63 0 4 0, .brc false 2 3 4 0, .brc false 3 0 4 0, .brc false 0 0 4 0, .brc false 1 0 4 0, .brc false 1 0 4 9, .brc false 4 2 4 9, .brc false 2 2 4 9] : List Instr),
      WaveIssues W wc i) ∧ wc.w.exited ≠ BitVec.allOnes 32 ∧ wc.sp.lanes &&& wc.w.exited = 0 ∧ wc.sp.link = none ∧
    wc.w.depth + 1 + (if (wc.w.slot (other wc.slot)).isSome then 1 else 0) ≤ 64 ∧
    (let sets := fun p u => branchSets wc (W.kReg wc.w p) (BitVec.ofNat 6 p) u .t;
      (sets 2 3).2.2.2 ≠ 0 ∧ sets 0 0 = (BitVec.allOnes 32, 0, 0, 0) ∧ sets 3 0 = (0, BitVec.allOnes 32, 0, 0) ∧ sets 63 0 = (BitVec.allOnes 32, 0, 0, 0) ∧
        sets 1 0 = (0xFFFF, 0xFFFF_0000, 0, 0) ∧ sets 4 2 = (0, 0xFFFF_FFFE, 1, 0) ∧ sets 5 2 = (0xFFFF_FFFE, 0, 1, 0) ∧ sets 2 2 = (0, 0, BitVec.allOnes 32, 0)) ∧
    (WaveIssues (atWave tFull tCrew tGang) (wctxOf tFull tCrew tGang tSplit) (.br false 1 0 4 9) ∧ 64 < tFull.depth + 1) :=
  ⟨all_issue (by decide +kernel), W_not_exited, by decide +kernel, rfl, by decide +kernel, by decide +kernel,
    issues_wave (by decide +kernel) (by decide +kernel) (by decide +kernel), by decide +kernel⟩

/-- A queue with an entry, an empty one under a lead context that runs, and one under a lead context that has exited. -/
theorem witness_WaveQueueBranch : WaveIssues W wc (.brq false 0 4) ∧ WaveIssues W wc (.brq false 1 4) ∧ wc.w.exited ≠ BitVec.allOnes 32 ∧
    W.frontOf wc 0 = some (5, some 0) ∧ W.frontOf wc 1 = none ∧ wc.crew.dq[1].entries.length ≤ wc.w.popped[1] - wc.crew.dq[1].retired :=
  ⟨one_issue (by decide +kernel), one_issue (by decide +kernel), W_not_exited, by decide +kernel, by decide +kernel, by decide +kernel⟩

/-- A record of every lane whose lower half has yet to arrive, with a split of it in slot 1; one whose other lanes have arrived, without an
outer record; and one within a record at another address. -/
def tRec : JoinRec := { pc := 0x10018, lanes := BitVec.allOnes 32, arrived := 0, parked := 0, link := none }
def tHalf : Split := Split.ready 0x10004 0xFFFF_0000 (some 0)
def tJoin (st : List StackEntry) (i : Nat) : Wave :=
  { tWave with slot0 := some { tHalf with link := some i }, slot1 := some (Split.ready 0x10004 0xFFFF none), stack := st }

theorem witness_WaveJoins :
    (WaveIssues W wc (.join false) ∧ wc.sp.link = none ∧ wc.w.exited ≠ BitVec.allOnes 32) ∧
    (let w := tJoin [.join tRec] 0;
      WaveIssues (atWave w tCrew tGang) (wctxOf w tCrew tGang tHalf) (.join false) ∧ w.record? 0 = some tRec ∧ w.exited ≠ BitVec.allOnes 32 ∧
        tRec.lanes &&& ~~~w.exited &&& ~~~(tRec.arrived ||| tHalf.lanes ||| tRec.parked) ≠ 0 ∧ w.slot1 = some (Split.ready 0x10004 0xFFFF none)) ∧
    (let r := { tRec with arrived := 0xFFFF };
      let w := tJoin [.join r] 0
      WaveIssues (atWave w tCrew tGang) (wctxOf w tCrew tGang tHalf) (.join false) ∧ w.record? 0 = some r ∧
        r.lanes &&& ~~~w.exited &&& ~~~(r.arrived ||| tHalf.lanes ||| r.parked) = 0 ∧ r.lanes &&& ~~~w.exited ≠ 0 ∧ r.link = none) ∧
    (let q := { tRec with pc := 0x10008 };
      let r := { tRec with arrived := 0xFFFF, link := some 0 }
      let w := tJoin [.join q, .join r] 1
      WaveIssues (atWave w tCrew tGang) (wctxOf w tCrew tGang { tHalf with link := some 1 }) (.join false) ∧ w.record? 1 = some r ∧
        r.lanes &&& ~~~w.exited &&& ~~~(r.arrived ||| tHalf.lanes ||| r.parked) = 0 ∧
        (({ (w.setSlot 0 none) with stack := w.stack.set 1 (.join { r with arrived := BitVec.allOnes 32 }) } : Wave).clearEntry 1).record? 0 = some q ∧ q.pc ≠ r.pc) ∧
    (let p : Phase := { members := 1, lead := false, arrived := [(0, 0)], posted := [], popped := [] };
      let g := { tGang with phases := [(3, p)] }
      let b : BarWait := { id := 3, members := 1, lead := false, z := false }
      let sp := { tSplit with state := .barrier, wait := .bar b }
      let w := { tWave with slot0 := some sp }
      let s := atWave w tCrew g
      s.gang 0 = some g ∧ tabGet g.phases 3 = some p ∧ p.lead = false ∧ barMembers p.members = [0] ∧ s.barArrived 0 p 0 = true ∧ w.slot 0 = some sp ∧
        sp.state = .barrier ∧ sp.wait = .bar b ∧ b.id = 3) := by
  refine ⟨⟨one_issue (by decide +kernel), rfl, W_not_exited⟩, ⟨issues_wave (by decide +kernel) (by decide +kernel) (by decide +kernel), ?_⟩,
    ⟨issues_wave (by decide +kernel) (by decide +kernel) (by decide +kernel), ?_⟩, ⟨issues_wave (by decide +kernel) (by decide +kernel) (by decide +kernel), ?_⟩, ?_⟩
  all_goals decide +kernel

/-- A wave whose link pair and v14 and v15 hold the address of the clause header at 0x10008, v16 and v17 that of the landing pad, and v18
and v19 one of the two for each lane. -/
def tTargets : Wave :=
  let w := withV (withV tWave 126 fun _ => 0x10008) 127 fun _ => 0
  let w := withV (withV w 16 fun _ => 0x10010) 17 fun _ => 0
  withV (withV w 18 fun l => if l.val < 16 then 0x10010 else 0x10008) 19 fun _ => 0

theorem witness_WaveCalls :
    (let s := atWave tTargets tCrew tGang;
      let c := wctxOf tTargets tCrew tGang tSplit
      let hs := s.waveHeaders c.gang
      (∀ i ∈ ([.call false 4, .ret false, .jmpx false 16 5, .callx false 16 5, .jmpx false 4 5, .jmpx false 18 5] : List Instr), readyWave tTargets i = true) ∧
        s.wctx = some c ∧ c.w.exited ≠ BitVec.allOnes 32 ∧ s.lastInClause hs c.sp.pc.toNat = true ∧
        ((List.finRange 32).all fun l => (s.jumpReason hs none (s.v64 c.w 126 0)[l]).isNone && !s.padAway none (s.v64 c.w 126 0)[l]) = true ∧
        ((List.finRange 32).all fun l => (s.jumpReason hs (some 5) (s.v64 c.w 16 0)[l]).isNone && !s.padAway (some 5) (s.v64 c.w 16 0)[l]) = true ∧
        s.jumpReason hs (some 5) (s.v64 c.w 4 0)[0] = some 1 ∧ s.jumpReason hs (some 5) (s.v64 c.w 18 0)[31] = some 5 ∧ s.jumpReason hs (some 4) (s.v64 c.w 18 0)[0] = some 6 ∧
        ((c.scatter c.w (s.v64 c.w 16 0)).toOption.isSome ∧ c.sp.lanes ≠ 0)) ∧
    (let sp := { tSplit with pc := 0x1001C };
      let w := { tTargets with slot0 := some sp }
      WaveIssues (atWave w tCrew tGang) (wctxOf w tCrew tGang sp) (.call false 4) ∧
        (atWave w tCrew tGang).lastInClause ((atWave w tCrew tGang).waveHeaders tGang) sp.pc.toNat = false) := by
  refine ⟨⟨by decide +kernel, wctx_world (by decide +kernel) (by decide +kernel), ?_, ?_, ?_, ?_, ?_, ?_, ?_, ?_⟩,
    issues_wave (by decide +kernel) (by decide +kernel) (by decide +kernel), ?_⟩
  all_goals decide +kernel

/-- EXIT of a half beside a live split, and of all lanes of a wave; BAR with and without its barrier; LIVE with nothing and with a result
outstanding; SAVEPT in and out of a save, and at no save point. -/
theorem witness_WaveEndAndWait :
    (let w := { tWave with slot0 := some { tHalf with link := none }, slot1 := some (Split.ready 0x10004 0xFFFF none) };
      WaveIssues (atWave w tCrew tGang) (wctxOf w tCrew tGang { tHalf with link := none }) (.exit false) ∧
        WaveIssues (atWave w tCrew tGang) (wctxOf w tCrew tGang { tHalf with link := none }) (.bar false 3 8 true) ∧
        w.slot (other 0) = some (Split.ready 0x10004 0xFFFF none) ∧ w.exited ||| 0xFFFF_0000 ≠ BitVec.allOnes 32 ∧ 3 < tGang.barriers) ∧
    (WaveIssues W wc (.exit false) ∧ wc.gang.pair = none ∧ wc.w.exited ||| wc.sp.lanes = BitVec.allOnes 32 ∧ wc.w.slot (other wc.slot) = none ∧ wc.w.stack = [] ∧
      wc.w.outstanding = []) ∧
    (let g := { tGang with barriers := 3 };
      WaveIssues (atWave tWave tCrew g) (wctxOf tWave tCrew g tSplit) (.bar false 3 8 true) ∧ g.barriers ≤ 3) ∧
    (∀ i ∈ ([.live false 8, .savept false 7, .savept false 8, .yield false, .rdstat false 12, .wrstat false 4] : List Instr), WaveIssues W wc i) ∧
    (let w := { tWave with outstanding := [{ cat := .load, writes := [], entries := 0, needs := [], gives := [] }] };
      WaveIssues (atWave w tCrew tGang) (wctxOf w tCrew tGang tSplit) (.live false 8) ∧ w.outstanding ≠ [] ∧ tSplit.state ≠ .barrier) ∧
    (W.hasSavePoint wc.gang false 7 = true ∧ wc.gang.state ≠ .saving ∧ W.hasSavePoint wc.gang false 8 = false) ∧
    (let g := { tGang with state := .saving };
      WaveIssues (atWave tWave tCrew g) (wctxOf tWave tCrew g tSplit) (.savept false 7) ∧ (atWave tWave tCrew g).hasSavePoint g false 7 = true) := by
  refine ⟨⟨issues_wave ?_ ?_ ?_, issues_wave ?_ ?_ ?_, ?_⟩, ⟨one_issue ?_, rfl, ?_⟩, ⟨issues_wave tWave_slot tWave_live ?_, ?_⟩, all_issue ?_,
    ⟨issues_wave ?_ ?_ ?_, ?_⟩, ?_, ⟨issues_wave tWave_slot tWave_live ?_, ?_⟩⟩
  all_goals decide +kernel

/-- A fault of the tests. -/
def tFault : Raised := Raised.of .elementAccess 3

/-- Words that break a rule, that miss a register line, that read what the transform pipe has yet to write; tokens pending and faulted. -/
theorem witness_IssueChecks :
    (W.wctx = some wc ∧ leastFault (.cmp false false 6 0 4 5 false 0) = some 24 ∧ classOf (.cmp false false 6 0 4 5 false 0) < 8) ∧
    (let w := { tWave with cached := 0 };
      (atWave w tCrew tGang).wctx = some (wctxOf w tCrew tGang tSplit) ∧ (Instr.add false false 12 4 5 false 0).wf = true ∧
        (missing w (.add false false 12 4 5 false 0)).isSome = true) ∧
    (let w := { tWave with outstanding := [{ cat := .pipe, writes := [.v 4 (BitVec.allOnes 32) (Vector.replicate 32 0)], entries := 0, needs := [], gives := [] }] };
      (atWave w tCrew tGang).wctx = some (wctxOf w tCrew tGang tSplit) ∧ missing w (.add false false 12 4 5 false 0) = none ∧
        awaited w (.add false false 12 4 5 false 0) = some 4) ∧
    (L.lctx = some lc ∧ leastFault (.leadAdd false 5 1 2 0 false 3) = some 0 ∧ 8 ≤ classOf (.leadAdd false 5 1 2 0 false 3)) ∧
    (let l := { tLead with tokens := [(1, .pending 3)] };
      (atLead l tCrew tGang).lctx = some (lctxOf l tCrew tGang) ∧ (Instr.leadAdd false 5 1 2 0 false 0).wf = true ∧ l.pendingIn (xUses (.leadAdd false 5 1 2 0 false 0)) = some 1) ∧
    (let l := { tLead with tokens := [(1, .faulted 3 tFault), (2, .faulted 5 (illegal 0))] };
      let us := xUses (.leadAdd false 5 1 2 0 false 0)
      (atLead l tCrew tGang).lctx = some (lctxOf l tCrew tGang) ∧ l.pendingIn us = none ∧ (1, 3, tFault) ∈ l.faultedIn us ∧
        ∀ q ∈ l.faultedIn us, q ≠ (1, 3, tFault) → 3 < q.2.1) := by
  refine ⟨⟨wctx_world tWave_slot tWave_live, ?_, ?_⟩, ⟨wctx_world (by decide +kernel) (by decide +kernel), ?_, ?_⟩,
    ⟨wctx_world (by decide +kernel) (by decide +kernel), ?_, ?_⟩, ⟨lctx_world tLead_live, ?_, ?_⟩, ⟨lctx_world (by decide +kernel), ?_, ?_⟩,
    ⟨lctx_world (by decide +kernel), ?_, ?_, ?_⟩⟩
  all_goals decide +kernel

/-- Places where a clause begins, where one of a wrong class begins, and where none does; what REP may repeat and what it may not. -/
theorem witness_ClauseHeaders :
    (W.wctx = some wc ∧ wc.sp.link = none) ∧
    (let hs := W.waveHeaders wc.gang;
      W.fetchHeader false hs 0x10000 = .ok 0x61000000 ∧ W.fetchHeader false hs 0x10020 = .bad 0x81000000 ∧ W.fetchHeader false hs 0x10004 = .none 4) ∧
    (([0x10000, 0x10020, 0x10024, 0x10004] : List DWord).all fun pc => readyWave { tWave with slot0 := some { tSplit with pc } } (.rep 3 0 false)) = true ∧
    tWave.exited ≠ BitVec.allOnes 32 ∧
    (let hs := L.leadHeaders lc.gang;
      L.fetchHeader true hs 0x10100 = .ok 0x91000000 ∧ L.fetchHeader true hs 0x10110 = .bad 0x01000000 ∧ waitCats (hdrWait 0x91000000) = []) ∧
    (let r : RepCtl := { n := 4, stepD := false, stepA := false, stepB := false, stride := 1 };
      W.repTarget (W.waveHeaders wc.gang) (pastWord 0x10024 1).toNat r = .good ∧ W.repTarget (W.waveHeaders wc.gang) (pastWord 0x10004 1).toNat r = .bad ∧
        L.repTarget (L.leadHeaders lc.gang) (pastWord 0x10114 1).toNat r = .good ∧ L.repTarget (L.leadHeaders lc.gang) (pastWord 0x10104 1).toNat r = .bad) ∧
    readyLead { tLead with pc := 0x10114 } (.rep 3 0 false) = true ∧ LeadIssues L lc (.rep 3 0 false) := by
  refine ⟨⟨wctx_world tWave_slot tWave_live, rfl⟩, ?_, ?_, ?_, ?_, ?_, ?_, all_lead (is := [.rep 3 0 false]) (by decide +kernel) _ (by simp)⟩
  all_goals decide +kernel

/-- Code whose streams have a handler. -/
def tHandled : CodeObj := { tCode with wave := { tCode.wave with handler := some 0x10018 }, lead := { tCode.lead with handler := some 0x10108 } }
def tHandling : Handling := { pc := 0x10004, nextPc := 0x10008, lanes := BitVec.allOnes 32, rep := 0, reps := none, depth := 0, link := none }

theorem witness_WaveFaults :
    (WaveIssues W wc (.trap false 5) ∧ wc.gang.pair = none) ∧
    (let s := { W with codeObjs := [tHandled] };
      s.wave tKey = some tWave ∧ s.gang 0 = some tGang ∧ tWave.slot 0 = some tSplit ∧ s.codeOf tGang = some tHandled ∧ tHandled.wave.handler = some 0x10018 ∧
        tWave.handling = none ∧ Memory.wf s.mem = true ∧ s.translate .write (statusFrec tWave.status) = .ok 0x11C00) ∧
    (WaveIssues W wc (.rtf false true) ∧ wc.w.handling = none) ∧
    (let w := { tWave with handling := some { tHandling with lanes := 1 } };
      WaveIssues (atWave w tCrew tGang) (wctxOf w tCrew tGang tSplit) (.rtf false true) ∧ (1 : LaneSet) ≠ tSplit.lanes) ∧
    (let w := { tWave with handling := some tHandling, stack := [.join tRec] };
      WaveIssues (atWave w tCrew tGang) (wctxOf w tCrew tGang tSplit) (.rtf false true) ∧ .join tRec ∈ w.stack.drop tHandling.depth) ∧
    (let w := { tWave with handling := some tHandling };
      WaveIssues (atWave w tCrew tGang) (wctxOf w tCrew tGang tSplit) (.rtf false true) ∧ WaveIssues (atWave w tCrew tGang) (wctxOf w tCrew tGang tSplit) (.rtf false false) ∧
        tHandling.lanes = tSplit.lanes ∧ w.stack.drop tHandling.depth = [] ∧ w.exited ≠ BitVec.allOnes 32 ∧ tSplit.state = .ready) := by
  refine ⟨⟨one_issue ?_, rfl⟩, ⟨rfl, rfl, tWave_slot, ?_⟩, ⟨one_issue ?_, ?_⟩, ⟨issues_wave ?_ ?_ ?_, ?_⟩, ⟨issues_wave ?_ ?_ ?_, ?_⟩,
    ⟨issues_wave ?_ ?_ ?_, issues_wave ?_ ?_ ?_, ?_⟩⟩
  all_goals decide +kernel

/-! ### Hypotheses met: further clauses about words of a wave -/

/-- Every word of a list issues undisturbed around a wave, a crew and a gang. -/
theorem issue_all {w : Wave} {c : Crew} {g : Gang} {is : List Instr} (h : w.slot0 = some tSplit) (he : w.ended = false)
    (hr : is.all (readyWave w) = true) : ∀ i ∈ is, WaveIssues (atWave w c g) (wctxOf w c g tSplit) i :=
  fun i hi => issues_wave (l := tLead) h he (List.all_eq_true.mp hr i hi)

/-- An object that a plain write left unsound, an object whose phase is the expected one, and sound ones in another phase. -/
theorem witness_WaveWaits_objects :
    (∀ i ∈ ([.bwait false 4 0 0 true true eAcq, .bwait false 3 0 4 true true eAcq, .bwait false 4 0 4 true true eAcq, .wake false 10 8 0 true false none] : List Instr),
      WaveIssues W wc i) ∧ (∀ x, ¬W.lateAt .w x) ∧ (∀ n home, cleanLanes W n home) ∧
    (let view (b : BitVec 7) : State := W.waveView wc (partAddrs wc eAcq 16 (W.addrs wc 0 b true true eAcq));
      (view 0).late = [] ∧ (view 4).late = [] ∧
      W.rdNat 0x11000 16 / 2 ^ 64 % 2 ^ 32 = 0 ∧ W.rdNat 0x11800 16 / 2 ^ 96 % 2 ^ 32 = 0 ∧ W.rdNat 0x11800 16 / 2 ^ 64 % 2 ^ 32 ≠ 0 ∧
        W.rdNat 0x11800 16 % 2 ^ 32 = (W.v32 wc.w 3 0xFFFF_FFFF)[0] ∧ W.homeOf [.read] (partAddrs wc eAcq 16 (W.addrs wc 0 0 true true eAcq)) 0 = some 0x11000) ∧
    (let s : State := { W with waiters := [{ who := .split tKey 1, keys := [0x11000], watch := [(0x11000, 4)] }, { who := .lead tCrewKey, keys := [0x11000], watch := [(0x11000, 8)] }] };
      s.waiters.filter (fun w => w.keys.contains 0x11000) = s.waiters) :=
  ⟨all_issue (by decide +kernel), timely rfl .w, fun _ _ => clean_of rfl, by decide +kernel, rfl⟩

/-- A page that is away, asked for under a residency predicate; a lane without a page under .must; a full return queue. -/
theorem witness_WaveOrderingWords_waits :
    (let c := { tCrew with c := tCrew.c.set 6 0x30000 };
      (∀ i ∈ ([.touch false 8 6 true false eRes, .touch false 8 6 true false eMust] : List Instr), WaveIssues (atWave tWave c tGang) (wctxOf tWave c tGang tSplit) i) ∧
      (partAddrs (wctxOf tWave c tGang tSplit) eRes 1 ((atWave tWave c tGang).addrs (wctxOf tWave c tGang tSplit) 8 6 true false eRes))[0] = some 0x30000 ∧
      ((pageAt tPages 0x30000).any fun p => !p.resident) = true ∧ (eRes.any fun q => decide (q.res.toNat < 48)) = true) ∧
    (WaveIssues W wc (.touch false 8 16 true false eMust) ∧ mustOf eMust = true ∧
      (partAddrs wc eMust 1 (W.addrs wc 8 16 true false eMust))[0] = some 0 ∧ pageAt W.pages 0 = none) ∧
    (let c := { tCrew with rq := List.replicate 64 5 };
      WaveIssues (atWave tWave c tGang) (wctxOf tWave c tGang tSplit) (.post false 4) ∧ 64 ≤ c.rq.length ∧ (atWave tWave c tGang).leadExited (crewOf tKey) = false) :=
  ⟨⟨issue_all tWave_slot tWave_live (by decide +kernel), by decide +kernel, by decide +kernel, by decide +kernel⟩,
    ⟨one_issue (by decide +kernel), by decide +kernel, by decide +kernel, rfl⟩,
    ⟨issues_wave tWave_slot tWave_live (by decide +kernel), by decide +kernel, by decide +kernel⟩⟩

/-- No write late, with the tile read sound; and a tile that path W may still show the wave although its handle has gone. -/
theorem witness_WaveTileAccess_late :
    W.late = [] ∧ (∀ n < 32, (Tile.alloc 32 32 10 false false).poisoned (4 * n) 4 = false) ∧ W.staleHandle .w wc.actor 0 9 = false ∧
    ({ W with late := [{ path := .m, by_ := .op 3 tCrewKey, cluster := 0, former := .handle 0 9 (tabGet tGang.handles 9), seen := [.m], shown := [], known := [], rmw := false }] } :
      State).staleHandle .w wc.actor 0 9 = true := by
  refine ⟨rfl, ?_, ?_, ?_⟩
  all_goals decide +kernel

/-- A wave at barrier 3, alone in its membership; its phase under a lead flag before its entry is posted and once it is popped. -/
def tBar (lead : Bool) : BarWait := { id := 3, members := 1, lead, z := false }
def tBarred (lead : Bool) : Wave := { tWave with slot0 := some { tSplit with state := .barrier, wait := .bar (tBar lead) } }
def tPhase (lead : Bool) (arrived : List (Nat × Nat)) (posted popped : List Nat) : Phase := { members := 1, lead, arrived, posted, popped }
def tAtBar (lead : Bool) (phases : List (Nat × Phase)) : State := atWave (tBarred lead) tCrew { tGang with phases }

theorem witness_WaveJoins_barriers :
    (let p := tPhase true [(0, 0)] [] [];
      let s := tAtBar true [(3, p)];
      s.gang 0 = some { tGang with phases := [(3, p)] } ∧ s.crew tCrewKey = some tCrew ∧ barCrews p.members = [0] ∧ barMembers p.members = [0] ∧
        s.barArrived 0 p 0 = true ∧ s.leadExited tCrewKey = false) ∧
    (let p := tPhase true [(0, 0)] [0] [0];
      barCrews p.members = [0] ∧ (tAtBar true [(3, p)]).barArrived 0 p 0 = true) ∧
    (∀ w ∈ [tBarred true, tBarred false], w.atBarriers.isSome = true) ∧
    ((tBarred false).atBarriers = some [tBar false] ∧ (tAtBar false []).wave tKey = some (tBarred false) ∧ (tAtBar false []).gang 0 = some tGang ∧
      (tBar false).members.getLsbD 0 = true ∧ (barMembers (tBar false).members).all (fun m => decide (m / 32 < tGang.crews) && decide (m % 32 < tGang.waves)) = true ∧
      ((0, 0) ∉ (tPhase true [] [] []).arrived ∧ (tPhase true [] [] []).lead ≠ (tBar false).lead)) ∧
    (let w := { tBarred false with slot1 := some { Split.ready 0x10004 1 none with state := .barrier, wait := .bar { tBar false with id := 4 } } };
      (w.atBarriers.map List.length) = some 2) := by
  refine ⟨⟨rfl, rfl, ?_, ?_, ?_, ?_⟩, ?_, ?_, ⟨?_, rfl, rfl, ?_, ?_, ?_⟩, ?_⟩
  all_goals decide +kernel

/-- The same with a handler for the fault of an arrival that disagrees, and in a pair. -/
theorem witness_WaveJoins_mismatch :
    (let g := { tGang with phases := [(3, tPhase true [] [] [])] };
      let s : State := { tAtBar false g.phases with codeObjs := [tHandled] };
      s.gang tKey.gang = some g ∧ g.pair = none ∧ s.codeOf g = some tHandled ∧ tHandled.wave.handler = some 0x10018 ∧ (tBarred false).handling = none ∧
        ((tBarred false).slot (tBarred false).faultSlot).isSome = true) ∧
    (let g := { tGang with pair := some { peer := 1, leading := true, parties := [], buf := [], units := [] } };
      (atWave (tBarred false) tCrew g).gang 0 = some g ∧ g.pair ≠ none) := by
  refine ⟨⟨rfl, rfl, ?_, rfl, ?_, ?_⟩, ⟨rfl, by simp⟩⟩
  all_goals decide +kernel

/-- A wave whose v126 and v127 hold one of two headers for each lane, over a full stack; a landing pad on a page that is away; CALLX not
last in its clause. -/
def tTwo : Wave := { withV (withV tWave 126 fun l => if l.val < 16 then 0x10000 else 0x10008) 127 (fun _ => 0) with stack := tFull.stack }
def tFar : Wave := withV (withV tWave 16 fun _ => 0x30000) 17 fun _ => 0
def tFarCode : CodeObj := { tCode with wave := { tCode.wave with base := 0x10000, size := 0x30000, headers := tCode.wave.headers ++ [0x30000] } }

theorem witness_WaveCalls_stops :
    (WaveIssues (atWave tTwo tCrew tGang) (wctxOf tTwo tCrew tGang tSplit) (.ret false) ∧ 64 < tTwo.depth + (2 - 1 - 1) + 1 ∧
      ((List.finRange 32).all fun l => let t := ((atWave tTwo tCrew tGang).v64 tTwo 126 0)[l];
        ((atWave tTwo tCrew tGang).jumpReason ((atWave tTwo tCrew tGang).waveHeaders tGang) none t).isNone && !(atWave tTwo tCrew tGang).padAway none t) = true) ∧
    (let s : State := { atWave tFar tCrew tGang with codeObjs := [tFarCode] };
      readyWave tFar (.jmpx false 16 5) = true ∧ (s.v64 tFar 16 0)[0] = 0x30000 ∧ s.jumpReason (s.waveHeaders tGang) (some 5) 0x30000 = none ∧ s.padAway (some 5) 0x30000 = true) ∧
    (let sp := { tSplit with pc := 0x1001C };
      let w := { tTargets with slot0 := some sp }
      WaveIssues (atWave w tCrew tGang) (wctxOf w tCrew tGang sp) (.callx false 16 5) ∧
        (atWave w tCrew tGang).lastInClause ((atWave w tCrew tGang).waveHeaders tGang) sp.pc.toNat = false) := by
  refine ⟨⟨issues_wave (by decide +kernel) (by decide +kernel) (by decide +kernel), ?_, ?_⟩, ?_, issues_wave (by decide +kernel) (by decide +kernel) (by decide +kernel), ?_⟩
  all_goals decide +kernel

/-- A read of a poisoned word of the register cache. -/
theorem witness_IssueChecks_poison :
    let w := { tWave with bad := [(4, 0)] };
    (atWave w tCrew tGang).wctx = some (wctxOf w tCrew tGang tSplit) ∧ (Instr.add false false 12 4 5 false 0).wf = true ∧ missing w (.add false false 12 4 5 false 0) = none ∧
      awaited w (.add false false 12 4 5 false 0) = none ∧ (wctxOf w tCrew tGang tSplit).readsPoison (.add false false 12 4 5 false 0) = true := by
  refine ⟨wctx_world (by decide +kernel) (by decide +kernel), ?_, ?_, ?_, ?_⟩
  all_goals decide +kernel

/-- Headers: what they are read from; a split that reaches its record's address before and after the other lanes; lead contexts that go
on, that wait for a result, that stand at a header of a wave class and where no clause begins; a clause that ends in an open word, and
one whose last word is on a page that is away. -/
theorem witness_ClauseHeaders_clauses :
    (W.jumpReason (W.waveHeaders wc.gang) none 0x10004 = some 4 ∧ W.jumpReason (W.waveHeaders wc.gang) none 0x10000 = none ∧ W.codePoisoned 0x10000 = false ∧
      W.endsOpen 6 0x10004 1 = some false) ∧
    (let s : State := { W with mem := memWrites tMem 0x10004 (toBytes 4 1) }; s.endsOpen 4 0x10004 1 = some true) ∧ W.endsOpen 4 0x30000 1 = none ∧
    (let r := { tRec with pc := 0x10004 };
      let w := tJoin [.join r] 0;
      (atWave w tCrew tGang).wctx = some (wctxOf w tCrew tGang { tHalf with link := some 0 }) ∧ w.record? 0 = some r ∧ r.pc = tHalf.pc ∧
        r.lanes &&& ~~~w.exited &&& ~~~(r.arrived ||| tHalf.lanes ||| r.parked) ≠ 0) ∧
    (let r := { tRec with pc := 0x10004, arrived := 0xFFFF };
      let w := tJoin [.join r] 0;
      w.record? 0 = some r ∧ r.lanes &&& ~~~w.exited &&& ~~~(r.arrived ||| tHalf.lanes ||| r.parked) = 0 ∧ r.lanes &&& ~~~w.exited ≠ 0) ∧
    (let l := { tLead with outstanding := [{ cat := .leadMem, writes := [.x 5 9], gives := [.x 5 9], entries := 0, needs := [] }] };
      let s : State := { atLead l tCrew tGang with mem := memWrites tMem 0x10100 (toBytes 4 (0x91000000 + 2 ^ 12)) };
      (s.lctx.any fun c => c.l == l && c.gang == tGang) = true ∧ s.fetchHeader true (s.leadHeaders tGang) 0x10100 = .ok (0x91001000 : Word) ∧ .leadMem ∈ waitCats (hdrWait (0x91001000 : Word))) ∧
    L.fetchHeader true (L.leadHeaders lc.gang) 0x10104 = .none 4 ∧ W.fetchHeader false [0x30000] 0x30000 = .away ∧
    W.repTarget [0x30000] 0x30000 { n := 4, stepD := false, stepA := false, stepB := false, stride := 1 } = .away := by
  refine ⟨?_, ?_, ?_, ⟨wctx_world (by decide +kernel) (by decide +kernel), ?_⟩, ?_, ?_, ?_, ?_, ?_⟩
  all_goals decide +kernel

/-! ### Hypotheses met: words of a lead context -/

/-- One word that issues in the lead context of the tests. -/
theorem one_lead {i : Instr} (h : readyLead tLead i = true) : LeadIssues L lc i := all_lead (is := [i]) (by simpa using h) i (by simp)

theorem L_mem : Memory.wf L.mem = true := by decide +kernel

theorem witness_LeadFaults :
    (LeadIssues L lc (.leadTrap false 5) ∧ LeadIssues L lc (.leadRtf false true) ∧ lc.gang.pair = none ∧ lc.l.handling = none) ∧
    (let l := { tLead with handling := some { pc := 0x10104, nextPc := 0x10108, rep := 0, reps := none } };
      LeadIssues (atLead l tCrew tGang) (lctxOf l tCrew tGang) (.leadRtf false true) ∧ l.handling.isSome = true) ∧
    (let s := { L with codeObjs := [tHandled] };
      s.lead tCrewKey = some tLead ∧ s.gang 0 = some tGang ∧ s.codeOf tGang = some tHandled ∧ tHandled.lead.handler = some 0x10108 ∧ tLead.handling = none ∧
        Memory.wf s.mem = true ∧ s.translate .write (statusFrec tLead.status) = .ok 0x11D00) ∧
    (W.wave tKey = some tWave ∧ W.gang 0 = some tGang ∧ tWave.slot 0 = some tSplit ∧ W.launch tGang.seq = some tLaunch ∧ tLaunch.done = none ∧ tLaunch.failed = none ∧
      ((W.codeOf tGang).bind fun co => co.wave.handler) = none) ∧
    ({ tWave with handling := some tHandling } : Wave).handling ≠ none := by
  refine ⟨⟨one_lead ?_, one_lead ?_, rfl, rfl⟩, ⟨issues_lead ?_ ?_, rfl⟩, ⟨rfl, rfl, ?_⟩, ⟨rfl, rfl, tWave_slot, rfl, rfl, rfl, ?_⟩, ?_⟩
  all_goals decide +kernel

/-- Present and absent operands, each second source, and a division by zero. -/
theorem witness_LeadIntegers : ∀ i ∈ ([.leadAdd false 5 1 2 0 false 0, .leadAdd false 5 3 2 0 false 1, .leadAdd false 5 1 5 1 true 0, .leadAdd false 5 1 4 1 false 2,
    .leadAdd false 5 1 5 2 false 1, .leadAddImm false 5 1 0x80 0, .leadSub false 0 1 2 0 false 0, .leadSubImm false 5 1 1 1, .leadMul false 5 1 2 0 false 0, .leadMulImm false 5 1 3 2,
    .leadMin false 5 1 2 0 false 0, .leadMax false 5 1 2 0 false 1, .leadMulh false 5 1 2 0 false 0, .div false 5 1 4 0 false 0, .div false 5 1 2 0 false 1, .rem false 5 1 2 0 false 0,
    .leadAnd false 5 1 2 0 false, .leadAndImm false 5 1 255, .leadOr false 5 1 2 0 false, .leadOrImm false 5 1 1, .leadXor false 5 1 2 0 false, .leadXorImm false 5 1 1,
    .leadShl false 5 1 2 0 false, .leadShlImm false 5 1 63, .leadShr false 5 1 2 0 false, .leadShrImm false 5 1 1, .leadSar false 5 3 2 0 false, .leadSarImm false 5 3 1] : List Instr),
    LeadIssues L lc i := all_lead (by decide +kernel)

theorem witness_LeadCompareSelectMove : (∀ i ∈ ([.leadCmp false 0 15 1 2 0 false 0, .leadCmp false 5 3 3 2 0 false 1, .leadCmpImm false 2 3 1 7 2, .leadSel false 5 0 2 0 false 0,
    .leadSel false 5 1 2 0 false 0, .leadSel false 5 2 2 0 false 0, .leadSel false 5 2 2 0 false 2, .movi false 5 0x80 0, .movc false 63 1 false, .movc false 62 1 true,
    .leadRdstat false 5, .leadWrstat false 2] : List Instr), LeadIssues L lc i) ∧ lc.l.jReg 0 = .t ∧ lc.l.jReg 1 = .f ∧ lc.l.jReg 2 = .u :=
  ⟨all_lead (by decide +kernel), by decide +kernel⟩

/-- An address that is aligned, one that is not, one that maps no page, one whose page is away, one whose page forbids a store. -/
theorem witness_LeadMemory :
    (let l := { tLead with x := (tLead.x.set 4 0x30000).set 5 0x50000 };
      ((atLead l tCrew tGang).lctx = some (lctxOf l tCrew tGang) ∧ tGang.pair = none ∧ Memory.wf (atLead l tCrew tGang).mem = true) ∧
      (∀ i ∈ ([.ldx false 3 5 1 0, .stx false 3 2 1 0, .ldx false 2 5 1 1, .stx false 1 2 1 1, .ldx false 0 5 0 0, .stx false 0 2 5 0, .ldx false 0 5 4 0,
        .stx false 3 2 4 0] : List Instr), readyLead l i = true)) ∧
    (L.translate .read 0x11000 = .ok 0x11000 ∧ L.translate .write 0x11000 = .ok 0x11000 ∧ L.translate .read 0x11001 ≠ .bad ∧ L.translate .write 0x11001 ≠ .bad ∧
      L.translate .read 0 = .bad ∧ L.translate .write 0x50000 = .bad ∧ L.translate .read 0x30000 = .away 0x30000 ∧ L.translate .write 0x30000 = .away 0x30000) ∧
    L.poisoned 0x11000 8 = false :=
  ⟨⟨⟨lctx_world (by decide +kernel), rfl, L_mem⟩, by decide +kernel⟩, by decide +kernel, rfl⟩

theorem witness_LeadAtomics : (∀ i ∈ ([.atomxAdd false 0 5 1 2 8 3, .atomxMinI64 false 5 1 2 8 0, .atomxMinN64 false 5 1 2 1 0, .atomxMaxI64 false 5 1 2 10 0,
    .atomxMaxN64 false 5 1 2 8 0, .atomxAnd false 5 1 2 8 0, .atomxOr false 5 1 2 8 0, .atomxXor false 5 1 2 8 0, .atomxXchg false 5 1 2 8 0, .atomxCas false 5 1 2 8 0] : List Instr),
    LeadIssues L lc i) ∧ lc.gang.pair = none ∧ L.translateAll (L.xNat lc 1) [.read, .write] = .ok 0x11000 ∧ L.xNat lc 1 % 8 = 0 ∧ L.poisoned 0x11000 8 = false ∧
    Memory.wf L.mem = true :=
  ⟨all_lead (by decide +kernel), rfl, by decide +kernel, by decide +kernel, rfl, L_mem⟩

/-- A trap, a branch taken and one not; CALL last in its clause and not; RET to a header, and to none. -/
theorem witness_LeadBranches :
    (∀ i ∈ ([.leadBr false 2 3 4, .leadBr false 0 0 4, .leadBr false 1 0 4, .leadBr false 63 0 4, .leadBrc false 1 0 4, .leadBrc false 0 0 4, .leadBrc false 2 1 4,
      .leadCall false 0 0 4, .leadCall false 1 0 4, .leadCall false 2 3 4, .leadRet false] : List Instr), LeadIssues L lc i) ∧
    L.lastInClause (L.leadHeaders lc.gang) lc.l.pc.toNat = true ∧ (lc.l.jReg 0 = .t ∧ lc.l.jReg 1 = .f ∧ lc.l.jReg 2 = .u) ∧
    L.jumpReason (L.leadHeaders lc.gang) none (lc.l.x[63]).toNat ≠ none ∧ L.jumpReason (L.leadHeaders lc.gang) none 0x10108 = none ∧
    (let l := { tLead with pc := 0x1010C };
      LeadIssues (atLead l tCrew tGang) (lctxOf l tCrew tGang) (.leadCall false 0 0 4) ∧ (atLead l tCrew tGang).lastInClause ((atLead l tCrew tGang).leadHeaders tGang) 0x1010C = false) ∧
    (let l := { tLead with x := tLead.x.set 63 0x10108 };
      LeadIssues (atLead l tCrew tGang) (lctxOf l tCrew tGang) (.leadRet false)) := by
  refine ⟨all_lead ?_, ?_, ?_, ?_, ?_, ⟨issues_lead ?_ ?_, ?_⟩, issues_lead ?_ ?_⟩
  all_goals decide +kernel

/-- A crew with a full decision queue 1, and an entry and a barrier entry to be popped. -/
theorem witness_LeadQueues :
    (LeadIssues L lc (.dqpush false 0 2) ∧ LeadIssues L lc (.rqpop false 5) ∧ L.liveWaves lc.key ≠ [] ∧ lc.crew.dq[0].entries.length < 64 ∧ lc.crew.rq = []) ∧
    (let s := world { tWave with ended := true } tLead tCrew tGang (.lead tCrewKey);
      LeadIssues s lc (.dqpush false 0 2) ∧ s.liveWaves lc.key = []) ∧
    (let c := { tCrew with dq := tCrew.dq.set 1 { entries := List.replicate 64 (5, none), retired := 0 } };
      LeadIssues (atLead tLead c tGang) (lctxOf tLead c tGang) (.dqpush false 1 2) ∧ 64 ≤ c.dq[1].entries.length ∧ (atLead tLead c tGang).liveWaves tCrewKey ≠ []) ∧
    (let c := { tCrew with rq := [5, 0xFFFF_FFFF_FFFF_FF03] };
      LeadIssues (atLead tLead c tGang) (lctxOf tLead c tGang) (.rqpop false 5) ∧ c.rq = 5 :: [0xFFFF_FFFF_FFFF_FF03] ∧ (5 : DWord).toNat < 0xFFFF_FFFF_FFFF_FF00) ∧
    (let c := { tCrew with rq := [0xFFFF_FFFF_FFFF_FF03] };
      LeadIssues (atLead tLead c tGang) (lctxOf tLead c tGang) (.rqpop false 5) ∧ (0xFFFF_FFFF_FFFF_FF03 : DWord).toNat = 0xFFFF_FFFF_FFFF_FF00 + 3) := by
  refine ⟨⟨one_lead ?_, one_lead ?_, ?_⟩, ⟨issues_lead ?_ ?_, ?_⟩, ⟨issues_lead ?_ ?_, ?_⟩, ⟨issues_lead ?_ ?_, ?_⟩, issues_lead ?_ ?_, ?_⟩
  all_goals decide +kernel

/-- A work queue at 0x11F00 with rings of 16 entries at 0x12000, as bytes: sound, with a full level 0, with an entry on level 3, and with a
capacity that is too small. -/
def tQueue (cap held top : Nat) : List Byte := toBytes 256 (0x12000 + cap * 2 ^ 128 + held * 2 ^ (8 * 68) + top * 2 ^ (8 * 92))
def tLead7 : Lead := { tLead with x := (tLead.x.set 7 0x11F00).set 8 3 }

/-- The state with a work queue. -/
def tAtQueue (m : List Byte) : State := { atLead tLead7 tCrew tGang with mem := memWrites tMem 0x11F00 m }

theorem witness_WorkQueues :
    ([.qpush false 4 7 2 8, .qpush false 4 7 3 8, .qpush false 8 7 2 8, .qpop false 5 7 8] : List Instr).all (readyLead tLead7) = true ∧
    (∀ m, (tAtQueue m).lctx = some (lctxOf tLead7 tCrew tGang)) ∧ tGang.pair = none ∧ (tLead7.x[7] = 0x11F00 ∧ tLead7.x[3] = BitVec.allOnes 64) ∧
    isLocal 0x11F00 = true :=
  by
  refine ⟨by decide +kernel, fun m => ?_, rfl, by decide +kernel, by decide +kernel⟩
  simp [tAtQueue, atLead, world, State.lctx, State.lead, State.crew, State.gang, tabGet, tCrewKey, lctxOf, show tLead7.exited = false from by decide +kernel]

/-- The queues of the witness can be reached and hold what they are said to. -/
theorem witness_WorkQueues_memory :
    ([tQueue 4 0 0, tQueue 4 16 0, tQueue 4 0 1, tQueue 3 0 0].all fun m => Memory.wf (tAtQueue m).mem && !(tAtQueue m).poisoned 0x11F00 256) = true ∧
    ((tAtQueue []).translateAll 0x11F00 [.read, .write] = .ok 0x11F00 ∧ (tAtQueue []).translate .write 0x12000 = .ok 0x12000 ∧
      (tAtQueue []).translate .read 0x12180 = .ok 0x12180) ∧
    ((tAtQueue (tQueue 4 0 0)).rdNat 0x11F10 1 = 4 ∧ (tAtQueue (tQueue 4 0 0)).rdNat 0x11F44 4 = 0) ∧
    ((tAtQueue (tQueue 3 0 0)).rdNat 0x11F10 1 = 3 ∧ (tAtQueue (tQueue 4 16 0)).rdNat 0x11F44 4 = 16 ∧ (tAtQueue (tQueue 4 0 1)).rdNat 0x11F5C 4 = 1) := by
  refine ⟨?_, ?_, ?_, ?_⟩
  all_goals decide +kernel

theorem witness_LeadWaits :
    (∀ i ∈ ([.leadFence false 8 2, .leadXfence false 1 0 2, .leadWaita false 5 1 2 8 1, .leadWaita false 5 1 0 8 0, .leadWake false 5 1 2 8,
      .leadSavept false 7 0, .leadSavept false 8 0] : List Instr), LeadIssues L lc i) ∧ lc.gang.pair = none ∧
    (L.translate .read (L.xNat lc 1) = .ok 0x11000 ∧ L.xNat lc 1 % 8 = 0 ∧ L.poisoned 0x11000 8 = false) ∧
    (L.rdNat 0x11000 8 ≠ L.xNat lc 2 ∧ L.rdNat 0x11000 4 = L.xNat lc 0) ∧
    (L.hasSavePoint lc.gang true 7 = true ∧ L.hasSavePoint lc.gang true 8 = false ∧ lc.gang.state ≠ .saving) ∧
    (let g := { tGang with state := .saving };
      LeadIssues (atLead tLead tCrew g) (lctxOf tLead tCrew g) (.leadSavept false 7 0)) := by
  refine ⟨all_lead ?_, rfl, ?_, ?_, ?_, issues_lead ?_ ?_⟩
  all_goals decide +kernel

/-- Eight operations of unit 0, and sixteen copies, under way. -/
def tBusyOp (n : Nat) : Op :=
  { crew := tCrewKey, token := 60, issuePc := 0, units := 0, kind := if n < 8 then .unit 0 (.mzero 0 false) 0 [] [] [] else .pcopy 0 0 0 64 }
def tBusy : State := { L with ops := (List.range 24).map fun n => (n, tBusyOp n) }

/-- A copy record: 128 elements of format 8 from 0x12000 to 0x13000, device scope. -/
def tCopyRecord : BitVec 512 :=
  BitVec.ofNat 512 (0x12000 + 0x13000 * 2 ^ 64 + 128 * 2 ^ 274 + 2 ^ 290 + 2 ^ 306 + 2 ^ 322 + 8 * 2 ^ 489 + 8 * 2 ^ 494 + 8 * 2 ^ 502)

theorem witness_OperationsStart :
    (∀ i ∈ ([.mzero false 5 0 3 false, .mma false 5 1 2 0 3 7 false, .mmc false 5 1 0 3 4 0 false, .mmw false 5 1 0 3 9 false, .mdrain false 5 1 0 0 3,
      .mload false 5 1 0 3 false, .seek false 5 1 2 0 1 1 9, .proj false 5 1 2 0, .talloc false 5 1 2 9 10 false false, .tfree false 5 9, .tbind false 5 1 9, .tdry false 5 9,
      .tstat false 5 1 9, .abind false 5 1 7 false, .chase false 5 1 2 0 9, .pcopy false 5 1 2 8 64, .copy false 5 1 false 0, .launch false 5 1 8] : List Instr),
      LeadIssues L lc i) ∧ lc.gang.pair = none ∧ 3 < lc.crew.acc ∧
    (let c := { tCrew with acc := 2 };
      LeadIssues (atLead tLead c tGang) (lctxOf tLead c tGang) (.mzero false 5 0 3 false) ∧ c.acc ≤ 3) ∧
    (tBusy.lctx = some lc ∧ (tBusy.ops.filter fun e => e.2.crew == lc.key && e.2.kind.onUnit 0).length = 8 ∧
      (tBusy.ops.filter fun e => e.2.crew == lc.key && e.2.kind.isCopy).length = 16) ∧
    (let l := { tLead with x := tLead.x.set 1 0x20 };
      LeadIssues (atLead l tCrew tGang) (lctxOf l tCrew tGang) (.launch false 5 1 8) ∧ (atLead l tCrew tGang).translate .read 0x20 = .bad) ∧
    (L.translate .read 0x11020 ≠ .bad ∧ 0x11020 % 64 ≠ 0 ∧ ∀ i < 4, L.translate .read (0x11000 + 64 * i) = .ok (0x11000 + 64 * i)) := by
  refine ⟨all_lead ?_, rfl, ?_, ⟨issues_lead ?_ ?_, ?_⟩, ⟨lctx_world (w := tWave) tLead_live, ?_, ?_⟩, ⟨issues_lead ?_ ?_, ?_⟩, ?_⟩
  all_goals decide +kernel

/-- Records of COPY: one that breaks its form, and one that does not. -/
theorem witness_OperationsStart_copy :
    let r : Copy := tCopyRecord
    Copy.malformed (0 : BitVec 512) = true ∧ Copy.malformed r = false ∧ (Copy.src r).kind ≠ .tile ∧ (Copy.dst r).kind ≠ .tile ∧ Copy.bkind r = 0 ∧
      (Copy.src r).base % (Copy.src r).align = 0 ∧ (Copy.dst r).base % (Copy.dst r).align = 0 := by decide +kernel

/-- A barrier object in memory and one in a tile, sound and not; counts below, at and beyond what remains. -/
theorem witness_BarrierObjects :
    (∀ i ∈ ([.binit false 1 2 false 0 8, .barr false 5 1 2 false 0 8, .leadBwait false 5 1 2 false 0 8, .binit false 0 2 true 9 8, .barr false 5 0 2 true 9 8,
      .leadBwait false 5 0 0 true 9 8, .binit false 1 0 false 0 8] : List Instr), LeadIssues L lc i) ∧ Memory.wf L.mem = true ∧
    (L.translateAll (L.xNat lc 1) [.read, .write] = .ok 0x11000 ∧ L.xNat lc 1 % 16 = 0 ∧ L.poisoned 0x11000 16 = false) ∧
    (L.rdNat 0x11800 16 = 2 ^ 32 + 2 ^ 64 ∧ L.rdNat 0x11000 16 = 0) ∧
    (let t := Tile.alloc 32 32 10 false false;
      lc.gang.tile? 9 = some t ∧ 16 ≤ t.size ∧ (∀ i < 16, t.needsFill ((0 + i) / t.area) = false) ∧ ofBytes (memReads t.data 0 16) = 0) := by
  refine ⟨all_lead ?_, L_mem, ?_, ?_, ?_⟩
  all_goals decide +kernel

/-- A sequence at 0x12000 of 40 tokens of 64 bytes over three pages of 16 tokens at 0x13000, 0x13800 and 0x14000, the second of them held
`refs` times; one of length 16 at 0x12200; a page to be appended at 0x14800. Its free queue is at 0x11F00, with its ring at 0x16000 and
`held` entries; a spill table at 0x15800 lists its pages. -/
def tSeq (head tail length freeq spill : Nat) : Nat := head + tail * 2 ^ 64 + length * 2 ^ 128 + 1 * 2 ^ 336 + freeq * 2 ^ 384 + spill * 2 ^ 448
def tPage (next count refs : Nat) : Nat := next + refs * 2 ^ 128 + count * 2 ^ 160 + 2 ^ 176
structure SeqCase where
  length : Nat
  refs : Nat
  held : Nat
  spill : Nat
def tSeqMem (k : SeqCase) : List Host.Cell :=
  let m := memWrites (memWrites tMem 0x12000 (toBytes 64 (tSeq 0x13000 0x14000 k.length 0x11F00 k.spill))) 0x12200 (toBytes 64 (tSeq 0x15000 0x15000 16 0 0))
  let m := memWrites (memWrites m 0x13000 (toBytes 24 (tPage 0x13800 16 1))) 0x13800 (toBytes 24 (tPage 0x14000 16 k.refs))
  let m := memWrites (memWrites m 0x14000 (toBytes 24 (tPage 0 8 1))) 0x11F00 (toBytes 72 (0x16000 + 4 * 2 ^ 128 + k.held * 2 ^ (8 * 68)))
  memWrites m 0x15800 (toBytes 24 (0x13000 + 0x13800 * 2 ^ 64 + 0x14000 * 2 ^ 128))
def tSeqLead (n : DWord) : Lead := { tLead with x := ((tLead.x.set 1 0x12000).set 2 n).set 4 0x12200 }
def tSeqState (k : SeqCase) : State := { atLead (tSeqLead 20) tCrew tGang with mem := tSeqMem k }
def tMe : Actor := .lead tCrewKey

/-- The state as a word on the sequence finds it, and what path L shows its context. -/
def tSeqHeld (k : SeqCase) : State := ((tSeqState k).hear .l).meetSeq tMe ((tSeqState k).columnOf tCrewKey) 0x12000
def tSeqMet (k : SeqCase) : State := (tSeqHeld k).on .l tMe

/-- The sequence in use, one full, one whose second page is shared, and one with a full free queue. -/
def tSeqUse : SeqCase := { length := 40, refs := 1, held := 0, spill := 0 }
def tSeqFull : SeqCase := { tSeqUse with length := 48 }
def tSeqShared : SeqCase := { tSeqUse with refs := 2 }
def tSeqStuck : SeqCase := { tSeqUse with held := 16 }
def tSeqSpilt : SeqCase := { tSeqUse with spill := 0x15800 }

/-- What a walk gave, and whether it overflowed a queue, as checks. -/
def walked {α : Type} (r : SeqRes α) (p : α → Bool) : Bool :=
  match r with
  | .ok a => p a
  | .error _ => false
def overflowed {α : Type} (r : SeqRes α) (va : Nat) : Bool :=
  match r with
  | .error (.stop (.fault f)) => f == Raised.at .queueOverflow va
  | _ => false

theorem witness_SequenceMaps :
    ([.smapLook false 5 1 2, .smapAppend false 5 1 2, .smapShare false 5 1 4, .smapLen false 5 1 2, .smapEvict false 5 1 0] : List Instr).all (readyLead (tSeqLead 20)) = true ∧
    (tSeqState tSeqUse).lctx.any (fun c => c.l == tSeqLead 20 && c.gang == tGang) = true ∧ tGang.pair = none ∧
    ((tSeqLead 20).x[1] = 0x12000 ∧ (tSeqLead 20).x[4] = 0x12200) ∧
    ([tSeqUse, tSeqFull, tSeqShared, tSeqStuck, tSeqSpilt].all fun k => Memory.wf (tSeqState k).mem) = true := by
  refine ⟨?_, ?_, rfl, ?_, ?_⟩
  all_goals decide +kernel

/-- The walk, and what a lookup, an eviction and a length that grows to 44 need. -/
theorem witness_SequenceMaps_walk :
    walked ((tSeqMet tSeqUse).seqDesc [.read, .write] 0x12000) (fun q => q.length == 40 && q.nsplice == 0 && q.cap == 16 && q.spill == 0 &&
      walked ((tSeqMet tSeqUse).walkFrom q q.head 0 3) (fun ps => ps.length == 3) &&
      walked ((tSeqMet tSeqUse).seqPages q) (fun ps => ps.length == 3 && ps[1]?.any fun p => p.va == 0x13800) &&
      walked ((tSeqMet tSeqUse).seqLinked q) (fun ps => (ps.map SeqPage.va) == [0x13000, 0x13800, 0x14000] && ps.all fun p => pageRefs p.bits == 1) &&
      walked ((tSeqMet tSeqUse).seqLinked q) fun ps =>
        let fill := ps.filter fun p => decide (p.first < 44) && decide (p.first + q.cap > q.length)
        decide (44 ≤ ps.length * q.cap) && (fill.map SeqPage.pa) == [0x14000] && walked ((tSeqMet tSeqUse).mayWrite fill) fun _ => true) = true := by decide +kernel

theorem witness_SequenceMaps_append :
    walked ((tSeqMet tSeqFull).seqDesc [.read, .write] 0x12000) (fun q => q.length == 48 && q.pa == 0x12000 &&
      walked ((tSeqMet tSeqFull).seqLinked q) (fun ps => q.length == ps.length * q.cap && ps.getLast?.any fun t =>
        walked ((tSeqMet tSeqFull).seqPage 0x14800 48) (fun p => walked ((tSeqMet tSeqFull).mayWrite [p]) (fun _ => true) &&
          walked ((tSeqMet tSeqFull).mayWrite [t]) (fun _ => true) && p.pa == 0x14800 && t.pa == 0x14000 && pageRefs t.bits == 1))) = true := by decide +kernel

theorem witness_SequenceMaps_share :
    walked ((tSeqMet tSeqUse).seqDesc [.read, .write] 0x12200) (fun t => t.length == 16 && t.pa == 0x12200 &&
      walked ((tSeqMet tSeqUse).seqDesc [.read, .write] 0x12000) (fun q => decide (t.length ≤ q.length) &&
        walked ((tSeqMet tSeqUse).seqPages q) (fun ps => let keep := ps.filter fun p => decide (p.first < 16)
          (keep.map SeqPage.pa) == [0x13000] && walked ((tSeqMet tSeqUse).mayWrite keep) fun _ => true))) = true := by
  decide +kernel

/-- A length of 20: the second page, of one sequence alone, is kept and the third goes; a shared second page goes as well, and with a length of
0 all three go; a free queue without room. -/
theorem witness_SequenceMaps_cut :
    ([(tSeqUse, 16), (tSeqShared, 0)].all fun (k, kept) =>
      walked ((tSeqMet k).seqDesc [.read, .write] 0x12000) fun q => q.freeq == 0x11F00 && walked ((tSeqMet k).seqLinked q) fun ps =>
        (ps[(20 - 1) / q.cap]?.any fun p => p.first == 16 && decide (20 < p.first + q.cap) && (pageRefs p.bits == 1) == (kept == 16) &&
          walked ((tSeqMet k).mayWrite [p]) fun _ => true) &&
        (let gone := ps.filter fun x => if kept = 16 then decide (16 < x.first) else decide (16 ≤ x.first)
          let freed := (gone.filter fun g => pageRefs g.bits == 1).map SeqPage.va
          walked ((tSeqHeld k).mayWrite gone) (fun _ => true) && freed == [0x14000] && walked ((tSeqHeld k).freePages tMe 0x11F00 freed) fun _ => true)) = true ∧
    (walked ((tSeqMet tSeqUse).seqDesc [.read, .write] 0x12000) fun q => walked ((tSeqMet tSeqUse).seqLinked q) fun ps =>
      walked ((tSeqHeld tSeqUse).mayWrite ps) (fun _ => true) && walked ((tSeqHeld tSeqUse).freePages tMe 0x11F00 (ps.map SeqPage.va)) fun _ => true) = true ∧
    overflowed ((tSeqHeld tSeqStuck).freePages tMe 0x11F00 [0x14000]) 0x11F00 = true := by
  refine ⟨?_, ?_, ?_⟩
  all_goals decide +kernel

/-- The queue that takes freed pages, its slots apart from it; a spill table that is read and one that is written. -/
theorem witness_SequenceMaps_queue :
    (match (tSeqState tSeqUse).workQueue tMe 0x11F00 with
      | .ok (pa, q) => pa == 0x11F00 && wqHeld q 0 == 0 && wqCap q == 4 && match (tSeqState tSeqUse).wqSlot q 0 (wqPush q 0) .write with
        | .ok slot => slot == 0x16000
        | .error _ => false
      | .error _ => false) = true ∧
    walked ((tSeqState tSeqSpilt).seqDesc [.read] 0x12000) (fun q => q.spill == 0x15800 && (tSeqState tSeqSpilt).resident q.va == none && decide (q.pages ≤ 16384) &&
      walked ((tSeqState tSeqSpilt).seqPages q) fun ps => (ps.map SeqPage.va) == [0x13000, 0x13800, 0x14000]) = true ∧
    ((tSeqState tSeqSpilt).translate .read 0x12000 = .ok 0x12000 ∧ ((tSeqState tSeqSpilt).on .l tMe).rdNat (0x12000 + 56) 8 = 0x15800 ∧
      ∀ i < 3, (tSeqState tSeqSpilt).translate .write (0x15800 + 8 * i) = .ok (0x15800 + 8 * i)) := by
  refine ⟨?_, ?_, ?_⟩
  all_goals decide +kernel

/-- A sequence that is resident, and a map that must give one up for another. -/
theorem witness_SequenceMaps_resident : (tSeqState tSeqUse).resident 0x12000 = none ∧
    ((tSeqState tSeqUse).makeResident tMe 0 0x12000 [0x13000, 0x13800, 0x14000]).resident 0x12000 = some [0x13000, 0x13800, 0x14000] ∧
    (let s : State := { L with seqMaps := [(0, [(1, List.replicate 60000 0)])] };
      let old := (tabGet (s.unmapSeq 0x12000).seqMaps 0).getD [];
      old = [] ++ [(1, List.replicate 60000 0)] ∧ 65536 < (old.map fun e => e.2.length).sum + (List.replicate 6000 0).length) := by
  refine ⟨by decide +kernel, by decide +kernel, ?_⟩
  have h : (List.replicate 60000 0).length = 60000 := List.length_replicate
  generalize List.replicate 60000 0 = vas at h ⊢
  have h6 : (List.replicate 6000 0).length = 6000 := List.length_replicate
  generalize List.replicate 6000 0 = more at h6 ⊢
  simp [State.unmapSeq, tabGet, tabDel, h, h6]

/-- Lead contexts that wait for tokens, that hold a faulted one, and that hold none; regions that may be marked and may not. -/
def tMarkLead : Lead := { tLead with x := ((tLead.x.set 4 128).set 5 0x50040).set 7 (2 ^ 40) }

theorem witness_CheckpointsAndExit :
    (∀ i ∈ ([.mark false 5 1 4, .mark false 5 1 0, .mark false 5 5 4, .mark false 5 0 4, .mark false 5 1 7] : List Instr),
      LeadIssues (atLead tMarkLead tCrew tGang) (lctxOf tMarkLead tCrew tGang) i) ∧ tGang.ckpt = none ∧ tGang.pair = none ∧
    (L.localRange (L.pages.length + 1) 0x11000 128 = true ∧ L.localRange (L.pages.length + 1) 0x50040 128 = true ∧ L.localRange (L.pages.length + 1) 0 128 = false) ∧
    (∀ i ∈ ([.snap false, .rollbk false, .commit false, .leadExit false] : List Instr), LeadIssues L lc i) ∧
    (L.leads.filter fun e => e.1.gang == lc.key.gang && !e.2.exited) = [(lc.key, lc.l)] ∧ (∀ r ∈ lc.gang.regions, L.residentRange r.2.1 r.2.2 = true) ∧ lc.l.tokens = [] ∧
    (let s := { L with leads := [(tCrewKey, tLead), ({ gang := 0, crew := 1 }, tLead)] };
      s.lctx = some lc ∧ ∀ e ∈ s.leads, e.1 ≠ lc.key → e.2.exited = false ∧ e.2.wait = .none) ∧
    (let g := { tGang with ckpt := some [(0x11000, toBytes 128 9)] };
      LeadIssues (atLead tLead tCrew g) (lctxOf tLead tCrew g) (.rollbk false)) := by
  refine ⟨fun i hi => issues_lead (by decide +kernel) ?_, rfl, rfl, ?_, all_lead ?_, ?_, ?_, ?_, ⟨rfl, ?_⟩, issues_lead ?_ ?_⟩
  · exact List.all_eq_true.mp (show ([.mark false 5 1 4, .mark false 5 1 0, .mark false 5 5 4, .mark false 5 0 4, .mark false 5 1 7] : List Instr).all (readyLead tMarkLead) = true
      by decide +kernel) i hi
  all_goals decide +kernel

theorem witness_CheckpointsAndExit_tokens :
    (let l := { tLead with tokens := [(1, .pending 3)] };
      LeadIssues (atLead l tCrew tGang) (lctxOf l tCrew tGang) (.leadExit false) ∧ l.pendingIn (tabKeys l.tokens) = some 1) ∧
    (let l := { tLead with tokens := [(1, .faulted 3 tFault), (2, .faulted 5 (illegal 0))] };
      LeadIssues (atLead l tCrew tGang) (lctxOf l tCrew tGang) (.leadExit false) ∧ l.pendingIn (tabKeys l.tokens) = none ∧
        (1, 3, tFault) ∈ l.faultedIn (tabKeys l.tokens) ∧ (∀ q ∈ l.faultedIn (tabKeys l.tokens), q ≠ (1, 3, tFault) → 3 < q.2.1) ∧
        (atLead l tCrew tGang).launch tGang.seq = some tLaunch ∧ tLaunch.done = none ∧ tLaunch.failed = none) := by
  refine ⟨⟨issues_lead ?_ ?_, ?_⟩, ⟨issues_lead ?_ ?_, ?_, ?_, ?_, rfl, rfl, rfl⟩⟩
  all_goals decide +kernel

/-! ### Hypotheses met: further clauses about words of a lead context -/

/-- A lead context without a handler and within one; its launch has not ended. -/
theorem witness_LeadFaults_end :
    (L.lead tCrewKey = some tLead ∧ L.gang 0 = some tGang ∧ L.launch tGang.seq = some tLaunch ∧ ((L.codeOf tGang).bind fun co => co.lead.handler) = none ∧
      tGang.state.stopping = false ∧ distinctKeys L.launches) ∧
    ({ tLead with handling := some { pc := 0x10104, nextPc := 0x10108, rep := 0, reps := none } } : Lead).handling ≠ none :=
  ⟨⟨rfl, rfl, rfl, by decide +kernel, by decide +kernel, by simp [distinctKeys, tabKeys, L, atLead, world]⟩, by simp⟩

/-- A poisoned line, and no write late on path L. -/
theorem witness_LeadMemory_poison : ({ L with poison := [0x11000 / 64] } : State).poisoned 0x11000 8 = true ∧ ∀ x, ¬L.lateAt .l x :=
  ⟨by decide +kernel, timely rfl .l⟩

/-- Records of COPY with a tile at one side: under a handle that names nothing, and under that of an Accord. -/
theorem witness_OperationsStart_sides :
    (∀ i ∈ ([.copy false 5 1 false 0, .pcopy false 5 1 2 8 64] : List Instr), LeadIssues L lc i) ∧
    (∀ h ∈ [1, 7], let r : Copy := tCopyRecord ^^^ BitVec.ofNat 512 (0x12000 + h * 2 ^ 56 + 2 ^ 483);
      Copy.malformed r = false ∧ (Copy.src r).kind = .tile ∧ (Copy.src r).handle = h) ∧
    (∀ h ∈ [1, 7], let r : Copy := tCopyRecord ^^^ BitVec.ofNat 512 (0x13000 * 2 ^ 64 + h * 2 ^ 120 + 2 ^ 485);
      Copy.malformed r = false ∧ (Copy.src r).kind ≠ .tile ∧ (Copy.dst r).kind = .tile ∧ (Copy.dst r).handle = h) ∧
    tabGet tGang.handles 1 = none ∧ tabGet tGang.handles 7 = some (.accord false []) := by
  refine ⟨all_lead ?_, ?_, ?_, rfl, rfl⟩
  all_goals decide +kernel

/-- A lead context whose x1 names the barrier object at 0x11800, which expects nine arrivals with three to come: counts below, at and beyond
what remains, over several phases; BWAIT in its phase and in another. -/
def tObjLead (n : DWord) : Lead := { tLead with x := (tLead.x.set 1 0x11800).set 2 n }
def tObjState (n : DWord) : State := { atLead (tObjLead n) tCrew tGang with mem := memWrites tMem 0x11800 (toBytes 16 (5 + 3 * 2 ^ 32 + 9 * 2 ^ 64)) }

theorem witness_BarrierObjects_counts :
    ([1, 3, 5, 30].all fun n => ([.binit false 1 2 false 0 8, .barr false 5 1 2 false 0 8, .leadBwait false 5 1 2 false 0 8] : List Instr).all (readyLead (tObjLead n)) &&
      (tObjState n).lctx.any fun c => c.l.x[1] == 0x11800) = true ∧
    ((tObjState 1).translateAll 0x11800 [.read, .write] = .ok 0x11800 ∧ (0x11800 : Nat) % 16 = 0 ∧ (tObjState 1).poisoned 0x11800 16 = false ∧
      Memory.wf (tObjState 1).mem = true) ∧
    (let o := (tObjState 1).rdNat 0x11800 16;
      o / 2 ^ 32 % 2 ^ 32 = 3 ∧ o / 2 ^ 64 % 2 ^ 32 = 9 ∧ o / 2 ^ 96 % 2 ^ 32 = 0 ∧ o % 2 ^ 32 = 5 ∧ (30 - 3) / 9 = 3) ∧
    ((tObjState 5).rdNat 0x11800 16 % 2 ^ 32 = 5 ∧ L.late = []) := by
  refine ⟨?_, ?_, ?_, ?_, rfl⟩
  all_goals decide +kernel

/-- A second lead context of the gang that has issued the same collective word, another one, and none; regions resident, with room for the
log; a handler for what goes wrong; no open checkpoint, and one with a logged line. -/
def tOtherKey : CrewKey := { gang := 0, crew := 1 }
def tBoth (w : LeadWait) (ckpt : Option (List (Nat × List Byte))) (code : CodeObj) : State :=
  let g := { tGang with ckpt, regions := [(3, (0x11000, 128))] }
  { atLead tLead tCrew g with leads := [(tCrewKey, tLead), (tOtherKey, { tLead with wait := w })], codeObjs := [code] }

theorem witness_CheckpointsAndExit_gang :
    (∀ w ∈ [LeadWait.collective .snap false, .collective .rollbk true, .collective .commit false, .none], ∀ code ∈ [tCode, tHandled],
      (tBoth w none code).lctx.any (fun c => c.l == tLead && c.gang.pair.isNone) = true ∧ (tBoth w none code).lead tOtherKey = some { tLead with wait := w } ∧
        tLead.exited = false) ∧
    distinctKeys (tBoth .none none tCode).leads ∧ ([.snap false, .rollbk false, .commit false] : List Instr).all (readyLead tLead) = true ∧
    ((tBoth (.collective .snap false) none tCode).residentRange 0x11000 128 = true ∧ 128 ≤ (tBoth (.collective .snap false) none tCode).logRoom 0 ∧
      (tBoth (.collective .snap false) none tCode).residentRange 0x30000 128 = false) ∧
    ((tBoth .none none tHandled).codeOf tGang = some tHandled ∧ tHandled.lead.handler = some 0x10108 ∧ tLead.handling = none ∧
      ((tBoth .none none tCode).codeOf tGang).bind (fun co => co.lead.handler) = none ∧ (tBoth .none none tCode).launch tGang.seq = some tLaunch) ∧
    (((tBoth (.collective .rollbk false) (some [(0x11000, toBytes 128 9)]) tCode).gang 0).any fun g => g.ckpt == some [(0x11000, toBytes 128 9)]) = true ∧
    Memory.wf (tBoth (.collective .rollbk false) (some [(0x11000, toBytes 128 9)]) tCode).mem = true := by
  refine ⟨?_, ?_, ?_, ?_, ?_, ?_, ?_⟩
  · decide +kernel
  · simp [distinctKeys, tabKeys, tBoth, tOtherKey, tCrewKey]
  all_goals decide +kernel

/-! ### Hypotheses met: steps of the device -/

/-- A wave with results outstanding: a load with an entry of the collector, a load without one, the transform pipe. -/
def tOut : Wave :=
  { tWave with
    cached := (1 : BitVec 128) <<< 8, dirty := (1 : BitVec 128) <<< 8, parked := true,
    outstanding := [{ cat := .load, writes := [.v 4 (BitVec.allOnes 32) (Vector.replicate 32 9)], entries := 1, needs := [], gives := [] },
      { cat := .load, writes := [.k 4 1 (Vector.replicate 32 .t)], entries := 0, needs := [], gives := [] },
      { cat := .pipe, writes := [.v 5 (BitVec.allOnes 32) (Vector.replicate 32 9)], entries := 0, needs := [], gives := [] }] }

/-- A split of the tests at a stop, its wave, and a lead context at one. -/
def tStop (w : SplitWait) : Wave := { tWave with slot0 := some { tSplit with wait := w } }
def tLeadStop (w : LeadWait) : Lead := { tLead with wait := w }

theorem witness_StallsEnd :
    (let s := atWave tOut tCrew tGang;
      s.wave tKey = some tOut ∧ tOut.outstanding.length = 3 ∧ (tOut.outstanding.map Pending.entries) = [1, 0, 0] ∧ tOut.outstanding.map Pending.cat = [.load, .load, .pipe] ∧
        (∀ p ∈ tOut.outstanding, p.needs = []) ∧ tOut.exited ≠ BitVec.allOnes 32) ∧
    (let p : Pending := { cat := .leadMem, writes := [.x 5 9], entries := 0, needs := [], gives := [] };
      (atLead { tLead with outstanding := [p] } tCrew tGang).lead tCrewKey = some { tLead with outstanding := [p] }) ∧
    (let s := atWave tOut tCrew tGang;
      tOut.cached.getLsbD 4 = false ∧ s.gangLive 0 = true ∧ (s.bankOf tKey 4).length < 256 ∧ (tKey, 8) ∈ s.bankOf tKey 4 ∧ (∀ l ∈ s.bankOf tKey 4, s.lineDead l = false) ∧
        s.crew tCrewKey = some tCrew ∧ tOut.dirty.getLsbD 8 = true ∧ tOut.dead.getLsbD 8 = false) := by
  refine ⟨⟨rfl, rfl, ?_, ?_, ?_, ?_⟩, rfl, ?_⟩
  all_goals decide +kernel

/-- Stalls that end: room in the collector, an entry to pop, room in the return queue, room in a decision queue, an entry returned. -/
theorem witness_StallsEnd_words :
    (∀ w, (world (tStop w) tLead tCrew tGang .none).wave tKey = some (tStop w) ∧ (tStop w).slot 0 = some { tSplit with wait := w }) ∧
    (∀ l, (world tWave (tLeadStop l) tCrew tGang .none).lead tCrewKey = some (tLeadStop l)) ∧
    (W.entriesOn tCrew.place.core < 4096 ∧ tWave.popped[0] < tCrew.dq[0].retired + tCrew.dq[0].entries.length ∧ tCrew.rq.length < 64 ∧ tCrew.rqDue = [] ∧
      tCrew.dq[0].entries.length < 64) := by
  refine ⟨fun w => ⟨rfl, rfl⟩, fun l => rfl, ?_⟩
  decide +kernel

/-- A wait on an address: of a split over one lane, of a lead context; early, and after 2^20 cycles. -/
def tWait : AddrWait := { lanes := [(0, 0x11000)], wide := false, d := 4, since := 0, words := 1, z := false, scope := 8, fwd := false }
def tWaits : State := world (tStop (.waita tWait)) (tLeadStop (.waita 0x11000 true 5 0 0 8 false false)) tCrew tGang .none

theorem witness_PagesComeAndGo_waits :
    (tWaits.wave tKey = some (tStop (.waita tWait)) ∧ tWaits.lead tCrewKey = some (tLeadStop (.waita 0x11000 true 5 0 0 8 false false)) ∧ tWaits.gang 0 = some tGang ∧
      tGang.pair = none) ∧ (∀ l ∈ tWait.lanes, tWaits.poisoned l.2 8 = false) ∧ (∀ x ∈ tWaits.waiters, x.who ≠ .split tKey 0) ∧
    tWaits.ticksOf (tWaits.clusterOf tCrewKey) - tWait.since < 2 ^ 20 * 1000 ∧
    (let s : State := { tWaits with mtime := 2 ^ 20, regs := { tWaits.regs with clock := Vector.replicate 32 1500 } };
      2 ^ 20 * 1000 ≤ s.ticksOf (s.clusterOf tCrewKey) - tWait.since) := by
  refine ⟨⟨rfl, rfl, rfl, rfl⟩, ?_, ?_, ?_, ?_⟩
  all_goals decide +kernel

/-- A page that is away comes; one goes that nothing holds, and one that a checkpoint pins. -/
theorem witness_PagesComeAndGo :
    ((pageAt W.pages 0x30000).isSome = true ∧ (∀ e ∈ W.leads, e.2.atCollective = none) ∧ (∀ g ∈ W.gangKeys, W.allExited g = false)) ∧
    (∀ e ∈ W.gangs, e.2.pair = none ∧ e.2.ckpt = none) ∧
    (let g := { tGang with ckpt := some [], regions := [(3, (0x31000, 128))] };
      ∃ e ∈ (atWave tWave tCrew g).gangs, e.2.ckpt ≠ none ∧ ∃ r ∈ e.2.regions, r.2.1 < 0x30000 + 0x10000 ∧ 0x30000 < r.2.1 + r.2.2) := by
  refine ⟨?_, ?_, ⟨_, List.mem_singleton_self _, ?_⟩⟩
  all_goals decide +kernel

/-- A tile of 32 by 32 .b32 elements that is bound to 0x12000, unfilled, filled, and dirty. -/
def tBound : Tile := { Tile.alloc 32 32 10 false false with bound := some 0x12000 }
def tBoundIs (filled dirty : Bool) : Tile := tBound.setSub 0 { zero := none, absent := none, filled, dirty }
def tHolds (t : Tile) : Gang := { tGang with handles := [(9, .tile t)] }

/-- What a partial result gives, as a check. -/
def gives {ε α : Type} (r : Except ε α) (p : α → Bool) : Bool :=
  match r with
  | .ok a => p a
  | .error _ => false

theorem witness_UnitsWork_tiles :
    (∀ t, (atWave tWave tCrew (tHolds t)).gang 0 = some (tHolds t) ∧ (tHolds t).pair = none ∧ (tHolds t).state = .running ∧ (tHolds t).ckpt = none) ∧
    ([tBoundIs false false, tBoundIs true false, tBoundIs true true].all fun t => ((tHolds t).tile? 9 == some t) && t.bound == some 0x12000 && decide (0 < t.subCount)) = true ∧
    gives (W.fillSub (tBoundIs false false) 0x12000 0) (fun u => !W.poisonedVirt 0x12000 (u.used 0)) = true ∧
    gives (W.dryWrites (tBoundIs true true) 0x12000 0) (fun ws => !ws.isEmpty) = true := by
  refine ⟨fun t => ⟨rfl, rfl, rfl, rfl⟩, ?_, ?_, ?_⟩
  all_goals decide +kernel

/-- Operations of the crew of the tests. -/
def tOp (kind : OpKind) : Op := { crew := tCrewKey, token := 5, issuePc := 0x10104, kind, units := 0 }
def tOps (kinds : List (Nat × OpKind)) : State :=
  { world tWave { tLead with tokens := [(5, .pending 3)] } tCrew tGang .none with ops := kinds.map fun e => (e.1, tOp e.2) }

/-- Two tiles of 32 by 32 elements of format 0 for a sum. -/
def tSumGang : Gang :=
  { tGang with handles := [(1, .tile (Tile.alloc 64 64 0 false false)), (2, .tile (Tile.alloc 64 64 0 false false)), (9, .tile (Tile.alloc 32 32 10 false false))] }
def tMma : UnitWord := .mma 3 2 false (BitVec.ofNat 64 (1 * 2 ^ 56)) (BitVec.ofNat 64 (2 * 2 ^ 56))

theorem witness_UnitsWork :
    (let s := tOps [(3, .unit 0 (.mzero 3 false) 0 [] [] []), (4, .unit 0 (.mzero 4 false) 0 [] [] [])];
      tabGet s.ops 3 = some (tOp (.unit 0 (.mzero 3 false) 0 [] [] [])) ∧ s.opReady 3 (tOp (.unit 0 (.mzero 3 false) 0 [] [] [])) = true ∧
        s.opReady 4 (tOp (.unit 0 (.mzero 4 false) 0 [] [] [])) = false ∧ s.gang 0 = some tGang ∧ s.crew tCrewKey = some tCrew) ∧
    ([OpKind.tile (.talloc 9 10 false false 32 32), .tile (.talloc 8 10 false false 32 32), .tile (.tfree 9), .tile (.tdry 9), .unit 0 tMma 2 [] [] [0, 0]].all fun k =>
      (tOps [(3, k)]).opReady 3 (tOp k)) = true ∧
    (tabGet tGang.handles 9 ≠ none ∧ tabGet tGang.handles 8 = none ∧ shapeOk 32 = true ∧ isTileFmt 10 = true ∧ (Tile.alloc 32 32 10 false false).dirtySubs = []) := by
  refine ⟨⟨rfl, ?_, ?_, rfl, rfl⟩, ?_, ?_⟩
  all_goals decide +kernel

/-- A K step whose operands are there, and a first step whose first operand is not. -/
theorem witness_UnitsWork_step :
    (let s := { world tWave { tLead with tokens := [(5, .pending 3)] } tCrew tSumGang .none with ops := [(3, tOp (.unit 0 tMma 1 [] [] [0, 0]))] };
      s.opReady 3 (tOp (.unit 0 tMma 1 [] [] [0, 0])) = true ∧ gives (s.stepFills (.op 3 tCrewKey) 0 tMma 1 1) (fun _ => true) = true ∧
        (sumMode 0 0 (tCrew.accAt 0 3).i32).isSome = true) ∧
    tabGet tGang.handles (Desc.of (BitVec.ofNat 64 (1 * 2 ^ 56))).handle = none := by
  refine ⟨⟨?_, ?_, ?_⟩, ?_⟩
  all_goals decide +kernel

/-- A copy of two chunks, one of them there; a partial-page copy aligned and not; a walk. -/
theorem witness_CopySteps :
    (let k : OpKind := .copy tCopyRecord [] [];
      tabGet (tOps [(3, k)]).ops 3 = some (tOp k) ∧ (tOps [(3, k)]).gang 0 = some tGang ∧ tGang.state = .running ∧ tGang.pair = none ∧ 0 < Copy.chunks tCopyRecord ∧
        Copy.oneUnit tGang tCopyRecord = false ∧ gives ((tOps [(3, k)]).deliverChunk 3 (tOp k) tGang tCopyRecord [] 0) (fun _ => true) = true) ∧
    (let s := { W with mem := tSeqMem tSeqUse }; gives (s.pcopyPlan (s.seenOn .c (.op 3 tCrewKey) tGang) 0x13000 0x16000 16) (fun e => decide (e.2.length = 16 * 64)) = true) ∧ (0x11001 : Nat) % 64 ≠ 0 ∧
    (let s := { tOps [(3, .chase 0x12000 0 1 2 0)] with mem := tSeqMem tSeqUse };
      s.liveWaves tCrewKey ≠ [] ∧ s.crew tCrewKey = some tCrew ∧ gives (((s.hear .l).seenOn .l (.op 3 tCrewKey) tGang).chasePages 0x12000 0 2) (fun ps => ps.length == 2) = true ∧ tCrew.dq[1].entries.length < 64) := by
  refine ⟨⟨rfl, rfl, rfl, rfl, ?_, ?_, ?_⟩, ?_, ?_, ?_, rfl, ?_, ?_⟩
  all_goals decide +kernel

/-- Queue 0 of 16 records at host addresses 0x1000 and 0x2000, with three records to be consumed; the device ready. -/
def tHq : HostQueue := { HostQueue.reset with sqbase := 0x1000, cqbase := 0x2000, size := 4, sqtail := 3, enable := true, phase := true }
def ready (s : State) : State := { s with regs := { s.regs with boot := .ready }, queues := s.queues.set 0 tHq }

theorem witness_HostRegisters :
    (let s := ready W;
      s.regs.boot ≠ .recovery ∧ ((3 : BitVec 32) - s.queues[0].sqhead).toNat ≤ 2 ^ s.queues[0].size.toNat ∧ 2 ^ s.queues[0].size.toNat < ((17 : BitVec 32) - s.queues[0].sqhead).toNat ∧
        s.queues[0].enable = true ∧ s.queues[1].enable = false ∧ s.queues[1].size = 0 ∧ Memory.wf s.mem = true) ∧
    (let s : State := { ready W with queues := W.queues.set 0 { tHq with enable := false } };
      s.queues[0].enable = false ∧ 4 ≤ s.queues[0].size.toNat ∧ s.queues[0].size.toNat ≤ 12 ∧ s.queues[0].sqbase.toNat % 4096 = 0 ∧ s.queues[0].cqbase.toNat % 4096 = 0) ∧
    (let s : State := { ready W with regs := { (ready W).regs with expbase := 0x40000000, expsize := 0x40000000 } };
      s.regs.expbase.toNat ≤ 0x40000000 + 16 ∧ 0x40000000 + 16 + 8 ≤ s.regs.expbase.toNat + s.regs.expsize.toNat) := by
  refine ⟨?_, ?_, ?_⟩
  all_goals decide +kernel

/-- A record of one gang of one crew of one wave: its code, its entry points and its uniform table; one that counts no gang; and one whose
tile request table asks for more than a cluster has. -/
def tRecord (gangs tiles : Nat) : BitVec 2048 :=
  BitVec.ofNat 2048 (0x10000 + 0x10100 * 2 ^ 64 + 0x10000 * 2 ^ 128 + 0x18000 * 2 ^ 192 + tiles * 2 ^ 256 + gangs * 2 ^ 320 + 2 ^ 352 + 2 ^ 360)

/-- The state with such a record first in queue 0. -/
def tConsume (gangs waves : Nat) : State :=
  { ready W with
    mem := memWrites tMem (hostKey 0x1000) (toBytes 256 ((tRecord gangs 0).toNat + waves * 2 ^ 360)), regs := { (ready W).regs with boot := .ready } }

/-- What the control plane brings: a place for the retained record, and no plan. -/
def tAdmit : Admit := { retained := 0x100000, gangs := [], victims := [] }

theorem witness_LaunchDecisions :
    ((tConsume 1 0).regs.boot = .ready ∧ (tConsume 1 0).nextQueue = some 0 ∧ Memory.wf (tConsume 1 0).mem = true) ∧
    (let r : BitVec 2048 := BitVec.ofNat 2048 ((tConsume 1 0).rdNat (hostKey 0x1000) 256);
      (tConsume 1 0).tableOf r = some [] ∧ (tConsume 1 0).verdict r true [] tAdmit = .accepted ∧ (tConsume 1 0).retainsAt tAdmit.retained = true ∧
        (tConsume 1 0).retainsAt 0x10000 = false) ∧
    (let r : BitVec 2048 := BitVec.ofNat 2048 ((tConsume 0 0).rdNat (hostKey 0x1000) 256); (tConsume 0 0).verdict r true [] tAdmit = .malformed) ∧
    (tConsume 1 0).verdict (BitVec.ofNat 2048 ((tRecord 1 0).toNat + 2 ^ 403 + 1000000 * 2 ^ 448)) true [] tAdmit = .refused := by
  refine ⟨?_, ?_, ?_, ?_⟩
  all_goals decide +kernel

theorem witness_LaunchDecisions_launch :
    let s : State := { ready W with
      subs := [(3, { crew := tCrewKey, addr := 0x11070, record := tRecord 1 0, scope := 8 })], ops := [(5, tOp (.launch 3))] }
    s.launchIssued 3 tCrewKey = true ∧ s.tableOf (tRecord 1 0) = some [] ∧ s.verdict (tRecord 1 0) false [] tAdmit = .accepted ∧ s.retainsAt tAdmit.retained = true ∧
      s.verdict (tRecord 0 0) false [] tAdmit = .malformed := by decide +kernel

theorem one_key {κ α : Type} {k : κ} {a : α} : distinctKeys [(k, a)] := by simp [distinctKeys, tabKeys]

theorem witness_LaunchEndings :
    (W.launch 1 = some tLaunch ∧ tLaunch.done = none ∧ tLaunch.failed = none ∧ recBounded tLaunch.record = false) ∧
    (let l := { tLaunch with record := BitVec.ofNat 2048 ((tRecord 1 0).toNat + 2 ^ 403 + 25000 * 2 ^ 448) };
      recBounded l.record = true ∧ l.accepted + recBound l.record ≤ W.mtime + 25000) ∧
    distinctKeys [((1 : DWord), { tLaunch with done := some { kind := 0, fault := 0 } })] ∧ W.regs.boot ≠ .recovery := by
  refine ⟨⟨rfl, rfl, rfl, ?_⟩, ?_, one_key, ?_⟩
  all_goals decide +kernel

/-- A device on which launch 1 waits for its gang, and one on which its gang is bound. -/
def tAccepted : Launch := { tLaunch with record := tRecord 1 0, next := 0 }
def tWaiting : State := { ready W with gangs := [], waves := [], leads := [], crews := [], launches := [(1, tAccepted)] }
def tPlace : GangPlace :=
  { index := 0, trailing := false, cluster := 0, barbase := 0, crews := [{ placeCrew with leadFrec := 0x11D, waveFrecs := [0x11C] }] }
def tBoundGang : State :=
  { tWaiting with
    launches := [(1, { tAccepted with next := 1 })], gangs := [(0, { tGang with state := .bound, barriers := 0 })],
    slots := setSlots (bindRecords 1 tAccepted (needsOf (tRecord 1 0) []) tPlace 0) [] }

theorem witness_GangsStart :
    (let u : Unbound := { seq := 1, saved := false, ixs := [0] };
      tWaiting.launch 1 = some tAccepted ∧ (tWaiting.unboundOf 1 tAccepted).find? (fun v => !v.saved && placesFor v.ixs (recPair tAccepted.record) [tPlace]) = some u ∧
        u.ixs = [tPlace.index] ∧ tWaiting.regs.boot = .ready ∧ tWaiting.regs.bindStop = false ∧ tWaiting.aim.inTurn u = true ∧ recPair tAccepted.record = false ∧
        (let v := { tWaiting.aim with nextId := tWaiting.nextId + 1 }.setLaunch 1 (({ tAccepted with next := tAccepted.next + 1 } : Launch).boundAt tWaiting.mtime [tPlace]);
          v.placeFits (v.roomFor u) (needsOf tAccepted.record tAccepted.table) tPlace true = true)) ∧
    (setOk (recPlacement tAccepted.record) (seats [tPlace]) (tWaiting.seatsOf 1 true) = true ∧ tAccepted.again.contains tPlace.index = false ∧ gives (tWaiting.startTiles (tAccepted.table.drop 1)) (fun _ => true) = true) ∧
    (tBoundGang.gang 0 = some { tGang with state := .bound, barriers := 0 } ∧ tGang.place.crews[0]? = some placeCrew ∧
      (tabGet tBoundGang.slots 0).any (fun b => b.state == 1 && b.resume == 0) = true ∧ (tBoundGang.uniforms (tRecord 1 0)).isSome = true) := by
  refine ⟨?_, ?_, ⟨rfl, rfl, ?_, ?_⟩⟩
  all_goals decide +kernel

/-- A best-effort gang that runs beside a launch of higher priority that cannot bind: only cluster 0 is in service, and it lacks barriers. -/
def tRival : Launch := { tAccepted with record := BitVec.ofNat 2048 ((tRecord 1 0).toNat + 60 * 2 ^ 376 + 3 * 2 ^ 408) }
def tCrowded : State :=
  { ready W with
    launches := [(1, { tLaunch with record := tRecord 1 0 }), (2, tRival)], regs := { (ready W).regs with boot := .ready, service := 0xF, clock := Vector.replicate 32 1500 } }

theorem witness_GangsYield :
    (let u : Unbound := { seq := 2, saved := false, ixs := [0] };
      tCrowded.launch 2 = some tRival ∧ tCrowded.firstUnbound = some u ∧ tCrowded.fitsNow u = false ∧ tGang.pair = none ∧ tCrowded.regs.boot = .ready ∧
        tCrowded.candidates tRival.asker [] = [0] ∧ tCrowded.victimsOf u [] (tCrowded.candidates tRival.asker []) = some [0] ∧
        (tCrowded.takePlans []).launchOf tGang = some { tLaunch with record := tRecord 1 0 }) ∧
    (tCrowded.chooseOption tRival.asker 0 tGang { tLaunch with record := tRecord 1 0 }).isSome = true ∧
    (recBounded tRival.record = false ∧ recBounded (BitVec.ofNat 2048 ((tRecord 1 0).toNat + 2 ^ 403)) = true) := by
  refine ⟨?_, ?_, ?_⟩
  all_goals decide +kernel

/-- A gang whose wave and lead context stand at save points; one in which they run on; and one that is to be run again. -/
def tSaving (w : SplitWait) (l : LeadWait) : State :=
  { world (tStop w) (tLeadStop l) tCrew { tGang with state := .saving } .none with launches := [(1, { tLaunch with record := tRecord 1 0 })] }

theorem witness_GangsYield_saves :
    (let s := tSaving (.savept 7) (.savept 7);
      s.atSave 0 = true ∧ s.opsQuiet 0 = true ∧ ({ tGang with state := .saving } : Gang).dirtyTiles = []) ∧
    (let s : State := { tSaving .none .none with mtime := 150000, regs := { W.regs with clock := Vector.replicate 32 1500 } };
      s.atSave 0 = false ∧ 150000 * 1000 ≤ s.ticksOf tGang.place.cluster - tGang.saveSince) ∧
    (tSaving .none .none).ticksOf tGang.place.cluster - tGang.saveSince < 150000 * 1000 ∧
    recRestart (tRecord 1 0) ≠ 2 ∧ recRestart (BitVec.ofNat 2048 ((tRecord 1 0).toNat + 2 * 2 ^ 400)) = 2 ∧
    (let l := { tLaunch with record := tRecord 1 0 };
      let s : State := { tWaiting with launches := [(1, l)], gangs := [(0, { tGang with state := .saved, barriers := 0 })] };
      let u : Unbound := { seq := 1, saved := true, ixs := [0] };
      (s.unboundOf 1 l).find? (fun v => v.saved && v.ixs == [0]) = some u ∧ s.aim.inTurn u = true ∧ s.regs.boot = .ready ∧
        setOk (recPlacement l.record) (seats [tGang.place]) (s.seatsOf 1 false) = true ∧ sameFrames tGang.place tGang.place = true ∧
        s.aim.placeFits (s.aim.roomFor u) (needsOf l.record l.table) tGang.place false = true) ∧
    (∀ e ∈ (world tWave tLead tCrew { tGang with state := .flushing false } .none).launches, ∀ k sub, e.2.origin = .lead k sub → k.gang ≠ 0) := by
  refine ⟨?_, ?_, ?_, ?_, ?_, ?_, fun e he k sub h => ?_⟩
  · decide +kernel
  · decide +kernel
  · decide +kernel
  · decide +kernel
  · decide +kernel
  · decide +kernel
  · rw [List.mem_singleton.mp he] at h
    cases h

/-- A pair: a leading gang 0 and a trailing gang 1 on the same code, with a point of their waves, a unit of their lead contexts. -/
def tPair (peer : Nat) (leading : Bool) (points : List Point) (units : List PairUnit) : PairState :=
  { peer, leading, parties := [(.wave 0 0, { PartyState.fresh with points })], buf := [], units }
def tPairOf (a b : PairState) (w v : Wave) : State :=
  let key : WaveKey := { gang := 1, crew := 0, wave := 0 }
  let crew : CrewKey := { gang := 1, crew := 0 }
  { world w tLead tCrew { tGang with pair := some a } (.lead tCrewKey) with
    gangs := [(0, { tGang with pair := some a }), (1, { tGang with pair := some b, trailing := true })],
    waves := [(tKey, w), (key, v)], leads := [(tCrewKey, tLead), (crew, tLead)], crews := [(tCrewKey, tCrew), (crew, tCrew)],
    launches := [(1, { tLaunch with record := tRecord 1 0 })] }

def tPoint (sig : BitVec 64) : Point := { n := 1, kind := 0, sig, op := [] }
def tUnit (sig : BitVec 64) : PairUnit := { key := [1], op := none, crew := 0, sig, writes := [(0x11000, [7])], bad := [], chunk := none }

theorem witness_Pairs :
    (let p := tPair 1 true [] [];
      LeadIssues (tPairOf p (tPair 0 false [] []) tWave tWave) (lctxOf tLead tCrew { tGang with pair := some p }) (.stx false 3 2 1 0) ∧
        (tPairOf p (tPair 0 false [] []) tWave tWave).slackFull 0 p (.lead 0) = false ∧ (tPairOf p (tPair 0 false [] []) tWave tWave).translate .write 0x11000 = .ok 0x11000) ∧
    ([(tPoint 5, tPoint 5), (tPoint 5, tPoint 6)].all fun e => (tPairOf (tPair 1 true [e.1] []) (tPair 0 false [e.2] []) tWave tWave).pairOf 0 ==
      some ((0, tPair 1 true [e.1] []), (1, tPair 0 false [e.2] []))) = true ∧
    (firstCommon [tUnit 5] [tUnit 5] = some (tUnit 5, tUnit 5) ∧ firstCommon [tUnit 5] [tUnit 6] = some (tUnit 5, tUnit 6)) ∧
    (let f := tStop (.pairFault tFault 0x10008)
      let g := tStop (.pairFault (illegal 3) 0x10008)
      let p := tPair 1 true [] [];
      (((tPairOf p (tPair 0 false [] []) f f).heldFaults 0 (.wave 0 0)).length = 1 ∧ ((tPairOf p (tPair 0 false [] []) f g).heldFaults 1 (.wave 0 0)).map HeldFault.pc = [tSplit.pc])) ∧
    ((0, Party.wave 0 0, 1) ∉ tLaunch.mismatches ∧ recRestart (tRecord 1 0) ≠ 2) := by
  refine ⟨⟨⟨rfl, ?_, ?_⟩, ?_, ?_⟩, ?_, ?_, ?_, ?_⟩
  all_goals decide +kernel

theorem witness_Reliability :
    (tGang.state = .running ∧ tGang.pair = none ∧ W.launch tGang.seq = some tLaunch ∧ recRestart tLaunch.record ≠ 2) ∧
    (isLocal 0x11000 = true ∧ 0x11000 / 64 ∉ W.poison ∧ (ready W).regs.boot = .ready) ∧ (let s : State := { W with drift := Vector.replicate 32 (some 900) }; s.drift[0] = some 900) ∧
    ((200 : Nat) ≤ 10000 ∧ 100 * 200 ≤ 3 * 10000 ∧ (1 + 5) * 10000 < 200 * 325 ∧ 200 * 325 ≤ (1 + 6) * 10000) ∧
    (W.machines[0].copies = Vector.replicate 3 .inStep ∧ ((1 : Nat) ∈ [1, 2] ∧ (2 : Nat) ∈ [1, 2])) := by
  refine ⟨?_, ?_, ?_, ?_, ?_⟩
  all_goals decide +kernel

/-- The states of start-up, with an image that is valid and drives that hold none. -/
theorem witness_StartUp :
    State.reset.regs.boot = .rom ∧ (State.reset.mgmt.drive0.map State.reset.mgmt.valid).getD false = false ∧
    (∀ b : Boot, ({ W with regs := { W.regs with boot := b } } : State).regs.boot = b) ∧ W.mgmt.storedEpoch ≠ 0xFFFF := by
  refine ⟨rfl, rfl, fun b => rfl, ?_⟩
  decide +kernel

/-! ### Hypotheses met: further clauses about steps of the device -/

/-- Nine waves of one partition whose lines fill a bank, none of them dead; register 4 of the first is not there. -/
def tCachedWave (n : Nat) : Wave := { tWave with cached := BitVec.allOnes 128 &&& ~~~(if n = 0 then 16 else 0), dirty := 256, unset := Vector.replicate 128 0 }
def tBank : State := { world tWave tLead tCrew tGang .none with waves := (List.range 9).map fun n => ({ tKey with wave := 4 * n }, tCachedWave n) }

theorem witness_StallsEnd_bank :
    (256 ≤ (tBank.bankOf tKey 4).length ∧ (tKey, 8) ∈ tBank.bankOf tKey 4 ∧ (tBank.bankOf tKey 4).all (fun l => !tBank.lineDead l) = true ∧ tBank.recent = [] ∧
      tBank.gangLive 0 = true ∧ Memory.wf tBank.mem = true) ∧
    ((tBank.wave tKey).any fun w => !w.cached.getLsbD 4 && w.dirty.getLsbD 8 && !w.dead.getLsbD 8) = true := by
  refine ⟨⟨?_, ?_, ?_, rfl, ?_, ?_⟩, ?_⟩
  all_goals decide +kernel

/-- A wait that a WAKE has taken off the lists, one on a value that differs, one in a gang that is being saved; a page that a pair launch has
accessed. -/
theorem witness_PagesComeAndGo_ends :
    (tWaits.waiters = [] ∧ (∀ l ∈ tWait.lanes, tWaits.rdNat l.2 4 ≠ (tWaits.vReg (tStop (.waita tWait)) false tWait.d (2 ^ 32 - 1))[l.1]) ∧ tWaits.late = []) ∧
    (world (tStop (.waita tWait)) (tLeadStop (.waita 0x11000 true 5 0 0 8 false false)) tCrew { tGang with state := .saving } .none).gang 0 = some { tGang with state := .saving } ∧
    (let s : State := { W with launches := [(1, { tLaunch with pages := [0x10000] })] };
      (∃ e ∈ s.launches, e.2.done = none ∧ 0x10000 ∈ e.2.pages) ∧ (pageAt s.pages 0x11000).map Page.base = some 0x10000) ∧
    (let g := { tGang with pair := some { peer := 1, leading := true, parties := [], buf := [], units := [] } };
      g.pair ≠ none ∧ W.launch g.seq = some tLaunch ∧ (pageAt W.pages 0x11000).map Page.base = some 0x10000) := by
  refine ⟨⟨rfl, ?_, rfl⟩, rfl, ⟨⟨_, List.mem_singleton_self _, rfl, ?_⟩, ?_⟩, ⟨by simp, rfl, ?_⟩⟩
  all_goals decide +kernel

/-- A gang with tiles of formats 0, 14, 12, 4 and 10, one of them unfilled, and an Accord of seed 1 with 32 rows and two columns, whose record
stands in memory at 0x17000. -/
def tAccordBytes : List Byte := toBytes 64 1 ++ List.replicate 256 0
def tUnitGang : Gang :=
  { tGang with handles := [(1, .tile (Tile.alloc 64 64 0 false false)), (2, .tile (Tile.alloc 64 64 0 false false)), (3, .tile (Tile.alloc 64 64 14 false false)),
      (4, .accord false tAccordBytes), (5, .tile (Tile.alloc 64 64 4 false false)), (9, .tile (Tile.alloc 32 32 10 false false)),
      (10, .tile { Tile.alloc 64 64 0 false false with bound := some 0x12000 })] }
def tUnitState (k : OpKind) : State :=
  { world tWave { tLead with tokens := [(5, .pending 3)] } tCrew tUnitGang .none with
    ops := [(3, tOp k)], mem := memWrites tMem 0x17000 tAccordBytes }
def tDesc (h : Nat) : DWord := BitVec.ofNat 64 (h * 2 ^ 56 + 2 ^ 23 + 2 ^ 20)
def tOpActor : Actor := .op 3 tCrewKey

/-- A state in which an operation begins, and what path M shows it. -/
def tBegun (k : OpKind) : State := (tUnitState k).beginsOp 3 (tOp k)
def tOnM (k : OpKind) : State := (tBegun k).on .m tOpActor

/-- First steps of MMA, MMC and MMW, with an operand that is filled meanwhile; a first step whose checks fail. -/
theorem witness_UnitsWork_steps :
    ([(UnitWord.mma 3 2 false (tDesc 1) (tDesc 2), [0, 0]), (.mma 3 2 false (tDesc 10) (tDesc 2), [0, 0]), (.mmc 3 4 0 false (tDesc 2), [0, 0]), (.mmw 3 4 false (tDesc 3), [14, 32])].all
      fun (w, fmts) => let k : OpKind := .unit 0 w 0 [] [] []
        (tUnitState k).opReady 3 (tOp k) && gives (stepChecks tUnitGang tCrew 0 w) (fun fs => fs == fmts && decide (0 < w.steps fs)) &&
          gives ((tBegun k).stepFills tOpActor 0 w 0 (w.steps fmts)) fun t => gives ((t.on .m tOpActor).stepSound 0 tCrew 0 w 0) fun _ => true) = true ∧
    ((sumMode 0 0 (tCrew.accAt 0 3).i32).isSome = true ∧ 64 ≤ tAccordBytes.length) ∧
    (match stepChecks tUnitGang tCrew 0 (.mma 3 2 false (tDesc 7) (tDesc 2)) with
      | .error (.fail f) => f.code == .tileHandle
      | _ => false) = true := by
  refine ⟨?_, ?_, ?_⟩
  all_goals decide +kernel

/-- Operations that may complete: after their steps, and those without steps, with what each reads. -/
theorem witness_UnitsWork_ends :
    ([OpKind.unit 0 (.mma 3 2 false (tDesc 1) (tDesc 2)) 2 [] [] [0, 0], .unit 0 (.mmw 3 4 false (tDesc 3)) 1 [] [] [14, 32], .unit 0 (.mload 3 false (tDesc 1)) 0 [] [] [],
        .unit 0 (.mdrain 3 (tDesc 1) (some (tDesc 5))) 0 [] [] [], .unit 0 (.seek 0 0 9 (tDesc 3) 7) 0 [] [] [], .unit 0 (.proj (tDesc 3) 0x17000) 0 [] [] [],
        .tile (.tbind 9 0x12000), .tile (.tbind 9 0), .tile (.tbind 10 0), .tile (.tstat 9 0), .tile (.abind 6 false 0x17000)].all fun k =>
      (tUnitState k).opReady 3 (tOp k) && decide (tUnitGang.state = .running)) = true ∧
    ((UnitWord.mma 3 2 false (tDesc 1) (tDesc 2)).steps [0, 0] ≤ 2 ∧ (32 / 32 : Nat) ≤ 1 ∧ (tCrew.accAt 0 3).bad = []) ∧
    (let k : OpKind := .unit 0 (.mload 3 false (tDesc 1)) 0 [] [] [];
      (gives (tUnitGang.opTile 1 false) (fun t => !(Desc.of (tDesc 1)).bad t false && moveFmt t.fmt) &&
        gives ((tBegun k).fillHandle tOpActor 0 1 ((Desc.of (tDesc 1)).subs (List.range 64) (List.range 64))) fun t =>
          gives ((t.on .m tOpActor).operandSound 0 (Desc.of (tDesc 1)) (List.range 64) (List.range 64)) fun _ => true) = true) ∧
    (gives (tUnitGang.opTile 1 true) (fun t => !(Desc.of (tDesc 1)).badDrain && moveFmt t.fmt) && gives (tUnitGang.opTile 5 true) fun t => !(Desc.of (tDesc 5)).badDrain && t.fmt == 4) =
      true := by
  refine ⟨?_, ?_, ?_, ?_⟩
  all_goals decide +kernel

theorem witness_UnitsWork_accords :
    (let k : OpKind := .unit 0 (.proj (tDesc 3) 0x17000) 0 [] [] [];
      (gives ((tOnM k).opRead 0x17000 64) (fun hb => hb == toBytes 64 1) && gives ((tBegun k).opPieces .write 0x17000 64) (fun _ => true) &&
        gives ((tBegun k).opPieces .read 0x17040 (coefBytes 1)) (fun _ => true) && gives ((tBegun k).opPieces .write 0x17040 (coefBytes 1)) (fun _ => true) && !hdrBad 1 &&
        gives (tUnitGang.targetTile (Desc.of (tDesc 3))) (fun _ => true) &&
        gives ((tBegun k).fillHandle tOpActor 0 3 ((Desc.of (tDesc 3)).subs (List.range 32) (List.range 64))) fun t =>
          gives ((t.on .m tOpActor).operandSound 0 (Desc.of (tDesc 3)) (List.range 32) (List.range 64)) fun _ => true) = true) ∧
    (let k : OpKind := .tile (.abind 6 false 0x17000);
      (gives ((tOnM k).opRead 0x17000 64) (fun hb => !hdrBad (ofBytes hb)) && gives ((tOnM k).opRead 0x17040 (coefBytes 1)) (fun cb =>
        !coefAbsent 1 (fun i => (toBytes 64 1 ++ cb).getD i 0) && tUnitGang.hasRoom false (roundUp (64 + cb.length) 1024))) = true) ∧
    (hdrBad 0 = true ∧ tabGet tUnitGang.handles 6 = none ∧ (tUnitGang.handles.find? fun e => e.1 == 4) = some (4, .accord false tAccordBytes)) := by
  refine ⟨?_, ?_, ?_⟩
  all_goals decide +kernel

theorem witness_UnitsWork_bind :
    (let k : OpKind := .tile (.tbind 9 0x12000);
      (match (tBegun k).mappedRw (4096 + 1) 0x12000 4096, (tBegun k).mappedRw (4096 + 1) 0x50000 4096 with
        | .ok _, .error a => a == 0x50000
        | _, _ => false) = true ∧
      gives ((tBegun k).dryFor 0 3 0 9 (Tile.alloc 32 32 10 false false)) (fun e => e.2) = true ∧ (Tile.alloc 32 32 10 false false).size = 4096) ∧
    (let k : OpKind := .tile (.tstat 9 0);
      gives ((tBegun k).fillHandle tOpActor 0 9 (fun _ => [0])) (fun u => ((u.gangOn .m tOpActor 0 tUnitGang).tile? 9).any fun t => !t.poisoned 0 (t.used 0)) = true) := by
  refine ⟨⟨?_, ?_, ?_⟩, ?_⟩
  all_goals decide +kernel

/-- A copy into packed block data, which is delivered whole, and one to a page that may not be written; a source that is not aligned. -/
def tPackedRecord (dst : Nat) : BitVec 512 :=
  BitVec.ofNat 512 (0x12000 + dst * 2 ^ 64 + 128 * 2 ^ 274 + 2 ^ 290 + 2 ^ 306 + 2 ^ 322 + 20 * 2 ^ 494 + 2 ^ 499 + 8 * 2 ^ 502)

theorem witness_CopySteps_packed :
    (let r := tPackedRecord 0x13000;
      let k : OpKind := .copy r [] [];
      Copy.oneUnit tGang r = true ∧ 0 < Copy.chunks r ∧ gives ((tOps [(3, k)]).deliverPacked 3 (tOp k) tGang r) (fun _ => true) = true) ∧
    (let r := tPackedRecord 0x50000;
      let k : OpKind := .copy r [] [];
      (match (tOps [(3, k)]).deliverPacked 3 (tOp k) tGang r with
        | .error (.fail f) => f.code == .elementAccess
        | _ => false) = true) ∧
    (let r : Copy := tCopyRecord ^^^ BitVec.ofNat 512 (2 ^ 290 + 1024 * 2 ^ 290);
      let k : OpKind := .copy r [] [];
      (tOps [(3, k)]).ops = [(3, tOp k)] ∧ 1 < Copy.chunks r ∧ Copy.chunks r = (List.range (Copy.chunks r)).length) := by
  refine ⟨⟨?_, ?_, ?_⟩, ?_, ⟨rfl, ?_, ?_⟩⟩
  all_goals decide +kernel

/-- A peer's atomic on memory that is exported, and on memory that is not. -/
theorem witness_HostRegisters_atomic :
    (isHomeOp 0x40 = true ∧ 0x40000010 % homeBytes 0x40 = 0 ∧ 0 < homeBytes 0x40) ∧
    (let s : State := { ready W with regs := { (ready W).regs with expbase := 0x40000000, expsize := 0x40000000 } };
      s.regs.boot = .ready ∧ s.regs.expbase.toNat ≤ 0x40000010 ∧ 0x40000010 + homeBytes 0x40 ≤ s.regs.expbase.toNat + s.regs.expsize.toNat ∧
        ¬s.regs.expbase.toNat ≤ 0x10) := by
  refine ⟨?_, ?_⟩
  all_goals decide +kernel

/-- A bounded launch that a plan admits, and time that may pass before its bound. -/
theorem witness_LaunchEndings_time :
    distinctKeys [((1 : DWord), { tLaunch with record := BitVec.ofNat 2048 ((tRecord 1 0).toNat + 2 ^ 403 + 90000 * 2 ^ 448) })] ∧
    recBounded (BitVec.ofNat 2048 ((tRecord 1 0).toNat + 2 ^ 403 + 90000 * 2 ^ 448)) = true := ⟨one_key, by decide +kernel⟩

/-- A save that fails: a dirty tile over a page that may not be written. -/
def tStuckGang : Gang := { tGang with state := .saving, handles := [(9, .tile (((Tile.alloc 32 32 10 false false).bindTo 0x50000).setSub 0 { zero := none, absent := none, filled := true, dirty := true }))] }
def tStuck : State :=
  { world (tStop (.savept 7)) (tLeadStop (.savept 7)) tCrew tStuckGang .none with launches := [(1, { tLaunch with record := tRecord 1 0 })] }

theorem witness_GangsYield_failure :
    tStuck.gang 0 = some tStuckGang ∧ tStuck.atSave 0 = true ∧ tStuck.opsQuiet 0 = true ∧
    (match tStuck.saveUnits 0 with
      | .error .bad => true
      | _ => false) = true := by
  refine ⟨rfl, ?_, ?_, ?_⟩
  all_goals decide +kernel

/-- A party 4,096 stores ahead; points and units of gangs whose leads run on; a fault that one gang alone holds, whose counterpart has gone past
it, has run it, and has yet to reach it; a forwarded result that its taker finds, and one of another operation. -/
theorem witness_Pairs_waits :
    (let p : PairState := { tPair 1 true [] [] with parties := [(.lead 0, { PartyState.fresh with stores := 4096 })] };
      LeadIssues (tPairOf p (tPair 0 false [] []) tWave tWave) (lctxOf tLead tCrew { tGang with pair := some p }) (.stx false 3 2 1 0) ∧
        (tPairOf p (tPair 0 false [] []) tWave tWave).slackFull 0 p (.lead 0) = true) ∧
    (let p := tPair 1 true [tPoint 5] [tUnit 5];
      let q := tPair 0 false [tPoint 5] [tUnit 5];
      let s := tPairOf p q tWave tWave;
      (s.leads.all fun e => match e.2.wait with
        | .collective _ _ => false
        | _ => true) = true ∧ s.allExited 0 = false ∧ s.allExited 1 = false ∧ Memory.wf s.mem = true ∧ (p.party (.wave 0 0)).points = [tPoint 5] ∧
        firstCommon p.units q.units = some (tUnit 5, tUnit 5)) ∧
    (let f := tStop (.pairFault tFault 0x10008);
      let p := tPair 1 true [] [];
      let q := tPair 0 false [] [];
      let past : PairState := { q with parties := [(.wave 0 0, { PartyState.fresh with next := PartyState.fresh.next + 1 })] };
      let ran := { tWave with ran := [({ interval := PartyState.fresh.next, pc := tSplit.pc, rep := 0, lanes := tSplit.lanes }, 1)] };
      ((tPairOf p q f tWave).heldFaults 0 (.wave 0 0)).map (fun h => (h.ran, h.pc)) = [(0, tSplit.pc)] ∧ (tPairOf p q f tWave).heldFaults 1 (.wave 0 0) = [] ∧
        (p.party (.wave 0 0)).next < ((tPairOf p past f tWave).peerParty p (.wave 0 0)).next ∧
        (tPairOf p q f ran).ranCount 1 (.wave 0 0) tSplit.pc 0 tSplit.lanes = 1 ∧ (tPairOf p q f tWave).ranCount 1 (.wave 0 0) tSplit.pc 0 tSplit.lanes = 0 ∧
        (tPairOf p q f tWave).heldUp 1 (.wave 0 0) = false) ∧
    (let f : Forward := { lanes := BitVec.allOnes 32, op := 9, writes := [], flags := Flags.none, fault := none };
      let p : PairState := { tPair 1 false [] [] with parties := [(.wave 0 0, { PartyState.fresh with forwards := [f] })] };
      let s := tPairOf p (tPair 0 true [] []) tWave tWave;
      (s.takeForward 0 p (.wave 0 0) { lanes := BitVec.allOnes 32, op := 9 }).isSome = true ∧ (s.takeForward 0 p (.wave 0 0) { lanes := BitVec.allOnes 32, op := 8 }).isSome = true) := by
  refine ⟨⟨⟨rfl, ?_, ?_⟩, ?_⟩, ?_, ?_, ?_⟩
  all_goals decide +kernel

/-- Storage that a scrub may find bad: a register line, a tile, an accumulator, a buffered store; a core's second error; a machine that is
not ready and one whose three copies differ. -/
theorem witness_Reliability_storage :
    (W.wave tKey = some tWave ∧ W.crew tCrewKey = some tCrew ∧ tWave.cached.getLsbD 4 = true ∧ tWave.bad = []) ∧
    (tGang.tile? 9 = some (Tile.alloc 32 32 10 false false) ∧ 8 * 3 < (Tile.alloc 32 32 10 false false).size ∧ (Tile.alloc 32 32 10 false false).bad = []) ∧
    (let c := { tCrew with accs := [((0, 3), Acc.empty false)] };
      (atWave tWave c tGang).crew tCrewKey = some c ∧ tabGet c.accs (0, 3) = some (Acc.empty false) ∧ (Acc.empty false).bad = []) ∧
    (let p : PairState := { tPair 1 true [] [] with buf := [(.lead 0, { interval := 0, pa := 0x11000, bytes := [5] })] };
      (tPairOf p (tPair 0 false [] []) tWave tWave).gang 0 = some { tGang with pair := some p } ∧ p.buf[0]? = some (.lead 0, { interval := 0, pa := 0x11000, bytes := [5] })) ∧
    (let s : State := { W with coreErrors := [(3, 0)] };
      (∃ e ∈ s.coreErrors, e.1 = 3 ∧ s.ticksOf 0 ≤ e.2 + 2 ^ 40 * 1000) ∧ ∀ e ∈ s.coreErrors, e.1 = 4 → False) ∧
    (W.regs.boot ≠ .ready ∧ (ready W).machines[0].copies = Vector.replicate 3 .inStep) ∧ W.drift[0] = none := by
  refine ⟨⟨rfl, rfl, ?_, rfl⟩, ⟨rfl, ?_, ?_⟩, ⟨rfl, rfl, rfl⟩, ⟨rfl, rfl⟩, ⟨⟨(3, 0), ?_, rfl, ?_⟩, ?_⟩, ?_, ?_⟩
  all_goals decide +kernel

/-! ### Hypotheses met: the whole machine -/

/-- What an outcome is, as a check. -/
def isNext (o : Host.Outcome State Fault Refusal) : Bool :=
  match o with
  | .next _ => true
  | _ => false

theorem next_of {o : Host.Outcome State Fault Refusal} (h : isNext o = true) : ∃ t, o = .next t := by
  cases o with
  | next t => exact ⟨t, rfl⟩
  | fault e => simp [isNext] at h
  | refused e => simp [isNext] at h

theorem reset_inv : Inv State.reset := by
  constructor
  · decide +kernel
  · intro e he
    exact absurd he List.not_mem_nil
  · simp [distinctKeys, tabKeys, State.reset]

/-- The invariant in a state with contexts, and a step that such a state takes. -/
theorem witness_StepsKeepInvariant : Inv W ∧ ∃ t, step { W with agenda := [{ dt := 1, act := .issue (.split tKey 0) }] } = .next t := by
  refine ⟨⟨by decide +kernel, ?_, one_key⟩, ?_⟩
  · intro e he
    rw [List.mem_singleton.mp he]
    decide +kernel
  · exact next_of (by decide +kernel)

theorem ok_of {ε α : Type} [DecidableEq α] {r : Except ε α} {a : α} (h : gives r (fun x => decide (x = a)) = true) : r = .ok a := by
  cases r with
  | error e => simp [gives] at h
  | ok x => simpa [gives] using h

/-- A placed ADD: where it stands, and what stands around it. -/
def tPlaced : State := (State.reset.withFetchWord 32 0x00080818).moving { dt := 0, act := .issue (.split tKey 0) } [] (.split tKey 0)
def tPlacedHeaders : List Nat := [placeBase, placeBase + 8]

theorem witness_StepRunsDecoded :
    (State.reset.withFetchWord 32 0x00080818).agenda = [{ dt := 0, act := .issue (.split tKey 0) }] ∧
    (tPlaced.wctx.any fun c => c.ready && c.sp.pc == BitVec.ofNat 64 (placeBase + 4) && c.sp.reps.isNone &&
      (tPlaced.codeOf c.gang).any fun co => co.wave.headers == tPlacedHeaders) = true ∧
    WordAt tPlaced false tPlacedHeaders (placeBase + 4) 0 0x00080818 none ∧
    decodeWord 0 0x00080818 none = .ok (.add false false 4 2 3 false 0) 1 := by
  refine ⟨?_, ?_, ⟨?_, ⟨1, 0x01000000, ?_, ok_of ?_, ?_⟩, ?_, ok_of ?_, ⟨?_, fun e h => by cases h⟩, ⟨?_, fun h => by cases h⟩⟩, ?_⟩
  all_goals decide +kernel

/-- An LD last in its clause and last in its page, in a wave and in a lead class: its extension word is mapped nowhere. -/
def tCutCode : CodeObj := { tCode with wave := { tCode.wave with headers := [0x1FFF8] }, lead := { tCode.lead with headers := [0x1FFF8] } }
def tCut (cls : Nat) (act : Ctx) : State :=
  { world { tWave with slot0 := some { tSplit with pc := 0x1FFFC } } { tLead with pc := 0x1FFFC } tCrew tGang act with
    mem := memWrites tMem 0x1FFF8 (toBytes 4 (cls * 2 ^ 28 + 2 ^ 25) ++ toBytes 4 1), codeObjs := [tCutCode], agenda := [{ dt := 0, act := .issue act }] }
def tCutMoves (cls : Nat) (act : Ctx) : State := (tCut cls act).moving { dt := 0, act := .issue act } [] act

theorem witness_StepRunsDecoded_noCode :
    ([(4, false, Ctx.split tKey 0), (10, true, Ctx.lead tCrewKey)].all fun (cls, lead, act) =>
      let t := tCutMoves cls act
      (if lead then t.lctx.any fun c => c.ready && c.l.pc == 0x1FFFC else t.wctx.any fun c => c.ready && c.sp.pc == 0x1FFFC) &&
      t.codeOf tGang == some tCutCode && streamClass lead cls && clauseBack [0x1FFF8] 0x1FFFC == some 1 && needsExt cls 1 &&
      gives (t.codeWord 0x1FFF8) (fun h => fieldNat h.toNat 28 4 == cls && decide (1 < fieldNat h.toNat 24 4)) &&
      gives (t.codeWord 0x1FFFC) (fun w => w == 1) &&
      (match t.codeWord 0x20000 with
        | .error .bad => true
        | _ => false)) = true ∧ (∀ e ∈ W.launches, e.2.planned = false) := by
  refine ⟨?_, ?_⟩
  all_goals decide +kernel

/-- The encoder's premises: words of every class without an extension, with one, and of a lead class. -/
theorem witness_DecodeEncode :
    ([.add false false 4 2 3 false 0, .ld false 2 5 2 4 true false (some { plain with off := 16 }), .leadAdd false 5 6 7 0 false 0, .copy false 9 4 true 5] : List Instr).all
      (fun i => i.wf && decide (classOf i < 14)) = true := by decide +kernel

/-- Memory in its canonical form. -/
theorem witness_MemoryReadsBack : Memory.wf W.mem = true ∧ Memory.wf State.reset.mem = true := by decide +kernel

/-- A word of a wave that moves on. -/
theorem witness_ProgramsStayInside : classOf (.add false false 4 2 3 false 0) < 14 ∧ ∃ t, exec (.add false false 4 2 3 false 0) W = .next t :=
  ⟨by decide +kernel, next_of (by decide +kernel)⟩

/-! ### Single steps: the worked examples of the spec, and small cases by hand -/

/-- The wave after a word, its results written. -/
def after (w : Wave) (i : Instr) : Wave :=
  match exec i (atWave w tCrew tGang) with
  | .next t => ((t.wave tKey).map Wave.flush).getD w
  | _ => w

/-- Lanes of a v register as numbers. -/
def lanesAt (w : Wave) (r : Fin 128) (ls : List (Fin 32)) : List Nat := ls.map fun l => (w.v[r][l]).toNat

/-- The row of the example under R221: 1.0, absent, 2^-24 and 2^-24, then absent. -/
def tRow : Wave := withV tWave 2 fun l => match l.val with
  | 0 => 0x3F800000
  | 2 => 0x33800000
  | 3 => 0x33800000
  | _ => 0xFFFFFFFF

/-- R221: the sum goes through its tree, exact, with the count of the present elements. -/
theorem test_rsum : let w := after tRow (.rsum false false 4 2 9 false 2)
    (lanesAt w 4 [0, 1, 31], lanesAt w 9 [0, 31], w.status) = ([0x3F800001, 0x3F800001, 0x3F800001], [3, 3], tWave.status) := by decide +kernel

/-- R221: the scan goes lane by lane; the tie at lane 2 rounds to the even 1.0 and sets NX. -/
theorem test_scan : let w := after tRow (.scan false false 6 2 7 false 2)
    (lanesAt w 6 [0, 1, 2, 3, 31], lanesAt w 7 [0, 1, 2, 3, 31], w.status != tWave.status) =
      ([0x3F800000, 0x3F800000, 0x3F800000, 0x3F800000, 0x3F800000], [1, 1, 2, 3, 3], true) := by decide +kernel

/-- R227: DOT4 of the example gives 123; with a byte of the absent code it gives absent. -/
theorem test_dot4 :
    (lanesAt (after (withV (withV (withV tWave 2 fun _ => 0x0102FE03) 3 fun _ => 0x04050607) 10 fun _ => 100) (.dot4 false 10 2 3 false 0)) 10 [0, 31],
      lanesAt (after (withV (withV (withV tWave 2 fun _ => 0x01028003) 3 fun _ => 0x04050607) 10 fun _ => 100) (.dot4 false 10 2 3 false 0)) 10 [0]) =
    ([123, 123], [0x80000000]) := by decide +kernel

/-- R227: SCALE of the example gives 61.5, and absent and +0 for the scale codes of each. -/
theorem test_scale :
    ([0x008017FE, 0x00000FFF, 0x00801000].map fun e =>
      lanesAt (after (withV (withV tWave 10 fun _ => 123) 7 fun _ => e) (.scale false 8 10 7 false)) 8 [0]) = [[0x42760000], [0xFFFFFFFF], [0]] := by decide +kernel

/-- R228: bytes a and b go above what stood in d. -/
theorem test_pack : lanesAt (after (withV (withV (withV tWave 2 fun _ => 0xAA) 3 fun _ => 0xBB) 9 fun _ => 0x11223344) (.pack false 9 2 3 false 1)) 9 [0, 31] =
    [0xBBAA1122, 0xBBAA1122] := by decide +kernel

/-- R235: the keys 5, absent, -3, 5 and then absent. -/
theorem test_sort : let w := after (withV tWave 2 fun l => match l.val with
      | 0 => 5
      | 2 => 0xFFFFFFFD
      | 3 => 5
      | _ => 0x80000000) (.xfSort false 8 2 9 0)
    (lanesAt w 8 [0, 1, 2, 3, 31], lanesAt w 9 [0, 1, 2, 3, 4, 5, 31]) = ([0xFFFFFFFD, 5, 5, 0x80000000, 0x80000000], [2, 0, 3, 1, 4, 5, 31]) := by decide +kernel

/-- R95: an .i32 sum that leaves the range saturates; an absent operand gives absent. -/
theorem test_add : let w := withV (withV tWave 2 fun l => if l.val = 0 then 0x7FFFFFFF else 0x80000000) 3 fun _ => 1
    lanesAt (after w (.add false false 4 2 3 false 0)) 4 [0, 1] = [0x7FFFFFFF, 0x80000000] := by decide +kernel

/-- R200: TRAP goes to the handler of the wave's stream; the flag is set. -/
theorem test_trap : (match exec (.trap false 5) { W with codeObjs := [tHandled] } with
      | .next t => (t.wave tKey).any fun w => w.handling.isSome && (w.slot 0).any fun p => p.pc == 0x10018
      | _ => false) = true := by decide +kernel

/-- A step fetches and runs the word that is placed for it: its split goes past the word. -/
theorem test_step_placed : (match step (State.reset.withFetchWord 32 0x00080818) with
    | .next t => (t.wave tKey).bind fun w => (w.slot 0).map Split.pc
    | _ => none) = some (BitVec.ofNat 64 (placeBase + 8)) := by decide +kernel

end Sys2Proof.Tests
end

/-! ### Memory is what it reads as, and a number reads as its bytes (R3) -/

section
namespace Sys2Proof.Machine

theorem memAbove_cons_iff {lo a : Nat} {b : Byte} {m : List Host.Cell} :
    memAbove lo ((a, b) :: m) = true ↔ lo ≤ a ∧ b ≠ memDefault ∧ memAbove (a + 1) m = true := by
  simp [memAbove, and_assoc]

theorem memRead_cons (a x : Nat) (b : Byte) (m : List Host.Cell) : memRead ((a, b) :: m) x = if a = x then b else memRead m x := rfl

/-- The first cell of a canonical list holds no default, so a list that reads as the default below a bound lies above it. -/
theorem memAbove_of_read_below {lo hi : Nat} {m : List Host.Cell} (hm : memAbove lo m = true) (h : ∀ x < hi, memRead m x = memDefault) :
    memAbove hi m = true := by
  cases m with
  | nil => rfl
  | cons c m =>
    obtain ⟨-, hb, ht⟩ := memAbove_cons_iff.mp hm
    have hc : memRead (c :: m) c.1 = c.2 := if_pos rfl
    exact memAbove_cons_iff.mpr ⟨Nat.le_of_not_lt fun hlt => hb (hc ▸ h c.1 hlt), hb, ht⟩

/-- Of two canonical lists that read alike, neither begins above the other: where one begins, the other reads no default. -/
theorem memAbove_head_le {lo lo' a a' : Nat} {b b' : Byte} {m k : List Host.Cell} (hm : memAbove lo ((a, b) :: m) = true)
    (hk : memAbove lo' ((a', b') :: k) = true) (h : ∀ x, memRead ((a, b) :: m) x = memRead ((a', b') :: k) x) : a ≤ a' := by
  obtain ⟨-, hb, ht⟩ := memAbove_cons_iff.mp hm
  have hm' : memAbove a ((a, b) :: m) = true := memAbove_cons_iff.mpr ⟨Nat.le_refl a, hb, ht⟩
  exact (memAbove_cons_iff.mp (memAbove_of_read_below hk fun x hx => h x ▸ memRead_below hm' hx)).1

/-- Canonical lists that read alike are equal: their first cells agree, and their tails read alike. -/
theorem memAbove_ext {lo lo' : Nat} {m k : List Host.Cell} (hm : memAbove lo m = true) (hk : memAbove lo' k = true)
    (h : ∀ x, memRead m x = memRead k x) : m = k := by
  induction m generalizing lo lo' k with
  | nil =>
    cases k with
    | nil => rfl
    | cons d k => exact absurd (by simpa [memRead] using (h d.1).symm) (memAbove_cons_iff.mp hk).2.1
  | cons c m ih =>
    cases k with
    | nil => exact absurd (by simpa [memRead] using h c.1) (memAbove_cons_iff.mp hm).2.1
    | cons d k =>
      obtain ⟨a, b⟩ := c
      obtain ⟨a', b'⟩ := d
      have ha : a = a' := Nat.le_antisymm (memAbove_head_le hm hk h) (memAbove_head_le hk hm fun x => (h x).symm)
      subst ha
      obtain ⟨-, -, htm⟩ := memAbove_cons_iff.mp hm
      obtain ⟨-, -, htk⟩ := memAbove_cons_iff.mp hk
      have hb : b = b' := by simpa [memRead_cons] using h a
      have htail : m = k := ih htm htk fun x => by
        by_cases hx : a = x
        · rw [memRead_below htm (by omega), memRead_below htk (by omega)]
        · simpa [memRead_cons, hx] using h x
      rw [hb, htail]

/-- Memory in its canonical form is what it reads as. -/
theorem Memory.wf_ext {m k : List Host.Cell} (hm : Memory.wf m = true) (hk : Memory.wf k = true) (h : ∀ x, memRead m x = memRead k x) :
    m = k := memAbove_ext hm hk h

/-- Bytes that were written are read back in their order. -/
theorem memReads_memWrites_same {m : List Host.Cell} (h : Memory.wf m = true) (a : Nat) (bs : List Byte) :
    memReads (memWrites m a bs) a bs.length = bs := by
  induction bs generalizing m a with
  | nil => rfl
  | cons b bs ih =>
    have hw : Memory.wf (memWrite m a b) = true := Memory.wf_write h a b
    have hfirst : memRead (memWrites (memWrite m a b) (a + 1) bs) a = b := by
      rw [memRead_memWrites hw, if_neg (by omega), memRead_memWrite h, if_pos rfl]
    simp only [memWrites, List.length_cons, memReads, hfirst, ih hw]

theorem memReads_add (m : List Host.Cell) (a n k : Nat) : memReads m a (n + k) = memReads m a n ++ memReads m (a + n) k := by
  induction n generalizing a with
  | zero => simp [memReads]
  | succ n ih =>
    rw [Nat.add_right_comm, memReads, memReads, ih, List.cons_append, Nat.add_right_comm, Nat.add_assoc a n 1]

@[simp] theorem memReads_length (m : List Host.Cell) (a n : Nat) : (memReads m a n).length = n := by
  induction n generalizing a with
  | zero => rfl
  | succ n ih => simp [memReads, ih]

/-- One more byte is one more digit to base 256. -/
theorem two_pow_bytes_succ (n : Nat) : 2 ^ (8 * (n + 1)) = 256 * 2 ^ (8 * n) := by
  rw [show 8 * (n + 1) = 8 + 8 * n by omega, Nat.pow_add]

theorem ofBytes_append (bs cs : List Byte) : ofBytes (bs ++ cs) = ofBytes bs + 2 ^ (8 * bs.length) * ofBytes cs := by
  induction bs with
  | nil => simp [ofBytes]
  | cons b bs ih =>
    rw [List.cons_append, ofBytes, ofBytes, ih, List.length_cons, two_pow_bytes_succ, Nat.mul_add, Nat.mul_assoc, Nat.add_assoc]

theorem ofBytes_lt (bs : List Byte) : ofBytes bs < 2 ^ (8 * bs.length) := by
  induction bs with
  | nil => simp [ofBytes]
  | cons b bs ih =>
    have hb := b.isLt
    rw [ofBytes, List.length_cons, two_pow_bytes_succ]
    omega

theorem State.rdNat_lt (s : State) (pa n : Nat) : s.rdNat pa n < 2 ^ (8 * n) := by
  simpa [State.rdNat, State.rdBytes] using ofBytes_lt (s.rdBytes pa n)

/-- The bytes at higher addresses are the higher digits of the number. -/
theorem State.rdNat_add (s : State) (pa n k : Nat) : s.rdNat pa (n + k) = s.rdNat pa n + 2 ^ (8 * n) * s.rdNat (pa + n) k := by
  simp only [State.rdNat, State.rdBytes, memReads_add, ofBytes_append, memReads_length]

theorem State.rdNat_wrNat_same {s : State} (h : Memory.wf s.mem = true) (pa n v : Nat) : (s.wrNat pa n v).rdNat pa n = v % 2 ^ (8 * n) := by
  have hbytes := memReads_memWrites_same h pa (toBytes n v)
  rw [toBytes_length] at hbytes
  calc (s.wrNat pa n v).rdNat pa n = ofBytes (memReads (memWrites s.mem pa (toBytes n v)) pa n) := rfl
    _ = ofBytes (toBytes n v) := by rw [hbytes]
    _ = v % 2 ^ (8 * n) := ofBytes_toBytes n v

theorem State.rd_wrNat_inside {s : State} (h : Memory.wf s.mem = true) (pa n v : Nat) {i : Nat} (hi : i < n) :
    (s.wrNat pa n v).rd (pa + i) = BitVec.ofNat 8 (v / 2 ^ (8 * i)) := by
  rw [State.wrNat, State.wr_rd h, toBytes_length, if_pos (by omega), Nat.add_sub_cancel_left, toBytes_getD n v i hi]

theorem State.rd_wrNat_outside {s : State} (h : Memory.wf s.mem = true) (pa n v : Nat) {x : Nat} (hx : x < pa ∨ pa + n ≤ x) :
    (s.wrNat pa n v).rd x = s.rd x := by
  rw [State.wrNat, State.wr_rd h, toBytes_length, if_neg (by omega)]

/-! ### What reset leaves, field by field -/

@[simp] theorem State.reset_queue {q : Nat} (h : q < 64) : State.reset.queues[q] = HostQueue.reset := by simp [State.reset]

@[simp] theorem State.reset_machine {m : Nat} (h : m < 6) : State.reset.machines[m] = CtlMachine.reset := by simp [State.reset]

@[simp] theorem State.reset_route {c : Nat} (h : c < 256) : State.reset.regs.routes[c] = { valid := false, links := 0 } := by
  simp [State.reset, Regs.reset]

/-- A fresh status register has its mode field clear: frec stands above it (R100, R131, R174). -/
@[simp] theorem statusMode_freshStatus (frec : BitVec 49) : statusMode (freshStatus frec) = .rne := by
  have hf : fieldNat (freshStatus frec).toNat 6 2 = 0 := by
    simp only [fieldNat, freshStatus, BitVec.toNat_shiftLeft, BitVec.toNat_setWidth, BitVec.truncate_eq_setWidth, Nat.shiftLeft_eq]
    omega
  rw [statusMode, hf]
  rfl

end Sys2Proof.Machine

namespace Sys2Proof

open Sys2Proof.Machine

/-- Settles O54: memory reads after a write by `State.wr_rd`, numbers by their bytes, and equality of canonical lists by `Memory.wf_ext`. -/
theorem memoryReadsBack : Obligations.MemoryReadsBack := by
  unfold Obligations.MemoryReadsBack
  refine ⟨fun s pa n v h => ⟨?_, ?_, ?_, ?_⟩, fun s pa n k => ⟨?_, ?_⟩, fun s t hs ht h => Memory.wf_ext hs ht h⟩
  · exact State.rdNat_wrNat_same h pa n v
  · exact fun i hi => State.rd_wrNat_inside h pa n v hi
  · exact fun x hx => State.rd_wrNat_outside h pa n v hx
  · exact State.wrNat_wf h pa n v
  · exact State.rdNat_add s pa n k
  · exact State.rdNat_lt s pa n

/-- Settles O52, field by field; the queues, machines and routes by their reset values at every index. -/
theorem resetLeaves : Obligations.ResetLeaves := by
  unfold Obligations.ResetLeaves
  refine ⟨?start, ?power, ⟨rfl, rfl, ?routes⟩, ?errors, ?queues, ?counters, ?machines, ?tables, ?modes⟩
  case start => exact ⟨rfl, rfl, rfl, rfl, rfl, rfl⟩
  case power => exact ⟨rfl, rfl, rfl⟩
  case routes => exact fun c => by simp
  case errors => exact ⟨rfl, rfl, rfl, rfl⟩
  case queues => exact fun q => by simp [HostQueue.reset]
  case counters => exact ⟨rfl, rfl, rfl, rfl, rfl, rfl, rfl, rfl, rfl, rfl, rfl⟩
  case machines => exact fun m => by simp [CtlMachine.reset]
  case tables => exact ⟨rfl, rfl, rfl, rfl, rfl, rfl, rfl⟩
  case modes => exact fun pc frec => ⟨statusMode_freshStatus frec, statusMode_freshStatus frec⟩

end Sys2Proof
end
